-- ==== Sys2Proof/Word.lean ====
section
/-! DEFINITION. The word types of the block (rules R8, R53, R71): bytes, 16-bit registers, 32-bit command
words and composites, 7-bit bus addresses. -/
namespace Sys2Proof

/-- A data byte, a DMA buffer byte, a host memory byte. -/
abbrev Byte := BitVec 8

/-- A controller register (16 bits, R27, R53) and RESULT (R32). -/
abbrev Half := BitVec 16

/-- A command word (R70), a composite status (R24), ARG and RDATA registers (R32), a host address (R50). -/
abbrev Word := BitVec 32

/-- A 7-bit bus address or own address (R22, R71). -/
abbrev Addr7 := BitVec 7

end Sys2Proof
end

