-- ==== Sys2Proof/Syntax.lean ====
section
/-! DEFINITION. The 21 commands of the opcode map (R75), one constructor per row of spec/opcode_table.json. Operands
that live in ARG0 and ARG1 (R74) are not part of the word and so not part of the syntax: the meanings latch them. -/
namespace Sys2Proof

/-- A bus instance: 1 or 2 (R7 NUM_INST = 2, R22, R71: the I field has one bit). -/
inductive Inst where
  | one
  | two
deriving DecidableEq, Repr

/-- A direction operand (R71, R73): DIR = 0 Transmit, DIR = 1 Receive. -/
inductive Dir where
  | tx
  | rx
deriving DecidableEq, Repr

/-- One command (R75). Every operand type is exactly as wide as its field of the word (R71, R73). -/
inductive Instr where
  /-- STATUS.i (R90) -/
  | status (n : Inst)
  /-- ISEQ.i, flags in ARG0 (R91) -/
  | iseq (n : Inst)
  /-- ISEQM.i, flags in ARG0, mask in ARG1 (R92) -/
  | iseqm (n : Inst)
  /-- GSTART.i (R95) -/
  | gstart (n : Inst)
  /-- SADDR.i direction, address (R96) -/
  | saddr (n : Inst) (d : Dir) (a : Addr7)
  /-- TXBYTE.i data (R97) -/
  | txbyte (n : Inst) (b : Byte)
  /-- RXBYTE.i (R98) -/
  | rxbyte (n : Inst)
  /-- GSTOP.i (R99) -/
  | gstop (n : Inst)
  /-- WRITE.i address, data (R106) -/
  | write (n : Inst) (a : Addr7) (b : Byte)
  /-- READ.i address (R107) -/
  | read (n : Inst) (a : Addr7)
  /-- ATTACH.i direction (R113) -/
  | attach (n : Inst) (d : Dir)
  /-- MTX.i address, src in ARG0, len in ARG1 (R114) -/
  | mtx (n : Inst) (a : Addr7)
  /-- SRX.i address (R115) -/
  | srx (n : Inst) (a : Addr7)
  /-- TCQ.i direction (R116) -/
  | tcq (n : Inst) (d : Dir)
  /-- INIT.i (R126) -/
  | init (n : Inst)
  /-- RESET.i (R127) -/
  | reset (n : Inst)
  /-- ENABLE.i (R128) -/
  | enable (n : Inst)
  /-- DISABLE.i (R129) -/
  | disable (n : Inst)
  /-- PSTAT.i (R130) -/
  | pstat (n : Inst)
  /-- EVH.i (R135) -/
  | evh (n : Inst)
  /-- ERH.i (R136) -/
  | erh (n : Inst)
deriving DecidableEq, Repr

end Sys2Proof
end

