-- ==== Sys2Proof/Config.lean ====
section
/-! DEFINITION. The parameters a model takes (R7), as one record of plain data, with the defaults the spec uses in its
worked vectors; and the free values (R32, U13). The record stands in State as a field no step changes (log 1), so a
statement about every state is a statement about every choice of the parameters. -/
namespace Sys2Proof

/-- FLAGPOS (R7, R28 to R31): a bit position per named flag. `sb` to `txe` are SR_P's, `msl` to `tra` are SR_S's,
`pe` to `swrst` are CTL's, `dmaen` is CTL2's. -/
structure FlagPos where
  sb : Fin 16
  addrm : Fin 16
  btf : Fin 16
  latch : Fin 16
  rxne : Fin 16
  txe : Fin 16
  msl : Fin 16
  busy : Fin 16
  tra : Fin 16
  pe : Fin 16
  start : Fin 16
  stop : Fin 16
  swrst : Fin 16
  dmaen : Fin 16
deriving DecidableEq, Repr

/-- REGMAP (R7, R52): a base address per instance and an offset per register. No rule depends on a number here. -/
structure RegMap where
  base1 : Word
  base2 : Word
  ctl : Word
  ctl2 : Word
  oar : Word
  dr : Word
  srP : Word
  srS : Word
  ccr : Word
  trise : Word
deriving DecidableEq, Repr

/-- `clock_config` (R131): the default formula, or the three values a different function gives for the fixed
(PCLK_HZ, TARGET_HZ). "its result depends on (PCLK_HZ, TARGET_HZ) alone", so a function of them is this one triple
(log 2). -/
inductive ClockConfig where
  | formula
  | values (freqRange : BitVec 6) (riseTime : BitVec 6) (ccr : BitVec 12)
deriving DecidableEq, Repr

/-- RESET_WAIT (R7, R127, D21, C1): the predicate on the two status fields that the reset spin waits on, as a formula over
masked compares, so that it is plain data. Every predicate of the two fields is one (`resetWait_complete`, log 2). -/
inductive ResetWait where
  /-- `(SR_P & mask) == value` -/
  | primary (mask value : Half)
  /-- `(SR_S & mask) == value` -/
  | secondary (mask value : Half)
  | both (a b : ResetWait)
  | negate (a : ResetWait)
deriving DecidableEq, Repr

/-- R127, D21: the default, the literal reading: wait while both fields read non-zero. -/
def ResetWait.whileBothNonZero : ResetWait :=
  .both (.negate (.primary 0xFFFF 0)) (.negate (.secondary 0xFFFF 0))

/-- R127, D21: the other reading the spec names: wait until both read zero. -/
def ResetWait.untilBothZero : ResetWait :=
  .negate (.both (.primary 0xFFFF 0) (.secondary 0xFFFF 0))

/-- Every parameter of R7. -/
structure Config where
  numInst : Nat
  ownAddr1 : Addr7
  ownAddr2 : Addr7
  dmaCap : Nat
  nStartBusy : Nat
  dStartBusy : Nat
  nStartWait : Nat
  dStartWait : Nat
  nSpin : Nat
  nRx : Nat
  dRx : Nat
  nWrBusy : Nat
  nRdOuter : Nat
  nRdInner : Nat
  nSrxAddr : Nat
  dSrxAddr : Nat
  nSrxTxe : Nat
  nPstat : Nat
  dPstat : Nat
  flags : FlagPos
  errMask : Half
  seqClear : Half
  regMap : RegMap
  pclkHz : Nat
  targetHz : Nat
  clock : ClockConfig
  resetWait : ResetWait
  irqEv1 : Nat
  irqEr1 : Nat
  irqEv2 : Nat
  irqEr2 : Nat
deriving DecidableEq, Repr

/-- The default FLAGPOS (R28, R29, R30, R31). -/
def FlagPos.default : FlagPos where
  sb := 0
  addrm := 1
  btf := 2
  latch := 4
  rxne := 6
  txe := 7
  msl := 0
  busy := 1
  tra := 2
  pe := 0
  start := 8
  stop := 9
  swrst := 15
  dmaen := 11

/-- The default REGMAP (R52). -/
def RegMap.default : RegMap where
  base1 := 0x40005400
  base2 := 0x40005800
  ctl := 0x00
  ctl2 := 0x04
  oar := 0x08
  dr := 0x10
  srP := 0x14
  srS := 0x18
  ccr := 0x1C
  trise := 0x20

/-- The defaults of R7. For the OPEN ones (OWN_ADDR, DMA_CAP, PCLK_HZ, TARGET_HZ) the values of the spec's vectors
(log 1). -/
def Config.default : Config where
  numInst := 2
  ownAddr1 := 0x10
  ownAddr2 := 0x11
  dmaCap := 16
  nStartBusy := 3
  dStartBusy := 1
  nStartWait := 3
  dStartWait := 1
  nSpin := 32000
  nRx := 100
  dRx := 1
  nWrBusy := 100
  nRdOuter := 3
  nRdInner := 30
  nSrxAddr := 100
  dSrxAddr := 1
  nSrxTxe := 100
  nPstat := 10
  dPstat := 1
  flags := FlagPos.default
  errMask := 0x0F00
  seqClear := 0x0002
  regMap := RegMap.default
  pclkHz := 36000000
  targetHz := 100000
  clock := .formula
  resetWait := .whileBothNonZero
  irqEv1 := 31
  irqEr1 := 32
  irqEv2 := 33
  irqEr2 := 34

/-- FREE VALUE (R32, U13, log 10): what a result register that the command's rule does not write holds after the
command. Applied to State's counter `freeCtr`; nothing constrains it. -/
opaque Config.freeWord : Nat → Word

end Sys2Proof
end

