-- ==== Sys2Proof/WellFormed.lean ====
section
/-! DEFINITION. What is well formed: a command word (R72, R79: some row of the opcode map selects it), an instruction
(always, by the widths of its operand types), and a set of parameters (R7, R30, R131, U21: what the spec requires of
them). -/
namespace Sys2Proof

/-- The encoding formats of R72, one per free-field set (X is N and AX is A with operands in ARG0 and ARG1). -/
inductive Format where
  | n
  | a
  | ad
  | b
  | ab
  | d
deriving DecidableEq, Repr

/-- R72: the bits a decoder compares. -/
def Format.mask : Format → Word
  | .n => 0xFF7FFFFF
  | .a => 0xFF00FFFF
  | .ad => 0xFF00FEFF
  | .b => 0xFF7FFF00
  | .ab => 0xFF00FF00
  | .d => 0xFF7FFEFF

/-- One row of the opcode map (R75). -/
structure Row where
  op : Byte
  format : Format
deriving DecidableEq, Repr

/-- R75, the Status Decoder and Bus Primitive rows. -/
def rowsStatusAndPrimitives : List Row :=
  [⟨0x01, .n⟩, ⟨0x02, .n⟩, ⟨0x03, .n⟩, ⟨0x10, .n⟩, ⟨0x11, .ad⟩, ⟨0x12, .b⟩, ⟨0x13, .n⟩, ⟨0x14, .n⟩]

/-- R75, the Transaction Engine and DMA Bulk Path rows. -/
def rowsTransactionAndDma : List Row :=
  [⟨0x20, .ab⟩, ⟨0x21, .a⟩, ⟨0x30, .d⟩, ⟨0x31, .a⟩, ⟨0x32, .a⟩, ⟨0x33, .d⟩]

/-- R75, the Controller Lifecycle and Interrupt Hook rows. -/
def rowsLifecycleAndHooks : List Row :=
  [⟨0x40, .n⟩, ⟨0x41, .n⟩, ⟨0x42, .n⟩, ⟨0x43, .n⟩, ⟨0x44, .n⟩, ⟨0x50, .n⟩, ⟨0x51, .n⟩]

/-- R75: the whole opcode map. -/
def opcodeRows : List Row :=
  rowsStatusAndPrimitives ++ rowsTransactionAndDma ++ rowsLifecycleAndHooks

/-- R72: `match` is `OP << 24`, and a word selects a row when `(word & mask) == match`. -/
def Row.selects (r : Row) (w : Word) : Bool :=
  w &&& r.format.mask == r.op ++ (0 : BitVec 24)

/-- R79: a word that selects no row is illegal. -/
def wordLegal (w : Word) : Bool :=
  opcodeRows.any (·.selects w)

/-- Every instruction is well formed: each operand type is exactly its field (R71, R73: "every value legal"). The
checks of an encoding are those of the word (`wordLegal`). -/
def Instr.wellFormed : Instr → Bool := fun _ => true

/-- R30: the named primary flags are distinct bits, and LATCH and ADDRM are not in ERR_MASK, which is not empty. -/
def Config.primaryFlagsOk (c : Config) : Bool :=
  [c.flags.sb, c.flags.addrm, c.flags.btf, c.flags.latch, c.flags.rxne, c.flags.txe].Nodup &&
    !c.errMask.getLsbD c.flags.latch && !c.errMask.getLsbD c.flags.addrm && c.errMask != 0

/-- R7 FLAGPOS: "an injective map per field"; the secondary field. -/
def Config.secondaryFlagsOk (c : Config) : Bool :=
  [c.flags.msl, c.flags.busy, c.flags.tra].Nodup

/-- R7 FLAGPOS: "an injective map per field"; the control bits of CTL, and DMAEN outside FREQ (bits 5:0 of CTL2, R29). The
spec sets no bound on DMAEN's position: DEDUCED from R127, "CTL2 (whole register, so DMAEN becomes 0)" (log 29). -/
def Config.controlBitsOk (c : Config) : Bool :=
  [c.flags.pe, c.flags.start, c.flags.stop, c.flags.swrst].Nodup && decide (6 ≤ c.flags.dmaen.val)

/-- R22: "There are NUM_INST of them, numbered 1 and 2"; the I field has one bit (R71, log 18). -/
def Config.instancesOk (c : Config) : Bool :=
  c.numInst == 2

/-- R7, D26: the two own addresses "must differ". -/
def Config.ownAddressesOk (c : Config) : Bool :=
  c.ownAddr1 != c.ownAddr2

/-- R7: DMA_CAP is "at least 1". The spec sets no upper bound: DEDUCED, RDATA1 (32 bits) holds it (R85, log 36). -/
def Config.dmaCapOk (c : Config) : Bool :=
  decide (1 ≤ c.dmaCap) && decide (c.dmaCap < 2 ^ 32)

/-- R131: the ranges of the default formula, "for a target of at most 100000 Hz": freq_range in 2 .. 36, ccr in 4 .. 4095. -/
def Config.formulaOk (c : Config) : Bool :=
  decide (c.targetHz ≤ 100000) && decide (2 ≤ c.pclkHz / 1000000) && decide (c.pclkHz / 1000000 ≤ 36) &&
    decide (4 ≤ c.pclkHz / (2 * c.targetHz)) && decide (c.pclkHz / (2 * c.targetHz) ≤ 4095)

/-- R84(h), R131, U21: TARGET_HZ > 0, and the ranges of the default formula where it is used; the values of another function
fit their fields by their types. A configuration outside is refused. -/
def Config.clockOk (c : Config) : Bool :=
  decide (0 < c.targetHz) &&
    match c.clock with
    | .values _ _ _ => true
    | .formula => c.formulaOk

/-- R147: "Each instance has two interrupt lines, event and error". That the four numbers differ the spec does not say: DEDUCED
from there being four lines, each with its own hook (log 35). -/
def Config.irqLinesOk (c : Config) : Bool :=
  [c.irqEv1, c.irqEr1, c.irqEv2, c.irqEr2].Nodup

/-- The sixteen register addresses of a REGMAP (R52). -/
def RegMap.addresses (m : RegMap) : List Word :=
  let offsets := [m.ctl, m.ctl2, m.oar, m.dr, m.srP, m.srS, m.ccr, m.trise]
  offsets.map (m.base1 + ·) ++ offsets.map (m.base2 + ·)

/-- R51, R52: an instance reaches only its own registers, so no two registers share an address. -/
def Config.regMapOk (c : Config) : Bool :=
  c.regMap.addresses.Nodup

/-- The parameters are ones the spec allows. -/
def Config.wellFormed (c : Config) : Bool :=
  c.primaryFlagsOk && c.secondaryFlagsOk && c.controlBitsOk && c.instancesOk && c.ownAddressesOk && c.dmaCapOk &&
    c.clockOk && c.irqLinesOk && c.regMapOk

end Sys2Proof
end

