-- ==== Sys2Proof/Decode.lean ====
section
/-! DEFINITION. The decoder (R70 to R75, R79), total on every 32-bit word and rejecting by name; after it the encoder,
from the same tables (R71, R75, R82). -/
namespace Sys2Proof

/-- Why a word is ILLEGAL (R79): its OP value is not listed, or a field its format does not free is not zero. -/
inductive Illegal where
  | reservedOp (op : Byte)
  | fieldNotZero (op : Byte)
deriving DecidableEq, Repr

/-- The six fields of a command word, high to low (R71). -/
structure Fields where
  op : BitVec 8
  inst : BitVec 1
  a7 : BitVec 7
  z : BitVec 7
  dir : BitVec 1
  d8 : BitVec 8
deriving DecidableEq, Repr

/-- R71: OP 31:24, I 23, A7 22:16, Z 15:9, DIR 8, D8 7:0. -/
def splitWord (w : Word) : Fields where
  op := w.extractLsb' 24 8
  inst := w.extractLsb' 23 1
  a7 := w.extractLsb' 16 7
  z := w.extractLsb' 9 7
  dir := w.extractLsb' 8 1
  d8 := w.extractLsb' 0 8

/-- R71 read the other way: the word that holds these fields. -/
def joinWord (f : Fields) : Word :=
  f.op ++ f.inst ++ f.a7 ++ f.z ++ f.dir ++ f.d8

/-- R71, R73: `i <- word[23] + 1`. -/
def instOfBit (b : BitVec 1) : Inst :=
  if b = 0 then .one else .two

/-- R73: `direction <- Transmit if word[8] == 0 else Receive`. -/
def dirOfBit (b : BitVec 1) : Dir :=
  if b = 0 then .tx else .rx

/-- R71: I is 0 for instance 1 and 1 for instance 2. -/
def bitOfInst : Inst → BitVec 1
  | .one => 0
  | .two => 1

/-- R71: DIR is 0 for Transmit and 1 for Receive. -/
def bitOfDir : Dir → BitVec 1
  | .tx => 0
  | .rx => 1

/-- R71, R72, R79: "A field a format does not use must be zero". -/
def fieldsFit (fmt : Format) (f : Fields) : Bool :=
  match fmt with
  | .n => f.a7 == 0 && f.z == 0 && f.dir == 0 && f.d8 == 0
  | .a => f.z == 0 && f.dir == 0 && f.d8 == 0
  | .ad => f.z == 0 && f.d8 == 0
  | .b => f.a7 == 0 && f.z == 0 && f.dir == 0
  | .ab => f.z == 0 && f.dir == 0
  | .d => f.a7 == 0 && f.z == 0 && f.d8 == 0

/-- One row of the decoder: the instruction where the unused fields are zero, else ILLEGAL (R79). -/
def decodeRow (fmt : Format) (f : Fields) (i : Instr) : Except Illegal Instr :=
  if fieldsFit fmt f then .ok i else .error (.fieldNotZero f.op)

/-- R73, R75: the instruction of a word's fields. -/
def decodeFields (f : Fields) : Except Illegal Instr :=
  let n := instOfBit f.inst
  let d := dirOfBit f.dir
  match f.op.toNat with
  | 0x01 => decodeRow .n f (.status n)
  | 0x02 => decodeRow .n f (.iseq n)
  | 0x03 => decodeRow .n f (.iseqm n)
  | 0x10 => decodeRow .n f (.gstart n)
  | 0x11 => decodeRow .ad f (.saddr n d f.a7)
  | 0x12 => decodeRow .b f (.txbyte n f.d8)
  | 0x13 => decodeRow .n f (.rxbyte n)
  | 0x14 => decodeRow .n f (.gstop n)
  | 0x20 => decodeRow .ab f (.write n f.a7 f.d8)
  | 0x21 => decodeRow .a f (.read n f.a7)
  | 0x30 => decodeRow .d f (.attach n d)
  | 0x31 => decodeRow .a f (.mtx n f.a7)
  | 0x32 => decodeRow .a f (.srx n f.a7)
  | 0x33 => decodeRow .d f (.tcq n d)
  | 0x40 => decodeRow .n f (.init n)
  | 0x41 => decodeRow .n f (.reset n)
  | 0x42 => decodeRow .n f (.enable n)
  | 0x43 => decodeRow .n f (.disable n)
  | 0x44 => decodeRow .n f (.pstat n)
  | 0x50 => decodeRow .n f (.evh n)
  | 0x51 => decodeRow .n f (.erh n)
  | _ => .error (.reservedOp f.op)

/-- The decoder: every 32-bit word is an instruction or is rejected by name (R79). -/
def decode (w : Word) : Except Illegal Instr :=
  decodeFields (splitWord w)

/-- The instruction the decoder reads from a table row's word, bits numbered as the table numbers them (one 32-bit
word). -/
def decodeTableWord (nbits w : Nat) : Option Instr :=
  if nbits = 32 ∧ w < 2 ^ 32 then (decode (BitVec.ofNat 32 w)).toOption else none

/-- Format N (R72): only I is free. -/
def fieldsN (op : Byte) (n : Inst) : Fields := ⟨op, bitOfInst n, 0, 0, 0, 0⟩

/-- Format A (R72): I and A7 are free. -/
def fieldsA (op : Byte) (n : Inst) (a : Addr7) : Fields := ⟨op, bitOfInst n, a, 0, 0, 0⟩

/-- Format AD (R72): I, A7 and DIR are free. -/
def fieldsAD (op : Byte) (n : Inst) (d : Dir) (a : Addr7) : Fields := ⟨op, bitOfInst n, a, 0, bitOfDir d, 0⟩

/-- Format B (R72): I and D8 are free. -/
def fieldsB (op : Byte) (n : Inst) (b : Byte) : Fields := ⟨op, bitOfInst n, 0, 0, 0, b⟩

/-- Format AB (R72): I, A7 and D8 are free. -/
def fieldsAB (op : Byte) (n : Inst) (a : Addr7) (b : Byte) : Fields := ⟨op, bitOfInst n, a, 0, 0, b⟩

/-- Format D (R72): I and DIR are free. -/
def fieldsD (op : Byte) (n : Inst) (d : Dir) : Fields := ⟨op, bitOfInst n, 0, 0, bitOfDir d, 0⟩

/-- The fields of an instruction's word (R75, R82). -/
def encodeFields : Instr → Fields
  | .status n => fieldsN 0x01 n
  | .iseq n => fieldsN 0x02 n
  | .iseqm n => fieldsN 0x03 n
  | .gstart n => fieldsN 0x10 n
  | .saddr n d a => fieldsAD 0x11 n d a
  | .txbyte n b => fieldsB 0x12 n b
  | .rxbyte n => fieldsN 0x13 n
  | .gstop n => fieldsN 0x14 n
  | .write n a b => fieldsAB 0x20 n a b
  | .read n a => fieldsA 0x21 n a
  | .attach n d => fieldsD 0x30 n d
  | .mtx n a => fieldsA 0x31 n a
  | .srx n a => fieldsA 0x32 n a
  | .tcq n d => fieldsD 0x33 n d
  | .init n => fieldsN 0x40 n
  | .reset n => fieldsN 0x41 n
  | .enable n => fieldsN 0x42 n
  | .disable n => fieldsN 0x43 n
  | .pstat n => fieldsN 0x44 n
  | .evh n => fieldsN 0x50 n
  | .erh n => fieldsN 0x51 n

/-- The encoder (R82): the one command word of an instruction. -/
def encode (i : Instr) : Word :=
  joinWord (encodeFields i)

end Sys2Proof
end

