-- ==== Sys2Proof/Machine/State.lean ====
section
/-! DEFINITION. The state of the block (R20 to R36, R50, R52, R147 to R155), as plain data, the reasons a step can stop,
and the state after power-on (R36, R165). Fields that are the MODEL's own and not the spec's say so. -/
namespace Sys2Proof.Machine

/-- The eight controller registers (R27). -/
inductive Reg where
  | ctl
  | ctl2
  | oar
  | dr
  | srP
  | srS
  | ccr
  | trise
deriving DecidableEq, Repr

/-- The seven error kinds, in the source's order (R140). -/
inductive ErrKind where
  | busBusyTimeout
  | startConditionFailed
  | addressPhaseFailed
  | transmitByteFailed
  | receiveByteFailed
  | busError
  | dmaTransferTimeout
deriving DecidableEq, Repr

/-- The four refusals (R140, R141): the command ends before it does anything. -/
inductive RefuseCode where
  | locked
  | noChannel
  | illegal
  | notBound
deriving DecidableEq, Repr

/-- The transaction states (R34, R105). The 3-bit code of each is `Phase.code` (Flags.lean). -/
inductive Phase where
  | idle
  | busyCheck
  | start
  | address
  | dataPhase
  | stop
deriving DecidableEq, Repr

/-- The kind of a diagnostic record (R155). -/
inductive DiagKind where
  | err (k : ErrKind)
  | info
  | warn
  | eventIrq
  | errorIrq
deriving DecidableEq, Repr

/-- A diagnostic record (R155): kind, 32-bit status, a possibly empty list of register values. -/
structure Record where
  kind : DiagKind
  status : Word
  regs : List Half
deriving DecidableEq, Repr

/-- A DMA channel's key (R26): `ch(i, TX)` or `ch(i, RX)`. -/
structure ChanId where
  inst : Inst
  dir : Dir
deriving DecidableEq, Repr

/-- A DMA channel's state (R26, R118). -/
structure Chan where
  /-- `c.buf[0 .. DMA_CAP-1]`; its length is DMA_CAP. -/
  buf : List Byte
  /-- `c.en` -/
  en : Bool
  /-- `c.tc` -/
  tc : Bool
  /-- `c.count` -/
  count : Nat
  /-- `c.idx` -/
  idx : Nat
deriving DecidableEq, Repr

/-- One instance's controller register block (R27 to R31) and its hidden bit `p_read` (R35, R55). DR has two sides
(R56, log 15): `drRx` is the environment's current byte, which a read returns; `drTx` is the last value handed to the
controller by a write. -/
structure Ctrl where
  ctl : Half
  ctl2 : Half
  oar : Half
  drRx : Byte
  drTx : Half
  srP : Half
  srS : Half
  ccr : Half
  trise : Half
  pRead : Bool
deriving DecidableEq, Repr

/-- One BusInstance (R22) with its phase register (R34), its controller, its two channels and its two interrupt
request lines (R35, R148). -/
structure Bus where
  bound : Bool
  ownAddress : Addr7
  lock : Bool
  lastRx : Byte
  dmaTx : Option ChanId
  dmaRx : Option ChanId
  phase : Phase
  ctrl : Ctrl
  chTx : Chan
  chRx : Chan
  evPend : Bool
  erPend : Bool
deriving DecidableEq, Repr

/-- The two command ports, which are the two contexts and the two register banks (R6, R32, R153). -/
inductive Port where
  | fg
  | irq
deriving DecidableEq, Repr

/-- One bank of operand and result registers (R32) and the poll counter of that port's sequencer (R35, R11). -/
structure Bank where
  arg0 : Word
  arg1 : Word
  result : Half
  rdata0 : Word
  rdata1 : Word
  pollN : Nat
deriving DecidableEq, Repr

/-- The event line or the error line (R147). -/
inductive LineKind where
  | event
  | error
deriving DecidableEq, Repr

/-- One of the two interrupt lines of an instance (R147). -/
structure Line where
  kind : LineKind
  inst : Inst
deriving DecidableEq, Repr

/-- A command issued on the interrupt port (R6, R32, R153): values for the bank's ARG registers where the issuer writes them,
then the word. -/
structure IrqCmd where
  arg0 : Option Word
  arg1 : Option Word
  word : Word
deriving DecidableEq, Repr

/-- One move of an agent other than the sequencer that is running (R20, R57, R60, R61, R149, R152). -/
inductive Move where
  /-- The environment sets SR_P (R60(a)). -/
  | envSrP (n : Inst) (v : Half)
  /-- The environment sets SR_S (R60(a)). -/
  | envSrS (n : Inst) (v : Half)
  /-- The environment sets the byte DR answers (R56, R60(a)). -/
  | envDr (n : Inst) (b : Byte)
  /-- The environment clears CTL.START (R28, R60(a)). -/
  | envClrStart (n : Inst)
  /-- The environment clears CTL.STOP (R28, R60(a)). -/
  | envClrStop (n : Inst)
  /-- The environment raises or lowers the event line (R60(a), R148). -/
  | envEv (n : Inst) (up : Bool)
  /-- The environment raises or lowers the error line (R60(a), R148). -/
  | envEr (n : Inst) (up : Bool)
  /-- The channel's engine takes a step, if one is enabled (R119, R120). -/
  | engine (c : ChanId)
  /-- The timing collaborator advances the tick counter (R152). -/
  | tick (by_ : Nat)
  /-- The host stores a byte in its memory (R50, R65). -/
  | hostStore (a : Word) (b : Byte)
  /-- The host writes the foreground bank's ARG0 (R32, R65). -/
  | hostArg0 (v : Word)
  /-- The host writes the foreground bank's ARG1 (R32, R65). -/
  | hostArg1 (v : Word)
  /-- The host presents a command on the foreground port (R6, R12). -/
  | hostIssue (w : Word)
  /-- The line fires, if it can: its hook command runs on the interrupt port (R147 to R151). -/
  | fire (l : Line)
  /-- A command is issued on the interrupt port (R6, R20, R153): by an interrupt handler, before or after its hook, or by any
  other issuer there. -/
  | issueIrq (c : IrqCmd)
  /-- The environment keeps the event line raised for ever, so EVH runs back to back and the suspended command never
  steps again (R148, R174). -/
  | starve (n : Inst)
deriving DecidableEq, Repr

/-- A command that never ends (R157, R174): `spin` in the status loop of RESET's sequence, `starved` by an event line
that the environment never lowers. -/
inductive Stuck where
  | spin (n : Inst)
  | starved (n : Inst)
deriving DecidableEq, Repr

/-- One item that crossed a port of the block (R6, R9, and the trace items of 95_test_vectors.md section 0). -/
inductive Access where
  | regRead (n : Inst) (r : Reg) (v : Half)
  | regWrite (n : Inst) (r : Reg) (v : Half)
  | regSet (n : Inst) (r : Reg) (m : Half)
  | regClr (n : Inst) (r : Reg) (m : Half)
  | memRead (a : Word) (b : Byte)
  | bufWrite (c : ChanId) (k : Nat) (b : Byte)
  | chEnable (c : ChanId) (n : Nat)
  | chEnabled (c : ChanId) (v : Bool)
  | chTc (c : ChanId) (v : Bool)
  | delay (ms : Nat)
  | irqEnable (l : Nat)
  | engineTx (c : ChanId) (b : Byte)
  | engineRx (c : ChanId) (b : Byte)
deriving DecidableEq, Repr

/-- Host memory (R50): the listed bytes by address, addresses strictly rising. An unlisted address holds no byte (R62,
log 11). -/
abbrev Memory := List Host.Cell

/-- The state of the block. -/
structure State where
  /-- MODEL's own place for the parameters of R7 (log 1); no step changes it. -/
  cfg : Config
  bus1 : Bus
  bus2 : Bus
  /-- The foreground bank (R32). -/
  fg : Bank
  /-- The interrupt bank (R32). -/
  irq : Bank
  /-- The context whose sequencer is executing, or executed last (R20, R153). -/
  port : Port
  /-- The command word presented on the foreground port and not yet accepted (R6, R12). -/
  fgCmd : Option Word
  /-- `irq_en` (R35, R147): the numbers of the lines enabled at the interrupt controller, strictly rising. -/
  irqEn : List Nat
  /-- The lines whose hooks are running, innermost first (R151). -/
  active : List Line
  /-- `tick` (R35, R152). -/
  tick : Nat
  /-- `sink` (R35, R155), oldest record first. -/
  sink : List Record
  /-- Host memory (R50). -/
  mem : Memory
  /-- A command that never ends (R157, R174). -/
  stuck : Option Stuck
  /-- MODEL's own (log 5): what every other agent does from here on, one batch of moves before each primitive. Past its
  end no other agent moves. -/
  sched : List (List Move)
  /-- MODEL's own (log 16): what crossed the block's ports, oldest first. -/
  trace : List Access
  /-- MODEL's own (log 10): how many free values have been used. -/
  freeCtr : Nat
deriving DecidableEq, Repr

/-- Why the machine stops. -/
inductive Fault where
  /-- Raised by MTX (R62, U15) when a source byte is at an address host memory does not hold: "the command is then
  stuck". Safe: the model stops where a machine with memory there goes on (log 11). -/
  | hostByteAbsent (a : Word)
deriving DecidableEq, Repr

/-- Why an instruction has no meaning. -/
inductive Refusal where
  /-- Raised only by an arm of `exec` that has no meaning yet; no arm raises it now. Safe. -/
  | notModelled (mnemonic : String)
deriving DecidableEq, Repr

/-- A channel after power-on (R36): `en`, `tc`, `idx`, `count` are 0. `buf` is unspecified there: DESIGN CHOICE zeros
(log 3). -/
def Chan.reset (cap : Nat) : Chan where
  buf := List.replicate cap 0
  en := false
  tc := false
  count := 0
  idx := 0

/-- A controller after power-on (R36): `p_read` is 0. Every other value is unspecified or the environment's there:
DESIGN CHOICE zero (logs 3, 4). -/
def Ctrl.reset : Ctrl where
  ctl := 0
  ctl2 := 0
  oar := 0
  drRx := 0
  drTx := 0
  srP := 0
  srS := 0
  ccr := 0
  trise := 0
  pRead := false

/-- A BusInstance after power-on (R36): not bound, no channel attached, phase Idle, no line raised. `own_address`,
`lock` and `last_rx` are unspecified there: DESIGN CHOICE zero (log 3). -/
def Bus.reset (cap : Nat) : Bus where
  bound := false
  ownAddress := 0
  lock := false
  lastRx := 0
  dmaTx := none
  dmaRx := none
  phase := .idle
  ctrl := Ctrl.reset
  chTx := Chan.reset cap
  chRx := Chan.reset cap
  evPend := false
  erPend := false

/-- A bank after power-on: unspecified (R36); DESIGN CHOICE zero (log 3). -/
def Bank.reset : Bank where
  arg0 := 0
  arg1 := 0
  result := 0
  rdata0 := 0
  rdata1 := 0
  pollN := 0

/-- The state after power-on of a block with the parameters `cfg` (R7, R36, R165): no instance bound, no channel attached or
enabled, no line enabled, both ports idle, the sink empty. "the block does nothing until a command is issued". DESIGN CHOICE:
host memory, for which the spec gives no contents, holds no byte (log 33); the unspecified elements are zero (logs 3, 4). -/
def State.powerOn (cfg : Config) : State where
  cfg := cfg
  bus1 := Bus.reset cfg.dmaCap
  bus2 := Bus.reset cfg.dmaCap
  fg := Bank.reset
  irq := Bank.reset
  port := .fg
  fgCmd := none
  irqEn := []
  active := []
  tick := 0
  sink := []
  mem := []
  stuck := none
  sched := []
  trace := []
  freeCtr := 0

/-- The state after power-on with the default parameters (log 1). -/
def State.reset : State :=
  State.powerOn Config.default

end Sys2Proof.Machine
end

