-- ==== Sys2Proof/Machine/Flags.lean ====
section
/-! DEFINITION. Every flag computation: flag masks and control bits (R28 to R31), the composite status and the gate of a
decode (R54, R77, R90), pattern match (R10), the expected patterns (R78), the fields of RESULT (R33), and the numeric
codes of kinds, refusals and phases (R34, R140). -/
namespace Sys2Proof.Machine

/-- R8: a flag name used as a value is the mask with that one bit set. -/
def bitMask (pos : Fin 16) : Half :=
  BitVec.twoPow 16 pos

/-- CTL.PE (R28). -/
def peMask (c : Config) : Half := bitMask c.flags.pe

/-- CTL.START (R28). -/
def startMask (c : Config) : Half := bitMask c.flags.start

/-- CTL.STOP (R28). -/
def stopMask (c : Config) : Half := bitMask c.flags.stop

/-- CTL.SWRST (R28). -/
def swrstMask (c : Config) : Half := bitMask c.flags.swrst

/-- CTL2.DMAEN (R29). -/
def dmaenMask (c : Config) : Half := bitMask c.flags.dmaen

/-- R54(a), R77: the full composite `s ++ p`, SR_S in the high half. -/
def composite (s p : Half) : Word :=
  s ++ p

/-- R77, R90: the suppressed form, high half zero. -/
def suppressed (p : Half) : Word :=
  (0 : Half) ++ p

/-- R90: the secondary field is read when LATCH is clear or ADDRM is set in the primary. -/
def gateOpen (c : Config) (p : Half) : Bool :=
  !p.getLsbD c.flags.latch || p.getLsbD c.flags.addrm

/-- R10: `match(s, pat)` is `(s & pat) == pat`. -/
def matchPat (s pat : Word) : Bool :=
  s &&& pat == pat

/-- R78: a pattern from its high-half and low-half flag masks, `H(h) or L(l)`. -/
def pattern (h l : Half) : Word :=
  h ++ l

/-- R78 P_BUSY: H(BUSY). -/
def pBusy (c : Config) : Word :=
  pattern (bitMask c.flags.busy) 0

/-- R78 P_START: H(BUSY or MSL) or L(SB). -/
def pStart (c : Config) : Word :=
  pattern (bitMask c.flags.busy ||| bitMask c.flags.msl) (bitMask c.flags.sb)

/-- R78 P_ADDR_TX: H(TRA or BUSY or MSL) or L(TXE). -/
def pAddrTx (c : Config) : Word :=
  pattern (bitMask c.flags.tra ||| bitMask c.flags.busy ||| bitMask c.flags.msl) (bitMask c.flags.txe)

/-- R78 P_BYTE_TX: H(TRA or BUSY or MSL) or L(TXE or BTF). -/
def pByteTx (c : Config) : Word :=
  pattern (bitMask c.flags.tra ||| bitMask c.flags.busy ||| bitMask c.flags.msl)
    (bitMask c.flags.txe ||| bitMask c.flags.btf)

/-- R78 P_BYTE_RX: H(BUSY or MSL) or L(RXNE). -/
def pByteRx (c : Config) : Word :=
  pattern (bitMask c.flags.busy ||| bitMask c.flags.msl) (bitMask c.flags.rxne)

/-- R78 P_MASTER: H(BUSY or MSL). -/
def pMaster (c : Config) : Word :=
  pattern (bitMask c.flags.busy ||| bitMask c.flags.msl) 0

/-- R78 P_ERR: L(ERR_MASK). -/
def pErr (c : Config) : Word :=
  pattern 0 c.errMask

/-- R78 P_SRX_ADDR: L(ADDRM). -/
def pSrxAddr (c : Config) : Word :=
  pattern 0 (bitMask c.flags.addrm)

/-- R78 P_SRX_TXE: L(TXE). -/
def pSrxTxe (c : Config) : Word :=
  pattern 0 (bitMask c.flags.txe)

/-- The bus is decoded busy: `match(s, P_BUSY)`. -/
def isBusy (c : Config) (s : Word) : Bool :=
  matchPat s (pBusy c)

/-- R78: P_ERR is tested with "any bit set", never with `match`. -/
def errSeen (c : Config) (s : Word) : Bool :=
  s &&& pErr c != 0

/-- R91: ISEQ's predicate. -/
def isEqual (v flags : Word) : Bool :=
  v &&& flags == flags

/-- R92: ISEQM's predicate. -/
def isEqualMasked (v flags mask : Word) : Bool :=
  v &&& mask == flags

/-- R140: the CODE of an error kind. -/
def errCode : ErrKind → BitVec 4
  | .busBusyTimeout => 0x1
  | .startConditionFailed => 0x2
  | .addressPhaseFailed => 0x3
  | .transmitByteFailed => 0x4
  | .receiveByteFailed => 0x5
  | .busError => 0x6
  | .dmaTransferTimeout => 0x7

/-- R140: the CODE of a refusal. -/
def refuseCode : RefuseCode → BitVec 4
  | .locked => 0x8
  | .noChannel => 0x9
  | .illegal => 0xA
  | .notBound => 0xB

/-- R34: the 3-bit value of the phase register. -/
def phaseCode : Phase → BitVec 3
  | .idle => 0
  | .busyCheck => 1
  | .start => 2
  | .address => 3
  | .dataPhase => 4
  | .stop => 5

/-- R33: RESULT.CODE, bits 3:0. -/
def resultCode (r : Half) : BitVec 4 :=
  r.extractLsb' 0 4

/-- R33: RESULT.BUSERR, bit 4. -/
def resultBusErr (r : Half) : Bool :=
  r.getLsbD 4

/-- R33: RESULT.RESETRAN, bit 5. -/
def resultResetRan (r : Half) : Bool :=
  r.getLsbD 5

/-- R33: RESULT.PRED, bit 6. -/
def resultPred (r : Half) : Bool :=
  r.getLsbD 6

/-- R33: RESULT.FPHASE, bits 10:8. -/
def resultFPhase (r : Half) : BitVec 3 :=
  r.extractLsb' 8 3

/-- R33: write RESULT.CODE. -/
def withCode (r : Half) (k : BitVec 4) : Half :=
  (r &&& 0xFFF0) ||| k.setWidth 16

/-- R33, R143: `RESULT.BUSERR <- 1`. -/
def withBusErr (r : Half) : Half :=
  r ||| 0x0010

/-- R33, R107, R127, R143: `RESULT.RESETRAN <- 1`. -/
def withResetRan (r : Half) : Half :=
  r ||| 0x0020

/-- R33, R91, R92: write RESULT.PRED. -/
def withPred (r : Half) (p : Bool) : Half :=
  if p then r ||| 0x0040 else r &&& 0xFFBF

/-- R33, R143: write RESULT.FPHASE. -/
def withFPhase (r : Half) (p : BitVec 3) : Half :=
  (r &&& 0xF8FF) ||| (p.setWidth 16 <<< 8)

end Sys2Proof.Machine
end

