-- ==== Sys2Proof/Machine/Operands.lean ====
section
/-! DEFINITION. Operand forms and value assemblies: the address byte (R76), the data byte (R97), MTX's copy count and source
addresses (R84, R114), the view handle (R64), per-index parameters (R7), the clock constants (R131), register
addresses (R52), interrupt line numbers (R147), and TCQ's answer (R116). -/
namespace Sys2Proof.Machine

/-- The instance a command is addressed to (R71). -/
def targetOf : Instr → Inst
  | .status n | .iseq n | .iseqm n | .gstart n | .saddr n _ _ | .txbyte n _ | .rxbyte n | .gstop n | .write n _ _
  | .read n _ | .attach n _ | .mtx n _ | .srx n _ | .tcq n _ | .init n | .reset n | .enable n | .disable n | .pstat n
  | .evh n | .erh n => n

/-- R76: `ab = (zext_8(address) << 1) | d`, d = 0 for Transmit and 1 for Receive. -/
def addressByte (d : Dir) (a : Addr7) : Byte :=
  (a.setWidth 8 <<< 1) |||
    match d with
    | .tx => 0
    | .rx => 1

/-- R76, R97: a byte as DR takes it, `zext_16`. -/
def dataHalf (b : Byte) : Half :=
  b.setWidth 16

/-- R98: `RegRead(i, DR)[7:0]`. -/
def lowByte (h : Half) : Byte :=
  h.setWidth 8

/-- R98, R107: `zext_32(b)`. -/
def dataWord (b : Byte) : Word :=
  b.setWidth 32

/-- R84(d), R114: `n_copy = min(len, DMA_CAP)`. -/
def copyCount (c : Config) (len : Word) : Nat :=
  min len.toNat c.dmaCap

/-- R62, R84(e): `(src + k) mod 2^32`. -/
def sourceAddress (src : Word) (k : Nat) : Word :=
  src + BitVec.ofNat 32 k

/-- R64: `view(i, TX) = 2*(i-1)` and `view(i, RX) = 2*(i-1) + 1`. -/
def viewHandle (c : ChanId) : Word :=
  (match c.inst with
    | .one => 0
    | .two => 2) +
    match c.dir with
    | .tx => 0
    | .rx => 1

/-- R64: the channel of a handle the host holds. SRX is the one command that returns a handle, and of a receive
channel only. -/
def viewChannel (h : Word) : Option ChanId :=
  if h = 1 then some ⟨.one, .rx⟩ else if h = 3 then some ⟨.two, .rx⟩ else none

/-- R116: `(zext_32(ch_enabled(c)) << 1) | zext_32(ch_tc(c))`. -/
def queryWord (en tc : Bool) : Word :=
  ((BitVec.ofBool en).setWidth 32 <<< 1) ||| (BitVec.ofBool tc).setWidth 32

/-- R7, R126: OWN_ADDR[i]. -/
def ownAddr (c : Config) : Inst → Addr7
  | .one => c.ownAddr1
  | .two => c.ownAddr2

/-- R29, R127: `zext_16(own_address) << 1`. -/
def oarValue (a : Addr7) : Half :=
  a.setWidth 16 <<< 1

/-- The three constants of R25: freq_range (6 bits), rise_time (6 bits), ccr (12 bits). -/
structure ClockConst where
  freqRange : BitVec 6
  riseTime : BitVec 6
  ccr : BitVec 12
deriving DecidableEq, Repr

/-- R131: the default formula, `div` truncating. Within the ranges `Config.clockOk` asks for, the narrowing to the
widths of R25 loses nothing. -/
def clockFormula (pclkHz targetHz : Nat) : ClockConst where
  freqRange := BitVec.ofNat 6 (pclkHz / 1000000)
  riseTime := BitVec.ofNat 6 (pclkHz / 1000000 + 1)
  ccr := BitVec.ofNat 12 (pclkHz / (2 * targetHz))

/-- R127, R131: `clock_config(PCLK_HZ, TARGET_HZ)`. -/
def clockConfig (c : Config) : ClockConst :=
  match c.clock with
  | .formula => clockFormula c.pclkHz c.targetHz
  | .values f r k => ⟨f, r, k⟩

/-- R127, R131: the value RESET writes to CTL2, `zext_16(freq_range)`. -/
def ctl2Value (c : Config) : Half :=
  (clockConfig c).freqRange.setWidth 16

/-- R127, R131: the value RESET writes to TRISE, `zext_16(rise_time)`. -/
def triseValue (c : Config) : Half :=
  (clockConfig c).riseTime.setWidth 16

/-- R127, R131: the value RESET writes to CCR, `zext_16(ccr)`. -/
def ccrValue (c : Config) : Half :=
  (clockConfig c).ccr.setWidth 16

/-- R52: the address of a register, base plus offset. -/
def regAddress (c : Config) (n : Inst) (r : Reg) : Word :=
  (match n with
    | .one => c.regMap.base1
    | .two => c.regMap.base2) +
    match r with
    | .ctl => c.regMap.ctl
    | .ctl2 => c.regMap.ctl2
    | .oar => c.regMap.oar
    | .dr => c.regMap.dr
    | .srP => c.regMap.srP
    | .srS => c.regMap.srS
    | .ccr => c.regMap.ccr
    | .trise => c.regMap.trise

/-- R147: IRQ_EV[i] and IRQ_ER[i]. -/
def lineNumber (c : Config) : Line → Nat
  | ⟨.event, .one⟩ => c.irqEv1
  | ⟨.error, .one⟩ => c.irqEr1
  | ⟨.event, .two⟩ => c.irqEv2
  | ⟨.error, .two⟩ => c.irqEr2

/-- R127: RESET_WAIT of the two fields: the loop goes on. -/
def waitHolds : ResetWait → Half → Half → Bool
  | .primary m x, p, _ => p &&& m == x
  | .secondary m x, _, v => v &&& m == x
  | .both a b, p, v => waitHolds a p v && waitHolds b p v
  | .negate a, p, v => !waitHolds a p v

/-- A conjunction one of whose sides may not be known yet. -/
def andKnown : Option Bool → Option Bool → Option Bool
  | some false, _ => some false
  | _, some false => some false
  | some true, some true => some true
  | _, _ => none

/-- R127, D22: RESET_WAIT where the primary field alone decides it, none where the secondary field must be read: the
short-circuit order, "reading the primary first and the secondary only when" it is needed. -/
def waitByPrimary : ResetWait → Half → Option Bool
  | .primary m x, p => some (p &&& m == x)
  | .secondary _ _, _ => none
  | .both a b, p => andKnown (waitByPrimary a p) (waitByPrimary b p)
  | .negate a, p => (waitByPrimary a p).map (!·)

end Sys2Proof.Machine
end

