-- ==== Sys2Proof/Machine/Ops.lean ====
section
/-! DEFINITION. The shared operations: access to the state, the register port with its side effects (R53 to R58), host memory
(R50, R62), the channel port (R118), the lock (R63), the sink (R155), the decode (R90), the bounded poll (R11), the
reset sequence (R127), the issue checks (R81), the refusal (R141), the failure exit (R143), and interrupt entry and
return (R149, R151).

A command is a `Run`: a function of the state that ends with a value, or leaves the command (`Exit`). Every primitive of R9
takes `bt`, what the other agents do just before it (R57). -/
namespace Sys2Proof.Machine

/-! ## Access to the state -/

/-- The BusInstance `n` (R22). -/
def State.bus (s : State) : Inst → Bus
  | .one => s.bus1
  | .two => s.bus2

/-- Change the BusInstance `n` and nothing else. -/
def State.modBus (s : State) (n : Inst) (f : Bus → Bus) : State :=
  match n with
  | .one => { s with bus1 := f s.bus1 }
  | .two => { s with bus2 := f s.bus2 }

/-- Change instance `n`'s controller block. -/
def State.modCtrl (s : State) (n : Inst) (f : Ctrl → Ctrl) : State :=
  s.modBus n fun b => { b with ctrl := f b.ctrl }

/-- The channel `c` (R26). -/
def State.chan (s : State) (c : ChanId) : Chan :=
  match c.dir with
  | .tx => (s.bus c.inst).chTx
  | .rx => (s.bus c.inst).chRx

/-- Change the channel `c`. -/
def State.modChan (s : State) (c : ChanId) (f : Chan → Chan) : State :=
  match c.dir with
  | .tx => s.modBus c.inst fun b => { b with chTx := f b.chTx }
  | .rx => s.modBus c.inst fun b => { b with chRx := f b.chRx }

/-- The bank of the port in use (R32: "a command reads and writes only the bank of the port it was issued on"). -/
def State.bank (s : State) : Bank :=
  match s.port with
  | .fg => s.fg
  | .irq => s.irq

/-- Change the bank of the port in use. -/
def State.modBank (s : State) (f : Bank → Bank) : State :=
  match s.port with
  | .fg => { s with fg := f s.fg }
  | .irq => { s with irq := f s.irq }

/-- Change RESULT of the port in use. -/
def State.modResult (s : State) (f : Half → Half) : State :=
  s.modBank fun b => { b with result := f b.result }

/-- Record what crossed a port (log 16). -/
def State.log (s : State) (a : Access) : State :=
  { s with trace := s.trace ++ [a] }

/-! ## The register port -/

/-- The stored value of a register. DR answers the environment's byte, bits 15:8 zero (R29, R56). -/
def Ctrl.get (c : Ctrl) : Reg → Half
  | .ctl => c.ctl
  | .ctl2 => c.ctl2
  | .oar => c.oar
  | .dr => dataHalf c.drRx
  | .srP => c.srP
  | .srS => c.srS
  | .ccr => c.ccr
  | .trise => c.trise

/-- R55, R56: the side effect of a read. A read of SR_P sets `p_read`. A read of SR_S with `p_read` set clears SEQ_CLEAR
in SR_P and clears `p_read`. No other read has one. DESIGN CHOICE: where SEQ_CLEAR takes the last error bit away, the error
line stays as the environment left it (log 31). -/
def Ctrl.afterRead (cfg : Config) (c : Ctrl) : Reg → Ctrl
  | .srP => { c with pRead := true }
  | .srS => if c.pRead then { c with srP := c.srP &&& ~~~cfg.seqClear, pRead := false } else c
  | .ctl => c
  | .ctl2 => c
  | .oar => c
  | .dr => c
  | .ccr => c
  | .trise => c

/-- R28: "While SWRST is 1 the controller holds PE, START, STOP, CTL2, OAR, CCR and TRISE at 0" (log 14). -/
def Ctrl.held (cfg : Config) (c : Ctrl) : Ctrl :=
  if c.ctl.getLsbD cfg.flags.swrst then
    { c with
      ctl := c.ctl &&& ~~~(peMask cfg ||| startMask cfg ||| stopMask cfg)
      ctl2 := 0
      oar := 0
      ccr := 0
      trise := 0 }
  else c

/-- Store into a register. A write of DR hands the value to the controller (R56). The block never writes SR_S (R31). -/
def Ctrl.store (c : Ctrl) (r : Reg) (v : Half) : Ctrl :=
  match r with
  | .ctl => { c with ctl := v }
  | .ctl2 => { c with ctl2 := v }
  | .oar => { c with oar := v }
  | .dr => { c with drTx := v }
  | .srP => { c with srP := v }
  | .srS => c
  | .ccr => { c with ccr := v }
  | .trise => { c with trise := v }

/-- Store, then what SWRST forces (R28). -/
def Ctrl.put (cfg : Config) (c : Ctrl) (r : Reg) (v : Half) : Ctrl :=
  (c.store r v).held cfg

/-- `RegRead(i, r)` (R9, R53, R55, R56): the value, and the state after the read's side effect. -/
def readReg (n : Inst) (r : Reg) (s : State) : Half × State :=
  let v := (s.bus n).ctrl.get r
  (v, (s.modCtrl n fun c => c.afterRead s.cfg r).log (.regRead n r v))

/-- `RegWrite(i, r, v)` (R9, R53). -/
def writeReg (n : Inst) (r : Reg) (v : Half) (s : State) : State :=
  (s.modCtrl n fun c => c.put s.cfg r v).log (.regWrite n r v)

/-- `RegSet(i, r, m)` (R9, R58): one step, other bits unchanged. -/
def setReg (n : Inst) (r : Reg) (m : Half) (s : State) : State :=
  (s.modCtrl n fun c => c.put s.cfg r (c.get r ||| m)).log (.regSet n r m)

/-- R148: the error line is tied to the error bits and de-asserts when none is set (log 13). -/
def Bus.settleErrLine (cfg : Config) (b : Bus) : Bus :=
  { b with erPend := b.erPend && b.ctrl.srP &&& cfg.errMask != 0 }

/-- `RegClr(i, r, m)` (R9, R58): one step, other bits unchanged. A clear in SR_P also lets the error line fall (R136,
R148). -/
def clrReg (n : Inst) (r : Reg) (m : Half) (s : State) : State :=
  let t := s.modCtrl n fun c => c.put s.cfg r (c.get r &&& ~~~m)
  (match r with
    | .srP => t.modBus n (·.settleErrLine s.cfg)
    | _ => t).log (.regClr n r m)

/-! ## Host memory -/

/-- The byte at an address, none where host memory holds none (R62, log 11). -/
def memGet (m : Memory) (a : Word) : Option Byte :=
  (m.find? fun c => c.1 == a.toNat).map (·.2)

/-- Store a byte, keeping the addresses strictly rising. -/
def memPutNat : Memory → Nat → Byte → Memory
  | [], a, b => [(a, b)]
  | c :: m, a, b =>
    if a < c.1 then (a, b) :: c :: m else if a = c.1 then (a, b) :: m else c :: memPutNat m a b

/-- Store a byte at a host address. -/
def memPut (m : Memory) (a : Word) (b : Byte) : Memory :=
  memPutNat m a.toNat b

/-- The canonical form: addresses strictly rising, all in the 32-bit space (R50). -/
abbrev Memory.wf (m : Memory) : Prop :=
  m.Pairwise (fun c d => c.1 < d.1) ∧ ∀ c ∈ m, c.1 < 2 ^ 32

/-! ## The channel port, the lock, the sink, the interrupt controller -/

/-- R118 `ch_enable(c, n)`: count n, idx 0, tc 0, en 1, one step. -/
def Chan.enable (k : Nat) (c : Chan) : Chan :=
  { c with count := k, idx := 0, tc := false, en := true }

/-- R118 `BufWrite(c, k, b)`; it "requires k < DMA_CAP". -/
def Chan.put (k : Nat) (b : Byte) (c : Chan) : Chan :=
  { c with buf := c.buf.set k b }

/-- R9, R155 `diag(k, s, regs)`: append one record; it cannot fail. -/
def pushRecord (k : DiagKind) (v : Word) (regs : List Half) (s : State) : State :=
  { s with sink := s.sink ++ [⟨k, v, regs⟩] }

/-- A line number into the rising list of enabled lines (R147). -/
def insertLine (l : Nat) : List Nat → List Nat
  | [] => [l]
  | x :: xs => if l < x then l :: x :: xs else if l = x then x :: xs else x :: insertLine l xs

/-- R9, R154 `irq_enable(l)`: `irq_en[l] <- 1`. -/
def enableLine (l : Nat) (s : State) : State :=
  { s with irqEn := insertLine l s.irqEn }.log (.irqEnable l)

/-- R64: the host reads through a view: `ch(i,RX).buf[k]` for `0 <= k < DMA_CAP`, nothing else. -/
def viewRead (s : State) (handle : Word) (k : Nat) : Option Byte :=
  match viewChannel handle with
  | some c => (s.chan c).buf[k]?
  | none => none

/-! ## Commands as runs -/

/-- How a command is left before its last step: it ended (a refusal R141, a failure exit R143), it never ends (R157,
R174), or the machine stops. -/
inductive Exit where
  | ended
  | hung
  | fault (f : Fault)
deriving DecidableEq, Repr

/-- A command, or a part of one. -/
abbrev Run := EStateM Exit State

/-- Leave the command. -/
def leave {α : Type} (e : Exit) : Run α :=
  fun s => .error e s

/-- Look at the state; no primitive, so no other agent steps. -/
def look {α : Type} (f : State → α) : Run α :=
  fun s => .ok (f s) s

/-- A change private to the sequencer; no primitive. -/
def tweak (f : State → State) : Run Unit :=
  fun s => .ok () (f s)

/-- The parameters (R7). -/
def params : Run Config :=
  look (·.cfg)

/-- An answer and a change of the state, in one indivisible step. -/
def effect {α : Type} (f : State → α × State) : Run α :=
  fun s => .ok (f s).1 (f s).2

/-- A primitive that answers a value and changes the state, after what the other agents do (R9, R57). -/
def atom {α : Type} (bt : Run Unit) (f : State → α × State) : Run α := do
  bt
  effect f

/-- A primitive that changes the state (R9, R57). -/
def update (bt : Run Unit) (f : State → State) : Run Unit :=
  atom bt fun s => ((), f s)

/-- `x` where `b` holds. -/
def runIf (b : Bool) (x : Run Unit) : Run Unit :=
  if b then x else pure ()

/-- `RegRead(i, r)`. -/
def regRead (bt : Run Unit) (n : Inst) (r : Reg) : Run Half :=
  atom bt (readReg n r)

/-- `RegWrite(i, r, v)`. -/
def regWrite (bt : Run Unit) (n : Inst) (r : Reg) (v : Half) : Run Unit :=
  update bt (writeReg n r v)

/-- `RegSet(i, r, m)`. -/
def regSet (bt : Run Unit) (n : Inst) (r : Reg) (m : Half) : Run Unit :=
  update bt (setReg n r m)

/-- `RegClr(i, r, m)`. -/
def regClr (bt : Run Unit) (n : Inst) (r : Reg) (m : Half) : Run Unit :=
  update bt (clrReg n r m)

/-- `diag(k, s, regs)` (R155). -/
def diag (bt : Run Unit) (k : DiagKind) (v : Word) (regs : List Half) : Run Unit :=
  update bt (pushRecord k v regs)

/-- `delay_ms(d)` where `d > 0` (R11, R152): an event of the trace. Time is what the timing collaborator's moves make of
it (log 19). -/
def delayMs (bt : Run Unit) (d : Nat) : Run Unit :=
  runIf (d != 0) (update bt (·.log (.delay d)))

/-- `phase[i] <- p` (R34, R105). -/
def setPhase (bt : Run Unit) (n : Inst) (p : Phase) : Run Unit :=
  update bt fun s => s.modBus n fun b => { b with phase := p }

/-- Write RESULT of the port in use (R33). -/
def putResult (bt : Run Unit) (f : Half → Half) : Run Unit :=
  update bt (·.modResult f)

/-- `RESULT.CODE <- 0`, the last step of a command that succeeds. DESIGN CHOICE: it writes CODE alone; the FPHASE 0 of R33 and
R100 is what `RESULT <- 0` left at issue (log 32). -/
def succeed (bt : Run Unit) : Run Unit :=
  putResult bt (withCode · 0)

/-- `RDATA0 <- v`. -/
def putRdata0 (bt : Run Unit) (v : Word) : Run Unit :=
  update bt fun s => s.modBank fun b => { b with rdata0 := v }

/-- `RDATA1 <- v`. -/
def putRdata1 (bt : Run Unit) (v : Word) : Run Unit :=
  update bt fun s => s.modBank fun b => { b with rdata1 := v }

/-- ARG0 as it stands when the command is issued (R65, R74). -/
def latchArg0 : Run Word :=
  look (·.bank.arg0)

/-- ARG1 as it stands when the command is issued (R65, R74). -/
def latchArg1 : Run Word :=
  look (·.bank.arg1)

/-! ## Issue and refusal -/

/-- RDATA0 of the port in use becomes a free value (R32, U13, log 10). -/
def freeRdata0 (s : State) : State :=
  { s.modBank fun b => { b with rdata0 := Config.freeWord s.freeCtr } with freeCtr := s.freeCtr + 1 }

/-- R81(1): `RESULT <- 0` in the issuing bank. A result register that the command's rule does not write "holds no defined
value" after it (R32, U13): it becomes a free value here, and RDATA0 keeps its value only for RXBYTE, whose receive failure
leaves it as it was (V19, log 10). -/
def clearResult (keepRdata0 : Bool) (s : State) : State :=
  { s.modBank fun b =>
      { b with
        result := 0
        rdata0 := if keepRdata0 then b.rdata0 else Config.freeWord s.freeCtr
        rdata1 := Config.freeWord (s.freeCtr + 1) } with
    freeCtr := s.freeCtr + 2 }

/-- R141 `refuse(c)`: `RESULT.CODE <- c`, and the command ends. It has written neither RDATA register, so RDATA0 is free
whatever the command is (R32, U13, log 10). -/
def refused {α : Type} (c : RefuseCode) : Run α :=
  fun s => .error .ended (freeRdata0 (s.modResult (withCode · (refuseCode c))))

/-- R81(1): the first step of every command, and the one that sets FPHASE to 0 for a command that succeeds (R33, R100; DESIGN
CHOICE, log 32). -/
def startCommand (bt : Run Unit) (keepRdata0 : Bool) : Run Unit :=
  update bt (clearResult keepRdata0)

/-- R80, R81(3): a command other than INIT on an unbound instance is refused NOTBOUND. -/
def checkBound (bt : Run Unit) (n : Inst) : Run Unit := do
  bt
  let bound ← look fun s => (s.bus n).bound
  if bound then pure () else refused .notBound

/-- R81(1) and (3), the start of every command but INIT. -/
def enter (bt : Run Unit) (n : Inst) (keepRdata0 : Bool) : Run Unit := do
  startCommand bt keepRdata0
  checkBound bt n

/-- `dma_tx[i]` or `dma_rx[i]` (R22). -/
def Bus.chanRef (b : Bus) : Dir → Option ChanId
  | .tx => b.dmaTx
  | .rx => b.dmaRx

/-- R81(4), R117: without a channel attached for the direction, refused NOCHANNEL. -/
def needChannel (bt : Run Unit) (n : Inst) (d : Dir) : Run ChanId := do
  bt
  let ref ← look fun s => (s.bus n).chanRef d
  match ref with
  | some c => pure c
  | none => refused .noChannel

/-- R63 `acquire(i)`, R81(5): test and set in one indivisible step; LOCKED when held. -/
def acquire (bt : Run Unit) (n : Inst) : Run Unit := do
  bt
  let held ← look fun s => (s.bus n).lock
  if held then refused .locked else tweak fun s => s.modBus n fun b => { b with lock := true }

/-- R63 `release(i)`. -/
def release (bt : Run Unit) (n : Inst) : Run Unit :=
  update bt fun s => s.modBus n fun b => { b with lock := false }

/-- R79, R81(2): an illegal word makes no access; `RESULT.CODE <- ILLEGAL`. -/
def illegalCommand (bt : Run Unit) : Run Unit := do
  startCommand bt false
  bt
  refused .illegal

/-! ## Decode and poll -/

/-- R90 `status(i)`: read SR_P; read SR_S where the gate is open; the composite, or the primary alone. -/
def decodeStatus (bt : Run Unit) (n : Inst) : Run Word := do
  let c ← params
  let p ← regRead bt n .srP
  if gateOpen c p then do
    let v ← regRead bt n .srS
    pure (composite v p)
  else pure (suppressed p)

/-- The poll counter of the running sequencer (R35); the loop carries its own count (log 21). -/
def setPollN (f : Nat → Nat) : Run Unit :=
  tweak fun s => s.modBank fun b => { b with pollN := f b.pollN }

/-- R11: the iterations that are left of a poll. -/
def pollLoop (bt : Run Unit) (n : Inst) (cond : Word → Bool) (d : Nat) : Nat → Run Bool
  | 0 => pure false
  | k + 1 => do
    let v ← decodeStatus bt n
    if cond v then pure true
    else do
      delayMs bt d
      setPollN (· + 1)
      pollLoop bt n cond d k

/-- R11 `poll(i, cond, N, d)`: check, then delay, delay also after the last failed check. -/
def poll (bt : Run Unit) (n : Inst) (cond : Word → Bool) (budget d : Nat) : Run Bool := do
  setPollN fun _ => 0
  pollLoop bt n cond d budget

/-! ## The reset sequence -/

/-- R157: the status loop never ends. The schedule lists all that other agents do, it is used up, and the loop's
predicate stands (log 7). -/
def hangInReset {α : Type} (n : Inst) : Run α :=
  fun s => .error .hung { s with stuck := some (.spin n) }

/-- R127: one turn of the status loop; true when the loop goes on. -/
def resetTurn (bt : Run Unit) (n : Inst) : Run Bool := do
  let c ← params
  let p ← regRead bt n .srP
  match waitByPrimary c.resetWait p with
  | some again => pure again
  | none => do
    let v ← regRead bt n .srS
    pure (waitHolds c.resetWait p v)

/-- R127: the status loop, "no bound". Each turn uses up at least one batch of the schedule; two turns after its end the
fields no longer change and the loop is known never to end (log 7). -/
def resetLoop (bt : Run Unit) (n : Inst) : Nat → Run Unit
  | 0 => hangInReset n
  | k + 1 => do
    let again ← resetTurn bt n
    if again then resetLoop bt n k else pure ()

/-- R127 `reset_seq(i)`. -/
def resetSeq (bt : Run Unit) (n : Inst) : Run Unit := do
  let c ← params
  regClr bt n .ctl (peMask c)
  regSet bt n .ctl (swrstMask c)
  regClr bt n .ctl (swrstMask c)
  let turns ← look fun s => s.sched.length + 2
  resetLoop bt n turns
  regClr bt n .ctl (peMask c)
  regWrite bt n .ctl2 (ctl2Value c)
  regWrite bt n .trise (triseValue c)
  update bt fun s => writeReg n .oar (oarValue (s.bus n).ownAddress) s
  regWrite bt n .ccr (ccrValue c)

/-! ## The failure exit: this block's exception -/

/-- The command in progress, as R143 asks of it. -/
inductive Caller where
  | alone
  | write
  | read
  | mtx
  | srx
deriving DecidableEq, Repr

/-- R143: WRITE, READ, MTX and SRX hold the lock and the phase register. -/
def Caller.guarded : Caller → Bool
  | .alone => false
  | .write => true
  | .read => true
  | .mtx => true
  | .srx => true

/-- R143: the Reset inside the failure exit runs for READ's ReceiveByteFailed only. -/
def failureResets (w : Caller) (k : ErrKind) : Bool :=
  w == .read && k == .receiveByteFailed

/-- R143: BusError is logged, RESULT.BUSERR set, and READ's ReceiveByteFailed resets. -/
def failBusError (bt : Run Unit) (w : Caller) (n : Inst) (k : ErrKind) (sf : Word) : Run Unit := do
  diag bt (.err .busError) sf []
  putResult bt withBusErr
  runIf (failureResets w k) do
    resetSeq bt n
    putResult bt withResetRan

/-- R143: the end of the failure exit of a guarded command. -/
def failRelease (bt : Run Unit) (n : Inst) : Run Unit := do
  update bt fun s => s.modResult (withFPhase · (phaseCode (s.bus n).phase))
  setPhase bt n .idle
  release bt n

/-- R143: FPHASE and, for a guarded command, the end of its hold. -/
def failEnd (bt : Run Unit) (w : Caller) (n : Inst) : Run Unit :=
  if w.guarded then failRelease bt n else putResult bt (withFPhase · 0)

/-- R143 `fail(k)`: a fresh decode, the record, the error test, the CODE, FPHASE, and the end of the command. -/
def fail {α : Type} (bt : Run Unit) (w : Caller) (n : Inst) (k : ErrKind) : Run α := do
  let c ← params
  let sf ← decodeStatus bt n
  diag bt (.err k) sf []
  runIf (errSeen c sf) (failBusError bt w n k sf)
  putResult bt (withCode · (errCode k))
  failEnd bt w n
  leave .ended

/-- `if not ok: fail(k)`. -/
def failUnless (bt : Run Unit) (w : Caller) (n : Inst) (k : ErrKind) (ok : Bool) : Run Unit :=
  if ok then pure () else fail bt w n k

/-! ## Interrupt entry and return -/

/-- The line is raised (R148). -/
def Bus.linePend (b : Bus) : LineKind → Bool
  | .event => b.evPend
  | .error => b.erPend

/-- R147, R149, R151: a line fires when it is raised and enabled and its own hook is not running. -/
def canFire (s : State) (l : Line) : Bool :=
  (s.bus l.inst).linePend l.kind && s.irqEn.contains (lineNumber s.cfg l) && !s.active.contains l

/-- R149: entry. The interrupt port's context and bank take over; "Nothing of the block is saved or switched": the
suspended command's phase, operands and poll counter stay. `hook` is the line whose hook the command is, if it is one. -/
def irqEnter (hook : Option Line) (s : State) : State :=
  { s with port := .irq, active := hook.toList ++ s.active }

/-- R151: return to the context `old` that was suspended, its poll counter as it was, "with no state restored": RESULT of
the interrupt bank stays as the command that ended left it (log 32). -/
def irqReturn (old : State) (s : State) : State :=
  { s with
    port := old.port
    active := old.active
    irq := match old.port with
      | .fg => s.irq
      | .irq => { s.irq with pollN := old.irq.pollN } }

/-- Run a whole command to its end: a refusal or a failure exit ends the command, not the agent that issued it. -/
def runWhole (x : Run Unit) : Run Unit :=
  fun s =>
    match x s with
    | .error .ended t => .ok () t
    | r => r

/-- R147, R149: the hook command of a line. -/
def hookOf (l : Line) : Instr :=
  match l.kind with
  | .event => .evh l.inst
  | .error => .erh l.inst

/-- The line whose hook a command is (R149); R57(c), R151: "a hook never interrupts itself". -/
def hookLine : Instr → Option Line
  | .evh n => some ⟨.event, n⟩
  | .erh n => some ⟨.error, n⟩
  | _ => none

/-- The hook a command word is, if it is one. -/
def wordHook (w : Word) : Option Line :=
  match decode w with
  | .ok i => hookLine i
  | .error _ => none

/-- R57(c), R153: a command may be issued on the interrupt port unless it is a hook that is running there (log 9). -/
def canIssue (s : State) (c : IrqCmd) : Bool :=
  !(wordHook c.word).any s.active.contains

/-- What a step answers when a command is over (R157: a command that never ends leaves a state, not a fault). -/
def toOutcome (r : EStateM.Result Exit State Unit) : Host.Outcome State Fault Refusal :=
  match r with
  | .ok _ s => .next s
  | .error .ended s => .next s
  | .error .hung s => .next s
  | .error (.fault f) _ => .fault f

end Sys2Proof.Machine
end

