-- ==== Sys2Proof/Machine/Primitives.lean ====
section
/-! DEFINITION. The five Bus Primitives, as subroutines and as commands of their own (R95 to R100). -/
namespace Sys2Proof.Machine

/-- R95 `generate_start(i)`: the busy wait's answer is not used. -/
def generateStart (bt : Run Unit) (w : Caller) (n : Inst) : Run Unit := do
  let c ← params
  let _ ← poll bt n (fun v => !isBusy c v) c.nStartBusy c.dStartBusy
  regSet bt n .ctl (startMask c)
  let ok ← poll bt n (fun v => matchPat v (pStart c)) c.nStartWait c.dStartWait
  failUnless bt w n .startConditionFailed ok

/-- R96 `send_address(i, direction, address)`: Transmit waits for P_ADDR_TX; Receive makes the one write and no
decode. -/
def sendAddress (bt : Run Unit) (w : Caller) (n : Inst) (d : Dir) (a : Addr7) : Run Unit := do
  let c ← params
  regWrite bt n .dr (dataHalf (addressByte d a))
  match d with
  | .tx => do
    let ok ← poll bt n (fun v => matchPat v (pAddrTx c)) c.nSpin 0
    failUnless bt w n .addressPhaseFailed ok
  | .rx => pure ()

/-- R97 `transmit_byte(i, data)`. -/
def transmitByte (bt : Run Unit) (w : Caller) (n : Inst) (b : Byte) : Run Unit := do
  let c ← params
  regWrite bt n .dr (dataHalf b)
  let ok ← poll bt n (fun v => matchPat v (pByteTx c)) c.nSpin 0
  failUnless bt w n .transmitByteFailed ok

/-- R98 `receive_byte(i)`: DR is read once, after the matching decode; the byte is kept in `last_rx`. -/
def receiveByte (bt : Run Unit) (w : Caller) (n : Inst) : Run Byte := do
  let c ← params
  let ok ← poll bt n (fun v => matchPat v (pByteRx c)) c.nRx c.dRx
  failUnless bt w n .receiveByteFailed ok
  let h ← regRead bt n .dr
  update bt fun s => s.modBus n fun b => { b with lastRx := lowByte h }
  pure (lowByte h)

/-- R99 `generate_stop(i)`. -/
def generateStop (bt : Run Unit) (n : Inst) : Run Unit := do
  let c ← params
  regSet bt n .ctl (stopMask c)

/-- GSTART (R95). -/
def gstartRun (bt : Run Unit) (n : Inst) : Run Unit := do
  enter bt n false
  generateStart bt .alone n
  succeed bt

/-- SADDR (R96). -/
def saddrRun (bt : Run Unit) (n : Inst) (d : Dir) (a : Addr7) : Run Unit := do
  enter bt n false
  sendAddress bt .alone n d a
  succeed bt

/-- TXBYTE (R97). -/
def txbyteRun (bt : Run Unit) (n : Inst) (b : Byte) : Run Unit := do
  enter bt n false
  transmitByte bt .alone n b
  succeed bt

/-- RXBYTE (R98): RDATA0 is written on success only, and keeps its value where nothing arrives (V19, log 10). -/
def rxbyteRun (bt : Run Unit) (n : Inst) : Run Unit := do
  enter bt n true
  let b ← receiveByte bt .alone n
  putRdata0 bt (dataWord b)
  succeed bt

/-- GSTOP (R99). -/
def gstopRun (bt : Run Unit) (n : Inst) : Run Unit := do
  enter bt n false
  generateStop bt n
  succeed bt

end Sys2Proof.Machine
end

