-- ==== Sys2Proof/Machine/Transaction.lean ====
section
/-! DEFINITION. The Transaction Engine: WRITE and READ (R105 to R109). -/
namespace Sys2Proof.Machine

/-- The last steps of a guarded command that succeeds: `phase[i] <- Idle; release(i)`. -/
def finishGuarded (bt : Run Unit) (n : Inst) : Run Unit := do
  setPhase bt n .idle
  release bt n

/-- WRITE (R106). No Reset on any path (R108). -/
def writeRun (bt : Run Unit) (n : Inst) (a : Addr7) (b : Byte) : Run Unit := do
  enter bt n false
  acquire bt n
  setPhase bt n .busyCheck
  let c ← params
  let free ← poll bt n (fun v => !isBusy c v) c.nWrBusy 0
  failUnless bt .write n .busBusyTimeout free
  setPhase bt n .start
  generateStart bt .write n
  setPhase bt n .address
  sendAddress bt .write n .tx a
  setPhase bt n .dataPhase
  transmitByte bt .write n b
  setPhase bt n .stop
  generateStop bt n
  finishGuarded bt n
  succeed bt

/-- R107: how an outer attempt of READ's BusyCheck ends: bus free, or another attempt (budget used, or a Reset). -/
def readInner (bt : Run Unit) (n : Inst) : Nat → Run Bool
  | 0 => pure false
  | k + 1 => do
    let c ← params
    let v ← decodeStatus bt n
    if !isBusy c v then pure true
    else if errSeen c v && matchPat v (pMaster c) then do
      resetSeq bt n
      putResult bt withResetRan
      pure false
    else do
      setPollN (· + 1)
      readInner bt n k

/-- R107: the outer attempts of READ's BusyCheck; true when the bus was decoded free. -/
def readOuter (bt : Run Unit) (n : Inst) : Nat → Run Bool
  | 0 => pure false
  | a + 1 => do
    let c ← params
    setPollN fun _ => 0
    let free ← readInner bt n c.nRdInner
    if free then pure true else readOuter bt n a

/-- READ (R107). -/
def readRun (bt : Run Unit) (n : Inst) (a : Addr7) : Run Unit := do
  enter bt n false
  acquire bt n
  setPhase bt n .busyCheck
  let c ← params
  let free ← readOuter bt n c.nRdOuter
  failUnless bt .read n .busBusyTimeout free
  setPhase bt n .start
  generateStart bt .read n
  setPhase bt n .address
  sendAddress bt .read n .rx a
  setPhase bt n .dataPhase
  let b ← receiveByte bt .read n
  setPhase bt n .stop
  generateStop bt n
  finishGuarded bt n
  putRdata0 bt (dataWord b)
  succeed bt

end Sys2Proof.Machine
end

