-- ==== Sys2Proof/Machine/Dma.lean ====
section
/-! DEFINITION. The DMA Bulk Path: ATTACH, MTX, SRX, TCQ (R113 to R117), and the steps of the channel engines (R118 to
R123). -/
namespace Sys2Proof.Machine

/-- R113: the reference of the direction becomes the channel keyed by (instance, direction). -/
def Bus.attach (n : Inst) (d : Dir) (b : Bus) : Bus :=
  match d with
  | .tx => { b with dmaTx := some ⟨n, .tx⟩ }
  | .rx => { b with dmaRx := some ⟨n, .rx⟩ }

/-- ATTACH (R113). -/
def attachRun (bt : Run Unit) (n : Inst) (d : Dir) : Run Unit := do
  enter bt n false
  update bt fun s => s.modBus n (Bus.attach n d)
  succeed bt

/-- `MemRead(a, 1)` (R9, R62). A byte host memory does not hold leaves the command stuck; the machine stops (U15,
log 11). -/
def memRead (bt : Run Unit) (a : Word) : Run Byte := do
  bt
  let b? ← look fun s => memGet s.mem a
  match b? with
  | some b => do
    tweak (·.log (.memRead a b))
    pure b
  | none => leave (.fault (.hostByteAbsent a))

/-- `BufWrite(c, k, b)` (R9, R118). -/
def bufWrite (bt : Run Unit) (c : ChanId) (k : Nat) (b : Byte) : Run Unit :=
  update bt fun s => (s.modChan c (Chan.put k b)).log (.bufWrite c k b)

/-- `ch_enable(c, n)` (R118). -/
def chEnable (bt : Run Unit) (c : ChanId) (k : Nat) : Run Unit :=
  update bt fun s => (s.modChan c (Chan.enable k)).log (.chEnable c k)

/-- `ch_enabled(c)` (R118). -/
def chEnabled (bt : Run Unit) (c : ChanId) : Run Bool :=
  atom bt fun s => ((s.chan c).en, s.log (.chEnabled c (s.chan c).en))

/-- `ch_tc(c)` (R118). -/
def chTc (bt : Run Unit) (c : ChanId) : Run Bool :=
  atom bt fun s => ((s.chan c).tc, s.log (.chTc c (s.chan c).tc))

/-- R114: copy source bytes `k`, `k + 1`, …, so many as are left. -/
def copyLoop (bt : Run Unit) (c : ChanId) (src : Word) (k : Nat) : Nat → Run Unit
  | 0 => pure ()
  | left + 1 => do
    let b ← memRead bt (sourceAddress src k)
    bufWrite bt c k b
    copyLoop bt c src (k + 1) left

/-- R114: the transfer-complete spin: `ch_tc` queries only, no decode. -/
def tcLoop (bt : Run Unit) (c : ChanId) : Nat → Run Bool
  | 0 => pure false
  | k + 1 => do
    let done ← chTc bt c
    setPollN (· + 1)
    if done then pure true else tcLoop bt c k

/-- MTX (R114): no STOP, no disarm, on any path. -/
def mtxRun (bt : Run Unit) (n : Inst) (a : Addr7) : Run Unit := do
  let src ← latchArg0
  let len ← latchArg1
  enter bt n false
  let c ← needChannel bt n .tx
  acquire bt n
  let cfg ← params
  let nCopy := copyCount cfg len
  copyLoop bt c src 0 nCopy
  putRdata0 bt (BitVec.ofNat 32 nCopy)
  setPhase bt n .start
  generateStart bt .mtx n
  setPhase bt n .address
  sendAddress bt .mtx n .tx a
  setPhase bt n .dataPhase
  regSet bt n .ctl2 (dmaenMask cfg)
  chEnable bt c nCopy
  setPollN fun _ => 0
  let done ← tcLoop bt c cfg.nSpin
  failUnless bt .mtx n .dmaTransferTimeout done
  finishGuarded bt n
  succeed bt

/-- SRX (R115): the address operand has no effect (D33). -/
def srxRun (bt : Run Unit) (n : Inst) (_a : Addr7) : Run Unit := do
  enter bt n false
  let c ← needChannel bt n .rx
  acquire bt n
  let cfg ← params
  putRdata0 bt (viewHandle ⟨n, .rx⟩)
  putRdata1 bt (BitVec.ofNat 32 cfg.dmaCap)
  setPhase bt n .address
  let ok ← poll bt n (fun v => matchPat v (pSrxAddr cfg)) cfg.nSrxAddr cfg.dSrxAddr
  failUnless bt .srx n .addressPhaseFailed ok
  let ok2 ← poll bt n (fun v => matchPat v (pSrxTxe cfg)) cfg.nSrxTxe 0
  let st ← decodeStatus bt n
  diag bt (if ok2 then .info else .warn) st []
  setPhase bt n .dataPhase
  regSet bt n .ctl2 (dmaenMask cfg)
  chEnable bt c cfg.dmaCap
  finishGuarded bt n
  succeed bt

/-- TCQ (R116): bit 0 is `c.tc`, bit 1 is `c.en`. -/
def tcqRun (bt : Run Unit) (n : Inst) (d : Dir) : Run Unit := do
  enter bt n false
  let c ← needChannel bt n d
  let en ← chEnabled bt c
  let tc ← chTc bt c
  putRdata0 bt (queryWord en tc)
  succeed bt

/-- R119, R120: the step of channel `c` is enabled: the channel enabled, DMAEN set, bytes left, and the controller
asking (TXE to transmit, RXNE to receive). -/
def engineEnabled (s : State) (c : ChanId) : Bool :=
  let ch := s.chan c
  let ctrl := (s.bus c.inst).ctrl
  ch.en && ctrl.ctl2.getLsbD s.cfg.flags.dmaen && decide (ch.idx < ch.count) &&
    match c.dir with
    | .tx => ctrl.srP.getLsbD s.cfg.flags.txe
    | .rx => ctrl.srP.getLsbD s.cfg.flags.rxne

/-- R119, R120: `c.idx <- c.idx + 1; if c.idx == c.count: c.tc <- 1`. -/
def Chan.advance (c : Chan) : Chan :=
  { c with idx := c.idx + 1, tc := if c.idx + 1 = c.count then true else c.tc }

/-- R119: a transmit step writes `buf[idx]` to DR. -/
def engineTxStep (n : Inst) (s : State) : State :=
  let c : ChanId := ⟨n, .tx⟩
  let b := ((s.chan c).buf[(s.chan c).idx]?).getD 0
  ((s.modCtrl n fun k => k.put s.cfg .dr (dataHalf b)).modChan c Chan.advance).log (.engineTx c b)

/-- R120: a receive step reads DR into `buf[idx]`. -/
def engineRxStep (n : Inst) (s : State) : State :=
  let c : ChanId := ⟨n, .rx⟩
  let b := lowByte ((s.bus n).ctrl.get .dr)
  (s.modChan c fun ch => (ch.put ch.idx b).advance).log (.engineRx c b)

/-- R119 to R121: the engine of channel `c` takes its step where one is enabled. -/
def engineStep (c : ChanId) (s : State) : State :=
  if engineEnabled s c then
    match c.dir with
    | .tx => engineTxStep c.inst s
    | .rx => engineRxStep c.inst s
  else s

end Sys2Proof.Machine
end

