-- ==== Sys2Proof/Machine/Hooks.lean ====
section
/-! DEFINITION. The Interrupt Hooks: EVH and ERH (R135 to R137). -/
namespace Sys2Proof.Machine

/-- EVH (R135): log the decoded status. -/
def evhRun (bt : Run Unit) (n : Inst) : Run Unit := do
  enter bt n false
  let st ← decodeStatus bt n
  diag bt .eventIrq st []
  succeed bt

/-- ERH (R136): log the decoded status, then clear exactly the error bits in one step. -/
def erhRun (bt : Run Unit) (n : Inst) : Run Unit := do
  enter bt n false
  let c ← params
  let st ← decodeStatus bt n
  diag bt .errorIrq st []
  regClr bt n .srP c.errMask
  succeed bt

end Sys2Proof.Machine
end

