-- ==== Sys2Proof/Machine/Lifecycle.lean ====
section
/-! DEFINITION. The Controller Lifecycle: INIT, RESET, ENABLE, DISABLE, PSTAT (R126 to R131). -/
namespace Sys2Proof.Machine

/-- `irq_enable(l)` (R9, R154). -/
def irqEnable (bt : Run Unit) (l : Line) : Run Unit := do
  let c ← params
  update bt (enableLine (lineNumber c l))

/-- INIT (R126), the one command legal on an unbound instance. -/
def initRun (bt : Run Unit) (n : Inst) : Run Unit := do
  startCommand bt false
  let c ← params
  update bt fun s => s.modBus n fun b => { b with lock := false }
  update bt fun s => s.modBus n fun b => { b with ownAddress := ownAddr c n }
  update bt fun s => s.modBus n fun b => { b with bound := true }
  resetSeq bt n
  irqEnable bt ⟨.event, n⟩
  irqEnable bt ⟨.error, n⟩
  succeed bt

/-- RESET (R127). -/
def resetRun (bt : Run Unit) (n : Inst) : Run Unit := do
  enter bt n false
  resetSeq bt n
  putResult bt withResetRan
  succeed bt

/-- ENABLE (R128). -/
def enableRun (bt : Run Unit) (n : Inst) : Run Unit := do
  enter bt n false
  let c ← params
  regSet bt n .ctl (peMask c)
  succeed bt

/-- DISABLE (R129). -/
def disableRun (bt : Run Unit) (n : Inst) : Run Unit := do
  enter bt n false
  let c ← params
  regClr bt n .ctl (peMask c)
  succeed bt

/-- PSTAT (R130): five register reads, a decode, a record, the busy poll, a warning where it stays busy. -/
def pstatRun (bt : Run Unit) (n : Inst) : Run Unit := do
  enter bt n false
  let c ← params
  let c1 ← regRead bt n .ctl
  let c2 ← regRead bt n .ctl2
  let oa ← regRead bt n .oar
  let cc ← regRead bt n .ccr
  let tr ← regRead bt n .trise
  let st ← decodeStatus bt n
  diag bt .info st [c1, c2, oa, cc, tr]
  let ok ← poll bt n (fun v => !isBusy c v) c.nPstat c.dPstat
  runIf (!ok) do
    let v ← decodeStatus bt n
    diag bt .warn v []
  succeed bt

end Sys2Proof.Machine
end

