-- ==== Sys2Proof/Machine/Status.lean ====
section
/-! DEFINITION. The Status Decoder's commands (R90 to R94). -/
namespace Sys2Proof.Machine

/-- STATUS (R90): `RDATA0 <- status(i)`. -/
def statusRun (bt : Run Unit) (n : Inst) : Run Unit := do
  enter bt n false
  let v ← decodeStatus bt n
  putRdata0 bt v
  succeed bt

/-- ISEQ (R91): PRED is `(v & flags) == flags`, flags = ARG0. -/
def iseqRun (bt : Run Unit) (n : Inst) : Run Unit := do
  let flags ← latchArg0
  enter bt n false
  let v ← decodeStatus bt n
  putResult bt (withPred · (isEqual v flags))
  putRdata0 bt v
  succeed bt

/-- ISEQM (R92): PRED is `(v & mask) == flags`, flags = ARG0, mask = ARG1. -/
def iseqmRun (bt : Run Unit) (n : Inst) : Run Unit := do
  let flags ← latchArg0
  let mask ← latchArg1
  enter bt n false
  let v ← decodeStatus bt n
  putResult bt (withPred · (isEqualMasked v flags mask))
  putRdata0 bt v
  succeed bt

end Sys2Proof.Machine
end

