-- ==== Sys2Proof/Machine/Interleave.lean ====
section
/-! DEFINITION. What the other agents do between two primitives of a command (R20, R57, R60, R61, R147 to R152): the moves of
the environment, the DMA engines, the timing collaborator and the host, and the interrupt port's commands, which may
themselves be interrupted. -/
namespace Sys2Proof.Machine

/-- A command of the interrupt port (R6, R149), run with `bt` between its primitives. -/
def runInstr (bt : Run Unit) : Instr → Run Unit
  | .status n => statusRun bt n
  | .iseq n => iseqRun bt n
  | .iseqm n => iseqmRun bt n
  | .gstart n => gstartRun bt n
  | .saddr n d a => saddrRun bt n d a
  | .txbyte n b => txbyteRun bt n b
  | .rxbyte n => rxbyteRun bt n
  | .gstop n => gstopRun bt n
  | .write n a b => writeRun bt n a b
  | .read n a => readRun bt n a
  | .attach n d => attachRun bt n d
  | .mtx n a => mtxRun bt n a
  | .srx n a => srxRun bt n a
  | .tcq n d => tcqRun bt n d
  | .init n => initRun bt n
  | .reset n => resetRun bt n
  | .enable n => enableRun bt n
  | .disable n => disableRun bt n
  | .pstat n => pstatRun bt n
  | .evh n => evhRun bt n
  | .erh n => erhRun bt n

/-- A command word issued on a port (R79, R81): an illegal word is refused. -/
def runWord (bt : Run Unit) (w : Word) : Run Unit :=
  match decode w with
  | .ok i => runInstr bt i
  | .error _ => illegalCommand bt

/-- R60(a), R148: the environment raises or lowers the event line. One it keeps raised for ever (R174) stays up. -/
def envEventLine (n : Inst) (up : Bool) (s : State) : State :=
  s.modBus n fun b => { b with evPend := up || s.stuck == some (.starved n) }

/-- R60(a), R148: the environment raises or lowers the error line, which is tied to the error bits: it rises only while
one is set (log 13). -/
def envErrorLine (n : Inst) (up : Bool) (s : State) : State :=
  s.modBus n fun b => ({ b with erPend := up } : Bus).settleErrLine s.cfg

/-- The moves that are one step of one agent: the environment within the laws of R60, the engines (R119, R120), the
timing collaborator (R152), the host (R6, R50). -/
def quietMove : Move → State → State
  | .envSrP n v => fun s => s.modCtrl n fun c => { c with srP := v }
  | .envSrS n v => fun s => s.modCtrl n fun c => { c with srS := v }
  | .envDr n b => fun s => s.modCtrl n fun c => { c with drRx := b }
  | .envClrStart n => fun s => s.modCtrl n fun c => { c with ctl := c.ctl &&& ~~~startMask s.cfg }
  | .envClrStop n => fun s => s.modCtrl n fun c => { c with ctl := c.ctl &&& ~~~stopMask s.cfg }
  | .envEv n up => envEventLine n up
  | .envEr n up => envErrorLine n up
  | .engine c => engineStep c
  | .tick k => fun s => { s with tick := s.tick + k }
  | .hostStore a b => fun s => { s with mem := memPut s.mem a b }
  | .hostArg0 v => fun s => { s with fg := { s.fg with arg0 := v } }
  | .hostArg1 v => fun s => { s with fg := { s.fg with arg1 := v } }
  | .hostIssue w => fun s => { s with fgCmd := s.fgCmd.or (some w) }
  | .fire _ => id
  | .issueIrq _ => id
  | .starve _ => id

/-- The issuer writes the interrupt bank's ARG registers before the command (R32). -/
def writeIrqArgs (c : IrqCmd) (s : State) : State :=
  { s with irq := { s.irq with arg0 := c.arg0.getD s.irq.arg0, arg1 := c.arg1.getD s.irq.arg1 } }

/-- R149, R151: entry, one whole command on the interrupt port, return. -/
def onIrqPort (hook : Option Line) (x : Run Unit) : Run Unit := do
  let old ← look id
  tweak (irqEnter hook)
  runWhole x
  tweak (irqReturn old)

/-- R149: a line that can fire runs its hook; one that cannot does nothing. `bt` is what other agents do between the hook's
primitives. DESIGN CHOICE: a line that can fire is taken where the schedule has this move and not before, so it may stay untaken
while the foreground steps (log 34). -/
def fireLine (bt : Run Unit) (l : Line) : Run Unit := do
  let fires ← look (canFire · l)
  runIf fires (onIrqPort (some l) (runInstr bt (hookOf l)))

/-- R6, R20, R57(b), R57(c), R153: a command issued on the interrupt port runs whole, whatever is running. -/
def issueIrq (bt : Run Unit) (c : IrqCmd) : Run Unit := do
  let free ← look (canIssue · c)
  runIf free do
    tweak (writeIrqArgs c)
    onIrqPort (wordHook c.word) (runWord bt c.word)

/-- R174: from here on the event line stays raised and EVH runs back to back: the suspended command never steps
again. Where both instances' lines are kept raised, the later of two such moves names the hook that runs for ever (log 8). -/
def starveFrom (n : Inst) : Run Unit := do
  let fires ← look (canFire · ⟨.event, n⟩)
  runIf fires fun s => .error .hung { s with port := .irq, stuck := some (.starved n) }

/-- One move, `bt` between the primitives of a command that it runs. -/
def applyMove (bt : Run Unit) : Move → Run Unit
  | .fire l => fireLine bt l
  | .issueIrq c => issueIrq bt c
  | .starve n => starveFrom n
  | m => tweak (quietMove m)

/-- The moves of one batch, in their order (R57(d), R121, R150: any order may stand in a schedule). An interrupt handler of
several commands is a `fire` and `issueIrq` moves, in the order it issues them (R6). -/
def applyMoves (bt : Run Unit) : List Move → Run Unit
  | [] => pure ()
  | m :: ms => do
    applyMove bt m
    applyMoves bt ms

/-- The next batch of the schedule; past its end no other agent moves (log 5). -/
def popBatch : Run (List Move) := fun s =>
  match s.sched with
  | [] => .ok [] s
  | b :: rest => .ok b { s with sched := rest }

/-- What other agents do before a primitive: one batch, and inside a command it runs on the interrupt port the batches
after it (R57). Each level takes a batch, so `depth` levels are enough for a schedule of that length. -/
def between : Nat → Run Unit
  | 0 => pure ()
  | depth + 1 => do
    let ms ← popBatch
    applyMoves (between depth) ms

/-- What other agents do before a primitive of a command: interrupts nest as deep as the schedule has them (log 9). -/
def others : Run Unit := do
  let depth ← look (·.sched.length)
  between depth

end Sys2Proof.Machine
end

