-- ==== Sys2Proof/Machine/Exec.lean ====
section
/-! DEFINITION. The meaning of each command on the port in use: the whole command, from issue to its end, with the other agents
stepping before each of its primitives. -/
namespace Sys2Proof.Machine

/-- STATUS (R90). -/
def execStatus (n : Inst) (s : State) : Host.Outcome State Fault Refusal :=
  toOutcome (statusRun others n s)

/-- ISEQ (R91). -/
def execIseq (n : Inst) (s : State) : Host.Outcome State Fault Refusal :=
  toOutcome (iseqRun others n s)

/-- ISEQM (R92). -/
def execIseqm (n : Inst) (s : State) : Host.Outcome State Fault Refusal :=
  toOutcome (iseqmRun others n s)

/-- GSTART (R95). -/
def execGstart (n : Inst) (s : State) : Host.Outcome State Fault Refusal :=
  toOutcome (gstartRun others n s)

/-- SADDR (R96). -/
def execSaddr (n : Inst) (d : Dir) (a : Addr7) (s : State) : Host.Outcome State Fault Refusal :=
  toOutcome (saddrRun others n d a s)

/-- TXBYTE (R97). -/
def execTxbyte (n : Inst) (b : Byte) (s : State) : Host.Outcome State Fault Refusal :=
  toOutcome (txbyteRun others n b s)

/-- RXBYTE (R98). -/
def execRxbyte (n : Inst) (s : State) : Host.Outcome State Fault Refusal :=
  toOutcome (rxbyteRun others n s)

/-- GSTOP (R99). -/
def execGstop (n : Inst) (s : State) : Host.Outcome State Fault Refusal :=
  toOutcome (gstopRun others n s)

/-- WRITE (R106). -/
def execWrite (n : Inst) (a : Addr7) (b : Byte) (s : State) : Host.Outcome State Fault Refusal :=
  toOutcome (writeRun others n a b s)

/-- READ (R107). -/
def execRead (n : Inst) (a : Addr7) (s : State) : Host.Outcome State Fault Refusal :=
  toOutcome (readRun others n a s)

/-- ATTACH (R113). -/
def execAttach (n : Inst) (d : Dir) (s : State) : Host.Outcome State Fault Refusal :=
  toOutcome (attachRun others n d s)

/-- MTX (R114). -/
def execMtx (n : Inst) (a : Addr7) (s : State) : Host.Outcome State Fault Refusal :=
  toOutcome (mtxRun others n a s)

/-- SRX (R115). -/
def execSrx (n : Inst) (a : Addr7) (s : State) : Host.Outcome State Fault Refusal :=
  toOutcome (srxRun others n a s)

/-- TCQ (R116). -/
def execTcq (n : Inst) (d : Dir) (s : State) : Host.Outcome State Fault Refusal :=
  toOutcome (tcqRun others n d s)

/-- INIT (R126). -/
def execInit (n : Inst) (s : State) : Host.Outcome State Fault Refusal :=
  toOutcome (initRun others n s)

/-- RESET (R127). -/
def execReset (n : Inst) (s : State) : Host.Outcome State Fault Refusal :=
  toOutcome (resetRun others n s)

/-- ENABLE (R128). -/
def execEnable (n : Inst) (s : State) : Host.Outcome State Fault Refusal :=
  toOutcome (enableRun others n s)

/-- DISABLE (R129). -/
def execDisable (n : Inst) (s : State) : Host.Outcome State Fault Refusal :=
  toOutcome (disableRun others n s)

/-- PSTAT (R130). -/
def execPstat (n : Inst) (s : State) : Host.Outcome State Fault Refusal :=
  toOutcome (pstatRun others n s)

/-- EVH (R135). -/
def execEvh (n : Inst) (s : State) : Host.Outcome State Fault Refusal :=
  toOutcome (evhRun others n s)

/-- ERH (R136). -/
def execErh (n : Inst) (s : State) : Host.Outcome State Fault Refusal :=
  toOutcome (erhRun others n s)

end Sys2Proof.Machine
end

