-- ==== Sys2Proof/Machine/Dispatch.lean ====
section
/-! DEFINITION. One arm per command (R75): the meaning of each. -/
namespace Sys2Proof.Machine

def exec (i : Instr) (s : State) : Host.Outcome State Fault Refusal :=
  match i with
  | .status n => Sys2Proof.Machine.execStatus n s
  | .iseq n => Sys2Proof.Machine.execIseq n s
  | .iseqm n => Sys2Proof.Machine.execIseqm n s
  | .gstart n => Sys2Proof.Machine.execGstart n s
  | .saddr n d a => Sys2Proof.Machine.execSaddr n d a s
  | .txbyte n b => Sys2Proof.Machine.execTxbyte n b s
  | .rxbyte n => Sys2Proof.Machine.execRxbyte n s
  | .gstop n => Sys2Proof.Machine.execGstop n s
  | .write n a b => Sys2Proof.Machine.execWrite n a b s
  | .read n a => Sys2Proof.Machine.execRead n a s
  | .attach n d => Sys2Proof.Machine.execAttach n d s
  | .mtx n a => Sys2Proof.Machine.execMtx n a s
  | .srx n a => Sys2Proof.Machine.execSrx n a s
  | .tcq n d => Sys2Proof.Machine.execTcq n d s
  | .init n => Sys2Proof.Machine.execInit n s
  | .reset n => Sys2Proof.Machine.execReset n s
  | .enable n => Sys2Proof.Machine.execEnable n s
  | .disable n => Sys2Proof.Machine.execDisable n s
  | .pstat n => Sys2Proof.Machine.execPstat n s
  | .evh n => Sys2Proof.Machine.execEvh n s
  | .erh n => Sys2Proof.Machine.execErh n s

end Sys2Proof.Machine
end

