-- ==== Sys2Proof/Machine/Idle.lean ====
section
/-! DEFINITION. The steps that run no foreground command: accepting one, refusing an illegal word, the idle port, and a command
that never ends. -/
namespace Sys2Proof.Machine

/-- The foreground port takes the word it was presented; its sequencer executes (R20, R153). DESIGN CHOICE: this is when the
command is issued and its operands are latched (R65, R74), not when the host presents the word (log 30). -/
def acceptCommand (s : State) : State :=
  { s with fgCmd := none, port := .fg }

/-- The host presents a word on the foreground port (R6). -/
def presentCommand (w : Word) (s : State) : State :=
  { s with fgCmd := some w, stuck := none }

/-- R79: an illegal word on the foreground port. -/
def illegalStep (s : State) : Host.Outcome State Fault Refusal :=
  toOutcome (illegalCommand others s)

/-- R149, R165: no command on the foreground port; the other agents take one batch of moves. -/
def idleStep (s : State) : Host.Outcome State Fault Refusal :=
  toOutcome (others s)

/-- R148, R151, R174: the event line that never falls is taken once more: EVH runs, whole, on the interrupt port. -/
def starvedTurn (n : Inst) : Run Unit := do
  others
  onIrqPort (some ⟨.event, n⟩) (runInstr others (.evh n))

/-- R157, R174: one more turn of a command that never ends. -/
def stuckStep (k : Stuck) (s : State) : Host.Outcome State Fault Refusal :=
  match k with
  | .spin n => toOutcome ((do let _ ← resetTurn others n; pure ()) s)
  | .starved n => toOutcome (starvedTurn n s)

end Sys2Proof.Machine
end

