-- ==== Sys2Proof/Machine/Step.lean ====
section
/-! DEFINITION. One step of the machine: the whole of the command presented on the foreground port, or, while the port is idle
or its command never ends, what the other agents do. -/
namespace Sys2Proof.Machine

/-- R12, R20, R57, R79, R157, R165, R174. A command that never ends makes an infinite run. An idle port lets the other agents
take one batch of moves, interrupts among them (R149). A word on the foreground port is decoded and its command runs
whole, on the foreground bank. -/
def step (s : State) : Host.Outcome State Fault Refusal :=
  match s.stuck with
  | some k => stuckStep k s
  | none =>
    match s.fgCmd with
    | none => idleStep s
    | some w =>
      match decode w with
      | .ok i => exec i (acceptCommand s)
      | .error _ => illegalStep (acceptCommand s)

/-- The host presents the word on the foreground port, the port idle and no command for ever in progress (R6, log 17). -/
def State.withFetchWord (s : State) (nbits w : Nat) : State :=
  presentCommand (BitVec.ofNat 32 (w % 2 ^ nbits)) s

end Sys2Proof.Machine
end

