-- ==== Sys2Proof/Safety.lean ====
section
/-! DEFINITION. What counts as a good state, and the terms claims use about what other agents do. -/
namespace Sys2Proof.Machine

/-- A channel in order (R26, R118 to R120): the buffer holds DMA_CAP bytes, no transfer is armed for more or has moved more
than it was armed for, and `tc` says that an armed transfer of at least one byte is complete. -/
def Chan.Good (cap : Nat) (c : Chan) : Prop :=
  c.buf.length = cap ∧ c.idx ≤ c.count ∧ c.count ≤ cap ∧ (c.tc = true ↔ 0 < c.count ∧ c.idx = c.count)

/-- A controller in order: while SWRST is 1, PE, START, STOP, CTL2, OAR, CCR and TRISE are 0 (R28); what was written to DR
has bits 15:8 zero (R29). -/
def Ctrl.Good (cfg : Config) (c : Ctrl) : Prop :=
  c.held cfg = c ∧ c.drTx.extractLsb' 8 8 = 0

/-- An instance in order: a channel is attached to at most one (instance, direction) pair, its own (R23, R26). -/
def Bus.Good (cfg : Config) (n : Inst) (b : Bus) : Prop :=
  (b.dmaTx = none ∨ b.dmaTx = some ⟨n, .tx⟩) ∧ (b.dmaRx = none ∨ b.dmaRx = some ⟨n, .rx⟩) ∧
    b.ctrl.Good cfg ∧ b.chTx.Good cfg.dmaCap ∧ b.chRx.Good cfg.dmaCap

/-- RESULT in order (R33, R34, R140): bits 7 and 15:11 zero, CODE at most 0xB and never BusError's 0x6 (R145), FPHASE a
phase. -/
def resultGood (r : Half) : Bool :=
  r &&& 0xF880 == 0 && decide (resultCode r ≤ 0xB) && resultCode r != 0x6 && decide (resultFPhase r ≤ 5)

/-- The invariant of the machine. -/
def State.Inv (s : State) : Prop :=
  s.cfg.wellFormed = true ∧ (∀ n, (s.bus n).Good s.cfg n) ∧ resultGood s.fg.result = true ∧
    resultGood s.irq.result = true ∧ s.mem.wf ∧ s.irqEn.Pairwise (· < ·)

/-- No other agent moves from here on. -/
def Quiet (s : State) : Prop := s.sched = []

/-- A move that takes an interrupt (R149, R174) or issues a command on the interrupt port (R153). -/
def Move.isInterrupt : Move → Bool
  | .fire _ => true
  | .issueIrq _ => true
  | .starve _ => true
  | _ => false

/-- Nothing runs on the interrupt port from here on; the environment, the engines, the clock and the host may do anything. -/
def NoInterrupt (s : State) : Prop :=
  ∀ b ∈ s.sched, ∀ m ∈ b, m.isInterrupt = false

/-- A controller whose status no decode changes: no flag that the read order clears is set (R55). -/
def Steady (s : State) (n : Inst) : Prop :=
  (s.bus n).ctrl.srP &&& s.cfg.seqClear = 0

/-- What a decode of instance `n` answers when nothing changes between its two reads (R90, R93). -/
def decodedValue (s : State) (n : Inst) : Word :=
  let c := (s.bus n).ctrl
  if gateOpen s.cfg c.srP then composite c.srS c.srP else suppressed c.srP

end Sys2Proof.Machine
end

