-- ==== Sys2Proof/Certificates/Slice0/Obligations.lean ====
section
/-! DEFINITION. The statements for the provers. Where a statement speaks of one command alone, `Quiet` says that no other agent
moves, `Steady` that no flag the read order clears is set, `NoInterrupt` that the other agents take no interrupt but may do
anything else; a statement without them holds for every schedule. Config.freeWord stands for a register the spec leaves
undefined (log 10): no statement rests on its value. -/
namespace Sys2Proof.Claims

open Sys2Proof.Machine

/-! ## Terms -/

/-- The bank of the other port (R32). -/
def otherBank (s : State) : Bank :=
  match s.port with
  | .fg => s.irq
  | .irq => s.fg

/-- All but instance `n`, RESULT, RDATA0, RDATA1 and the poll counter of the port in use, the sink and the trace is as it
was, every byte of host memory included. -/
def KeptOutside (n : Inst) (s t : State) : Prop :=
  (∀ m, m ≠ n → t.bus m = s.bus m) ∧ t.cfg = s.cfg ∧ t.port = s.port ∧ t.fgCmd = s.fgCmd ∧ t.irqEn = s.irqEn ∧
    t.active = s.active ∧ t.tick = s.tick ∧ (∀ a, memGet t.mem a = memGet s.mem a) ∧ t.stuck = s.stuck ∧
    otherBank t = otherBank s ∧ t.bank.arg0 = s.bank.arg0 ∧ t.bank.arg1 = s.bank.arg1

/-- The instance is as it was but for its controller, which is `c`. -/
def OnlyCtrl (n : Inst) (s t : State) (c : Ctrl) : Prop :=
  t.bus n = { s.bus n with ctrl := c }

/-- The port trace items of one decode (R90, 95_test_vectors.md section 0). -/
def decodeItems (n : Inst) (p v : Half) : List Access :=
  [.regRead n .srP p, .regRead n .srS v]

/-- The port trace items of one decode in a state where nothing else moves: SR_S is read when the gate is open. -/
def decodeTrace (s : State) (n : Inst) : List Access :=
  let c := (s.bus n).ctrl
  if gateOpen s.cfg c.srP then decodeItems n c.srP c.srS else [.regRead n .srP c.srP]

/-- The port trace items of `k` decodes of a poll that do not end it, each followed by its delay (R11). -/
def pollTrace (s : State) (n : Inst) (d k : Nat) : List Access :=
  (List.replicate k (decodeTrace s n ++ if d = 0 then [] else [.delay d])).flatten

/-- The controller after one or more decodes of a steady status (R55): only `p_read` follows the gate. -/
def decoded (s : State) (n : Inst) (c : Ctrl) : Ctrl :=
  { c with pRead := !gateOpen s.cfg (s.bus n).ctrl.srP }

/-- The environment sets SR_P just before the next SR_P read and SR_S just before the SR_S read after it (R60(a)). -/
def answers (n : Inst) (p v : Half) : List (List Move) :=
  [[.envSrP n p], [.envSrS n v]]

/-- No other agent moves before the next `k` primitives. -/
def silence (k : Nat) : List (List Move) :=
  List.replicate k []

/-- SWRST is 0 in CTL (R28). -/
def NotInReset (s : State) (n : Inst) : Prop :=
  (s.bus n).ctrl.ctl.getLsbD s.cfg.flags.swrst = false

/-- Every move of the schedule satisfies `A`. -/
def OnlyMoves (A : Move → Bool) (s : State) : Prop :=
  ∀ b ∈ s.sched, ∀ m ∈ b, A m = true

/-- A decode that answers `v` to a poll which waits for `pat` with a budget of at least one. -/
def Reaches (c : Config) (p v : Half) (pat : Word) : Prop :=
  gateOpen c p = true ∧ matchPat (composite v p) pat = true

/-- A decode that finds the bus free. -/
def FindsFree (c : Config) (p v : Half) : Prop :=
  gateOpen c p = true ∧ matchPat (composite v p) (pBusy c) = false

/-- The refusal's end state: `RESULT` holds the code and nothing else, no access is made, and only the result registers
of the port in use, which the refused command leaves undefined (R32), may differ. -/
def RefusedWith (code : Half) (s t : State) : Prop :=
  (∀ n, t.bus n = s.bus n) ∧ t.sink = s.sink ∧ t.trace = s.trace ∧ t.cfg = s.cfg ∧ t.port = s.port ∧
    t.fgCmd = s.fgCmd ∧ t.irqEn = s.irqEn ∧ t.active = s.active ∧ t.tick = s.tick ∧ t.mem = s.mem ∧ t.stuck = s.stuck ∧
    otherBank t = otherBank s ∧ t.bank.arg0 = s.bank.arg0 ∧ t.bank.arg1 = s.bank.arg1 ∧
    t.bank.pollN = s.bank.pollN ∧ t.bank.result = code

/-- R71, R72, R75: the word of a command: OP in 31:24, I in 23, and what the lower fields hold. -/
def wordOf (op : Byte) (n : Inst) (low : Word) : Word :=
  op.setWidth 32 <<< 24 |||
    (match n with
      | .one => 0
      | .two => 0x00800000) ||| low

/-- R71: DIR in bit 8. -/
def dirField : Dir → Word
  | .tx => 0
  | .rx => 0x100

/-- INIT, the one command legal on an unbound instance (R126). -/
def isInit : Instr → Bool
  | .init _ => true
  | _ => false

/-- The four guarded commands (R63). -/
def isGuarded : Instr → Bool
  | .write _ _ _ => true
  | .read _ _ => true
  | .mtx _ _ => true
  | .srx _ _ => true
  | _ => false

/-- The guarded commands that need a channel, with its direction (R81(4)). -/
def channelNeeded : Instr → Option Dir
  | .mtx _ _ => some .tx
  | .srx _ _ => some .rx
  | .tcq _ d => some d
  | _ => none

/-- R142: the CODE values a command may end with. -/
def codesOf : Instr → List (BitVec 4)
  | .init _ => [0x0]
  | .gstart _ => [0x0, 0x2, 0xB]
  | .saddr _ .tx _ => [0x0, 0x3, 0xB]
  | .txbyte _ _ => [0x0, 0x4, 0xB]
  | .rxbyte _ => [0x0, 0x5, 0xB]
  | .write _ _ _ => [0x0, 0x1, 0x2, 0x3, 0x4, 0x8, 0xB]
  | .read _ _ => [0x0, 0x1, 0x2, 0x5, 0x8, 0xB]
  | .mtx _ _ => [0x0, 0x2, 0x3, 0x7, 0x8, 0x9, 0xB]
  | .srx _ _ => [0x0, 0x3, 0x8, 0x9, 0xB]
  | .tcq _ _ => [0x0, 0x9, 0xB]
  | _ => [0x0, 0xB]

/-- The move is about instance `m`. What runs on the interrupt port may be about either. -/
def movesInst (m : Inst) : Move → Bool
  | .envSrP n _ => n == m
  | .envSrS n _ => n == m
  | .envDr n _ => n == m
  | .envClrStart n => n == m
  | .envClrStop n => n == m
  | .envEv n _ => n == m
  | .envEr n _ => n == m
  | .engine c => c.inst == m
  | .tick _ => false
  | .hostStore _ _ => false
  | .hostArg0 _ => false
  | .hostArg1 _ => false
  | .hostIssue _ => false
  | .fire _ => true
  | .issueIrq _ => true
  | .starve _ => true

/-- A store of the host to its memory. -/
def isHostStore : Move → Bool
  | .hostStore _ _ => true
  | _ => false

/-- RESULT of a failure exit: CODE, BUSERR where the failure decode shows an error bit, FPHASE (R33, R143). -/
def failResult (code : Half) (err : Bool) (phase : Half) : Half :=
  code ||| (if err then 0x0010 else 0) ||| (phase <<< 8)

/-- The records of a failure exit (R143). -/
def failRecords (k : ErrKind) (v : Word) (err : Bool) : List Record :=
  ⟨.err k, v, []⟩ :: if err then [⟨.err .busError, v, []⟩] else []

/-- The controller that `reset_seq` leaves, its status loop apart (R127, R166). -/
def afterReset (cfg : Config) (own : Addr7) (c : Ctrl) : Ctrl :=
  { c with
    ctl := c.ctl &&& ~~~(peMask cfg ||| startMask cfg ||| stopMask cfg ||| swrstMask cfg)
    ctl2 := ctl2Value cfg
    trise := triseValue cfg
    oar := oarValue own
    ccr := ccrValue cfg }

/-- The accesses of the status loop of `reset_seq` that ends on its first turn: SR_S is read only where SR_P does not decide
RESET_WAIT (R127, D22). -/
def loopReads (s : State) (n : Inst) : List Access :=
  let c := (s.bus n).ctrl
  if waitByPrimary s.cfg.resetWait c.srP = none then decodeItems n c.srP c.srS else [.regRead n .srP c.srP]

/-- The controller after that turn: `p_read` is 1 where the loop ended on SR_P, 0 where it ended on SR_S (R55, R166). -/
def afterLoop (s : State) (n : Inst) : Ctrl :=
  let c := (s.bus n).ctrl
  if waitByPrimary s.cfg.resetWait c.srP = none then { c with srP := c.srP &&& ~~~s.cfg.seqClear, pRead := false }
  else { c with pRead := true }

/-- RESET_WAIT of the two status fields as they stand. -/
def Waits (s : State) (n : Inst) : Prop :=
  waitHolds s.cfg.resetWait (s.bus n).ctrl.srP (s.bus n).ctrl.srS = true

/-- The command ends in the state `t`, with success, a failure or a refusal. -/
def EndsIn (i : Instr) (s t : State) : Prop :=
  runInstr others i s = .ok () t ∨ runInstr others i s = .error .ended t

/-- The accesses of `reset_seq`, in their order, `reads` those of its status loop (R127, V40). -/
def resetItems (cfg : Config) (n : Inst) (own : Addr7) (reads : List Access) : List Access :=
  [.regClr n .ctl (peMask cfg), .regSet n .ctl (swrstMask cfg), .regClr n .ctl (swrstMask cfg)] ++ reads ++
    [.regClr n .ctl (peMask cfg), .regWrite n .ctl2 (ctl2Value cfg), .regWrite n .trise (triseValue cfg),
      .regWrite n .oar (oarValue own), .regWrite n .ccr (ccrValue cfg)]

end Sys2Proof.Claims

open Sys2Proof Sys2Proof.Machine Sys2Proof.Claims

/-! ## Encoding -/

/-- R71 to R73, R75, R82: decoding the word of a command gives the command back, every operand at every value. -/
def Obligations.DecodeOfEncodeIsIdentity : Prop :=
  ∀ i : Instr, i.wellFormed = true → decode (encode i) = .ok i

/-- R72, R75, R79: the decoder accepts exactly the words that select a row of the opcode map, and a word it accepts is the
one the encoder gives. -/
def Obligations.DecoderAcceptsExactlyLegalWords : Prop :=
  ∀ w : Word, ((∃ i, decode w = .ok i) ↔ wordLegal w = true) ∧ ∀ i, decode w = .ok i → encode i = w

/-- R82, V46: words written out from the spec's encodings. -/
def Obligations.WrittenWordsDecode : Prop :=
  decode 0x205000AB = .ok (.write .one 0x50 0xAB) ∧ decode 0x21D00000 = .ok (.read .two 0x50) ∧
    decode 0x11500100 = .ok (.saddr .one .rx 0x50) ∧ decode 0x30800100 = .ok (.attach .two .rx) ∧
    decode 0x41800000 = .ok (.reset .two) ∧ decode 0x51800000 = .ok (.erh .two) ∧
    decode 0x03000000 = .ok (.iseqm .one) ∧ decode 0x20500100 = .error (.fieldNotZero 0x20) ∧
    decode 0x60000000 = .error (.reservedOp 0x60)

/-! ## Reset and invariants -/

/-- R36: the invariant holds after power-on, whatever the parameters. The clauses about RESULT, the buffers and the controller
registers rest on the model's own values for what R36 calls unspecified or the environment's (logs 3 and 4), host memory's form on
its being empty (log 33), and the parameters are the model's field (log 1). -/
def Obligations.PowerOnMeetsInvariant : Prop :=
  ∀ cfg : Config, cfg.wellFormed = true → State.Inv (State.powerOn cfg)

/-- R36, R165: the power-on values the spec gives, and "the block does nothing until a command is issued" (with nothing listed in the
schedule, log 5), whatever the parameters (log 1). -/
def Obligations.PowerOnValues : Prop :=
  State.reset = State.powerOn Config.default ∧ ∀ cfg : Config,
    let s := State.powerOn cfg
    (∀ n, (s.bus n).bound = false ∧ (s.bus n).dmaTx = none ∧ (s.bus n).dmaRx = none ∧ (s.bus n).phase = .idle ∧
        (s.bus n).ctrl.pRead = false ∧ (s.bus n).evPend = false ∧ (s.bus n).erPend = false) ∧
      (∀ c, (s.chan c).en = false ∧ (s.chan c).tc = false ∧ (s.chan c).idx = 0 ∧ (s.chan c).count = 0) ∧
      s.irqEn = [] ∧ s.sink = [] ∧ s.fgCmd = none ∧ s.active = [] ∧ s.cfg = cfg ∧ step s = .next s

/-- Every step keeps the invariant: host memory's canonical form, the channels within DMA_CAP (R26, R120, R122), their
references keyed (R23), SWRST's hold on the controller (R28), DR's high byte zero (R29), the reserved bits and codes of
RESULT (R33, R140, R145). -/
def Obligations.StepKeepsInvariant : Prop :=
  ∀ s t : State, s.Inv → step s = .next t → t.Inv

/-- R7, R21 (log 1): the parameters are not changed by any step. -/
def Obligations.StepKeepsParameters : Prop :=
  ∀ s t : State, step s = .next t → t.cfg = s.cfg

/-- R118, R147, R152, R155, R167: no step, whatever commands and interrupts it runs, returns an instance to the unbound state,
detaches a channel, disables a channel or disables an interrupt line; the sink is append-only and the tick counter never
falls. -/
def Obligations.NothingIsUndone : Prop :=
  ∀ s t : State, step s = .next t →
    (∀ n, ((s.bus n).bound = true → (t.bus n).bound = true) ∧
      ∀ d, (s.bus n).chanRef d ≠ none → (t.bus n).chanRef d ≠ none) ∧
      (∀ c, (s.chan c).en = true → (t.chan c).en = true) ∧ (∀ l ∈ s.irqEn, l ∈ t.irqEn) ∧
      s.sink <+: t.sink ∧ s.tick ≤ t.tick

/-- R9, R50, R62: the block never writes host memory. Only the host's own stores change it, whatever command and whatever
interrupts run. -/
def Obligations.BlockNeverWritesHostMemory : Prop :=
  ∀ s t : State, OnlyMoves (fun m => !isHostStore m) s → step s = .next t → t.mem = s.mem

/-- R28, R100: no step changes a bit of CTL other than PE, START, STOP and SWRST. -/
def Obligations.UnnamedControlBitsKept : Prop :=
  ∀ s t : State, step s = .next t → ∀ n,
    let named := peMask s.cfg ||| startMask s.cfg ||| stopMask s.cfg ||| swrstMask s.cfg
    (t.bus n).ctrl.ctl &&& ~~~named = (s.bus n).ctrl.ctl &&& ~~~named

/-- R51, R156: a command on one instance changes nothing of the other, whatever other agents do that is not about that
other instance. -/
def Obligations.InstancesAreIsolated : Prop :=
  ∀ (i : Instr) (m : Inst) (s t : State), m ≠ targetOf i → (s.bus (targetOf i)).Good s.cfg (targetOf i) →
    OnlyMoves (fun x => !movesInst m x) s → exec i s = .next t → t.bus m = s.bus m

/-- R34, R63: `phase` is written by WRITE, READ, MTX and SRX only, and `lock` by these and INIT only. -/
def Obligations.PhaseAndLockBelongToGuardedCommands : Prop :=
  ∀ (i : Instr) (s t : State), isGuarded i = false → NoInterrupt s → exec i s = .next t → ∀ n,
    (t.bus n).phase = (s.bus n).phase ∧ (isInit i = false → (t.bus n).lock = (s.bus n).lock)

/-- R63, R109: a guarded command that takes the lock releases it on every exit, success or failure, and leaves `phase`
Idle; one that does not take it leaves it free. The one exception is a command that never ends (R157). -/
def Obligations.GuardedCommandsReleaseTheLock : Prop :=
  ∀ (i : Instr) (s t : State), isGuarded i = true → NoInterrupt s → s.stuck = none →
    (s.bus (targetOf i)).lock = false → (s.bus (targetOf i)).phase = .idle → exec i s = .next t → t.stuck = none →
    (t.bus (targetOf i)).lock = false ∧ (t.bus (targetOf i)).phase = .idle

/-- R106, R108: WRITE never resets the controller: RESULT.RESETRAN is 0 and SWRST is never set, whatever the environment
answers. -/
def Obligations.WriteNeverResets : Prop :=
  ∀ (n : Inst) (a : Addr7) (b : Byte) (s t : State), s.cfg.wellFormed = true → NoInterrupt s →
    exec (.write n a b) s = .next t →
    resultResetRan t.bank.result = false ∧
      ∃ items, t.trace = s.trace ++ items ∧ ∀ x ∈ items, x ≠ .regSet n .ctl (swrstMask s.cfg)

/-- R142: the CODE a command ends with is one of the values the table gives it, whatever the environment does. -/
def Obligations.ResultCodesPerCommand : Prop :=
  ∀ (i : Instr) (s t : State), NoInterrupt s → s.stuck = none → exec i s = .next t → t.stuck = none →
    resultCode t.bank.result ∈ codesOf i

/-! ## Issue and refusals -/

/-- R12, R73, R75: the step of a state whose foreground port holds the word of a command is that command, on the foreground
port, the port free again. -/
def Obligations.StepRunsTheDecodedCommand : Prop :=
  ∀ (s : State) (w : Word) (i : Instr), s.stuck = none → s.fgCmd = some w → decode w = .ok i →
    step s = exec i { s with fgCmd := none, port := .fg }

/-- R79: a word that selects no row performs no access of any kind and writes RESULT.CODE ILLEGAL (0xA). -/
def Obligations.IllegalWordIsRefused : Prop :=
  ∀ (s : State) (w : Word), Quiet s → s.stuck = none → s.fgCmd = some w → wordLegal w = false →
    ∃ t, step s = .next t ∧ RefusedWith 0x000A { s with fgCmd := none, port := .fg } t

/-- R80: a legal command other than INIT on an unbound instance performs no access and writes RESULT.CODE NOTBOUND
(0xB). -/
def Obligations.UnboundInstanceIsRefused : Prop :=
  ∀ (i : Instr) (s : State), Quiet s → isInit i = false → (s.bus (targetOf i)).bound = false →
    ∃ t, exec i s = .next t ∧ RefusedWith 0x000B s t

/-- R81(4), R117: MTX, SRX and TCQ without the channel of their direction: no access, RESULT.CODE NOCHANNEL (0x9), the lock
not touched, held or not. -/
def Obligations.MissingChannelIsRefused : Prop :=
  ∀ (i : Instr) (d : Dir) (s : State), Quiet s → channelNeeded i = some d → (s.bus (targetOf i)).bound = true →
    (s.bus (targetOf i)).chanRef d = none → ∃ t, exec i s = .next t ∧ RefusedWith 0x0009 s t

/-- R63, R81(5), V21c: WRITE, READ, MTX and SRX on a held lock: no access, RESULT.CODE LOCKED (0x8), the lock stays held. -/
def Obligations.HeldLockIsRefused : Prop :=
  ∀ (i : Instr) (s : State), Quiet s → isGuarded i = true → (s.bus (targetOf i)).bound = true →
    (s.bus (targetOf i)).lock = true → (∀ d, channelNeeded i = some d → (s.bus (targetOf i)).chanRef d ≠ none) →
    ∃ t, exec i s = .next t ∧ RefusedWith 0x0008 s t

/-! ## Status Decoder -/

/-- R90, R93: STATUS answers the composite of the two fields, or the primary alone where the gate suppresses the secondary
read; the read order clears SEQ_CLEAR only where SR_S was read (R55); nothing else changes. -/
def Obligations.StatusAnswersTheComposite : Prop :=
  ∀ (n : Inst) (s : State), Quiet s → (s.bus n).bound = true →
    let c := (s.bus n).ctrl
    let gate := !c.srP.getLsbD s.cfg.flags.latch || c.srP.getLsbD s.cfg.flags.addrm
    ∃ t, exec (.status n) s = .next t ∧ t.bank.result = 0 ∧
      t.bank.rdata0 = (if gate then c.srS.setWidth 32 <<< 16 ||| c.srP.setWidth 32 else c.srP.setWidth 32) ∧
      OnlyCtrl n s t { c with srP := if gate then c.srP &&& ~~~s.cfg.seqClear else c.srP, pRead := !gate } ∧
      KeptOutside n s t ∧ t.bank.pollN = s.bank.pollN ∧ t.sink = s.sink ∧ t.trace = s.trace ++ decodeTrace s n

/-- R91, R92: ISEQ answers `(v & flags) == flags` and ISEQM `(v & mask) == flags` in RESULT.PRED, and the tested composite in
RDATA0; the frame is STATUS's. -/
def Obligations.IsEqualAnswersThePredicate : Prop :=
  ∀ (n : Inst) (s : State), Quiet s → (s.bus n).bound = true →
    let v := decodedValue s n
    let c := (s.bus n).ctrl
    let gate := gateOpen s.cfg c.srP
    let after := { c with srP := if gate then c.srP &&& ~~~s.cfg.seqClear else c.srP, pRead := !gate }
    encode (.iseq n) = wordOf 0x02 n 0 ∧ encode (.iseqm n) = wordOf 0x03 n 0 ∧
    (∃ t, exec (.iseq n) s = .next t ∧ t.bank.rdata0 = v ∧
      t.bank.result = (if v &&& s.bank.arg0 = s.bank.arg0 then 0x0040 else 0x0000) ∧
      OnlyCtrl n s t after ∧ KeptOutside n s t ∧ t.bank.pollN = s.bank.pollN ∧ t.sink = s.sink) ∧
    ∃ t, exec (.iseqm n) s = .next t ∧ t.bank.rdata0 = v ∧
      t.bank.result = (if v &&& s.bank.arg1 = s.bank.arg0 then 0x0040 else 0x0000) ∧
      OnlyCtrl n s t after ∧ KeptOutside n s t ∧ t.bank.pollN = s.bank.pollN ∧ t.sink = s.sink

/-- R65, R74: ISEQ, ISEQM and MTX, the commands with operands in ARG0 and ARG1, use the values these registers hold when the
command is issued, the start of the step that runs it (log 30): what the host writes there afterwards does not reach it. Of MTX
this is seen where a source byte is missing (log 11): it reads `len` bytes from `src`, both as latched. -/
def Obligations.OperandsAreLatchedAtIssue : Prop :=
  ∀ (n : Inst) (s : State) (x y : Word), s.port = .fg → (s.bus n).bound = true →
    s.sched = [[.hostArg0 x, .hostArg1 y]] →
    (∃ t, exec (.iseq n) s = .next t ∧ t.fg.arg0 = x ∧ t.fg.arg1 = y ∧
      (resultPred t.fg.result = true ↔ decodedValue s n &&& s.fg.arg0 = s.fg.arg0)) ∧
    (∃ t, exec (.iseqm n) s = .next t ∧ t.fg.arg0 = x ∧ t.fg.arg1 = y ∧
      (resultPred t.fg.result = true ↔ decodedValue s n &&& s.fg.arg1 = s.fg.arg0)) ∧
    ∀ (a : Addr7) (j : Nat), (s.bus n).lock = false → (s.bus n).dmaTx ≠ none →
      j < min s.fg.arg1.toNat s.cfg.dmaCap → (∀ m, m < j → memGet s.mem (s.fg.arg0 + BitVec.ofNat 32 m) ≠ none) →
      memGet s.mem (s.fg.arg0 + BitVec.ofNat 32 j) = none →
      exec (.mtx n a) s = .fault (.hostByteAbsent (s.fg.arg0 + BitVec.ofNat 32 j))

/-- R55: a read of SR_P sets `p_read` and answers SR_P; a read of SR_S answers SR_S and, with `p_read` set, clears SEQ_CLEAR in
SR_P and `p_read`, and with it clear changes neither; a read of any other register changes no register (R56). -/
def Obligations.ReadOrderClear : Prop :=
  ∀ (n : Inst) (r : Reg) (s : State),
    let c := (s.bus n).ctrl
    let d := ((readReg n r s).2.bus n).ctrl
    (r = .srP → (readReg n r s).1 = c.srP ∧ d = { c with pRead := true }) ∧
      (r = .srS → (readReg n r s).1 = c.srS ∧
        d = if c.pRead then { c with srP := c.srP &&& ~~~s.cfg.seqClear, pRead := false } else c) ∧
      (r ≠ .srP → r ≠ .srS → d = c)

/-! ## Bus Primitives -/

/-- R95 on a bus whose status shows P_START, and so BUSY, throughout (V11): the busy wait runs out, N_START_BUSY decodes each with
its delay, START is requested all the same and only then, and the command succeeds at the next decode. -/
def Obligations.GstartCompletesOnStartPattern : Prop :=
  ∀ (n : Inst) (s : State), Quiet s → Steady s n → (s.bus n).bound = true → 0 < s.cfg.nStartWait →
    matchPat (decodedValue s n) (pStart s.cfg) = true →
    ∃ t, exec (.gstart n) s = .next t ∧ t.bank.result = 0 ∧
      t.trace = s.trace ++ pollTrace s n s.cfg.dStartBusy s.cfg.nStartBusy ++ [.regSet n .ctl (startMask s.cfg)] ++
        decodeTrace s n ∧
      OnlyCtrl n s t
        (decoded s n (({ (s.bus n).ctrl with ctl := (s.bus n).ctrl.ctl ||| startMask s.cfg } : Ctrl).held s.cfg)) ∧
      KeptOutside n s t ∧ t.sink = s.sink

/-- R95, R143: with P_START never shown: the busy wait (one decode on a free bus, N_START_BUSY each with its delay on a busy one),
then START, requested all the same and left set, then N_START_WAIT decodes each with its delay; the failure is recorded with a
fresh decode, and the CODE is StartConditionFailed (2) with FPHASE 0 (R100). -/
def Obligations.GstartFailsWithoutStartPattern : Prop :=
  ∀ (n : Inst) (s : State), Quiet s → Steady s n → (s.bus n).bound = true →
    matchPat (decodedValue s n) (pStart s.cfg) = false →
    let busyWait :=
      if matchPat (decodedValue s n) (pBusy s.cfg) then pollTrace s n s.cfg.dStartBusy s.cfg.nStartBusy
      else pollTrace s n 0 (min 1 s.cfg.nStartBusy)
    ∃ t, exec (.gstart n) s = .next t ∧
      t.bank.result = failResult 0x0002 (errSeen s.cfg (decodedValue s n)) 0 ∧
      t.sink = s.sink ++ failRecords .startConditionFailed (decodedValue s n) (errSeen s.cfg (decodedValue s n)) ∧
      t.trace = s.trace ++ busyWait ++ [.regSet n .ctl (startMask s.cfg)] ++
        pollTrace s n s.cfg.dStartWait s.cfg.nStartWait ++ decodeTrace s n ∧
      OnlyCtrl n s t
        (decoded s n (({ (s.bus n).ctrl with ctl := (s.bus n).ctrl.ctl ||| startMask s.cfg } : Ctrl).held s.cfg)) ∧
      KeptOutside n s t

/-- R76, R96: SADDR Transmit writes `address << 1` to DR and succeeds when P_ADDR_TX is shown. -/
def Obligations.SaddrTransmitCompletes : Prop :=
  ∀ (n : Inst) (a : Addr7) (s : State), Quiet s → Steady s n → (s.bus n).bound = true → 0 < s.cfg.nSpin →
    matchPat (decodedValue s n) (pAddrTx s.cfg) = true →
    ∃ t, exec (.saddr n .tx a) s = .next t ∧ t.bank.result = 0 ∧
      OnlyCtrl n s t (decoded s n (({ (s.bus n).ctrl with drTx := a.setWidth 16 <<< 1 } : Ctrl).held s.cfg)) ∧
      KeptOutside n s t ∧ t.sink = s.sink ∧
      t.trace = s.trace ++ [.regWrite n .dr (a.setWidth 16 <<< 1)] ++ decodeTrace s n

/-- R76, R96: SADDR Receive writes `(address << 1) | 1` to DR, makes exactly one register access, and succeeds whatever the
controller shows. -/
def Obligations.SaddrReceiveIsUnverified : Prop :=
  ∀ (n : Inst) (a : Addr7) (s : State), Quiet s → (s.bus n).bound = true →
    ∃ t, exec (.saddr n .rx a) s = .next t ∧ t.bank.result = 0 ∧
      OnlyCtrl n s t (({ (s.bus n).ctrl with drTx := a.setWidth 16 <<< 1 ||| 1 } : Ctrl).held s.cfg) ∧
      KeptOutside n s t ∧ t.bank.pollN = s.bank.pollN ∧ t.sink = s.sink ∧
      t.trace = s.trace ++ [.regWrite n .dr (a.setWidth 16 <<< 1 ||| 1)]

/-- R97: TXBYTE writes the byte to DR as it is and succeeds when P_BYTE_TX is shown. -/
def Obligations.TxbyteCompletes : Prop :=
  ∀ (n : Inst) (b : Byte) (s : State), Quiet s → Steady s n → (s.bus n).bound = true → 0 < s.cfg.nSpin →
    matchPat (decodedValue s n) (pByteTx s.cfg) = true →
    ∃ t, exec (.txbyte n b) s = .next t ∧ t.bank.result = 0 ∧
      OnlyCtrl n s t (decoded s n (({ (s.bus n).ctrl with drTx := b.setWidth 16 } : Ctrl).held s.cfg)) ∧
      KeptOutside n s t ∧ t.sink = s.sink ∧
      t.trace = s.trace ++ [.regWrite n .dr (b.setWidth 16)] ++ decodeTrace s n

/-- R96, R97, R100, R143: SADDR Transmit and TXBYTE, their pattern never shown: the one DR write, N_SPIN decodes without a delay, the
failure decode; AddressPhaseFailed (3) or TransmitByteFailed (4) with FPHASE 0; no reset, DR keeps the written byte. -/
def Obligations.TransmitPrimitivesTimeOut : Prop :=
  ∀ (n : Inst) (a : Addr7) (b : Byte) (s : State), Quiet s → Steady s n → (s.bus n).bound = true →
    let v := decodedValue s n
    let err := errSeen s.cfg v
    let decodes := (List.replicate (s.cfg.nSpin + 1) (decodeTrace s n)).flatten
    (matchPat v (pAddrTx s.cfg) = false →
      ∃ t, exec (.saddr n .tx a) s = .next t ∧ t.bank.result = failResult 0x0003 err 0 ∧
        t.sink = s.sink ++ failRecords .addressPhaseFailed v err ∧
        t.trace = s.trace ++ [.regWrite n .dr (a.setWidth 16 <<< 1)] ++ decodes ∧
        OnlyCtrl n s t (decoded s n (({ (s.bus n).ctrl with drTx := a.setWidth 16 <<< 1 } : Ctrl).held s.cfg)) ∧
        KeptOutside n s t) ∧
    (matchPat v (pByteTx s.cfg) = false →
      ∃ t, exec (.txbyte n b) s = .next t ∧ t.bank.result = failResult 0x0004 err 0 ∧
        t.sink = s.sink ++ failRecords .transmitByteFailed v err ∧
        t.trace = s.trace ++ [.regWrite n .dr (b.setWidth 16)] ++ decodes ∧
        OnlyCtrl n s t (decoded s n (({ (s.bus n).ctrl with drTx := b.setWidth 16 } : Ctrl).held s.cfg)) ∧
        KeptOutside n s t)

/-- R98: RXBYTE, the pattern shown: the byte DR answers goes to RDATA0 and `last_rx`; DR is read once, after the matching
decode. -/
def Obligations.RxbyteCompletes : Prop :=
  ∀ (n : Inst) (s : State), Quiet s → Steady s n → (s.bus n).bound = true → 0 < s.cfg.nRx →
    matchPat (decodedValue s n) (pByteRx s.cfg) = true →
    let b := (s.bus n).ctrl.drRx
    ∃ t, exec (.rxbyte n) s = .next t ∧ t.bank.result = 0 ∧ t.bank.rdata0 = b.setWidth 32 ∧
      t.bus n = { s.bus n with ctrl := decoded s n (s.bus n).ctrl, lastRx := b } ∧
      KeptOutside n s t ∧ t.sink = s.sink ∧
      t.trace = s.trace ++ decodeTrace s n ++ [.regRead n .dr (b.setWidth 16)]

/-- R11, R98, R143, R184: RXBYTE, the pattern never shown: N_RX decodes, each followed by its delay, then the failure decode; DR
is not read, `last_rx` is as it was, CODE is ReceiveByteFailed (5). That RDATA0 keeps its value is V19's; the rules say only that
it is not written, and the model takes V19 (log 10). -/
def Obligations.RxbyteTimesOut : Prop :=
  ∀ (n : Inst) (s : State), Quiet s → Steady s n → (s.bus n).bound = true →
    matchPat (decodedValue s n) (pByteRx s.cfg) = false →
    let turn := decodeTrace s n ++ if s.cfg.dRx = 0 then [] else [.delay s.cfg.dRx]
    ∃ t, exec (.rxbyte n) s = .next t ∧
      t.bank.result = failResult 0x0005 (errSeen s.cfg (decodedValue s n)) 0 ∧ t.bank.rdata0 = s.bank.rdata0 ∧
      t.trace = s.trace ++ (List.replicate s.cfg.nRx turn).flatten ++ decodeTrace s n ∧
      t.sink = s.sink ++ failRecords .receiveByteFailed (decodedValue s n) (errSeen s.cfg (decodedValue s n)) ∧
      OnlyCtrl n s t (decoded s n (s.bus n).ctrl) ∧ KeptOutside n s t

/-- R99: GSTOP sets CTL.STOP in one access, makes no decode and always succeeds, whatever the bus state. -/
def Obligations.GstopCompletes : Prop :=
  ∀ (n : Inst) (s : State), Quiet s → (s.bus n).bound = true →
    encode (.gstop n) = wordOf 0x14 n 0 ∧
    ∃ t, exec (.gstop n) s = .next t ∧ t.bank.result = 0 ∧
      OnlyCtrl n s t (({ (s.bus n).ctrl with ctl := (s.bus n).ctrl.ctl ||| stopMask s.cfg } : Ctrl).held s.cfg) ∧
      KeptOutside n s t ∧ t.bank.pollN = s.bank.pollN ∧ t.sink = s.sink ∧
      t.trace = s.trace ++ [.regSet n .ctl (stopMask s.cfg)]

/-! ## Transaction Engine -/

/-- R106, S6, V20: WRITE on a bus that reports not busy and reaches every expected pattern: the trace is BusyCheck, Start,
Address, DataPhase, Stop in order, START and STOP set exactly once, DR given the address byte and then the data; the lock is
free and the phase Idle at the end. `q` and `v` are the environment's answers. -/
def Obligations.WriteCompletesOnCooperativeBus : Prop :=
  ∀ (n : Inst) (a : Addr7) (b : Byte) (s : State) (q v : Nat → Half) (rest : List (List Move)),
    s.cfg.wellFormed = true → NotInReset s n → (s.bus n).bound = true → (s.bus n).lock = false →
    0 < s.cfg.nWrBusy → 0 < s.cfg.nStartBusy → 0 < s.cfg.nStartWait → 0 < s.cfg.nSpin →
    FindsFree s.cfg (q 0) (v 0) → FindsFree s.cfg (q 1) (v 1) → Reaches s.cfg (q 2) (v 2) (pStart s.cfg) →
    Reaches s.cfg (q 3) (v 3) (pAddrTx s.cfg) → Reaches s.cfg (q 4) (v 4) (pByteTx s.cfg) →
    s.sched = silence 4 ++ answers n (q 0) (v 0) ++ silence 1 ++ answers n (q 1) (v 1) ++ silence 1 ++
      answers n (q 2) (v 2) ++ silence 2 ++ answers n (q 3) (v 3) ++ silence 2 ++ answers n (q 4) (v 4) ++ silence 5 ++
      rest →
    ∃ t, exec (.write n a b) s = .next t ∧ t.bank.result = 0 ∧ t.sched = rest ∧ t.sink = s.sink ∧
      t.trace = s.trace ++ decodeItems n (q 0) (v 0) ++ decodeItems n (q 1) (v 1) ++
        [.regSet n .ctl (startMask s.cfg)] ++ decodeItems n (q 2) (v 2) ++ [.regWrite n .dr (a.setWidth 16 <<< 1)] ++
        decodeItems n (q 3) (v 3) ++ [.regWrite n .dr (b.setWidth 16)] ++ decodeItems n (q 4) (v 4) ++
        [.regSet n .ctl (stopMask s.cfg)] ∧
      t.bus n =
        { s.bus n with
          lock := false
          phase := .idle
          ctrl :=
            { (s.bus n).ctrl with
              ctl := (s.bus n).ctrl.ctl ||| startMask s.cfg ||| stopMask s.cfg
              drTx := b.setWidth 16
              srP := q 4 &&& ~~~s.cfg.seqClear
              srS := v 4
              pRead := false } } ∧
      KeptOutside n s t

/-- R106, R107, R143: a bus that stays busy ends in BusBusyTimeout (1) with FPHASE 1: no start condition, no DR write, no stop, the
lock free again. WRITE (S7, V21): N_WR_BUSY decodes without a delay, then the failure decode. READ where BUSY, MSL and an error
bit do not meet (V26, V28): N_RD_OUTER times N_RD_INNER decodes and the failure decode, no Reset. READ where they meet at the
first decode (V25, V27): the Reset ends the inner poll and uses up one outer attempt, RESETRAN is reported; here SR_P reads 0 at
the Reset's first status read, RESET_WAIT ends on that, as the default does, and the bus stays busy. That the Reset's loop then
reads SR_P alone is R127's order for the default RESET_WAIT, and the model's own for any other (log 2). -/
def Obligations.BusyBusEndsInBusBusyTimeout : Prop :=
  ∀ (n : Inst) (a : Addr7) (b : Byte) (s : State), (s.bus n).bound = true → (s.bus n).lock = false →
    let v := decodedValue s n
    let err := errSeen s.cfg v
    let c := (s.bus n).ctrl
    let resets := err && matchPat v (pMaster s.cfg)
    (Quiet s → Steady s n → matchPat v (pBusy s.cfg) = true →
      ∃ t, exec (.write n a b) s = .next t ∧ t.bank.result = failResult 0x0001 err 1 ∧
        t.trace = s.trace ++ pollTrace s n 0 (s.cfg.nWrBusy + 1) ∧
        t.sink = s.sink ++ failRecords .busBusyTimeout v err ∧
        t.bus n = { s.bus n with ctrl := decoded s n c, phase := .idle } ∧ KeptOutside n s t) ∧
    (Quiet s → Steady s n → matchPat v (pBusy s.cfg) = true → resets = false →
      ∃ t, exec (.read n a) s = .next t ∧ t.bank.result = failResult 0x0001 err 1 ∧
        t.trace = s.trace ++ pollTrace s n 0 (s.cfg.nRdOuter * s.cfg.nRdInner + 1) ∧
        t.sink = s.sink ++ failRecords .busBusyTimeout v err ∧
        t.bus n = { s.bus n with ctrl := decoded s n c, phase := .idle } ∧ KeptOutside n s t) ∧
    (s.sched = silence 9 ++ [[.envSrP n 0]] → s.cfg.wellFormed = true → resets = true → 0 < s.cfg.nRdOuter →
      0 < s.cfg.nRdInner → waitByPrimary s.cfg.resetWait 0 = some false →
      ∃ t, exec (.read n a) s = .next t ∧ t.bank.result = 0x0121 ∧
        t.trace = s.trace ++ decodeTrace s n ++ resetItems s.cfg n (s.bus n).ownAddress [.regRead n .srP 0] ++
          (List.replicate ((s.cfg.nRdOuter - 1) * s.cfg.nRdInner + 1) (decodeItems n 0 c.srS)).flatten ∧
        t.sink = s.sink ++ [⟨.err .busBusyTimeout, composite c.srS 0, []⟩] ∧
        t.bus n =
          { s.bus n with
            ctrl := { afterReset s.cfg (s.bus n).ownAddress c with srP := 0, pRead := false }
            phase := .idle } ∧
        KeptOutside n s t)

/-- R107, V22: READ on a bus that reports not busy and reaches every expected pattern: no decode in the Address phase, DR read once,
the byte in RDATA0 and `last_rx`, START and STOP set exactly once, no Reset. -/
def Obligations.ReadCompletesOnCooperativeBus : Prop :=
  ∀ (n : Inst) (a : Addr7) (b : Byte) (s : State) (q v : Nat → Half) (rest : List (List Move)),
    s.cfg.wellFormed = true → NotInReset s n → (s.bus n).bound = true → (s.bus n).lock = false →
    0 < s.cfg.nRdOuter → 0 < s.cfg.nRdInner → 0 < s.cfg.nStartBusy → 0 < s.cfg.nStartWait → 0 < s.cfg.nRx →
    FindsFree s.cfg (q 0) (v 0) → FindsFree s.cfg (q 1) (v 1) → Reaches s.cfg (q 2) (v 2) (pStart s.cfg) →
    Reaches s.cfg (q 3) (v 3) (pByteRx s.cfg) →
    s.sched = silence 4 ++ answers n (q 0) (v 0) ++ silence 1 ++ answers n (q 1) (v 1) ++ silence 1 ++
      answers n (q 2) (v 2) ++ silence 3 ++ answers n (q 3) (v 3) ++ [[.envDr n b]] ++ silence 7 ++ rest →
    ∃ t, exec (.read n a) s = .next t ∧ t.bank.result = 0 ∧ t.bank.rdata0 = b.setWidth 32 ∧ t.sched = rest ∧
      t.sink = s.sink ∧
      t.trace = s.trace ++ decodeItems n (q 0) (v 0) ++ decodeItems n (q 1) (v 1) ++
        [.regSet n .ctl (startMask s.cfg)] ++ decodeItems n (q 2) (v 2) ++
        [.regWrite n .dr (a.setWidth 16 <<< 1 ||| 1)] ++ decodeItems n (q 3) (v 3) ++
        [.regRead n .dr (b.setWidth 16), .regSet n .ctl (stopMask s.cfg)] ∧
      t.bus n =
        { s.bus n with
          lock := false
          phase := .idle
          lastRx := b
          ctrl :=
            { (s.bus n).ctrl with
              ctl := (s.bus n).ctrl.ctl ||| startMask s.cfg ||| stopMask s.cfg
              drTx := a.setWidth 16 <<< 1 ||| 1
              drRx := b
              srP := q 3 &&& ~~~s.cfg.seqClear
              srS := v 3
              pRead := false } } ∧
      KeptOutside n s t

/-! ## Failure exit -/

/-- R143, R145: the failure exit of a command that does not reset: one fresh decode, the record, BusError's record and
RESULT.BUSERR where the decode shows an error bit, the CODE, FPHASE and the end of the hold for a guarded command. Nothing is
rolled back. RESULT holds 0 before it, or RESETRAN alone where READ's BusyCheck has run a Reset (V27). -/
def Obligations.FailureExitRecordsAndReleases : Prop :=
  ∀ (w : Caller) (n : Inst) (k : ErrKind) (s : State), Quiet s → Steady s n → k ≠ .busError →
    (s.bank.result = 0 ∨ s.bank.result = 0x0020) → (failureResets w k && errSeen s.cfg (decodedValue s n)) = false →
    let v := decodedValue s n
    let guarded := w != .alone
    let b := s.bus n
    ∃ t, (fail others w n k : Run Unit) s = .error .ended t ∧
      t.bank.result = s.bank.result ||| failResult ((errCode k).setWidth 16) (errSeen s.cfg v)
        (if guarded then (phaseCode b.phase).setWidth 16 else 0) ∧
      t.sink = s.sink ++ failRecords k v (errSeen s.cfg v) ∧ t.trace = s.trace ++ decodeTrace s n ∧
      t.bus n =
        { b with
          ctrl := decoded s n b.ctrl
          phase := if guarded then .idle else b.phase
          lock := if guarded then false else b.lock } ∧
      KeptOutside n s t ∧ t.bank.rdata0 = s.bank.rdata0 ∧ t.bank.rdata1 = s.bank.rdata1

/-- R107, R143, S8, V23: the failure exit of READ's ReceiveByteFailed with an error bit up runs the Reset and reports
ReceiveByteFailed with BUSERR and RESETRAN; here SR_P reads 0 at the reset's first status read and RESET_WAIT ends on that, as
the default does; RESULT holds 0 before, or RESETRAN from a Reset in BusyCheck; the failure decode's gate is open or closed. That
the loop then reads SR_P alone and leaves `p_read` 1 is R127's order for the default RESET_WAIT, and the model's own for any
other (log 2). -/
def Obligations.ReadReceiveFailureResets : Prop :=
  ∀ (n : Inst) (s : State), s.cfg.wellFormed = true → NotInReset s n → Steady s n →
    (s.bank.result = 0 ∨ s.bank.result = 0x0020) → waitByPrimary s.cfg.resetWait 0 = some false →
    errSeen s.cfg (decodedValue s n) = true →
    s.sched = silence (if gateOpen s.cfg (s.bus n).ctrl.srP then 8 else 7) ++ [[.envSrP n 0]] →
    let v := decodedValue s n
    let b := s.bus n
    ∃ t, (fail others .read n .receiveByteFailed : Run Unit) s = .error .ended t ∧
      t.bank.result = failResult 0x0005 true ((phaseCode b.phase).setWidth 16) ||| 0x0020 ∧
      t.sink = s.sink ++ failRecords .receiveByteFailed v true ∧
      t.trace = s.trace ++ decodeTrace s n ++ resetItems s.cfg n b.ownAddress [.regRead n .srP 0] ∧
      t.bus n =
        { b with
          ctrl := { afterReset s.cfg b.ownAddress b.ctrl with srP := 0, pRead := true }
          phase := .idle
          lock := false } ∧
      KeptOutside n s t

/-! ## DMA Bulk Path -/

/-- R113: ATTACH makes the reference of its direction the channel keyed by (instance, direction), and changes nothing else. -/
def Obligations.AttachCompletes : Prop :=
  ∀ (n : Inst) (d : Dir) (s : State), Quiet s → (s.bus n).bound = true →
    ∃ t, exec (.attach n d) s = .next t ∧ t.bank.result = 0 ∧
      t.bus n =
        { s.bus n with
          dmaTx := if d = .tx then some ⟨n, .tx⟩ else (s.bus n).dmaTx
          dmaRx := if d = .rx then some ⟨n, .rx⟩ else (s.bus n).dmaRx } ∧
      KeptOutside n s t ∧ t.bank.pollN = s.bank.pollN ∧ t.sink = s.sink ∧ t.trace = s.trace

/-- R114, R122, S4, S9, V31: MTX on a bus that reaches every pattern, with the engine moving every byte before the first
query: `min(len, DMA_CAP)` bytes are copied and sent in index order, RDATA0 is that number, the rest of the buffer is as it
was, DMAEN and the channel stay enabled, no STOP is set. The trace is the copy, Start, Address, the arming, the engine's bytes and
the query that sees `tc`. -/
def Obligations.MtxCompletesOnCooperativeBus : Prop :=
  ∀ (n : Inst) (a : Addr7) (s : State) (data : Nat → Byte) (q v : Nat → Half) (rest : List (List Move)),
    let k := min s.bank.arg1.toNat s.cfg.dmaCap
    let c : ChanId := ⟨n, .tx⟩
    s.Inv → NotInReset s n → (s.bus n).bound = true → (s.bus n).lock = false →
    (s.bus n).dmaTx = some c → 0 < k → 0 < s.cfg.nStartBusy → 0 < s.cfg.nStartWait → 0 < s.cfg.nSpin →
    (∀ j, j < k → memGet s.mem (s.bank.arg0 + BitVec.ofNat 32 j) = some (data j)) →
    FindsFree s.cfg (q 0) (v 0) → Reaches s.cfg (q 1) (v 1) (pStart s.cfg) →
    Reaches s.cfg (q 2) (v 2) (pAddrTx s.cfg) → (q 3).getLsbD s.cfg.flags.txe = true →
    s.sched = silence (6 + 2 * k) ++ answers n (q 0) (v 0) ++ silence 1 ++ answers n (q 1) (v 1) ++ silence 2 ++
      answers n (q 2) (v 2) ++ silence 3 ++ [.envSrP n (q 3) :: List.replicate k (.engine c)] ++ silence 3 ++ rest →
    ∃ t, exec (.mtx n a) s = .next t ∧ t.bank.result = 0 ∧ t.bank.rdata0 = BitVec.ofNat 32 k ∧ t.sched = rest ∧
      t.sink = s.sink ∧
      t.trace = s.trace ++
        ((List.range k).map fun j => [.memRead (s.bank.arg0 + BitVec.ofNat 32 j) (data j), .bufWrite c j (data j)]).flatten ++
        decodeItems n (q 0) (v 0) ++ [.regSet n .ctl (startMask s.cfg)] ++ decodeItems n (q 1) (v 1) ++
        [.regWrite n .dr (a.setWidth 16 <<< 1)] ++ decodeItems n (q 2) (v 2) ++
        [.regSet n .ctl2 (dmaenMask s.cfg), .chEnable c k] ++ (List.range k).map (fun j => .engineTx c (data j)) ++
        [.chTc c true] ∧
      t.bus n =
        { s.bus n with
          lock := false
          phase := .idle
          chTx :=
            { buf := (List.range k).map data ++ (s.bus n).chTx.buf.drop k, en := true, tc := true, count := k, idx := k }
          ctrl :=
            { (s.bus n).ctrl with
              ctl := (s.bus n).ctrl.ctl ||| startMask s.cfg
              ctl2 := (s.bus n).ctrl.ctl2 ||| dmaenMask s.cfg
              drTx := (data (k - 1)).setWidth 16
              srP := q 3
              srS := v 2
              pRead := false } } ∧
      KeptOutside n s t

/-- R62, U15 (log 11): MTX stops the machine at the first source byte that host memory does not hold among the `min(len, DMA_CAP)`
it reads. -/
def Obligations.MtxStopsAtAbsentSourceByte : Prop :=
  ∀ (n : Inst) (a : Addr7) (s : State) (j : Nat), Quiet s → (s.bus n).bound = true → (s.bus n).lock = false →
    (s.bus n).dmaTx ≠ none → j < min s.bank.arg1.toNat s.cfg.dmaCap →
    (∀ m, m < j → memGet s.mem (s.bank.arg0 + BitVec.ofNat 32 m) ≠ none) →
    memGet s.mem (s.bank.arg0 + BitVec.ofNat 32 j) = none →
    exec (.mtx n a) s = .fault (.hostByteAbsent (s.bank.arg0 + BitVec.ofNat 32 j))

/-- R114(b), R119, V32a: MTX of no bytes never succeeds: the channel armed for 0 bytes never completes, whatever the environment, the
engines, the clock and the host do. -/
def Obligations.MtxOfNoBytesNeverSucceeds : Prop :=
  ∀ (n : Inst) (a : Addr7) (s t : State), NoInterrupt s → s.bank.arg1 = 0 → exec (.mtx n a) s = .next t →
    resultCode t.bank.result ≠ 0

/-- R115, R143, V34: SRX, never addressed: N_SRX_ADDR decodes, each followed by its delay, and the failure decode; AddressPhaseFailed
(3) with FPHASE 3; RDATA0 and RDATA1 are the view and its capacity all the same; DMAEN and the channel are not touched. -/
def Obligations.SrxTimesOutUnaddressed : Prop :=
  ∀ (n : Inst) (a : Addr7) (s : State), Quiet s → Steady s n → (s.bus n).bound = true → (s.bus n).lock = false →
    (s.bus n).dmaRx ≠ none → (s.bus n).ctrl.srP.getLsbD s.cfg.flags.addrm = false →
    let v := decodedValue s n
    let err := errSeen s.cfg v
    let turn := decodeTrace s n ++ if s.cfg.dSrxAddr = 0 then [] else [.delay s.cfg.dSrxAddr]
    ∃ t, exec (.srx n a) s = .next t ∧ t.bank.result = failResult 0x0003 err 3 ∧
      t.bank.rdata0 = (match n with
        | .one => 1
        | .two => 3) ∧
      t.bank.rdata1 = BitVec.ofNat 32 s.cfg.dmaCap ∧ t.sink = s.sink ++ failRecords .addressPhaseFailed v err ∧
      t.trace = s.trace ++ (List.replicate s.cfg.nSrxAddr turn).flatten ++ decodeTrace s n ∧
      t.bus n = { s.bus n with ctrl := decoded s n (s.bus n).ctrl, phase := .idle } ∧ KeptOutside n s t

/-- R64, R85, R115, R122, S5: SRX, addressed: RDATA0 is the view handle, RDATA1 DMA_CAP, the receive channel is armed for DMA_CAP
bytes and DMAEN set, whatever the transmit-empty wait sees, which only chooses Info or Warn; the lock is free at the return;
the address operand has no effect. -/
def Obligations.SrxArmsTheReceiveChannel : Prop :=
  ∀ (n : Inst) (a : Addr7) (s : State), Quiet s → s.cfg.wellFormed = true → (s.bus n).bound = true →
    (s.bus n).lock = false → (s.bus n).dmaRx = some ⟨n, .rx⟩ → 0 < s.cfg.nSrxAddr →
    (s.bus n).ctrl.srP.getLsbD s.cfg.flags.addrm = true →
    let c := (s.bus n).ctrl
    let p := c.srP &&& ~~~s.cfg.seqClear
    let st := if gateOpen s.cfg p then composite c.srS p else suppressed p
    let seen := p.getLsbD s.cfg.flags.txe && decide (0 < s.cfg.nSrxTxe)
    ∃ t, exec (.srx n a) s = .next t ∧ t.bank.result = 0 ∧
      t.bank.rdata0 = (match n with
        | .one => 1
        | .two => 3) ∧
      t.bank.rdata1 = BitVec.ofNat 32 s.cfg.dmaCap ∧ t.sink = s.sink ++ [⟨if seen then .info else .warn, st, []⟩] ∧
      t.bus n =
        { s.bus n with
          lock := false
          phase := .idle
          chRx := { (s.bus n).chRx with en := true, tc := false, idx := 0, count := s.cfg.dmaCap }
          ctrl :=
            ({ c with ctl2 := c.ctl2 ||| dmaenMask s.cfg, srP := p, pRead := !gateOpen s.cfg p } : Ctrl).held s.cfg } ∧
      KeptOutside n s t

/-- R116: TCQ answers `c.tc` in bit 0 and `c.en` in bit 1 of RDATA0, and changes nothing. -/
def Obligations.TcqAnswersTheQueries : Prop :=
  ∀ (n : Inst) (d : Dir) (c : ChanId) (s : State), Quiet s → (s.bus n).bound = true → (s.bus n).chanRef d = some c →
    encode (.tcq n d) = wordOf 0x33 n (dirField d) ∧
    ∃ t, exec (.tcq n d) s = .next t ∧ t.bank.result = 0 ∧
      t.bank.rdata0 = (if (s.chan c).en then 2 else 0) + (if (s.chan c).tc then 1 else 0) ∧ t.bus n = s.bus n ∧
      KeptOutside n s t ∧ t.bank.pollN = s.bank.pollN ∧ t.sink = s.sink

/-- R119: the transmit engine: enabled when the channel is enabled, DMAEN and TXE are set and bytes are left; its step writes
`buf[idx]` to DR, advances `idx`, and sets `tc` at the last byte; otherwise it does nothing. -/
def Obligations.TransmitEngineStep : Prop :=
  ∀ (n : Inst) (s : State) (b : Byte),
    let c := (s.bus n).chTx
    let k := (s.bus n).ctrl
    let on := c.en && k.ctl2.getLsbD s.cfg.flags.dmaen && decide (c.idx < c.count) && k.srP.getLsbD s.cfg.flags.txe
    (on = false → engineStep ⟨n, .tx⟩ s = s) ∧
      (on = true → c.buf[c.idx]? = some b → k.held s.cfg = k →
        (engineStep ⟨n, .tx⟩ s).bus n =
          { s.bus n with
            ctrl := { k with drTx := b.setWidth 16 }
            chTx := { c with idx := c.idx + 1, tc := c.tc || c.idx + 1 == c.count } })

/-- R120: the receive engine: enabled when the channel is enabled, DMAEN and RXNE are set and bytes are left; its step stores DR's
byte at `buf[idx]`, advances `idx`, and sets `tc` at the last byte; otherwise it does nothing, so later bytes are not stored. -/
def Obligations.ReceiveEngineStep : Prop :=
  ∀ (n : Inst) (s : State),
    let c := (s.bus n).chRx
    let k := (s.bus n).ctrl
    let on := c.en && k.ctl2.getLsbD s.cfg.flags.dmaen && decide (c.idx < c.count) && k.srP.getLsbD s.cfg.flags.rxne
    (on = false → engineStep ⟨n, .rx⟩ s = s) ∧
      (on = true →
        (engineStep ⟨n, .rx⟩ s).bus n =
          { s.bus n with
            chRx :=
              { c with buf := c.buf.set c.idx k.drRx, idx := c.idx + 1, tc := c.tc || c.idx + 1 == c.count } })

/-! ## Controller Lifecycle -/

/-- R126, R127, R166, V40: INIT where RESET_WAIT does not hold of the status fields: lock clear, the default own address, bound, the
reset sequence's accesses in their order, both lines enabled, the peripheral disabled; it holds on a bound and on an unbound
instance. The accesses of the status loop, and `p_read` after it, are R127's for the default RESET_WAIT; for any other predicate
they are the model's own read order (log 2). -/
def Obligations.InitBringsTheInstanceUp : Prop :=
  ∀ (n : Inst) (s : State), Quiet s → s.cfg.wellFormed = true → ¬ Waits s n →
    let own := match n with
      | .one => s.cfg.ownAddr1
      | .two => s.cfg.ownAddr2
    let ev := lineNumber s.cfg ⟨.event, n⟩
    let er := lineNumber s.cfg ⟨.error, n⟩
    ∃ t, exec (.init n) s = .next t ∧ t.bank.result = 0 ∧
      t.bus n =
        { s.bus n with
          lock := false
          ownAddress := own
          bound := true
          ctrl := afterReset s.cfg own (afterLoop s n) } ∧
      (∀ l, l ∈ t.irqEn ↔ l = ev ∨ l = er ∨ l ∈ s.irqEn) ∧
      t.trace = s.trace ++ resetItems s.cfg n own (loopReads s n) ++ [.irqEnable ev, .irqEnable er] ∧
      t.sink = s.sink ∧
      (∀ m, m ≠ n → t.bus m = s.bus m) ∧ t.cfg = s.cfg ∧ t.port = s.port ∧ t.fgCmd = s.fgCmd ∧ t.active = s.active ∧
      t.tick = s.tick ∧ t.mem = s.mem ∧ t.stuck = s.stuck ∧ otherBank t = otherBank s ∧ t.bank.arg0 = s.bank.arg0 ∧
      t.bank.arg1 = s.bank.arg1 ∧ t.bank.pollN = s.bank.pollN

/-- R127, R166: RESET where RESET_WAIT does not hold of the status fields: PE, START, STOP and SWRST 0, CTL2, TRISE, OAR and CCR
rewritten; `p_read` 1 where the loop ended on SR_P, 0 where it ended on SR_S; lock, own address, channels, phase and interrupt
lines unchanged; RESULT reports RESETRAN. The default RESET_WAIT is that both fields are non-zero, SR_S read only where SR_P is
non-zero (R127); for any other predicate the loop's accesses and `p_read` are the model's own read order (log 2). -/
def Obligations.ResetLeavesTheController : Prop :=
  (∀ p v, (waitHolds .whileBothNonZero p v = true ↔ p ≠ 0 ∧ v ≠ 0) ∧
    (waitByPrimary .whileBothNonZero p = none ↔ p ≠ 0)) ∧
  ∀ (n : Inst) (s : State), Quiet s → s.cfg.wellFormed = true → (s.bus n).bound = true → ¬ Waits s n →
    ∃ t, exec (.reset n) s = .next t ∧ t.bank.result = 0x0020 ∧
      OnlyCtrl n s t (afterReset s.cfg (s.bus n).ownAddress (afterLoop s n)) ∧
      t.trace = s.trace ++ resetItems s.cfg n (s.bus n).ownAddress (loopReads s n) ∧ t.sink = s.sink ∧
      t.bank.pollN = s.bank.pollN ∧ KeptOutside n s t

/-- R128, R129: ENABLE sets CTL.PE and DISABLE clears it, each in one access, and nothing else changes. -/
def Obligations.EnableAndDisableTogglePe : Prop :=
  ∀ (n : Inst) (s : State), Quiet s → (s.bus n).bound = true →
    encode (.enable n) = wordOf 0x42 n 0 ∧ encode (.disable n) = wordOf 0x43 n 0 ∧
    (∃ t, exec (.enable n) s = .next t ∧ t.bank.result = 0 ∧
      OnlyCtrl n s t (({ (s.bus n).ctrl with ctl := (s.bus n).ctrl.ctl ||| peMask s.cfg } : Ctrl).held s.cfg) ∧
      KeptOutside n s t ∧ t.bank.pollN = s.bank.pollN ∧ t.sink = s.sink ∧
      t.trace = s.trace ++ [.regSet n .ctl (peMask s.cfg)]) ∧
    ∃ t, exec (.disable n) s = .next t ∧ t.bank.result = 0 ∧
      OnlyCtrl n s t (({ (s.bus n).ctrl with ctl := (s.bus n).ctrl.ctl &&& ~~~peMask s.cfg } : Ctrl).held s.cfg) ∧
      KeptOutside n s t ∧ t.bank.pollN = s.bank.pollN ∧ t.sink = s.sink ∧
      t.trace = s.trace ++ [.regClr n .ctl (peMask s.cfg)]

/-- R130, V44: PSTAT records the five registers and the decoded status as Info, and a Warn record where the bus stays busy for the
whole budget; it writes no register. -/
def Obligations.PstatRecordsTheStatus : Prop :=
  ∀ (n : Inst) (s : State), Quiet s → Steady s n → (s.bus n).bound = true → 0 < s.cfg.nPstat →
    let c := (s.bus n).ctrl
    let v := decodedValue s n
    ∃ t, exec (.pstat n) s = .next t ∧ t.bank.result = 0 ∧
      t.sink = s.sink ++ ⟨.info, v, [c.ctl, c.ctl2, c.oar, c.ccr, c.trise]⟩ ::
        (if matchPat v (pBusy s.cfg) then [⟨.warn, v, []⟩] else []) ∧
      OnlyCtrl n s t (decoded s n c) ∧ KeptOutside n s t

/-- R127, R157, R183, V42: RESET, INIT and READ (from its BusyCheck) where RESET_WAIT holds of the status fields for ever never end:
every number of further steps leaves the machine in the status loop, with no result, no interrupt line enabled, the sink and the
other instance as they were; READ keeps the lock. That such a command is a next state with `stuck` set is the model's form of a
hang (log 7). -/
def Obligations.HungResetNeverEnds : Prop :=
  ∀ (n : Inst) (s : State) (k : Nat), Quiet s → Steady s n → s.stuck = none → Waits s n →
    let hangs (i : Instr) (lock : Bool) : Prop :=
      ∃ t u, exec i s = .next t ∧ t.stuck = some (.spin n) ∧ Sys2Proof.core.run k t = .next u ∧
        u.stuck = some (.spin n) ∧ u.bank.result = 0 ∧ (u.bus n).lock = lock ∧ u.irqEn = s.irqEn ∧ u.sink = s.sink ∧
        ∀ m, m ≠ n → u.bus m = s.bus m
    ((s.bus n).bound = true → hangs (.reset n) (s.bus n).lock) ∧ hangs (.init n) false ∧
      ((s.bus n).bound = true → (s.bus n).lock = false → 0 < s.cfg.nRdOuter → 0 < s.cfg.nRdInner →
        errSeen s.cfg (decodedValue s n) = true → matchPat (decodedValue s n) (pMaster s.cfg) = true →
        ∀ a, hangs (.read n a) true)

/-- R157 (log 7): the model calls a reset endless only where it is: no other agent has a move left, and RESET_WAIT, whatever predicate
it is, holds of the two status fields. It holds for every schedule, interrupts included. -/
def Obligations.EndlessResetHasNoWayOut : Prop :=
  ∀ (i : Instr) (s t : State) (n : Inst), s.stuck = none → exec i s = .next t → t.stuck = some (.spin n) →
    t.sched = [] ∧ Waits t n

/-! ## Interrupts -/

/-- R135 to R137, R148: EVH appends its record and changes nothing but what its decode does; ERH also clears exactly the error bits,
with which the error line falls. Neither touches the lock, the phase, `last_rx`, a channel, CTL or CTL2. -/
def Obligations.HooksLogAndClear : Prop :=
  ∀ (n : Inst) (s : State), Quiet s → (s.bus n).bound = true → (s.bus n).ctrl.held s.cfg = (s.bus n).ctrl →
    let v := decodedValue s n
    let c := (s.bus n).ctrl
    let gate := gateOpen s.cfg c.srP
    let after := { c with srP := if gate then c.srP &&& ~~~s.cfg.seqClear else c.srP, pRead := !gate }
    (∃ t, exec (.evh n) s = .next t ∧ t.bank.result = 0 ∧ t.sink = s.sink ++ [⟨.eventIrq, v, []⟩] ∧
      OnlyCtrl n s t after ∧ KeptOutside n s t ∧ t.bank.pollN = s.bank.pollN) ∧
    ∃ t, exec (.erh n) s = .next t ∧ t.bank.result = 0 ∧ t.sink = s.sink ++ [⟨.errorIrq, v, []⟩] ∧
      t.bus n = { s.bus n with ctrl := { after with srP := after.srP &&& ~~~s.cfg.errMask }, erPend := false } ∧
      KeptOutside n s t ∧ t.bank.pollN = s.bank.pollN

/-- R32, R135, R136, R147, R149, R151, R153: a line that is raised and enabled, its hook not running, taken while the foreground is
idle: the hook runs on the interrupt bank and leaves its record; the foreground bank, the context and the list of running hooks
are as before. EVH leaves the event line raised; ERH's clear lets the error line fall (R148, log 13). Any other command issued on
the interrupt port while the foreground is idle has there the effect it has, and the context returns (logs 5, 9). -/
def Obligations.InterruptRunsItsHookAndReturns : Prop :=
  (∀ (l : Line) (s : State), s.stuck = none → s.fgCmd = none → s.port = .fg → s.sched = [[.fire l]] →
    canFire s l = true → (s.bus l.inst).bound = true →
    let v := decodedValue s l.inst
    ∃ t, step s = .next t ∧ t.irq.result = 0 ∧ t.fg = s.fg ∧ t.port = .fg ∧ t.active = s.active ∧
      t.sink = s.sink ++ [⟨match l.kind with
        | .event => .eventIrq
        | .error => .errorIrq, v, []⟩] ∧
      (l.kind = .event → (t.bus l.inst).evPend = true) ∧ (l.kind = .error → (t.bus l.inst).erPend = false) ∧
      (∀ m, m ≠ l.inst → t.bus m = s.bus m)) ∧
  ∀ (c : IrqCmd) (i : Instr) (s t : State), s.stuck = none → s.fgCmd = none → s.port = .fg →
    s.sched = [[.issueIrq c]] → decode c.word = .ok i → hookLine i = none →
    EndsIn i (writeIrqArgs c { s with sched := [], port := .irq }) t →
    step s = .next { t with port := .fg, active := s.active }

/-- R147, R151: a line that is not raised, or not enabled, or whose own hook is running, is not entered: nothing happens. -/
def Obligations.MaskedLineDoesNotFire : Prop :=
  ∀ (l : Line) (s : State) (rest : List (List Move)), s.stuck = none → s.fgCmd = none →
    s.sched = [.fire l] :: rest →
    ((s.bus l.inst).linePend l.kind = false ∨ lineNumber s.cfg l ∉ s.irqEn ∨ l ∈ s.active) →
    step s = .next { s with sched := rest }

/-- R148, R174: once the environment keeps an event line raised for ever, EVH runs back to back and the suspended foreground command
never steps again: each step appends EVH's record and the foreground's bank and pending command stay as they are. The starved state and
one EVH in each step are the model's form of that run (log 8). -/
def Obligations.StarvedForegroundNeverSteps : Prop :=
  ∀ (n : Inst) (s : State) (k : Nat), s.stuck = some (.starved n) → Quiet s → s.port = .irq → (s.bus n).bound = true →
    ∃ t, Sys2Proof.core.run k s = .next t ∧ t.stuck = some (.starved n) ∧ t.fg = s.fg ∧ t.fgCmd = s.fgCmd ∧
      t.sink.length = s.sink.length + k ∧ (∀ r ∈ t.sink.drop s.sink.length, r.kind = .eventIrq)

/-! ## Values -/

/-- R76, R78: the address byte has the 7-bit address in bits 7:1 and the direction in bit 0, so it is twice the address, plus one
for Receive, for every address; and the expected patterns have the spec's values with the default FLAGPOS and ERR_MASK. -/
def Obligations.AddressByteAndPatternValues : Prop :=
  (∀ a : Addr7, (addressByte .tx a).toNat = 2 * a.toNat ∧ (addressByte .rx a).toNat = 2 * a.toNat + 1) ∧
    let c := Config.default
    pBusy c = 0x00020000 ∧ pStart c = 0x00030001 ∧ pAddrTx c = 0x00070080 ∧ pByteTx c = 0x00070084 ∧
      pByteRx c = 0x00030040 ∧ pMaster c = 0x00030000 ∧ pErr c = 0x00000F00 ∧ pSrxAddr c = 0x00000002 ∧
      pSrxTxe c = 0x00000080

/-- R25, R131: with the default formula and a configuration the spec allows, the three constants are PCLK_HZ div 1000000, that plus
one, and PCLK_HZ div (2 * TARGET_HZ), nothing lost by their widths. -/
def Obligations.ClockConfigDefaultFormula : Prop :=
  ∀ c : Config, c.wellFormed = true → c.clock = .formula →
    (ctl2Value c).toNat = c.pclkHz / 1000000 ∧ (triseValue c).toNat = c.pclkHz / 1000000 + 1 ∧
      (ccrValue c).toNat = c.pclkHz / (2 * c.targetHz)

/-- R64: through the handle SRX returns the host reads `ch(i,RX).buf[k]` for `k` below DMA_CAP, and nothing through any other handle. -/
def Obligations.ViewReadsTheReceiveBuffer : Prop :=
  ∀ (s : State) (h : Word) (k : Nat), s.Inv →
    (h = 1 → viewRead s h k = (s.bus .one).chRx.buf[k]? ∧ (k < s.cfg.dmaCap ↔ viewRead s h k ≠ none)) ∧
      (h = 3 → viewRead s h k = (s.bus .two).chRx.buf[k]? ∧ (k < s.cfg.dmaCap ↔ viewRead s h k ≠ none)) ∧
      (h ≠ 1 → h ≠ 3 → viewRead s h k = none)
end

