-- ==== Sys2Proof/Laws/State.lean ====
section
/-! SUPPORT. One lemma per field per update of the state: what each update of Ops.lean changes and what it leaves. -/
namespace Sys2Proof.Machine

/-! ## modBus -/

@[simp] theorem State.modBus_cfg (s : State) (n f) : (s.modBus n f).cfg = s.cfg := by cases n <;> rfl
@[simp] theorem State.modBus_fg (s : State) (n f) : (s.modBus n f).fg = s.fg := by cases n <;> rfl
@[simp] theorem State.modBus_irq (s : State) (n f) : (s.modBus n f).irq = s.irq := by cases n <;> rfl
@[simp] theorem State.modBus_port (s : State) (n f) : (s.modBus n f).port = s.port := by cases n <;> rfl
@[simp] theorem State.modBus_fgCmd (s : State) (n f) : (s.modBus n f).fgCmd = s.fgCmd := by cases n <;> rfl
@[simp] theorem State.modBus_irqEn (s : State) (n f) : (s.modBus n f).irqEn = s.irqEn := by cases n <;> rfl
@[simp] theorem State.modBus_active (s : State) (n f) : (s.modBus n f).active = s.active := by cases n <;> rfl
@[simp] theorem State.modBus_tick (s : State) (n f) : (s.modBus n f).tick = s.tick := by cases n <;> rfl
@[simp] theorem State.modBus_sink (s : State) (n f) : (s.modBus n f).sink = s.sink := by cases n <;> rfl
@[simp] theorem State.modBus_mem (s : State) (n f) : (s.modBus n f).mem = s.mem := by cases n <;> rfl
@[simp] theorem State.modBus_stuck (s : State) (n f) : (s.modBus n f).stuck = s.stuck := by cases n <;> rfl
@[simp] theorem State.modBus_sched (s : State) (n f) : (s.modBus n f).sched = s.sched := by cases n <;> rfl
@[simp] theorem State.modBus_trace (s : State) (n f) : (s.modBus n f).trace = s.trace := by cases n <;> rfl
@[simp] theorem State.modBus_freeCtr (s : State) (n f) : (s.modBus n f).freeCtr = s.freeCtr := by cases n <;> rfl
@[simp] theorem State.modBus_bank (s : State) (n f) : (s.modBus n f).bank = s.bank := by cases n <;> rfl

@[simp] theorem State.bus_modBus_same (s : State) (n f) : (s.modBus n f).bus n = f (s.bus n) := by cases n <;> rfl

theorem State.bus_modBus_other (s : State) {n m : Inst} (h : m ≠ n) (f) : (s.modBus n f).bus m = s.bus m := by
  cases n <;> cases m <;> first | rfl | exact absurd rfl h

theorem State.bus_modBus (s : State) (n m : Inst) (f) :
    (s.modBus n f).bus m = if m = n then f (s.bus m) else s.bus m := by
  cases n <;> cases m <;> rfl

/-- Two states with the same fields and the same two instances are equal. -/
theorem State.ext_bus {s t : State} (h : t = { s with bus1 := t.bus1, bus2 := t.bus2 })
    (hb : ∀ n, t.bus n = s.bus n) : t = s := by
  have h1 : t.bus1 = s.bus1 := hb .one
  have h2 : t.bus2 = s.bus2 := hb .two
  rw [h, h1, h2]

/-! ## modBank and modResult -/

@[simp] theorem State.modBank_cfg (s : State) (f) : (s.modBank f).cfg = s.cfg := by unfold State.modBank; split <;> rfl
@[simp] theorem State.modBank_bus (s : State) (f n) : (s.modBank f).bus n = s.bus n := by
  unfold State.modBank; split <;> rfl
@[simp] theorem State.modBank_port (s : State) (f) : (s.modBank f).port = s.port := by unfold State.modBank; split <;> rfl
@[simp] theorem State.modBank_fgCmd (s : State) (f) : (s.modBank f).fgCmd = s.fgCmd := by
  unfold State.modBank; split <;> rfl
@[simp] theorem State.modBank_irqEn (s : State) (f) : (s.modBank f).irqEn = s.irqEn := by
  unfold State.modBank; split <;> rfl
@[simp] theorem State.modBank_active (s : State) (f) : (s.modBank f).active = s.active := by
  unfold State.modBank; split <;> rfl
@[simp] theorem State.modBank_tick (s : State) (f) : (s.modBank f).tick = s.tick := by unfold State.modBank; split <;> rfl
@[simp] theorem State.modBank_sink (s : State) (f) : (s.modBank f).sink = s.sink := by unfold State.modBank; split <;> rfl
@[simp] theorem State.modBank_mem (s : State) (f) : (s.modBank f).mem = s.mem := by unfold State.modBank; split <;> rfl
@[simp] theorem State.modBank_stuck (s : State) (f) : (s.modBank f).stuck = s.stuck := by
  unfold State.modBank; split <;> rfl
@[simp] theorem State.modBank_sched (s : State) (f) : (s.modBank f).sched = s.sched := by
  unfold State.modBank; split <;> rfl
@[simp] theorem State.modBank_trace (s : State) (f) : (s.modBank f).trace = s.trace := by
  unfold State.modBank; split <;> rfl
@[simp] theorem State.modBank_freeCtr (s : State) (f) : (s.modBank f).freeCtr = s.freeCtr := by
  unfold State.modBank; split <;> rfl

@[simp] theorem State.bank_modBank (s : State) (f) : (s.modBank f).bank = f s.bank := by
  cases h : s.port <;> simp [State.modBank, State.bank, h]

theorem State.modBank_fg (s : State) (f) : (s.modBank f).fg = if s.port = .fg then f s.fg else s.fg := by
  unfold State.modBank; split <;> simp_all

theorem State.modBank_irq (s : State) (f) : (s.modBank f).irq = if s.port = .irq then f s.irq else s.irq := by
  unfold State.modBank; split <;> simp_all

/-! ## freeRdata0 -/

@[simp] theorem freeRdata0_bus (s : State) (n) : (freeRdata0 s).bus n = s.bus n := State.modBank_bus s _ n
@[simp] theorem freeRdata0_cfg (s : State) : (freeRdata0 s).cfg = s.cfg := State.modBank_cfg s _
@[simp] theorem freeRdata0_port (s : State) : (freeRdata0 s).port = s.port := State.modBank_port s _
@[simp] theorem freeRdata0_sink (s : State) : (freeRdata0 s).sink = s.sink := State.modBank_sink s _
@[simp] theorem freeRdata0_trace (s : State) : (freeRdata0 s).trace = s.trace := State.modBank_trace s _
@[simp] theorem freeRdata0_bank (s : State) :
    (freeRdata0 s).bank = { s.bank with rdata0 := Config.freeWord s.freeCtr } := State.bank_modBank s _

/-! ## log -/

@[simp] theorem State.log_cfg (s : State) (a) : (s.log a).cfg = s.cfg := rfl
@[simp] theorem State.log_bus (s : State) (a n) : (s.log a).bus n = s.bus n := by cases n <;> rfl
@[simp] theorem State.log_fg (s : State) (a) : (s.log a).fg = s.fg := rfl
@[simp] theorem State.log_irq (s : State) (a) : (s.log a).irq = s.irq := rfl
@[simp] theorem State.log_port (s : State) (a) : (s.log a).port = s.port := rfl
@[simp] theorem State.log_fgCmd (s : State) (a) : (s.log a).fgCmd = s.fgCmd := rfl
@[simp] theorem State.log_irqEn (s : State) (a) : (s.log a).irqEn = s.irqEn := rfl
@[simp] theorem State.log_active (s : State) (a) : (s.log a).active = s.active := rfl
@[simp] theorem State.log_tick (s : State) (a) : (s.log a).tick = s.tick := rfl
@[simp] theorem State.log_sink (s : State) (a) : (s.log a).sink = s.sink := rfl
@[simp] theorem State.log_mem (s : State) (a) : (s.log a).mem = s.mem := rfl
@[simp] theorem State.log_stuck (s : State) (a) : (s.log a).stuck = s.stuck := rfl
@[simp] theorem State.log_sched (s : State) (a) : (s.log a).sched = s.sched := rfl
@[simp] theorem State.log_freeCtr (s : State) (a) : (s.log a).freeCtr = s.freeCtr := rfl
@[simp] theorem State.log_bank (s : State) (a) : (s.log a).bank = s.bank := rfl
@[simp] theorem State.log_trace (s : State) (a) : (s.log a).trace = s.trace ++ [a] := rfl

/-! ## modChan -/

/-- A channel is a field of its instance, so changing one is changing that instance. -/
theorem State.modChan_eq_modBus (s : State) (c : ChanId) (f : Chan → Chan) :
    s.modChan c f = s.modBus c.inst fun b =>
      match c.dir with
      | .tx => { b with chTx := f b.chTx }
      | .rx => { b with chRx := f b.chRx } := by
  unfold State.modChan; cases c.dir <;> rfl

@[simp] theorem State.chan_modChan_same (s : State) (c : ChanId) (f) : (s.modChan c f).chan c = f (s.chan c) := by
  obtain ⟨n, d⟩ := c
  cases n <;> cases d <;> rfl

end Sys2Proof.Machine
end

