-- ==== Sys2Proof/Laws/Keeps.lean ====
section
/-! SUPPORT. What every command keeps, said once: a relation between states that every primitive of a command keeps is kept
by the whole command (R9, R57), whatever the other agents do that keep it too. Invariants, frames and whole-machine rules
are instances. -/
namespace Sys2Proof.Machine

/-- The state a run leaves, however it ends. -/
def outState {α : Type} : EStateM.Result Exit State α → State
  | .ok _ s => s
  | .error _ s => s

@[simp] theorem outState_ok {α : Type} (a : α) (s : State) : outState (.ok a s : EStateM.Result Exit State α) = s := rfl
@[simp] theorem outState_error {α : Type} (e : Exit) (s : State) :
    outState (.error e s : EStateM.Result Exit State α) = s := rfl

/-- From a state in `P`, the run leaves a state in `P` related to it by `R`. -/
def Keeps (P : State → Prop) (R : State → State → Prop) {α : Type} (x : Run α) : Prop :=
  ∀ s, P s → P (outState (x s)) ∧ R s (outState (x s))

/-- As `Keeps`, and a value the run answers is in `Q`. -/
def KeepsVal (P : State → Prop) (R : State → State → Prop) {α : Type} (Q : α → Prop) (x : Run α) : Prop :=
  ∀ s, P s → P (outState (x s)) ∧ R s (outState (x s)) ∧ ∀ a t, x s = .ok a t → Q a

/-- A change of the state that stays in `P` and is in `R`. -/
def Moves (P : State → Prop) (R : State → State → Prop) (f : State → State) : Prop :=
  ∀ s, P s → P (f s) ∧ R s (f s)

/-- What a command may do beyond what all commands do: write `phase` and end with FPHASE (R105), write `lock` (R63, R126), run the
reset sequence (R127), end with an error kind or a refusal (R142). -/
structure Uses where
  phase : Bool
  lock : Bool
  reset : Bool
  err : ErrKind → Bool
  refuse : RefuseCode → Bool

/-- Anything a command may do. -/
def Uses.all : Uses := ⟨true, true, true, fun _ => true, fun _ => true⟩

/-- A command that takes no lock (R100, R142). -/
def Uses.plain (err : List ErrKind) : Uses := ⟨false, false, false, (· ∈ err), (· ∈ [.notBound])⟩

/-- A guarded command without a reset (R63, R142). -/
def Uses.guarded (err : List ErrKind) (refuse : List RefuseCode) : Uses :=
  ⟨true, true, false, (· ∈ err), (· ∈ refuse)⟩

/-- What each command may do (R142, and the "State written" of its rule). -/
def usesOf : Instr → Uses
  | .status _ => .plain []
  | .iseq _ => .plain []
  | .iseqm _ => .plain []
  | .gstart _ => .plain [.startConditionFailed]
  | .saddr _ _ _ => .plain [.addressPhaseFailed]
  | .txbyte _ _ => .plain [.transmitByteFailed]
  | .rxbyte _ => .plain [.receiveByteFailed]
  | .gstop _ => .plain []
  | .write _ _ _ =>
    .guarded [.busBusyTimeout, .startConditionFailed, .addressPhaseFailed, .transmitByteFailed] [.notBound, .locked]
  | .read _ _ =>
    { Uses.guarded [.busBusyTimeout, .startConditionFailed, .receiveByteFailed] [.notBound, .locked] with reset := true }
  | .attach _ _ => .plain []
  | .mtx _ _ =>
    .guarded [.startConditionFailed, .addressPhaseFailed, .dmaTransferTimeout] [.notBound, .noChannel, .locked]
  | .srx _ _ => .guarded [.addressPhaseFailed] [.notBound, .noChannel, .locked]
  | .tcq _ _ => { Uses.plain [] with refuse := (· ∈ [.notBound, .noChannel]) }
  | .init _ => ⟨false, true, true, fun _ => false, fun _ => false⟩
  | .reset _ => { Uses.plain [] with reset := true }
  | .enable _ => .plain []
  | .disable _ => .plain []
  | .pstat _ => .plain []
  | .evh _ => .plain []
  | .erh _ => .plain []

/-- The values that the fields of RESULT are given (R33, R140, R141, R143). -/
inductive ResultWrite (u : Uses) : (Half → Half) → Prop where
  | success : ResultWrite u (withCode · 0)
  | err (k : ErrKind) (hb : k ≠ .busError) (h : u.err k = true) : ResultWrite u (withCode · (errCode k))
  | refuse (c : RefuseCode) (h : u.refuse c = true) : ResultWrite u (withCode · (refuseCode c))
  | busErr : ResultWrite u withBusErr
  | resetRan (h : u.reset = true) : ResultWrite u withResetRan
  | pred (b : Bool) : ResultWrite u (withPred · b)
  | noPhase : ResultWrite u (withFPhase · 0)

/-- A control bit a command sets or clears outside the software-reset pulse (R28). -/
inductive CtlBit (c : Config) : Half → Prop where
  | pe : CtlBit c (peMask c)
  | start : CtlBit c (startMask c)
  | stop : CtlBit c (stopMask c)

/-- `R` (on states in `P`, with parameters `c`) is closed under every primitive of a command on instance `n` that uses
channels in `Q` and does what `u` lets it do. -/
structure Closed (P : State → Prop) (R : State → State → Prop) (c : Config) (Q : ChanId → Prop) (n : Inst) (u : Uses) :
    Prop where
  cfg : ∀ s, P s → s.cfg = c
  refl : ∀ s, R s s
  trans : ∀ s t u, R s t → R t u → R s u
  ref : ∀ s d ch, P s → (s.bus n).chanRef d = some ch → Q ch
  read : ∀ r, Moves P R fun s => (readReg n r s).2
  write : ∀ r b, Moves P R (writeReg n r (dataHalf b))
  set : ∀ m, CtlBit c m → Moves P R (setReg n .ctl m)
  clr : ∀ m, CtlBit c m → Moves P R (clrReg n .ctl m)
  setDma : Moves P R (setReg n .ctl2 (dmaenMask c))
  clrErr : Moves P R (clrReg n .srP c.errMask)
  pulseSet : u.reset = true → Moves P R (setReg n .ctl (swrstMask c))
  pulseClr : u.reset = true → Moves P R (clrReg n .ctl (swrstMask c))
  writeCtl2 : u.reset = true → Moves P R (writeReg n .ctl2 (ctl2Value c))
  writeTrise : u.reset = true → Moves P R (writeReg n .trise (triseValue c))
  writeOar : u.reset = true → Moves P R fun s => writeReg n .oar (oarValue (s.bus n).ownAddress) s
  writeCcr : u.reset = true → Moves P R (writeReg n .ccr (ccrValue c))
  record : ∀ k v regs, Moves P R (pushRecord k v regs)
  log : ∀ a, Moves P R (·.log a)
  phase : u.phase = true → ∀ p, Moves P R fun s => s.modBus n fun b => { b with phase := p }
  lock : u.lock = true → ∀ v, Moves P R fun s => s.modBus n fun b => { b with lock := v }
  lastRx : ∀ v, Moves P R fun s => s.modBus n fun b => { b with lastRx := v }
  own : Moves P R fun s => s.modBus n fun b => { b with ownAddress := ownAddr c n }
  bound : Moves P R fun s => s.modBus n fun b => { b with bound := true }
  attach : ∀ d, Moves P R fun s => s.modBus n (Bus.attach n d)
  chanPut : ∀ ch k b, Q ch → Moves P R fun s => (s.modChan ch (Chan.put k b)).log (.bufWrite ch k b)
  chanEnable : ∀ ch k, Q ch → k ≤ c.dmaCap → Moves P R fun s => (s.modChan ch (Chan.enable k)).log (.chEnable ch k)
  irqLine : ∀ k, Moves P R (enableLine (lineNumber c ⟨k, n⟩))
  result : ∀ f, ResultWrite u f → Moves P R (·.modResult f)
  failPhase : u.phase = true → Moves P R fun s => s.modResult (withFPhase · (phaseCode (s.bus n).phase))
  start : ∀ k, Moves P R (clearResult k)
  free : Moves P R freeRdata0
  rdata0 : ∀ v, Moves P R fun s => s.modBank fun b => { b with rdata0 := v }
  rdata1 : ∀ v, Moves P R fun s => s.modBank fun b => { b with rdata1 := v }
  pollN : ∀ f : Nat → Nat, Moves P R fun s => s.modBank fun b => { b with pollN := f b.pollN }
  spin : u.reset = true → Moves P R fun s => { s with stuck := some (.spin n) }

section
variable {P : State → Prop} {R : State → State → Prop} {c : Config} {Q : ChanId → Prop} {n : Inst} {u : Uses}
variable {bt : Run Unit} {α β : Type}

theorem keeps_pure (hR : ∀ s, R s s) (a : α) : Keeps P R (pure a : Run α) := fun s hs => ⟨hs, hR s⟩

theorem keeps_leave (hR : ∀ s, R s s) (e : Exit) : Keeps P R (leave e : Run α) := fun s hs => ⟨hs, hR s⟩

theorem keeps_tweak {f : State → State} (h : Moves P R f) : Keeps P R (tweak f) := fun s hs => h s hs

theorem keepsVal_of_keeps {x : Run α} (h : Keeps P R x) : KeepsVal P R (fun _ => True) x :=
  fun s hs => ⟨(h s hs).1, (h s hs).2, fun _ _ _ => trivial⟩

theorem keepsVal_look (hR : ∀ s, R s s) (f : State → α) :
    KeepsVal P R (fun a => ∃ s, P s ∧ a = f s) (look f) := fun s hs =>
  ⟨hs, hR s, fun _ _ h => ⟨s, hs, by cases h; rfl⟩⟩

theorem keepsVal_pure (hR : ∀ s, R s s) {V : α → Prop} {a : α} (ha : V a) : KeepsVal P R V (pure a : Run α) :=
  fun s hs => ⟨hs, hR s, fun _ _ h => by cases h; exact ha⟩

/-- The one lemma about sequence: what both parts keep, the whole keeps. -/
theorem keepsVal_bind (hT : ∀ s t u, R s t → R t u → R s u) {V : α → Prop} {W : β → Prop} {x : Run α} {f : α → Run β}
    (hx : KeepsVal P R V x) (hf : ∀ a, V a → KeepsVal P R W (f a)) : KeepsVal P R W (x >>= f) := by
  intro s hs
  obtain ⟨hP, hr, hv⟩ := hx s hs
  change P (outState (EStateM.bind x f s)) ∧ R s (outState (EStateM.bind x f s)) ∧
    ∀ a t, EStateM.bind x f s = .ok a t → W a
  unfold EStateM.bind
  cases h : x s with
  | ok a t =>
    rw [h] at hP hr
    obtain ⟨hP', hr', hw⟩ := hf a (hv a t h) t hP
    exact ⟨hP', hT _ _ _ hr hr', hw⟩
  | error e t => rw [h] at hP hr; exact ⟨hP, hr, fun _ _ he => by cases he⟩

theorem keeps_bindVal (hT : ∀ s t u, R s t → R t u → R s u) {V : α → Prop} {x : Run α} {f : α → Run β}
    (hx : KeepsVal P R V x) (hf : ∀ a, V a → Keeps P R (f a)) : Keeps P R (x >>= f) := fun s hs =>
  let h := keepsVal_bind hT hx (fun a ha => keepsVal_of_keeps (hf a ha)) s hs
  ⟨h.1, h.2.1⟩

theorem keeps_bind (hT : ∀ s t u, R s t → R t u → R s u) {x : Run α} {f : α → Run β}
    (hx : Keeps P R x) (hf : ∀ a, Keeps P R (f a)) : Keeps P R (x >>= f) :=
  keeps_bindVal hT (keepsVal_of_keeps hx) fun a _ => hf a

theorem keeps_ite {b : Prop} [Decidable b] {x y : Run α} (hx : Keeps P R x) (hy : Keeps P R y) :
    Keeps P R (if b then x else y) := by split <;> assumption

theorem keeps_runIf (hR : ∀ s, R s s) {b : Bool} {x : Run Unit} (hx : Keeps P R x) : Keeps P R (runIf b x) :=
  keeps_ite hx (keeps_pure hR ())

namespace Closed
variable (h : Closed P R c Q n u) (hbt : Keeps P R bt)
include h

theorem params : KeepsVal P R (· = c) params := fun s hs =>
  ⟨hs, h.refl s, fun _ _ e => by cases e; exact h.cfg s hs⟩

theorem bind {x : Run α} {f : α → Run β} (hx : Keeps P R x) (hf : ∀ a, Keeps P R (f a)) : Keeps P R (x >>= f) :=
  keeps_bind h.trans hx hf

theorem withParams {f : Config → Run β} (hf : Keeps P R (f c)) : Keeps P R (Machine.params >>= f) :=
  keeps_bindVal h.trans h.params fun _ ha => ha ▸ hf

theorem pure (a : α) : Keeps P R (Pure.pure a : Run α) := keeps_pure h.refl a

include hbt

theorem atom {f : State → α × State} (hf : Moves P R fun s => (f s).2) : Keeps P R (Machine.atom bt f) :=
  h.bind hbt fun _ s hs => hf s hs

theorem update {f : State → State} (hf : Moves P R f) : Keeps P R (Machine.update bt f) := h.atom hbt hf

omit hbt in
theorem look (f : State → α) {k : α → Run β} (hk : ∀ s, P s → Keeps P R (k (f s))) :
    Keeps P R (Machine.look f >>= k) :=
  keeps_bindVal h.trans (keepsVal_look h.refl f) fun _ ⟨s, hs, e⟩ => e ▸ hk s hs

theorem regRead (r : Reg) : Keeps P R (Machine.regRead bt n r) := h.atom hbt (h.read r)

theorem diag (k v regs) : Keeps P R (Machine.diag bt k v regs) := h.update hbt (h.record k v regs)

theorem delayMs (d : Nat) : Keeps P R (Machine.delayMs bt d) := keeps_runIf h.refl (h.update hbt (h.log _))

theorem putResult {f} (hf : ResultWrite u f) : Keeps P R (Machine.putResult bt f) := h.update hbt (h.result f hf)

theorem succeed : Keeps P R (Machine.succeed bt) := h.putResult hbt .success

omit hbt in
theorem refused {k : RefuseCode} (hk : u.refuse k = true) : Keeps P R (Machine.refused k : Run α) := fun s hs =>
  let h1 := h.result _ (.refuse k hk) s hs
  let h2 := h.free _ h1.1
  ⟨h2.1, h.trans _ _ _ h1.2 h2.2⟩

theorem startCommand (k : Bool) : Keeps P R (Machine.startCommand bt k) := h.update hbt (h.start k)

theorem checkBound (hk : u.refuse .notBound = true) : Keeps P R (Machine.checkBound bt n) :=
  h.bind hbt fun _ => h.look _ fun _ _ => keeps_ite (h.pure ()) (h.refused hk)

theorem enter (hk : u.refuse .notBound = true) (k : Bool) : Keeps P R (Machine.enter bt n k) :=
  h.bind (h.startCommand hbt k) fun _ => h.checkBound hbt hk

theorem needChannel (hn : u.refuse .noChannel = true) (d : Dir) {k : ChanId → Run β} (hk : ∀ ch, Q ch → Keeps P R (k ch)) :
    Keeps P R (Machine.needChannel bt n d >>= k) := by
  refine keeps_bindVal h.trans (V := Q) (keepsVal_bind h.trans (keepsVal_of_keeps hbt) fun _ _ => ?_) hk
  refine keepsVal_bind h.trans (keepsVal_look h.refl _) fun ref ⟨s, hs, e⟩ => ?_
  subst e
  split
  · rename_i ch hch
    exact keepsVal_pure h.refl (h.ref s d ch hs hch)
  · intro t ht
    obtain ⟨h1, h2⟩ := h.refused (α := ChanId) hn t ht
    exact ⟨h1, h2, fun _ _ he => by cases he⟩

theorem acquire (hk : u.refuse .locked = true) (hl : u.lock = true) : Keeps P R (Machine.acquire bt n) :=
  h.bind hbt fun _ => h.look _ fun _ _ => keeps_ite (h.refused hk) (keeps_tweak (h.lock hl true))

theorem release (hl : u.lock = true) : Keeps P R (Machine.release bt n) := h.update hbt (h.lock hl false)

theorem setPhase (hp : u.phase = true) (p : Phase) : Keeps P R (Machine.setPhase bt n p) := h.update hbt (h.phase hp p)

theorem illegalCommand (hk : u.refuse .illegal = true) : Keeps P R (Machine.illegalCommand bt) :=
  h.bind (h.startCommand hbt _) fun _ => h.bind hbt fun _ => h.refused hk

theorem decodeStatus : Keeps P R (Machine.decodeStatus bt n) :=
  h.withParams <| h.bind (h.regRead hbt _) fun _ =>
    keeps_ite (h.bind (h.regRead hbt _) fun _ => h.pure _) (h.pure _)

omit hbt in
theorem setPollN (f : Nat → Nat) : Keeps P R (Machine.setPollN f) := keeps_tweak (h.pollN f)

theorem pollLoop (cond : Word → Bool) (d k : Nat) : Keeps P R (Machine.pollLoop bt n cond d k) := by
  induction k with
  | zero => exact h.pure _
  | succ k ih =>
    exact h.bind (h.decodeStatus hbt) fun _ => keeps_ite (h.pure _) <|
      h.bind (h.delayMs hbt d) fun _ => h.bind (h.setPollN _) fun _ => ih

theorem poll (cond : Word → Bool) (budget d : Nat) : Keeps P R (Machine.poll bt n cond budget d) :=
  h.bind (h.setPollN _) fun _ => h.pollLoop hbt cond d budget

theorem resetTurn : Keeps P R (Machine.resetTurn bt n) :=
  h.withParams <| h.bind (h.regRead hbt _) fun p => by
    split
    · exact h.pure _
    · exact h.bind (h.regRead hbt _) fun _ => h.pure _

theorem resetLoop (hr : u.reset = true) (k : Nat) : Keeps P R (Machine.resetLoop bt n k) := by
  induction k with
  | zero => exact fun s hs => h.spin hr s hs
  | succ k ih => exact h.bind (h.resetTurn hbt) fun _ => keeps_ite ih (h.pure ())

theorem setBit {m} (hm : CtlBit c m) : Keeps P R (Machine.regSet bt n .ctl m) := h.update hbt (h.set m hm)

theorem clrBit {m} (hm : CtlBit c m) : Keeps P R (Machine.regClr bt n .ctl m) := h.update hbt (h.clr m hm)

theorem resetSeq (hr : u.reset = true) : Keeps P R (Machine.resetSeq bt n) :=
  h.withParams <| h.bind (h.clrBit hbt .pe) fun _ => h.bind (h.update hbt (h.pulseSet hr)) fun _ =>
    h.bind (h.update hbt (h.pulseClr hr)) fun _ => h.look _ fun _ _ => h.bind (h.resetLoop hbt hr _) fun _ =>
    h.bind (h.clrBit hbt .pe) fun _ => h.bind (h.update hbt (h.writeCtl2 hr)) fun _ =>
    h.bind (h.update hbt (h.writeTrise hr)) fun _ => h.bind (h.update hbt (h.writeOar hr)) fun _ =>
    h.update hbt (h.writeCcr hr)

theorem failBusError {w : Caller} {k : ErrKind} (hw : failureResets w k = true → u.reset = true) (sf : Word) :
    Keeps P R (Machine.failBusError bt w n k sf) :=
  h.bind (h.diag hbt _ _ _) fun _ => h.bind (h.putResult hbt .busErr) fun _ => by
    cases hf : failureResets w k
    · exact h.pure ()
    · exact h.bind (h.resetSeq hbt (hw hf)) fun _ => h.putResult hbt (.resetRan (hw hf))

theorem failRelease (hp : u.phase = true) (hl : u.lock = true) : Keeps P R (Machine.failRelease bt n) :=
  h.bind (h.update hbt (h.failPhase hp)) fun _ => h.bind (h.setPhase hbt hp _) fun _ => h.release hbt hl

end Closed

/-- What the failure exit of kind `k` in a command `w` needs of `u` (R143). -/
structure MayFail (u : Uses) (w : Caller) (k : ErrKind) : Prop where
  kind : k ≠ .busError
  err : u.err k = true
  reset : failureResets w k = true → u.reset = true
  phase : w.guarded = true → u.phase = true
  lock : w.guarded = true → u.lock = true

theorem mayFail_alone {k : ErrKind} (hb : k ≠ .busError) (he : u.err k = true) : MayFail u .alone k :=
  ⟨hb, he, (nomatch ·), (nomatch ·), (nomatch ·)⟩

theorem mayFail_guarded {w : Caller} {k : ErrKind} (hb : k ≠ .busError) (he : u.err k = true)
    (hw : failureResets w k = false) (hp : u.phase = true) (hl : u.lock = true) : MayFail u w k :=
  ⟨hb, he, fun e => (Bool.false_ne_true (hw ▸ e)).elim, fun _ => hp, fun _ => hl⟩

theorem mayFail_read {k : ErrKind} (hb : k ≠ .busError) (he : u.err k = true) (hr : u.reset = true)
    (hp : u.phase = true) (hl : u.lock = true) : MayFail u .read k :=
  ⟨hb, he, fun _ => hr, fun _ => hp, fun _ => hl⟩

namespace Closed
variable (h : Closed P R c Q n u) (hbt : Keeps P R bt)
include h hbt

theorem fail {w : Caller} {k : ErrKind} (hk : MayFail u w k) : Keeps P R (Machine.fail bt w n k : Run α) :=
  h.withParams <| h.bind (h.decodeStatus hbt) fun _ => h.bind (h.diag hbt _ _ _) fun _ =>
    h.bind (keeps_runIf h.refl (h.failBusError hbt hk.reset _)) fun _ =>
    h.bind (h.putResult hbt (.err k hk.kind hk.err)) fun _ => h.bind (by
      unfold failEnd
      cases hg : w.guarded
      · exact h.putResult hbt .noPhase
      · exact h.failRelease hbt (hk.phase hg) (hk.lock hg)) fun _ => keeps_leave h.refl _

theorem failUnless {w : Caller} {k : ErrKind} (hk : MayFail u w k) (ok : Bool) :
    Keeps P R (Machine.failUnless bt w n k ok) :=
  keeps_ite (h.pure ()) (h.fail hbt hk)

theorem generateStart {w : Caller} (hk : MayFail u w .startConditionFailed) : Keeps P R (Machine.generateStart bt w n) :=
  h.withParams <| h.bind (h.poll hbt _ _ _) fun _ => h.bind (h.setBit hbt .start) fun _ =>
    h.bind (h.poll hbt _ _ _) fun _ => h.failUnless hbt hk _

theorem sendAddress {w : Caller} (d : Dir) (hk : d = .tx → MayFail u w .addressPhaseFailed) (a : Addr7) :
    Keeps P R (Machine.sendAddress bt w n d a) :=
  h.withParams <| h.bind (h.update hbt (h.write _ _)) fun _ => by
    cases d
    · exact h.bind (h.poll hbt _ _ _) fun _ => h.failUnless hbt (hk rfl) _
    · exact h.pure ()

theorem transmitByte {w : Caller} (hk : MayFail u w .transmitByteFailed) (b : Byte) :
    Keeps P R (Machine.transmitByte bt w n b) :=
  h.withParams <| h.bind (h.update hbt (h.write _ _)) fun _ => h.bind (h.poll hbt _ _ _) fun _ =>
    h.failUnless hbt hk _

theorem receiveByte {w : Caller} (hk : MayFail u w .receiveByteFailed) : Keeps P R (Machine.receiveByte bt w n) :=
  h.withParams <| h.bind (h.poll hbt _ _ _) fun _ => h.bind (h.failUnless hbt hk _) fun _ =>
    h.bind (h.regRead hbt _) fun _ => h.bind (h.update hbt (h.lastRx _)) fun _ => h.pure _

theorem generateStop : Keeps P R (Machine.generateStop bt n) :=
  h.withParams <| h.setBit hbt .stop

theorem finishGuarded (hp : u.phase = true) (hl : u.lock = true) : Keeps P R (Machine.finishGuarded bt n) :=
  h.bind (h.setPhase hbt hp _) fun _ => h.release hbt hl

theorem putRdata0 (v : Word) : Keeps P R (Machine.putRdata0 bt v) := h.update hbt (h.rdata0 v)

theorem putRdata1 (v : Word) : Keeps P R (Machine.putRdata1 bt v) := h.update hbt (h.rdata1 v)

theorem readInner (hr : u.reset = true) (k : Nat) : Keeps P R (Machine.readInner bt n k) := by
  induction k with
  | zero => exact h.pure _
  | succ k ih =>
    exact h.withParams <| h.bind (h.decodeStatus hbt) fun _ => keeps_ite (h.pure _) <| keeps_ite
      (h.bind (h.resetSeq hbt hr) fun _ => h.bind (h.putResult hbt (.resetRan hr)) fun _ => h.pure _)
      (h.bind (h.setPollN _) fun _ => ih)

theorem readOuter (hr : u.reset = true) (k : Nat) : Keeps P R (Machine.readOuter bt n k) := by
  induction k with
  | zero => exact h.pure _
  | succ k ih =>
    exact h.withParams <| h.bind (h.setPollN _) fun _ => h.bind (h.readInner hbt hr _) fun _ =>
      keeps_ite (h.pure _) ih

theorem memRead (a : Word) : Keeps P R (Machine.memRead bt a) :=
  h.bind hbt fun _ => h.look _ fun _ _ => by
    split
    · exact h.bind (keeps_tweak (h.log _)) fun _ => h.pure _
    · exact keeps_leave h.refl _

theorem copyLoop {ch : ChanId} (hq : Q ch) (src : Word) (k left : Nat) : Keeps P R (Machine.copyLoop bt ch src k left) := by
  induction left generalizing k with
  | zero => exact h.pure ()
  | succ left ih =>
    exact h.bind (h.memRead hbt _) fun _ => h.bind (h.update hbt (h.chanPut _ _ _ hq)) fun _ => ih _

theorem chTc (ch : ChanId) : Keeps P R (Machine.chTc bt ch) := h.atom hbt fun s hs => h.log _ s hs

theorem chEnabled (ch : ChanId) : Keeps P R (Machine.chEnabled bt ch) := h.atom hbt fun s hs => h.log _ s hs

theorem tcLoop (ch : ChanId) (k : Nat) : Keeps P R (Machine.tcLoop bt ch k) := by
  induction k with
  | zero => exact h.pure _
  | succ k ih =>
    exact h.bind (h.chTc hbt _) fun _ => h.bind (h.setPollN _) fun _ => keeps_ite (h.pure _) ih

theorem irqEnable (k : LineKind) : Keeps P R (Machine.irqEnable bt ⟨k, n⟩) :=
  h.withParams <| h.update hbt (h.irqLine k)

end Closed

/-! ## The commands -/

namespace Closed
variable (hbt : Keeps P R bt)
include hbt

theorem statusRun (h : Closed P R c Q n (usesOf (.status n))) : Keeps P R (Machine.statusRun bt n) :=
  h.bind (h.enter hbt rfl _) fun _ => h.bind (h.decodeStatus hbt) fun _ => h.bind (h.putRdata0 hbt _) fun _ =>
    h.succeed hbt

theorem iseqRun (h : Closed P R c Q n (usesOf (.iseq n))) : Keeps P R (Machine.iseqRun bt n) :=
  h.look _ fun _ _ => h.bind (h.enter hbt rfl _) fun _ => h.bind (h.decodeStatus hbt) fun _ =>
    h.bind (h.putResult hbt (.pred _)) fun _ => h.bind (h.putRdata0 hbt _) fun _ => h.succeed hbt

theorem iseqmRun (h : Closed P R c Q n (usesOf (.iseqm n))) : Keeps P R (Machine.iseqmRun bt n) :=
  h.look _ fun _ _ => h.look _ fun _ _ => h.bind (h.enter hbt rfl _) fun _ => h.bind (h.decodeStatus hbt) fun _ =>
    h.bind (h.putResult hbt (.pred _)) fun _ => h.bind (h.putRdata0 hbt _) fun _ => h.succeed hbt

theorem gstartRun (h : Closed P R c Q n (usesOf (.gstart n))) : Keeps P R (Machine.gstartRun bt n) :=
  h.bind (h.enter hbt rfl _) fun _ =>
    h.bind (h.generateStart hbt (mayFail_alone (by decide) rfl)) fun _ => h.succeed hbt

theorem saddrRun (d : Dir) (a : Addr7) (h : Closed P R c Q n (usesOf (.saddr n d a))) :
    Keeps P R (Machine.saddrRun bt n d a) :=
  h.bind (h.enter hbt rfl _) fun _ =>
    h.bind (h.sendAddress hbt _ (fun _ => mayFail_alone (by decide) rfl) _) fun _ => h.succeed hbt

theorem txbyteRun (b : Byte) (h : Closed P R c Q n (usesOf (.txbyte n b))) : Keeps P R (Machine.txbyteRun bt n b) :=
  h.bind (h.enter hbt rfl _) fun _ =>
    h.bind (h.transmitByte hbt (mayFail_alone (by decide) rfl) _) fun _ => h.succeed hbt

theorem rxbyteRun (h : Closed P R c Q n (usesOf (.rxbyte n))) : Keeps P R (Machine.rxbyteRun bt n) :=
  h.bind (h.enter hbt rfl _) fun _ =>
    h.bind (h.receiveByte hbt (mayFail_alone (by decide) rfl)) fun _ =>
    h.bind (h.putRdata0 hbt _) fun _ => h.succeed hbt

theorem gstopRun (h : Closed P R c Q n (usesOf (.gstop n))) : Keeps P R (Machine.gstopRun bt n) :=
  h.bind (h.enter hbt rfl _) fun _ => h.bind (h.generateStop hbt) fun _ => h.succeed hbt

theorem writeRun (a : Addr7) (b : Byte) (h : Closed P R c Q n (usesOf (.write n a b))) :
    Keeps P R (Machine.writeRun bt n a b) :=
  h.bind (h.enter hbt rfl _) fun _ => h.bind (h.acquire hbt rfl rfl) fun _ => h.bind (h.setPhase hbt rfl _) fun _ =>
    h.withParams <| h.bind (h.poll hbt _ _ _) fun _ =>
    h.bind (h.failUnless hbt (mayFail_guarded (by decide) rfl rfl rfl rfl) _) fun _ =>
    h.bind (h.setPhase hbt rfl _) fun _ =>
    h.bind (h.generateStart hbt (mayFail_guarded (by decide) rfl rfl rfl rfl)) fun _ =>
    h.bind (h.setPhase hbt rfl _) fun _ =>
    h.bind (h.sendAddress hbt _ (fun _ => mayFail_guarded (by decide) rfl rfl rfl rfl) _) fun _ =>
    h.bind (h.setPhase hbt rfl _) fun _ =>
    h.bind (h.transmitByte hbt (mayFail_guarded (by decide) rfl rfl rfl rfl) _) fun _ =>
    h.bind (h.setPhase hbt rfl _) fun _ => h.bind (h.generateStop hbt) fun _ =>
    h.bind (h.finishGuarded hbt rfl rfl) fun _ => h.succeed hbt

theorem readRun (a : Addr7) (h : Closed P R c Q n (usesOf (.read n a))) : Keeps P R (Machine.readRun bt n a) :=
  h.bind (h.enter hbt rfl _) fun _ => h.bind (h.acquire hbt rfl rfl) fun _ => h.bind (h.setPhase hbt rfl _) fun _ =>
    h.withParams <| h.bind (h.readOuter hbt rfl _) fun _ =>
    h.bind (h.failUnless hbt (mayFail_read (by decide) rfl rfl rfl rfl) _) fun _ =>
    h.bind (h.setPhase hbt rfl _) fun _ =>
    h.bind (h.generateStart hbt (mayFail_read (by decide) rfl rfl rfl rfl)) fun _ =>
    h.bind (h.setPhase hbt rfl _) fun _ => h.bind (h.sendAddress hbt _ (fun e => by cases e) _) fun _ =>
    h.bind (h.setPhase hbt rfl _) fun _ =>
    h.bind (h.receiveByte hbt (mayFail_read (by decide) rfl rfl rfl rfl)) fun _ =>
    h.bind (h.setPhase hbt rfl _) fun _ => h.bind (h.generateStop hbt) fun _ =>
    h.bind (h.finishGuarded hbt rfl rfl) fun _ => h.bind (h.putRdata0 hbt _) fun _ => h.succeed hbt

theorem attachRun (d : Dir) (h : Closed P R c Q n (usesOf (.attach n d))) : Keeps P R (Machine.attachRun bt n d) :=
  h.bind (h.enter hbt rfl _) fun _ => h.bind (h.update hbt (h.attach d)) fun _ => h.succeed hbt

theorem mtxRun (a : Addr7) (h : Closed P R c Q n (usesOf (.mtx n a))) : Keeps P R (Machine.mtxRun bt n a) :=
  h.look _ fun _ _ => h.look _ fun _ _ => h.bind (h.enter hbt rfl _) fun _ => h.needChannel hbt rfl _ fun _ hq =>
    h.bind (h.acquire hbt rfl rfl) fun _ => h.withParams <| h.bind (h.copyLoop hbt hq _ _ _) fun _ =>
    h.bind (h.putRdata0 hbt _) fun _ => h.bind (h.setPhase hbt rfl _) fun _ =>
    h.bind (h.generateStart hbt (mayFail_guarded (by decide) rfl rfl rfl rfl)) fun _ =>
    h.bind (h.setPhase hbt rfl _) fun _ =>
    h.bind (h.sendAddress hbt _ (fun _ => mayFail_guarded (by decide) rfl rfl rfl rfl) _) fun _ =>
    h.bind (h.setPhase hbt rfl _) fun _ => h.bind (h.update hbt h.setDma) fun _ =>
    h.bind (h.update hbt (h.chanEnable _ _ hq (Nat.min_le_right _ _))) fun _ => h.bind (h.setPollN _) fun _ =>
    h.bind (h.tcLoop hbt _ _) fun _ =>
    h.bind (h.failUnless hbt (mayFail_guarded (by decide) rfl rfl rfl rfl) _) fun _ =>
    h.bind (h.finishGuarded hbt rfl rfl) fun _ => h.succeed hbt

theorem srxRun (a : Addr7) (h : Closed P R c Q n (usesOf (.srx n a))) : Keeps P R (Machine.srxRun bt n a) :=
  h.bind (h.enter hbt rfl _) fun _ => h.needChannel hbt rfl _ fun _ hq =>
    h.bind (h.acquire hbt rfl rfl) fun _ => h.withParams <| h.bind (h.putRdata0 hbt _) fun _ =>
    h.bind (h.putRdata1 hbt _) fun _ => h.bind (h.setPhase hbt rfl _) fun _ => h.bind (h.poll hbt _ _ _) fun _ =>
    h.bind (h.failUnless hbt (mayFail_guarded (by decide) rfl rfl rfl rfl) _) fun _ =>
    h.bind (h.poll hbt _ _ _) fun _ => h.bind (h.decodeStatus hbt) fun _ => h.bind (h.diag hbt _ _ _) fun _ =>
    h.bind (h.setPhase hbt rfl _) fun _ => h.bind (h.update hbt h.setDma) fun _ =>
    h.bind (h.update hbt (h.chanEnable _ _ hq (Nat.le_refl _))) fun _ =>
    h.bind (h.finishGuarded hbt rfl rfl) fun _ => h.succeed hbt

theorem tcqRun (d : Dir) (h : Closed P R c Q n (usesOf (.tcq n d))) : Keeps P R (Machine.tcqRun bt n d) :=
  h.bind (h.enter hbt rfl _) fun _ => h.needChannel hbt rfl _ fun _ _ => h.bind (h.chEnabled hbt _) fun _ =>
    h.bind (h.chTc hbt _) fun _ => h.bind (h.putRdata0 hbt _) fun _ => h.succeed hbt

theorem initRun (h : Closed P R c Q n (usesOf (.init n))) : Keeps P R (Machine.initRun bt n) :=
  h.bind (h.startCommand hbt _) fun _ => h.withParams <| h.bind (h.update hbt (h.lock rfl _)) fun _ =>
    h.bind (h.update hbt h.own) fun _ => h.bind (h.update hbt h.bound) fun _ => h.bind (h.resetSeq hbt rfl) fun _ =>
    h.bind (h.irqEnable hbt _) fun _ => h.bind (h.irqEnable hbt _) fun _ => h.succeed hbt

theorem resetRun (h : Closed P R c Q n (usesOf (.reset n))) : Keeps P R (Machine.resetRun bt n) :=
  h.bind (h.enter hbt rfl _) fun _ => h.bind (h.resetSeq hbt rfl) fun _ =>
    h.bind (h.putResult hbt (.resetRan rfl)) fun _ => h.succeed hbt

theorem enableRun (h : Closed P R c Q n (usesOf (.enable n))) : Keeps P R (Machine.enableRun bt n) :=
  h.bind (h.enter hbt rfl _) fun _ => h.withParams <| h.bind (h.setBit hbt .pe) fun _ => h.succeed hbt

theorem disableRun (h : Closed P R c Q n (usesOf (.disable n))) : Keeps P R (Machine.disableRun bt n) :=
  h.bind (h.enter hbt rfl _) fun _ => h.withParams <| h.bind (h.clrBit hbt .pe) fun _ => h.succeed hbt

theorem pstatRun (h : Closed P R c Q n (usesOf (.pstat n))) : Keeps P R (Machine.pstatRun bt n) :=
  h.bind (h.enter hbt rfl _) fun _ => h.withParams <| h.bind (h.regRead hbt _) fun _ => h.bind (h.regRead hbt _) fun _ =>
    h.bind (h.regRead hbt _) fun _ => h.bind (h.regRead hbt _) fun _ => h.bind (h.regRead hbt _) fun _ =>
    h.bind (h.decodeStatus hbt) fun _ => h.bind (h.diag hbt _ _ _) fun _ => h.bind (h.poll hbt _ _ _) fun _ =>
    h.bind (keeps_runIf h.refl (h.bind (h.decodeStatus hbt) fun _ => h.diag hbt _ _ _)) fun _ => h.succeed hbt

theorem evhRun (h : Closed P R c Q n (usesOf (.evh n))) : Keeps P R (Machine.evhRun bt n) :=
  h.bind (h.enter hbt rfl _) fun _ => h.bind (h.decodeStatus hbt) fun _ => h.bind (h.diag hbt _ _ _) fun _ =>
    h.succeed hbt

theorem erhRun (h : Closed P R c Q n (usesOf (.erh n))) : Keeps P R (Machine.erhRun bt n) :=
  h.bind (h.enter hbt rfl _) fun _ => h.withParams <| h.bind (h.decodeStatus hbt) fun _ =>
    h.bind (h.diag hbt _ _ _) fun _ => h.bind (h.update hbt h.clrErr) fun _ => h.succeed hbt

omit hbt in
/-- What is closed under all a command may do is closed under what one of them does. -/
theorem weaken (h : Closed P R c Q n .all) (u : Uses) : Closed P R c Q n u where
  __ := h
  pulseSet _ := h.pulseSet rfl
  pulseClr _ := h.pulseClr rfl
  writeCtl2 _ := h.writeCtl2 rfl
  writeTrise _ := h.writeTrise rfl
  writeOar _ := h.writeOar rfl
  writeCcr _ := h.writeCcr rfl
  phase _ := h.phase rfl
  lock _ := h.lock rfl
  failPhase _ := h.failPhase rfl
  spin _ := h.spin rfl
  result f hf := h.result f <| by
    cases hf with
    | success => exact .success
    | err k hb _ => exact .err k hb rfl
    | refuse r _ => exact .refuse r rfl
    | busErr => exact .busErr
    | resetRan _ => exact .resetRan rfl
    | pred b => exact .pred b
    | noPhase => exact .noPhase

end Closed

end

/-- Every command on instance `n` keeps what its primitives keep. -/
theorem runInstr_keeps {P : State → Prop} {R : State → State → Prop} {c : Config} {Q : ChanId → Prop} {bt : Run Unit}
    (i : Instr) (h : Closed P R c Q (targetOf i) (usesOf i)) (hbt : Keeps P R bt) : Keeps P R (runInstr bt i) := by
  cases i with
  | status n => exact Closed.statusRun hbt h
  | iseq n => exact Closed.iseqRun hbt h
  | iseqm n => exact Closed.iseqmRun hbt h
  | gstart n => exact Closed.gstartRun hbt h
  | saddr n d a => exact Closed.saddrRun hbt d a h
  | txbyte n b => exact Closed.txbyteRun hbt b h
  | rxbyte n => exact Closed.rxbyteRun hbt h
  | gstop n => exact Closed.gstopRun hbt h
  | write n a b => exact Closed.writeRun hbt a b h
  | read n a => exact Closed.readRun hbt a h
  | attach n d => exact Closed.attachRun hbt d h
  | mtx n a => exact Closed.mtxRun hbt a h
  | srx n a => exact Closed.srxRun hbt a h
  | tcq n d => exact Closed.tcqRun hbt d h
  | init n => exact Closed.initRun hbt h
  | reset n => exact Closed.resetRun hbt h
  | enable n => exact Closed.enableRun hbt h
  | disable n => exact Closed.disableRun hbt h
  | pstat n => exact Closed.pstatRun hbt h
  | evh n => exact Closed.evhRun hbt h
  | erh n => exact Closed.erhRun hbt h

end Sys2Proof.Machine
end

