-- ==== Sys2Proof/Laws/Runs.lean ====
section
/-! SUPPORT. How a run computes: sequence, the private steps, what the other agents do when the schedule is empty or its next
batch holds no interrupt, and each primitive under an empty schedule. -/
namespace Sys2Proof.Machine

/-! ## Sequence -/

theorem run_bind {α β : Type} (x : Run α) (f : α → Run β) (s : State) :
    (x >>= f) s = match x s with
      | .ok a t => f a t
      | .error e t => .error e t := by
  show EStateM.bind x f s = _
  unfold EStateM.bind
  cases x s <;> rfl

theorem run_pure {α : Type} (a : α) (s : State) : (pure a : Run α) s = .ok a s := rfl

theorem bind_of_ok {α β : Type} {x : Run α} {f : α → Run β} {s t : State} {a : α} (h : x s = .ok a t) :
    (x >>= f) s = f a t := by rw [run_bind, h]

theorem bind_of_error {α β : Type} {x : Run α} {f : α → Run β} {s t : State} {e : Exit} (h : x s = .error e t) :
    (x >>= f) s = .error e t := by rw [run_bind, h]

theorem look_run {α : Type} (f : State → α) (s : State) : look f s = .ok (f s) s := rfl

theorem tweak_run (f : State → State) (s : State) : tweak f s = .ok () (f s) := rfl

theorem leave_run {α : Type} (e : Exit) (s : State) : (leave e : Run α) s = .error e s := rfl

theorem params_run (s : State) : params s = .ok s.cfg s := rfl

theorem runIf_true (x : Run Unit) : runIf true x = x := rfl

theorem runIf_false (x : Run Unit) : runIf false x = pure () := rfl

/-! ## The other agents -/

/-- Past the end of the schedule no other agent moves. -/
theorem others_quiet {s : State} (h : s.sched = []) : others s = .ok () s := by
  show between s.sched.length s = _
  rw [h]; rfl

/-- What the moves of one batch do, when none of them is an interrupt. -/
def applyQuiet (ms : List Move) (s : State) : State :=
  ms.foldl (fun u m => quietMove m u) s

theorem applyMoves_quiet (bt : Run Unit) {ms : List Move}
    (h : ∀ m ∈ ms, m.isInterrupt = false) (s : State) : applyMoves bt ms s = .ok () (applyQuiet ms s) := by
  induction ms generalizing s with
  | nil => rfl
  | cons m ms ih =>
    have hm : applyMove bt m s = .ok () (quietMove m s) := by
      have := h m List.mem_cons_self
      cases m <;> first | rfl | simp [Move.isInterrupt] at this
    show (applyMove bt m >>= fun _ => applyMoves bt ms) s = _
    rw [bind_of_ok hm, ih fun x hx => h x (List.mem_cons_of_mem _ hx)]; rfl

/-- The next batch, when it holds no interrupt. -/
theorem others_batch {s : State} {b : List Move} {rest : List (List Move)} (h : s.sched = b :: rest)
    (hb : ∀ m ∈ b, m.isInterrupt = false) : others s = .ok () (applyQuiet b { s with sched := rest }) := by
  have hp : popBatch s = .ok b { s with sched := rest } := by simp only [popBatch, h]
  show between s.sched.length s = _
  rw [h]
  show (popBatch >>= fun ms => applyMoves (between rest.length) ms) s = _
  rw [bind_of_ok hp, applyMoves_quiet _ hb]

/-- An empty batch: no other agent moves before this primitive. -/
theorem others_silent {s : State} {rest : List (List Move)} (h : s.sched = [] :: rest) :
    others s = .ok () { s with sched := rest } := others_batch h (by simp)

/-! ## Primitives -/

theorem atom_of {α : Type} {bt : Run Unit} {s t : State} (h : bt s = .ok () t) (f : State → α × State) :
    atom bt f s = .ok (f t).1 (f t).2 := by unfold atom; rw [bind_of_ok h]; rfl

theorem update_of {bt : Run Unit} {s t : State} (h : bt s = .ok () t) (f : State → State) :
    update bt f s = .ok () (f t) := by unfold update; rw [atom_of h]

theorem regRead_of {bt : Run Unit} {s t : State} (h : bt s = .ok () t) (n : Inst) (r : Reg) :
    regRead bt n r s = .ok (readReg n r t).1 (readReg n r t).2 := atom_of h _

theorem atom_quiet {α : Type} {s : State} (h : s.sched = []) (f : State → α × State) :
    atom others f s = .ok (f s).1 (f s).2 := atom_of (others_quiet h) f

theorem update_quiet {s : State} (h : s.sched = []) (f : State → State) : update others f s = .ok () (f s) :=
  update_of (others_quiet h) f

theorem regRead_quiet {s : State} (h : s.sched = []) (n : Inst) (r : Reg) :
    regRead others n r s = .ok (readReg n r s).1 (readReg n r s).2 := atom_quiet h _

/-! ## What a register access changes -/

@[simp] theorem readReg_value (n : Inst) (r : Reg) (s : State) : (readReg n r s).1 = (s.bus n).ctrl.get r := rfl

@[simp] theorem readReg_sched (n : Inst) (r : Reg) (s : State) : (readReg n r s).2.sched = s.sched := by
  simp [readReg, State.modCtrl]

@[simp] theorem writeReg_sched (n : Inst) (r : Reg) (v : Half) (s : State) : (writeReg n r v s).sched = s.sched := by
  simp [writeReg, State.modCtrl]

@[simp] theorem setReg_sched (n : Inst) (r : Reg) (v : Half) (s : State) : (setReg n r v s).sched = s.sched := by
  simp [setReg, State.modCtrl]

@[simp] theorem clrReg_sched (n : Inst) (r : Reg) (v : Half) (s : State) : (clrReg n r v s).sched = s.sched := by
  cases r <;> simp [clrReg, State.modCtrl]

@[simp] theorem modResult_sched (s : State) (f) : (s.modResult f).sched = s.sched := State.modBank_sched s _

@[simp] theorem freeRdata0_sched (s : State) : (freeRdata0 s).sched = s.sched := State.modBank_sched s _

@[simp] theorem clearResult_sched (k : Bool) (s : State) : (clearResult k s).sched = s.sched := State.modBank_sched s _

/-- A read changes the one instance, by the side effect alone, and the trace. -/
theorem readReg_frame (n : Inst) (r : Reg) (s : State) :
    (readReg n r s).2 = (s.modCtrl n fun c => c.afterRead s.cfg r).log (.regRead n r ((s.bus n).ctrl.get r)) := rfl

/-- The two reads of a decode with nothing between them (R90, R93): the value, and the state after. -/
theorem decodeStatus_quiet {s : State} (h : s.sched = []) (n : Inst) :
    decodeStatus others n s =
      if gateOpen s.cfg (s.bus n).ctrl.srP then
        .ok (composite (s.bus n).ctrl.srS (s.bus n).ctrl.srP) (readReg n .srS (readReg n .srP s).2).2
      else .ok (suppressed (s.bus n).ctrl.srP) (readReg n .srP s).2 := by
  unfold decodeStatus
  rw [bind_of_ok (params_run s), bind_of_ok (regRead_quiet h n .srP)]
  have hv : (readReg n .srP s).1 = (s.bus n).ctrl.srP := rfl
  rw [hv]
  split
  · have h2 : (readReg n .srP s).2.sched = [] := by simp [h]
    rw [bind_of_ok (regRead_quiet h2 n .srS)]
    simp [run_pure, readReg, State.modCtrl, Ctrl.afterRead, Ctrl.get]
  · rfl

/-- A decode answers `decodedValue` when nothing changes between its reads (R90, R93). -/
theorem decodeStatus_value {s : State} (h : s.sched = []) (n : Inst) :
    ∃ t, decodeStatus others n s = .ok (decodedValue s n) t ∧ t.sched = [] := by
  rw [decodeStatus_quiet h, decodedValue]
  split <;> exact ⟨_, rfl, by simp [h]⟩

end Sys2Proof.Machine
end

