-- ==== Sys2Proof/Laws/Agree.lean ====
section
/-! SUPPORT. A command depends on what the other agents do between its primitives only as far as the schedule is long: two ways of
moving that agree on short schedules give the same command. So the nesting depth of `others` is no bound, and a command
on the interrupt port does there what it does (R57, R153, log 9). -/
namespace Sys2Proof.Machine

/-- The two runs are the same from states with at most `k` batches left, and leave such a state. -/
def Agree (k : Nat) {α : Type} (x y : Run α) : Prop :=
  ∀ s, s.sched.length ≤ k → x s = y s ∧ (outState (x s)).sched.length ≤ k

section
variable {k : Nat} {α β : Type} {bt bu : Run Unit} {n : Inst}

/-- The one lemma about sequence. -/
theorem agree_bind {x y : Run α} {f g : α → Run β} (h : Agree k x y) (hf : ∀ a, Agree k (f a) (g a)) :
    Agree k (x >>= f) (y >>= g) := by
  intro s hs
  obtain ⟨he, hk⟩ := h s hs
  rw [run_bind, run_bind, ← he]
  cases hx : x s with
  | ok a t => rw [hx] at hk; exact hf a t hk
  | error e t => rw [hx] at hk; exact ⟨rfl, hk⟩

theorem agree_pure (a : α) : Agree k (pure a) (pure a) := fun _ hs => ⟨rfl, hs⟩

theorem agree_look (f : State → α) : Agree k (look f) (look f) := fun _ hs => ⟨rfl, hs⟩

theorem agree_leave (e : Exit) : Agree k (leave e : Run α) (leave e) := fun _ hs => ⟨rfl, hs⟩

theorem agree_tweak {f : State → State} (hf : ∀ s, (f s).sched = s.sched) : Agree k (tweak f) (tweak f) := fun s hs =>
  ⟨rfl, by simpa [tweak, hf s] using hs⟩

theorem agree_ite {b : Prop} [Decidable b] {x x' y y' : Run α} (hx : Agree k x y) (hx' : Agree k x' y') :
    Agree k (if b then x else x') (if b then y else y') := by split <;> assumption

theorem agree_runIf {b : Bool} {x y : Run Unit} (h : Agree k x y) : Agree k (runIf b x) (runIf b y) :=
  agree_ite h (agree_pure ())

theorem agree_refused (r : RefuseCode) : Agree k (refused r : Run α) (refused r) := fun s hs =>
  ⟨rfl, by simpa [refused] using hs⟩

theorem agree_runWhole {x y : Run Unit} (h : Agree k x y) : Agree k (runWhole x) (runWhole y) := by
  intro s hs
  obtain ⟨he, hk⟩ := h s hs
  unfold runWhole
  rw [← he]
  refine ⟨rfl, ?_⟩
  split
  · rename_i t ht; rw [ht] at hk; exact hk
  · exact hk

variable (hb : Agree k bt bu)
include hb

theorem agree_atom {f : State → α × State} (hf : ∀ s, (f s).2.sched = s.sched) : Agree k (atom bt f) (atom bu f) :=
  agree_bind hb fun _ s hs => ⟨rfl, by simpa [effect, hf s] using hs⟩

theorem agree_update {f : State → State} (hf : ∀ s, (f s).sched = s.sched) : Agree k (update bt f) (update bu f) :=
  agree_atom hb hf

theorem agree_regRead (r : Reg) : Agree k (regRead bt n r) (regRead bu n r) := agree_atom hb (readReg_sched n r)

theorem agree_regWrite (r : Reg) (v : Half) : Agree k (regWrite bt n r v) (regWrite bu n r v) :=
  agree_update hb (writeReg_sched n r v)

theorem agree_regSet (r : Reg) (m : Half) : Agree k (regSet bt n r m) (regSet bu n r m) := agree_update hb (setReg_sched n r m)

theorem agree_regClr (r : Reg) (m : Half) : Agree k (regClr bt n r m) (regClr bu n r m) := agree_update hb (clrReg_sched n r m)

theorem agree_diag (d v l) : Agree k (diag bt d v l) (diag bu d v l) := agree_update hb fun _ => rfl

theorem agree_delayMs (d : Nat) : Agree k (delayMs bt d) (delayMs bu d) := agree_runIf (agree_update hb fun _ => rfl)

theorem agree_modBus (f : Bus → Bus) : Agree k (update bt (·.modBus n f)) (update bu (·.modBus n f)) :=
  agree_update hb fun s => State.modBus_sched s n f

theorem agree_putResult (f : Half → Half) : Agree k (putResult bt f) (putResult bu f) :=
  agree_update hb fun s => modResult_sched s f

theorem agree_succeed : Agree k (succeed bt) (succeed bu) := agree_putResult hb _

theorem agree_modBank (f : Bank → Bank) : Agree k (update bt (·.modBank f)) (update bu (·.modBank f)) :=
  agree_update hb fun s => State.modBank_sched s f

theorem agree_putRdata0 (v : Word) : Agree k (putRdata0 bt v) (putRdata0 bu v) := agree_modBank hb _

theorem agree_putRdata1 (v : Word) : Agree k (putRdata1 bt v) (putRdata1 bu v) := agree_modBank hb _

theorem agree_setPhase (p : Phase) : Agree k (setPhase bt n p) (setPhase bu n p) := agree_modBus hb _

theorem agree_startCommand (b : Bool) : Agree k (startCommand bt b) (startCommand bu b) :=
  agree_update hb (clearResult_sched b)

theorem agree_enter (b : Bool) : Agree k (enter bt n b) (enter bu n b) :=
  agree_bind (agree_startCommand hb b) fun _ => agree_bind hb fun _ => agree_bind (agree_look _) fun _ =>
    agree_ite (agree_pure ()) (agree_refused _)

theorem agree_needChannel (d : Dir) : Agree k (needChannel bt n d) (needChannel bu n d) :=
  agree_bind hb fun _ => agree_bind (agree_look _) fun r => by
    cases r
    · exact agree_refused _
    · exact agree_pure _

theorem agree_acquire : Agree k (acquire bt n) (acquire bu n) :=
  agree_bind hb fun _ => agree_bind (agree_look _) fun _ =>
    agree_ite (agree_refused _) (agree_tweak fun s => State.modBus_sched s n _)

theorem agree_release : Agree k (release bt n) (release bu n) := agree_modBus hb _

theorem agree_illegalCommand : Agree k (illegalCommand bt) (illegalCommand bu) :=
  agree_bind (agree_startCommand hb _) fun _ => agree_bind hb fun _ => agree_refused _

theorem agree_decodeStatus : Agree k (decodeStatus bt n) (decodeStatus bu n) :=
  agree_bind (agree_look _) fun _ => agree_bind (agree_regRead hb _) fun _ =>
    agree_ite (agree_bind (agree_regRead hb _) fun _ => agree_pure _) (agree_pure _)

omit hb in
theorem agree_setPollN (f : Nat → Nat) : Agree k (setPollN f) (setPollN f) :=
  agree_tweak fun s => State.modBank_sched s _

theorem agree_pollLoop (cond : Word → Bool) (d j : Nat) : Agree k (pollLoop bt n cond d j) (pollLoop bu n cond d j) := by
  induction j with
  | zero => exact agree_pure _
  | succ j ih =>
    exact agree_bind (agree_decodeStatus hb) fun _ => agree_ite (agree_pure _) <|
      agree_bind (agree_delayMs hb d) fun _ => agree_bind (agree_setPollN _) fun _ => ih

theorem agree_poll (cond : Word → Bool) (j d : Nat) : Agree k (poll bt n cond j d) (poll bu n cond j d) :=
  agree_bind (agree_setPollN _) fun _ => agree_pollLoop hb cond d j

theorem agree_resetTurn : Agree k (resetTurn bt n) (resetTurn bu n) :=
  agree_bind (agree_look _) fun _ => agree_bind (agree_regRead hb _) fun _ => by
    split
    · exact agree_pure _
    · exact agree_bind (agree_regRead hb _) fun _ => agree_pure _

theorem agree_resetLoop (j : Nat) : Agree k (resetLoop bt n j) (resetLoop bu n j) := by
  induction j with
  | zero => exact fun s hs => ⟨rfl, hs⟩
  | succ j ih => exact agree_bind (agree_resetTurn hb) fun _ => agree_ite ih (agree_pure ())

theorem agree_resetSeq : Agree k (resetSeq bt n) (resetSeq bu n) :=
  agree_bind (agree_look _) fun _ => agree_bind (agree_regClr hb _ _) fun _ => agree_bind (agree_regSet hb _ _) fun _ =>
    agree_bind (agree_regClr hb _ _) fun _ => agree_bind (agree_look _) fun _ => agree_bind (agree_resetLoop hb _) fun _ =>
    agree_bind (agree_regClr hb _ _) fun _ => agree_bind (agree_regWrite hb _ _) fun _ =>
    agree_bind (agree_regWrite hb _ _) fun _ =>
    agree_bind (agree_update hb fun s => writeReg_sched n _ _ s) fun _ => agree_regWrite hb _ _

theorem agree_fail (w : Caller) (e : ErrKind) : Agree k (fail bt w n e : Run α) (fail bu w n e) :=
  agree_bind (agree_look _) fun _ => agree_bind (agree_decodeStatus hb) fun _ => agree_bind (agree_diag hb _ _ _) fun _ =>
    agree_bind (agree_runIf <| agree_bind (agree_diag hb _ _ _) fun _ => agree_bind (agree_putResult hb _) fun _ =>
      agree_runIf <| agree_bind (agree_resetSeq hb) fun _ => agree_putResult hb _) fun _ =>
    agree_bind (agree_putResult hb _) fun _ =>
    agree_bind (agree_ite (agree_bind (agree_update hb fun s => modResult_sched s _) fun _ =>
      agree_bind (agree_setPhase hb _) fun _ => agree_release hb) (agree_putResult hb _)) fun _ => agree_leave _

theorem agree_failUnless (w : Caller) (e : ErrKind) (ok : Bool) : Agree k (failUnless bt w n e ok) (failUnless bu w n e ok) :=
  agree_ite (agree_pure ()) (agree_fail hb w e)

theorem agree_generateStart (w : Caller) : Agree k (generateStart bt w n) (generateStart bu w n) :=
  agree_bind (agree_look _) fun _ => agree_bind (agree_poll hb _ _ _) fun _ => agree_bind (agree_regSet hb _ _) fun _ =>
    agree_bind (agree_poll hb _ _ _) fun _ => agree_failUnless hb _ _ _

theorem agree_sendAddress (w : Caller) (d : Dir) (a : Addr7) : Agree k (sendAddress bt w n d a) (sendAddress bu w n d a) :=
  agree_bind (agree_look _) fun _ => agree_bind (agree_regWrite hb _ _) fun _ => by
    cases d
    · exact agree_bind (agree_poll hb _ _ _) fun _ => agree_failUnless hb _ _ _
    · exact agree_pure ()

theorem agree_transmitByte (w : Caller) (b : Byte) : Agree k (transmitByte bt w n b) (transmitByte bu w n b) :=
  agree_bind (agree_look _) fun _ => agree_bind (agree_regWrite hb _ _) fun _ => agree_bind (agree_poll hb _ _ _) fun _ =>
    agree_failUnless hb _ _ _

theorem agree_receiveByte (w : Caller) : Agree k (receiveByte bt w n) (receiveByte bu w n) :=
  agree_bind (agree_look _) fun _ => agree_bind (agree_poll hb _ _ _) fun _ => agree_bind (agree_failUnless hb _ _ _) fun _ =>
    agree_bind (agree_regRead hb _) fun _ => agree_bind (agree_modBus hb _) fun _ => agree_pure _

theorem agree_generateStop : Agree k (generateStop bt n) (generateStop bu n) :=
  agree_bind (agree_look _) fun _ => agree_regSet hb _ _

theorem agree_finishGuarded : Agree k (finishGuarded bt n) (finishGuarded bu n) :=
  agree_bind (agree_setPhase hb _) fun _ => agree_release hb

theorem agree_readInner (j : Nat) : Agree k (readInner bt n j) (readInner bu n j) := by
  induction j with
  | zero => exact agree_pure _
  | succ j ih =>
    exact agree_bind (agree_look _) fun _ => agree_bind (agree_decodeStatus hb) fun _ => agree_ite (agree_pure _) <| agree_ite
      (agree_bind (agree_resetSeq hb) fun _ => agree_bind (agree_putResult hb _) fun _ => agree_pure _)
      (agree_bind (agree_setPollN _) fun _ => ih)

theorem agree_readOuter (j : Nat) : Agree k (readOuter bt n j) (readOuter bu n j) := by
  induction j with
  | zero => exact agree_pure _
  | succ j ih =>
    exact agree_bind (agree_look _) fun _ => agree_bind (agree_setPollN _) fun _ => agree_bind (agree_readInner hb _) fun _ =>
      agree_ite (agree_pure _) ih

theorem agree_copyLoop (c : ChanId) (src : Word) (i j : Nat) : Agree k (copyLoop bt c src i j) (copyLoop bu c src i j) := by
  induction j generalizing i with
  | zero => exact agree_pure ()
  | succ j ih =>
    refine agree_bind (agree_bind hb fun _ => agree_bind (agree_look _) fun b? => ?_) fun _ =>
      agree_bind (agree_update hb fun s => by simp [State.modChan_eq_modBus]) fun _ => ih _
    cases b?
    · exact agree_leave _
    · exact agree_bind (agree_tweak fun _ => rfl) fun _ => agree_pure _

theorem agree_chTc (c : ChanId) : Agree k (chTc bt c) (chTc bu c) := agree_atom hb fun _ => rfl

theorem agree_tcLoop (c : ChanId) (j : Nat) : Agree k (tcLoop bt c j) (tcLoop bu c j) := by
  induction j with
  | zero => exact agree_pure _
  | succ j ih =>
    exact agree_bind (agree_chTc hb c) fun _ => agree_bind (agree_setPollN _) fun _ => agree_ite (agree_pure _) ih

theorem agree_chEnable (c : ChanId) (j : Nat) : Agree k (chEnable bt c j) (chEnable bu c j) :=
  agree_update hb fun s => by simp [State.modChan_eq_modBus]

theorem agree_irqEnable (l : Line) : Agree k (irqEnable bt l) (irqEnable bu l) :=
  agree_bind (agree_look _) fun _ => agree_update hb fun _ => rfl

end

section
variable {k : Nat} {bt bu : Run Unit} (hb : Agree k bt bu)
include hb

theorem agree_writeRun (n : Inst) (a : Addr7) (b : Byte) : Agree k (writeRun bt n a b) (writeRun bu n a b) :=
  agree_bind (agree_enter hb _) fun _ => agree_bind (agree_acquire hb) fun _ => agree_bind (agree_setPhase hb _) fun _ =>
    agree_bind (agree_look _) fun _ => agree_bind (agree_poll hb _ _ _) fun _ => agree_bind (agree_failUnless hb _ _ _) fun _ =>
    agree_bind (agree_setPhase hb _) fun _ => agree_bind (agree_generateStart hb _) fun _ =>
    agree_bind (agree_setPhase hb _) fun _ => agree_bind (agree_sendAddress hb _ _ _) fun _ =>
    agree_bind (agree_setPhase hb _) fun _ => agree_bind (agree_transmitByte hb _ _) fun _ =>
    agree_bind (agree_setPhase hb _) fun _ => agree_bind (agree_generateStop hb) fun _ =>
    agree_bind (agree_finishGuarded hb) fun _ => agree_succeed hb

theorem agree_readRun (n : Inst) (a : Addr7) : Agree k (readRun bt n a) (readRun bu n a) :=
  agree_bind (agree_enter hb _) fun _ => agree_bind (agree_acquire hb) fun _ => agree_bind (agree_setPhase hb _) fun _ =>
    agree_bind (agree_look _) fun _ => agree_bind (agree_readOuter hb _) fun _ => agree_bind (agree_failUnless hb _ _ _) fun _ =>
    agree_bind (agree_setPhase hb _) fun _ => agree_bind (agree_generateStart hb _) fun _ =>
    agree_bind (agree_setPhase hb _) fun _ => agree_bind (agree_sendAddress hb _ _ _) fun _ =>
    agree_bind (agree_setPhase hb _) fun _ => agree_bind (agree_receiveByte hb _) fun _ =>
    agree_bind (agree_setPhase hb _) fun _ => agree_bind (agree_generateStop hb) fun _ =>
    agree_bind (agree_finishGuarded hb) fun _ => agree_bind (agree_putRdata0 hb _) fun _ => agree_succeed hb

theorem agree_mtxRun (n : Inst) (a : Addr7) : Agree k (mtxRun bt n a) (mtxRun bu n a) :=
  agree_bind (agree_look _) fun _ => agree_bind (agree_look _) fun _ => agree_bind (agree_enter hb _) fun _ =>
    agree_bind (agree_needChannel hb _) fun _ => agree_bind (agree_acquire hb) fun _ => agree_bind (agree_look _) fun _ =>
    agree_bind (agree_copyLoop hb _ _ _ _) fun _ => agree_bind (agree_putRdata0 hb _) fun _ =>
    agree_bind (agree_setPhase hb _) fun _ => agree_bind (agree_generateStart hb _) fun _ =>
    agree_bind (agree_setPhase hb _) fun _ => agree_bind (agree_sendAddress hb _ _ _) fun _ =>
    agree_bind (agree_setPhase hb _) fun _ => agree_bind (agree_regSet hb _ _) fun _ =>
    agree_bind (agree_chEnable hb _ _) fun _ => agree_bind (agree_setPollN _) fun _ =>
    agree_bind (agree_tcLoop hb _ _) fun _ => agree_bind (agree_failUnless hb _ _ _) fun _ =>
    agree_bind (agree_finishGuarded hb) fun _ => agree_succeed hb

theorem agree_srxRun (n : Inst) (a : Addr7) : Agree k (srxRun bt n a) (srxRun bu n a) :=
  agree_bind (agree_enter hb _) fun _ => agree_bind (agree_needChannel hb _) fun _ => agree_bind (agree_acquire hb) fun _ =>
    agree_bind (agree_look _) fun _ => agree_bind (agree_putRdata0 hb _) fun _ => agree_bind (agree_putRdata1 hb _) fun _ =>
    agree_bind (agree_setPhase hb _) fun _ => agree_bind (agree_poll hb _ _ _) fun _ =>
    agree_bind (agree_failUnless hb _ _ _) fun _ => agree_bind (agree_poll hb _ _ _) fun _ =>
    agree_bind (agree_decodeStatus hb) fun _ => agree_bind (agree_diag hb _ _ _) fun _ =>
    agree_bind (agree_setPhase hb _) fun _ => agree_bind (agree_regSet hb _ _) fun _ =>
    agree_bind (agree_chEnable hb _ _) fun _ => agree_bind (agree_finishGuarded hb) fun _ => agree_succeed hb

theorem agree_pstatRun (n : Inst) : Agree k (pstatRun bt n) (pstatRun bu n) :=
  agree_bind (agree_enter hb _) fun _ => agree_bind (agree_look _) fun _ => agree_bind (agree_regRead hb _) fun _ =>
    agree_bind (agree_regRead hb _) fun _ => agree_bind (agree_regRead hb _) fun _ => agree_bind (agree_regRead hb _) fun _ =>
    agree_bind (agree_regRead hb _) fun _ => agree_bind (agree_decodeStatus hb) fun _ => agree_bind (agree_diag hb _ _ _) fun _ =>
    agree_bind (agree_poll hb _ _ _) fun _ =>
    agree_bind (agree_runIf <| agree_bind (agree_decodeStatus hb) fun _ => agree_diag hb _ _ _) fun _ => agree_succeed hb

theorem agree_initRun (n : Inst) : Agree k (initRun bt n) (initRun bu n) :=
  agree_bind (agree_startCommand hb _) fun _ => agree_bind (agree_look _) fun _ => agree_bind (agree_modBus hb _) fun _ =>
    agree_bind (agree_modBus hb _) fun _ => agree_bind (agree_modBus hb _) fun _ => agree_bind (agree_resetSeq hb) fun _ =>
    agree_bind (agree_irqEnable hb _) fun _ => agree_bind (agree_irqEnable hb _) fun _ => agree_succeed hb

/-- Every command. -/
theorem runInstr_agree (i : Instr) : Agree k (runInstr bt i) (runInstr bu i) := by
  cases i with
  | status n =>
    exact agree_bind (agree_enter hb _) fun _ => agree_bind (agree_decodeStatus hb) fun _ =>
      agree_bind (agree_putRdata0 hb _) fun _ => agree_succeed hb
  | iseq n =>
    exact agree_bind (agree_look _) fun _ => agree_bind (agree_enter hb _) fun _ => agree_bind (agree_decodeStatus hb) fun _ =>
      agree_bind (agree_putResult hb _) fun _ => agree_bind (agree_putRdata0 hb _) fun _ => agree_succeed hb
  | iseqm n =>
    exact agree_bind (agree_look _) fun _ => agree_bind (agree_look _) fun _ => agree_bind (agree_enter hb _) fun _ =>
      agree_bind (agree_decodeStatus hb) fun _ => agree_bind (agree_putResult hb _) fun _ =>
      agree_bind (agree_putRdata0 hb _) fun _ => agree_succeed hb
  | gstart n => exact agree_bind (agree_enter hb _) fun _ => agree_bind (agree_generateStart hb _) fun _ => agree_succeed hb
  | saddr n d a => exact agree_bind (agree_enter hb _) fun _ => agree_bind (agree_sendAddress hb _ _ _) fun _ => agree_succeed hb
  | txbyte n b => exact agree_bind (agree_enter hb _) fun _ => agree_bind (agree_transmitByte hb _ _) fun _ => agree_succeed hb
  | rxbyte n =>
    exact agree_bind (agree_enter hb _) fun _ => agree_bind (agree_receiveByte hb _) fun _ =>
      agree_bind (agree_putRdata0 hb _) fun _ => agree_succeed hb
  | gstop n => exact agree_bind (agree_enter hb _) fun _ => agree_bind (agree_generateStop hb) fun _ => agree_succeed hb
  | write n a b => exact agree_writeRun hb n a b
  | read n a => exact agree_readRun hb n a
  | attach n d => exact agree_bind (agree_enter hb _) fun _ => agree_bind (agree_modBus hb _) fun _ => agree_succeed hb
  | mtx n a => exact agree_mtxRun hb n a
  | srx n a => exact agree_srxRun hb n a
  | tcq n d =>
    exact agree_bind (agree_enter hb _) fun _ => agree_bind (agree_needChannel hb _) fun c =>
      agree_bind (agree_atom hb fun _ => rfl) fun _ => agree_bind (agree_chTc hb c) fun _ =>
      agree_bind (agree_putRdata0 hb _) fun _ => agree_succeed hb
  | init n => exact agree_initRun hb n
  | reset n =>
    exact agree_bind (agree_enter hb _) fun _ => agree_bind (agree_resetSeq hb) fun _ =>
      agree_bind (agree_putResult hb _) fun _ => agree_succeed hb
  | enable n =>
    exact agree_bind (agree_enter hb _) fun _ => agree_bind (agree_look _) fun _ => agree_bind (agree_regSet hb _ _) fun _ =>
      agree_succeed hb
  | disable n =>
    exact agree_bind (agree_enter hb _) fun _ => agree_bind (agree_look _) fun _ => agree_bind (agree_regClr hb _ _) fun _ =>
      agree_succeed hb
  | pstat n => exact agree_pstatRun hb n
  | evh n =>
    exact agree_bind (agree_enter hb _) fun _ => agree_bind (agree_decodeStatus hb) fun _ =>
      agree_bind (agree_diag hb _ _ _) fun _ => agree_succeed hb
  | erh n =>
    exact agree_bind (agree_enter hb _) fun _ => agree_bind (agree_look _) fun _ => agree_bind (agree_decodeStatus hb) fun _ =>
      agree_bind (agree_diag hb _ _ _) fun _ => agree_bind (agree_regClr hb _ _) fun _ => agree_succeed hb

theorem runWord_agree (w : Word) : Agree k (runWord bt w) (runWord bu w) := by
  unfold runWord
  split
  · exact runInstr_agree hb _
  · exact agree_illegalCommand hb

omit hb in
theorem agree_onIrqPort (hook : Option Line) {x y : Run Unit} (h : Agree k x y) :
    Agree k (onIrqPort hook x) (onIrqPort hook y) :=
  agree_bind (agree_look _) fun _ => agree_bind (agree_tweak fun _ => rfl) fun _ => agree_bind (agree_runWhole h) fun _ =>
    agree_tweak fun _ => rfl

theorem agree_applyMove (m : Move) : Agree k (applyMove bt m) (applyMove bu m) := by
  cases m with
  | fire l =>
    exact agree_bind (agree_look _) fun _ => agree_runIf (agree_onIrqPort _ (runInstr_agree hb _))
  | issueIrq c =>
    exact agree_bind (agree_look _) fun _ => agree_runIf <| agree_bind (agree_tweak fun _ => rfl) fun _ =>
      agree_onIrqPort _ (runWord_agree hb _)
  | starve n =>
    exact agree_bind (agree_look _) fun _ => agree_runIf fun s hs => ⟨rfl, hs⟩
  | engine c =>
    refine agree_tweak fun s => ?_
    obtain ⟨n, d⟩ := c
    simp only [quietMove, engineStep]
    split
    · cases d <;> simp [engineTxStep, engineRxStep, State.modChan_eq_modBus, State.modCtrl]
    · rfl
  | _ => exact agree_tweak fun s => by simp [quietMove, envEventLine, envErrorLine, State.modCtrl]

theorem agree_applyMoves (ms : List Move) : Agree k (applyMoves bt ms) (applyMoves bu ms) := by
  induction ms with
  | nil => exact agree_pure ()
  | cons m ms ih => exact agree_bind (agree_applyMove hb m) fun _ => ih

end

theorem Agree.mono_pop {k : Nat} {f g : List Move → Run Unit} (h : ∀ ms, Agree k (f ms) (g ms)) :
    Agree (k + 1) (popBatch >>= f) (popBatch >>= g) := by
  intro s hs
  have hp : ∃ b t, popBatch s = .ok b t ∧ t.sched.length ≤ k := by
    unfold popBatch
    split
    · rename_i h0; exact ⟨_, _, rfl, by simp [h0]⟩
    · rename_i b rest h0
      exact ⟨_, _, rfl, by simpa [h0] using hs⟩
  obtain ⟨b, t, hb, ht⟩ := hp
  rw [bind_of_ok hb, bind_of_ok hb]
  exact ⟨(h b t ht).1, Nat.le_succ_of_le (h b t ht).2⟩

/-- Levels beyond the length of the schedule make no difference: each takes a batch. -/
theorem between_agree (k : Nat) : ∀ d e, k ≤ d → k ≤ e → Agree k (between d) (between e) := by
  induction k with
  | zero =>
    have h0 : ∀ d (s : State), s.sched.length ≤ 0 → between d s = .ok () s := by
      intro d s hs
      have hs : s.sched = [] := List.eq_nil_of_length_eq_zero (Nat.le_zero.mp hs)
      cases d with
      | zero => rfl
      | succ d =>
        have hp : popBatch s = .ok [] s := by simp only [popBatch, hs]
        show (popBatch >>= fun ms => applyMoves (between d) ms) s = _
        rw [bind_of_ok hp]; rfl
    intro d e _ _ s hs
    rw [h0 d s hs, h0 e s hs]
    exact ⟨rfl, hs⟩
  | succ k ih =>
    intro d e hd he
    obtain ⟨d, rfl⟩ : ∃ x, d = x + 1 := ⟨d - 1, by omega⟩
    obtain ⟨e, rfl⟩ : ∃ x, e = x + 1 := ⟨e - 1, by omega⟩
    exact Agree.mono_pop fun ms => agree_applyMoves (ih d e (by omega) (by omega)) ms

/-- The nesting depth is no bound: any depth the schedule cannot reach gives the same (log 9). -/
theorem others_eq_between {s : State} {d : Nat} (h : s.sched.length ≤ d) : others s = between d s :=
  (between_agree _ _ d (Nat.le_refl _) h s (Nat.le_refl _)).1

/-- Past the end of the schedule a command does what it does with no other agent. -/
theorem runInstr_quiet (i : Instr) {s : State} (h : s.sched = []) :
    runInstr others i s = runInstr (pure ()) i s := by
  have hb : Agree 0 others (pure ()) := fun t ht =>
    have ht' : t.sched = [] := List.eq_nil_of_length_eq_zero (Nat.le_zero.mp ht)
    ⟨others_quiet ht', by rw [others_quiet ht']; exact ht⟩
  exact (runInstr_agree hb i s (by simp [h])).1

end Sys2Proof.Machine
end

