-- ==== Sys2Proof/Laws/Control.lean ====
section
/-! SUPPORT. The controller's stores: what SWRST forces (R28) is forced once, and every access and every move of the environment
keeps a good controller; what each write of a RESULT field leaves of the others (R33). -/
namespace Sys2Proof.Machine

/-! ## SWRST's hold -/

theorem held_idem (cfg : Config) (c : Ctrl) : (c.held cfg).held cfg = c.held cfg := by
  unfold Ctrl.held
  split
  · simp only
    split
    · simp [BitVec.and_assoc]
    · rfl
  · rfl

@[simp] theorem held_drTx (cfg : Config) (c : Ctrl) : (c.held cfg).drTx = c.drTx := by unfold Ctrl.held; split <;> rfl
@[simp] theorem held_drRx (cfg : Config) (c : Ctrl) : (c.held cfg).drRx = c.drRx := by unfold Ctrl.held; split <;> rfl
@[simp] theorem held_srP (cfg : Config) (c : Ctrl) : (c.held cfg).srP = c.srP := by unfold Ctrl.held; split <;> rfl
@[simp] theorem held_srS (cfg : Config) (c : Ctrl) : (c.held cfg).srS = c.srS := by unfold Ctrl.held; split <;> rfl
@[simp] theorem held_pRead (cfg : Config) (c : Ctrl) : (c.held cfg).pRead = c.pRead := by
  unfold Ctrl.held; split <;> rfl

/-- Out of a software reset nothing is forced. -/
theorem held_of_not_reset {cfg : Config} {c : Ctrl} (h : c.ctl.getLsbD cfg.flags.swrst = false) : c.held cfg = c :=
  if_neg (by rw [h]; exact Bool.false_ne_true)

/-- What SWRST forces does not depend on the status fields, DR and `p_read`. -/
theorem held_status (cfg : Config) (c : Ctrl) (p v : Half) (b : Byte) (r : Bool) :
    ({ c with srP := p, srS := v, drRx := b, pRead := r } : Ctrl).held cfg =
      { c.held cfg with srP := p, srS := v, drRx := b, pRead := r } := by
  unfold Ctrl.held; simp only; split <;> rfl

theorem good_status {cfg : Config} {c : Ctrl} (p v : Half) (b : Byte) (r : Bool) (h : c.Good cfg) :
    ({ c with srP := p, srS := v, drRx := b, pRead := r } : Ctrl).Good cfg :=
  ⟨by rw [held_status, h.1], h.2⟩

theorem good_put {cfg : Config} {c : Ctrl} {r : Reg} {v : Half} (hc : c.Good cfg)
    (hv : r = .dr → v.extractLsb' 8 8 = 0) : (c.put cfg r v).Good cfg := by
  refine ⟨held_idem _ _, ?_⟩
  unfold Ctrl.put; rw [held_drTx]
  cases r <;> first | exact hc.2 | exact hv rfl

theorem good_afterRead {cfg : Config} {c : Ctrl} (r : Reg) (hc : c.Good cfg) : (c.afterRead cfg r).Good cfg := by
  cases r
  case srP => exact good_status c.srP c.srS c.drRx true hc
  case srS =>
    unfold Ctrl.afterRead; simp only; split
    · exact good_status _ c.srS c.drRx false hc
    · exact hc
  all_goals exact hc

/-- The byte of a data write has bits 15:8 zero (R29). -/
theorem dataHalf_high (b : Byte) : (dataHalf b).extractLsb' 8 8 = 0 := by ext i hi; simp [dataHalf]

/-! ## RESULT -/

theorem bit_cases4 {i : Nat} (h : i < 4) : i = 0 ∨ i = 1 ∨ i = 2 ∨ i = 3 := by omega

@[simp] theorem resultCode_withCode (r : Half) (k : BitVec 4) : resultCode (withCode r k) = k := by
  refine BitVec.eq_of_getLsbD_eq fun i hi => ?_
  rcases bit_cases4 hi with rfl | rfl | rfl | rfl <;> simp [resultCode, withCode]

@[simp] theorem resultCode_withBusErr (r : Half) : resultCode (withBusErr r) = resultCode r := by
  refine BitVec.eq_of_getLsbD_eq fun i hi => ?_
  rcases bit_cases4 hi with rfl | rfl | rfl | rfl <;> simp [resultCode, withBusErr]

@[simp] theorem resultCode_withResetRan (r : Half) : resultCode (withResetRan r) = resultCode r := by
  refine BitVec.eq_of_getLsbD_eq fun i hi => ?_
  rcases bit_cases4 hi with rfl | rfl | rfl | rfl <;> simp [resultCode, withResetRan]

@[simp] theorem resultCode_withFPhase (r : Half) (p : BitVec 3) : resultCode (withFPhase r p) = resultCode r := by
  refine BitVec.eq_of_getLsbD_eq fun i hi => ?_
  rcases bit_cases4 hi with rfl | rfl | rfl | rfl <;> simp [resultCode, withFPhase]

@[simp] theorem resultCode_withPred (r : Half) (b : Bool) : resultCode (withPred r b) = resultCode r := by
  refine BitVec.eq_of_getLsbD_eq fun i hi => ?_
  cases b <;> rcases bit_cases4 hi with rfl | rfl | rfl | rfl <;>
    simp [resultCode, withPred]

@[simp] theorem resultResetRan_withCode (r : Half) (k : BitVec 4) : resultResetRan (withCode r k) = resultResetRan r := by
  simp [resultResetRan, withCode]

@[simp] theorem resultResetRan_withBusErr (r : Half) : resultResetRan (withBusErr r) = resultResetRan r := by
  simp [resultResetRan, withBusErr]

@[simp] theorem resultResetRan_withFPhase (r : Half) (p : BitVec 3) :
    resultResetRan (withFPhase r p) = resultResetRan r := by
  simp [resultResetRan, withFPhase]

/-! ## RESET_WAIT -/

/-- Where the primary field decides RESET_WAIT, the whole predicate agrees, whatever the secondary field is (D22). -/
theorem waitHolds_of_byPrimary {w : ResetWait} {p : Half} {b : Bool} (h : waitByPrimary w p = some b) (v : Half) :
    waitHolds w p v = b := by
  induction w generalizing b with
  | primary m x => simpa [waitByPrimary, waitHolds] using h
  | secondary m x => cases h
  | both a c iha ihc =>
    unfold waitByPrimary andKnown at h
    unfold waitHolds
    split at h
    · rename_i ha; cases h; simp [iha ha]
    · rename_i hc _; cases h; simp [ihc hc]
    · rename_i ha hc; cases h; simp [iha ha, ihc hc]
    · cases h
  | negate a ih =>
    unfold waitByPrimary at h
    obtain ⟨x, hx, rfl⟩ := Option.map_eq_some_iff.mp h
    simp [waitHolds, ih hx]

@[simp] theorem and_all (x : Half) : x &&& 65535#16 = x := BitVec.and_allOnes (x := x)

/-- R127: the default predicate is "both status fields read non-zero". -/
theorem waitHolds_default (p v : Half) : waitHolds .whileBothNonZero p v = (p != 0 && v != 0) := by
  simp [waitHolds, ResetWait.whileBothNonZero, bne]

/-- R127: under the default predicate the secondary field is read only when the primary was non-zero. -/
theorem waitByPrimary_default (p : Half) : waitByPrimary .whileBothNonZero p = if p = 0 then some false else none := by
  show andKnown (some !(p &&& 65535#16 == 0#16)) none = _
  rw [and_all]
  by_cases h : p = 0
  · subst h; rfl
  · have h' : (p == 0#16) = false := by simpa using h
    rw [h', if_neg h]; rfl

/-- A formula that holds of the listed pairs of field values and of no other. -/
theorem resetWait_listed (l : List (Half × Half)) : ∃ w, ∀ p v, waitHolds w p v = decide ((p, v) ∈ l) := by
  induction l with
  | nil => exact ⟨.both (.primary 0 0) (.primary 0 1), fun p v => by simp [waitHolds]⟩
  | cons k l ih =>
    obtain ⟨w, hw⟩ := ih
    refine ⟨.negate (.both (.negate (.both (.primary 0xFFFF k.1) (.secondary 0xFFFF k.2))) (.negate w)), fun p v => ?_⟩
    rw [Bool.eq_iff_iff]
    simp [waitHolds, hw, Prod.ext_iff]

/-- R7, C1: every predicate of the two status fields is a RESET_WAIT. -/
theorem resetWait_complete (f : Half → Half → Bool) : ∃ w, ∀ p v, waitHolds w p v = f p v := by
  let all : List Half := (List.finRange (2 ^ 16)).map BitVec.ofFin
  have hall : ∀ x : Half, x ∈ all := fun x => List.mem_map.mpr ⟨x.toFin, List.mem_finRange _, rfl⟩
  obtain ⟨w, hw⟩ := resetWait_listed ((all.product all).filter fun k => f k.1 k.2)
  exact ⟨w, fun p v => by rw [hw]; simp [List.mem_filter, List.pair_mem_product, hall]⟩

end Sys2Proof.Machine
end

