-- ==== Sys2Proof/Laws/Memory.lean ====
section
/-! SUPPORT. Host memory (R50): a store keeps the canonical form, reads back, and leaves every other byte; the list of enabled
interrupt lines stays rising. -/
namespace Sys2Proof.Machine

theorem memPutNat_bound {m : Memory} {a : Nat} {b : Byte} {k : Nat} (hm : ∀ c ∈ m, k < c.1) (ha : k < a) :
    ∀ c ∈ memPutNat m a b, k < c.1 := by
  induction m with
  | nil => intro c hc; simp [memPutNat] at hc; simpa [hc] using ha
  | cons d m ih =>
    intro c hc
    have hd := hm d List.mem_cons_self
    have hm' := fun x hx => hm x (List.mem_cons_of_mem d hx)
    unfold memPutNat at hc
    split at hc
    · rcases List.mem_cons.1 hc with rfl | hc
      · exact ha
      · exact hm c hc
    · split at hc
      · rcases List.mem_cons.1 hc with rfl | hc
        · exact ha
        · exact hm' c hc
      · rcases List.mem_cons.1 hc with rfl | hc
        · exact hd
        · exact ih hm' c hc

theorem memPutNat_rising {m : Memory} (a : Nat) (b : Byte) (h : m.Pairwise fun c d => c.1 < d.1) :
    (memPutNat m a b).Pairwise fun c d => c.1 < d.1 := by
  induction m with
  | nil => simp [memPutNat]
  | cons d m ih =>
    obtain ⟨hd, hm⟩ := List.pairwise_cons.1 h
    unfold memPutNat
    split
    · rename_i hlt
      refine List.pairwise_cons.2 ⟨fun c hc => ?_, h⟩
      rcases List.mem_cons.1 hc with rfl | hc
      · exact hlt
      · exact Nat.lt_trans hlt (hd c hc)
    · split
      · rename_i heq
        exact List.pairwise_cons.2 ⟨fun c hc => heq ▸ hd c hc, hm⟩
      · exact List.pairwise_cons.2 ⟨memPutNat_bound hd (by omega), ih hm⟩

theorem memPutNat_range {m : Memory} {a : Nat} {b : Byte} {k : Nat} (hm : ∀ c ∈ m, c.1 < k) (ha : a < k) :
    ∀ c ∈ memPutNat m a b, c.1 < k := by
  induction m with
  | nil => intro c hc; simp [memPutNat] at hc; simpa [hc] using ha
  | cons d m ih =>
    intro c hc
    have hd := hm d List.mem_cons_self
    have hm' := fun x hx => hm x (List.mem_cons_of_mem d hx)
    unfold memPutNat at hc
    split at hc
    · rcases List.mem_cons.1 hc with rfl | hc
      · exact ha
      · exact hm c hc
    · split at hc
      · rcases List.mem_cons.1 hc with rfl | hc
        · exact ha
        · exact hm' c hc
      · rcases List.mem_cons.1 hc with rfl | hc
        · exact hd
        · exact ih hm' c hc

/-- The canonical form is kept by the one operation that changes host memory. -/
theorem memPut_wf {m : Memory} (a : Word) (b : Byte) (h : m.wf) : (memPut m a b).wf :=
  ⟨memPutNat_rising _ _ h.1, memPutNat_range h.2 a.isLt⟩

theorem find_memPutNat_same (m : Memory) (a : Nat) (b : Byte) :
    (memPutNat m a b).find? (fun c => c.1 == a) = some (a, b) := by
  induction m with
  | nil => simp [memPutNat]
  | cons d m ih =>
    unfold memPutNat
    split
    · simp
    · split
      · simp
      · rename_i h1 h2
        have : (d.1 == a) = false := by simp; omega
        simp [this, ih]

theorem find_memPutNat_other (m : Memory) {a a' : Nat} (b : Byte) (h : a' ≠ a) :
    (memPutNat m a b).find? (fun c => c.1 == a') = m.find? (fun c => c.1 == a') := by
  induction m with
  | nil => simp [memPutNat]; omega
  | cons d m ih =>
    have hne : (a == a') = false := by simp; omega
    unfold memPutNat
    split
    · simp [List.find?_cons, hne]
    · split
      · rename_i h2
        have : (d.1 == a') = false := by simp; omega
        simp [this, hne]
      · simp only [List.find?_cons, ih]

/-- A byte just stored reads back. -/
theorem memGet_memPut_same (m : Memory) (a : Word) (b : Byte) : memGet (memPut m a b) a = some b := by
  simp [memGet, memPut, find_memPutNat_same]

/-- A store leaves every other byte as it was. -/
theorem memGet_memPut_other (m : Memory) {a a' : Word} (b : Byte) (h : a' ≠ a) :
    memGet (memPut m a b) a' = memGet m a' := by
  have : a'.toNat ≠ a.toNat := fun e => h (BitVec.eq_of_toNat_eq e)
  simp [memGet, memPut, find_memPutNat_other m b this]

theorem mem_insertLine {l x : Nat} {xs : List Nat} : x ∈ insertLine l xs ↔ x = l ∨ x ∈ xs := by
  induction xs with
  | nil => simp [insertLine]
  | cons y ys ih =>
    unfold insertLine
    split
    · simp
    · split
      · rename_i h; subst h; simp
      · simp [ih]; tauto

theorem insertLine_rising {l : Nat} {xs : List Nat} (h : xs.Pairwise (· < ·)) : (insertLine l xs).Pairwise (· < ·) := by
  induction xs with
  | nil => simp [insertLine]
  | cons y ys ih =>
    obtain ⟨hy, hys⟩ := List.pairwise_cons.1 h
    unfold insertLine
    split
    · rename_i hlt
      refine List.pairwise_cons.2 ⟨fun c hc => ?_, h⟩
      rcases List.mem_cons.1 hc with rfl | hc
      · exact hlt
      · exact Nat.lt_trans hlt (hy c hc)
    · split
      · exact h
      · refine List.pairwise_cons.2 ⟨fun c hc => ?_, ih hys⟩
        rcases mem_insertLine.1 hc with rfl | hc
        · omega
        · exact hy c hc

end Sys2Proof.Machine
end

