-- ==== Sys2Proof/Laws/Others.lean ====
section
/-! SUPPORT. What the other agents keep between two primitives, and so what a whole step keeps: interrupts nested to any depth
included (R57, R149 to R151). -/
namespace Sys2Proof.Machine

/-- `R` is closed under what an interrupt does: entry, the port's commands on either instance, return (R149, R151). -/
structure IrqClosed (P : State → Prop) (R : State → State → Prop) (c : Config) (Q : ChanId → Prop) : Prop where
  cmds : ∀ n, Closed P R c Q n .all
  enter : ∀ l, Moves P R (irqEnter l)
  args : ∀ k, Moves P R (writeIrqArgs k)
  back : ∀ old s, P old → P s → P (irqReturn old s) ∧ R s (irqReturn old s)

/-- `R` is closed under the moves in `A`, and the schedules of states in `P` hold moves in `A` only. -/
structure OthersClosed (P : State → Prop) (R : State → State → Prop) (c : Config) (Q : ChanId → Prop)
    (A : Move → Prop) : Prop where
  refl : ∀ s, R s s
  trans : ∀ s t u, R s t → R t u → R s u
  allowed : ∀ s, P s → ∀ b ∈ s.sched, ∀ m ∈ b, A m
  pop : ∀ s b rest, P s → s.sched = b :: rest → P { s with sched := rest } ∧ R s { s with sched := rest }
  quiet : ∀ m, A m → Moves P R (quietMove m)
  fire : ∀ l, A (.fire l) → IrqClosed P R c Q
  issue : ∀ k, A (.issueIrq k) → IrqClosed P R c Q
  starve : ∀ n, A (.starve n) → Moves P R fun s => { s with port := .irq, stuck := some (.starved n) }

section
variable {P : State → Prop} {R : State → State → Prop} {c : Config} {Q : ChanId → Prop} {A : Move → Prop}
variable {bt : Run Unit}

theorem keeps_runWhole {x : Run Unit} (hx : Keeps P R x) : Keeps P R (runWhole x) := by
  intro s hs
  have h := hx s hs
  unfold runWhole
  split
  · rename_i t ht; rw [ht] at h; exact h
  · exact h

theorem runWord_keeps (h : IrqClosed P R c Q) (hbt : Keeps P R bt) (w : Word) : Keeps P R (runWord bt w) := by
  unfold runWord
  split
  · exact runInstr_keeps _ ((h.cmds _).weaken _) hbt
  · exact (h.cmds .one).illegalCommand hbt rfl

theorem onIrqPort_keeps (h : IrqClosed P R c Q) (hook : Option Line) {x : Run Unit} (hx : Keeps P R x) :
    Keeps P R (onIrqPort hook x) := by
  have hC := h.cmds .one
  exact hC.look _ fun old hold => hC.bind (keeps_tweak (h.enter hook)) fun _ =>
    hC.bind (keeps_runWhole hx) fun _ => keeps_tweak fun s hs => h.back old s hold hs

theorem fireLine_keeps (h : IrqClosed P R c Q) (hbt : Keeps P R bt) (l : Line) : Keeps P R (fireLine bt l) :=
  (h.cmds .one).look _ fun _ _ => keeps_runIf (h.cmds .one).refl <|
    onIrqPort_keeps h _ (runInstr_keeps _ ((h.cmds _).weaken _) hbt)

theorem issueIrq_keeps (h : IrqClosed P R c Q) (hbt : Keeps P R bt) (k : IrqCmd) : Keeps P R (issueIrq bt k) :=
  (h.cmds .one).look _ fun _ _ => keeps_runIf (h.cmds .one).refl <|
    (h.cmds .one).bind (keeps_tweak (h.args k)) fun _ => onIrqPort_keeps h _ (runWord_keeps h hbt _)

namespace OthersClosed
variable (h : OthersClosed P R c Q A)
include h

theorem popBatch : KeepsVal P R (fun ms => ∀ m ∈ ms, A m) Machine.popBatch := by
  intro s hs
  unfold Machine.popBatch
  split
  · exact ⟨hs, h.refl s, fun a t e => by cases e; simp⟩
  · rename_i b rest hb
    obtain ⟨h1, h2⟩ := h.pop s b rest hs hb
    exact ⟨h1, h2, fun a t e => by cases e; exact h.allowed s hs b (hb ▸ List.mem_cons_self)⟩

theorem applyMove (hbt : Keeps P R bt) {m : Move} (hm : A m) : Keeps P R (Machine.applyMove bt m) := by
  cases m with
  | fire l => exact fireLine_keeps (h.fire l hm) hbt l
  | issueIrq k => exact issueIrq_keeps (h.issue k hm) hbt k
  | starve n =>
    exact keeps_bindVal h.trans (keepsVal_look h.refl _) fun _ _ =>
      keeps_runIf h.refl fun s hs => h.starve n hm s hs
  | _ => exact keeps_tweak (h.quiet _ hm)

theorem applyMoves (hbt : Keeps P R bt) {ms : List Move} (hm : ∀ m ∈ ms, A m) :
    Keeps P R (Machine.applyMoves bt ms) := by
  induction ms with
  | nil => exact keeps_pure h.refl ()
  | cons m ms ih =>
    exact keeps_bind h.trans (h.applyMove hbt (hm m List.mem_cons_self)) fun _ =>
      ih fun x hx => hm x (List.mem_cons_of_mem _ hx)

theorem between (depth : Nat) : Keeps P R (Machine.between depth) := by
  induction depth with
  | zero => exact keeps_pure h.refl ()
  | succ d ih => exact keeps_bindVal h.trans h.popBatch fun _ hms => h.applyMoves ih hms

/-- What every move keeps, the other agents keep before each primitive. -/
theorem others : Keeps P R Machine.others :=
  keeps_bindVal h.trans (keepsVal_look h.refl _) fun d _ => h.between d

end OthersClosed

theorem outState_of_next {r : EStateM.Result Exit State Unit} {t : State} (h : toOutcome r = .next t) :
    outState r = t := by
  cases r with
  | ok a u => cases h; rfl
  | error e u => cases e <;> first | (cases h; done) | (cases h; rfl)

/-- A whole command keeps what its primitives and the other agents keep. -/
theorem exec_keeps (h : OthersClosed P R c Q A) (i : Instr) (hi : Closed P R c Q (targetOf i) (usesOf i)) {s t : State} (hs : P s)
    (he : exec i s = .next t) : P t ∧ R s t := by
  have hk := runInstr_keeps i hi h.others s hs
  have hr : exec i s = toOutcome (runInstr Machine.others i s) := by cases i <;> rfl
  rw [outState_of_next (hr ▸ he)] at hk
  exact hk

/-- A whole step keeps what the primitives and the moves keep (R20, R57). -/
theorem step_keeps (h : OthersClosed P R c Q A) (hi : IrqClosed P R c Q) (ha : Moves P R acceptCommand) {s t : State}
    (hs : P s) (he : step s = .next t) : P t ∧ R s t := by
  have hC := hi.cmds .one
  unfold step at he
  split at he
  · rename_i k _
    cases k with
    | spin n =>
      have hx : Keeps P R (do let _ ← resetTurn others n; pure ()) :=
        hC.bind ((hi.cmds n).resetTurn h.others) fun _ => hC.pure ()
      have := hx s hs
      rw [outState_of_next he] at this
      exact this
    | starved n =>
      have hx : Keeps P R (starvedTurn n) :=
        hC.bind h.others fun _ => onIrqPort_keeps hi _ (runInstr_keeps _ ((hi.cmds _).weaken _) h.others)
      have := hx s hs
      rw [outState_of_next he] at this
      exact this
  · split at he
    · have := h.others s hs
      rw [outState_of_next he] at this
      exact this
    · obtain ⟨h1, h2⟩ := ha s hs
      split at he
      · obtain ⟨h3, h4⟩ := exec_keeps h _ ((hi.cmds _).weaken _) h1 he
        exact ⟨h3, h.trans _ _ _ h2 h4⟩
      · have h3 := hC.illegalCommand h.others rfl _ h1
        rw [outState_of_next he] at h3
        exact ⟨h3.1, h.trans _ _ _ h2 h3.2⟩

end
end Sys2Proof.Machine
end

