-- ==== Sys2Proof/Laws/PerInstr.lean ====
section
/-! SUPPORT. Statements about every instruction as syntax, one lemma per constructor. -/
namespace Sys2Proof.Laws.FieldsFit

/-- R71 to R73, R75: the fields the encoder gives an instruction decode to that instruction. -/
def Statement (i : Instr) : Prop :=
  decodeFields (encodeFields i) = .ok i


theorem status (n : Inst) : Statement (.status n) := by cases n <;> rfl
theorem iseq (n : Inst) : Statement (.iseq n) := by cases n <;> rfl
theorem iseqm (n : Inst) : Statement (.iseqm n) := by cases n <;> rfl
theorem gstart (n : Inst) : Statement (.gstart n) := by cases n <;> rfl
theorem saddr (n : Inst) (d : Dir) (a : Addr7) : Statement (.saddr n d a) := by cases n <;> cases d <;> rfl
theorem txbyte (n : Inst) (b : Byte) : Statement (.txbyte n b) := by cases n <;> rfl
theorem rxbyte (n : Inst) : Statement (.rxbyte n) := by cases n <;> rfl
theorem gstop (n : Inst) : Statement (.gstop n) := by cases n <;> rfl
theorem write (n : Inst) (a : Addr7) (b : Byte) : Statement (.write n a b) := by cases n <;> rfl
theorem read (n : Inst) (a : Addr7) : Statement (.read n a) := by cases n <;> rfl
theorem attach (n : Inst) (d : Dir) : Statement (.attach n d) := by cases n <;> cases d <;> rfl
theorem mtx (n : Inst) (a : Addr7) : Statement (.mtx n a) := by cases n <;> rfl
theorem srx (n : Inst) (a : Addr7) : Statement (.srx n a) := by cases n <;> rfl
theorem tcq (n : Inst) (d : Dir) : Statement (.tcq n d) := by cases n <;> cases d <;> rfl
theorem init (n : Inst) : Statement (.init n) := by cases n <;> rfl
theorem reset (n : Inst) : Statement (.reset n) := by cases n <;> rfl
theorem enable (n : Inst) : Statement (.enable n) := by cases n <;> rfl
theorem disable (n : Inst) : Statement (.disable n) := by cases n <;> rfl
theorem pstat (n : Inst) : Statement (.pstat n) := by cases n <;> rfl
theorem evh (n : Inst) : Statement (.evh n) := by cases n <;> rfl
theorem erh (n : Inst) : Statement (.erh n) := by cases n <;> rfl

end Sys2Proof.Laws.FieldsFit
end

