-- ==== Sys2Proof/Tests/Slice0.lean ====
section
/-! SUPPORT. The model's own tests: refused ill-formed terms (R7, R30, R79, R131), words written out from the spec's encodings (R75,
R82, V1 to V55), vectors of 95_test_vectors.md as single steps (expected values copied from there), and a witness for every
statement that has hypotheses. -/
namespace Sys2Proof.Tests

open Sys2Proof.Machine Sys2Proof.Claims

/-! ## Helpers -/

/-- The outcome is a next state of which `p` holds. -/
def nextSat (p : State → Bool) : Host.Outcome State Fault Refusal → Bool
  | .next t => p t
  | _ => false

theorem next_of_sat {p : State → Bool} {o : Host.Outcome State Fault Refusal} (h : nextSat p o = true) :
    ∃ t, o = .next t ∧ p t = true := by
  cases o with
  | next t => exact ⟨t, rfl, h⟩
  | fault r => cases h
  | refused r => cases h

theorem next_of_any {o : Host.Outcome State Fault Refusal} (h : nextSat (fun _ => true) o = true) : ∃ t, o = .next t :=
  let ⟨t, ht, _⟩ := next_of_sat h
  ⟨t, ht⟩

/-- The default parameters with short budgets, for the waits that run out. -/
def short : Config :=
  { Config.default with nSpin := 2, nRx := 2, nWrBusy := 2, nRdOuter := 2, nRdInner := 2, nSrxAddr := 2, nSrxTxe := 2, nPstat := 2 }

/-- Both instances bound, instance 1 with the status fields `p` and `v`, changed by `f`. -/
def ready (p v : Half) (f : Bus → Bus := id) : State :=
  { State.reset with
    cfg := short
    bus1 := f { Bus.reset 16 with bound := true, ctrl := { Ctrl.reset with srP := p, srS := v } }
    bus2 := { Bus.reset 16 with bound := true } }

/-- A state with operands in the foreground bank. -/
def withArgs (a b : Word) (s : State) : State :=
  { s with fg := { s.fg with arg0 := a, arg1 := b } }

/-- A state with a schedule. -/
def withSched (l : List (List Move)) (s : State) : State :=
  { s with sched := l }

/-- The environment's answers to one decode of instance 1 (SR_P, then SR_S). -/
def dec (p v : Half) : List (List Move) :=
  answers .one p v

/-! ## Ill-formed terms are refused -/

theorem test_default_config_is_well_formed : Config.default.wellFormed = true := by decide

theorem test_short_config_is_well_formed : short.wellFormed = true := by decide

/-- R30: SB and TXE on one bit. -/
theorem test_refuses_overlapping_primary_flags :
    ({ Config.default with flags := { FlagPos.default with sb := 7 } } : Config).wellFormed = false := by decide

/-- R30: LATCH in ERR_MASK. -/
theorem test_refuses_latch_in_err_mask :
    ({ Config.default with errMask := 0x0010 } : Config).wellFormed = false := by decide

/-- R30: ERR_MASK empty. -/
theorem test_refuses_empty_err_mask : ({ Config.default with errMask := 0 } : Config).wellFormed = false := by decide

/-- R7: MSL and BUSY on one bit. -/
theorem test_refuses_overlapping_secondary_flags :
    ({ Config.default with flags := { FlagPos.default with msl := 1 } } : Config).wellFormed = false := by decide

/-- R7: PE and START on one bit. -/
theorem test_refuses_overlapping_control_bits :
    ({ Config.default with flags := { FlagPos.default with pe := 8 } } : Config).wellFormed = false := by decide

/-- R127: DMAEN inside FREQ. -/
theorem test_refuses_dmaen_in_freq :
    ({ Config.default with flags := { FlagPos.default with dmaen := 5 } } : Config).wellFormed = false ∧
      ({ Config.default with flags := { FlagPos.default with dmaen := 6 } } : Config).wellFormed = true := by decide

/-- R22, R71: an instance no word can address. -/
theorem test_refuses_three_instances : ({ Config.default with numInst := 3 } : Config).wellFormed = false := by decide

/-- R7, D26: equal own addresses. -/
theorem test_refuses_equal_own_addresses :
    ({ Config.default with ownAddr2 := 0x10 } : Config).wellFormed = false := by decide

/-- R7: DMA_CAP 0. -/
theorem test_refuses_zero_capacity : ({ Config.default with dmaCap := 0 } : Config).wellFormed = false := by decide

/-- R131, U21: freq_range 37, TARGET_HZ 0 (also with another function), TARGET_HZ above the default formula's bound. -/
theorem test_refuses_clock_out_of_range :
    ({ Config.default with pclkHz := 37000000 } : Config).wellFormed = false ∧
      ({ Config.default with targetHz := 0 } : Config).wellFormed = false ∧
      ({ Config.default with targetHz := 0, clock := .values 36 37 180 } : Config).wellFormed = false ∧
      ({ Config.default with targetHz := 100001 } : Config).wellFormed = false := by decide

/-- R147: two lines with one number. -/
theorem test_refuses_shared_line_number : ({ Config.default with irqEr2 := 31 } : Config).wellFormed = false := by decide

/-- R51, R52: two registers at one address. -/
theorem test_refuses_shared_register_address :
    ({ Config.default with regMap := { RegMap.default with srS := 0x14 } } : Config).wellFormed = false := by decide

/-- V46: the illegal words of the spec's list. -/
theorem test_illegal_words :
    [0x00000000, 0x60000000, 0x01000001, 0x20500100, 0x21500001, 0x10010000, 0x205002AB].map wordLegal =
      List.replicate 7 false := by decide

theorem test_illegal_words_are_rejected_by_name :
    decode 0x00000000 = .error (.reservedOp 0x00) ∧ decode 0x60000000 = .error (.reservedOp 0x60) ∧
      decode 0x01000001 = .error (.fieldNotZero 0x01) ∧ decode 0x20500100 = .error (.fieldNotZero 0x20) ∧
      decode 0x21500001 = .error (.fieldNotZero 0x21) ∧ decode 0x10010000 = .error (.fieldNotZero 0x10) ∧
      decode 0x205002AB = .error (.fieldNotZero 0x20) := by decide

/-- R79: "There are no hint encodings and no custom space": what lies beside the opcode map is refused, an operand field at its
boundary is not. -/
theorem test_word_legality_at_boundaries :
    wordLegal 0x15000000 = false ∧ wordLegal 0x52000000 = false ∧ wordLegal 0x20FFFEFF = false ∧
      wordLegal 0x20FF00FF = true ∧ wordLegal 0x11FF0100 = true ∧ wordLegal 0x11FF0101 = false := by decide

/-! ## Decoding words of the spec -/

/-- V1, V4, V5, V8. -/
theorem test_decode_status_decoder :
    decode 0x01000000 = .ok (.status .one) ∧ decode 0x01800000 = .ok (.status .two) ∧
      decode 0x02000000 = .ok (.iseq .one) ∧ decode 0x03000000 = .ok (.iseqm .one) := by decide

/-- V10, V13 to V15, V17 to V19b. -/
theorem test_decode_bus_primitives :
    decode 0x10000000 = .ok (.gstart .one) ∧ decode 0x11500000 = .ok (.saddr .one .tx 0x50) ∧
      decode 0x11500100 = .ok (.saddr .one .rx 0x50) ∧ decode 0x11FF0000 = .ok (.saddr .two .tx 0x7F) ∧
      decode 0x11800100 = .ok (.saddr .two .rx 0x00) ∧ decode 0x120000AB = .ok (.txbyte .one 0xAB) ∧
      decode 0x13000000 = .ok (.rxbyte .one) ∧ decode 0x14800000 = .ok (.gstop .two) := by decide

/-- R82, V20, V22. -/
theorem test_decode_transaction_engine :
    decode 0x205000AB = .ok (.write .one 0x50 0xAB) ∧ decode 0x21500000 = .ok (.read .one 0x50) ∧
      decode 0x21D00000 = .ok (.read .two 0x50) := by decide

/-- V30 to V36, R113. -/
theorem test_decode_dma_bulk_path :
    decode 0x30000000 = .ok (.attach .one .tx) ∧ decode 0x30800100 = .ok (.attach .two .rx) ∧
      decode 0x31200000 = .ok (.mtx .one 0x20) ∧ decode 0x32000000 = .ok (.srx .one 0x00) ∧
      decode 0x327F0000 = .ok (.srx .one 0x7F) ∧ decode 0x33000100 = .ok (.tcq .one .rx) ∧
      decode 0x33000000 = .ok (.tcq .one .tx) := by decide

/-- V40 to V44, P4. -/
theorem test_decode_lifecycle :
    decode 0x40000000 = .ok (.init .one) ∧ decode 0x40800000 = .ok (.init .two) ∧ decode 0x41800000 = .ok (.reset .two) ∧
      decode 0x42000000 = .ok (.enable .one) ∧ decode 0x43000000 = .ok (.disable .one) ∧
      decode 0x44000000 = .ok (.pstat .one) := by decide

/-- V50, V51. -/
theorem test_decode_hooks : decode 0x50000000 = .ok (.evh .one) ∧ decode 0x51800000 = .ok (.erh .two) := by decide

/-- R82: the encoder gives the spec's words. -/
theorem test_encode_written_words :
    encode (.write .one 0x50 0xAB) = 0x205000AB ∧ encode (.read .two 0x50) = 0x21D00000 ∧
      encode (.saddr .one .rx 0x50) = 0x11500100 := by decide

/-- The table's numbering is the word's own. -/
theorem test_decode_table_word :
    decodeTableWord 32 0x205000AB = some (.write .one 0x50 0xAB) ∧ decodeTableWord 32 0x60000000 = none := by decide

/-! ## Vectors: Status Decoder -/

/-- V2: LATCH without ADDRM: SR_S is not read, `p_read` stays 1. -/
theorem test_status_gate_closed :
    nextSat (fun t => t.fg.rdata0 == 0x00000010 && t.fg.result == 0 && t.bus1.ctrl.pRead &&
      t.trace == [.regRead .one .srP 0x0010]) (exec (.status .one) (ready 0x0010 0x0002)) = true := by decide +kernel

/-- V3: LATCH and ADDRM: both reads, ADDRM cleared after. -/
theorem test_status_gate_open :
    nextSat (fun t => t.fg.rdata0 == 0x00020012 && t.bus1.ctrl.srP == 0x0010 && !t.bus1.ctrl.pRead)
      (exec (.status .one) (ready 0x0012 0x0002)) = true := by decide +kernel

/-- V5. -/
theorem test_iseq_contains :
    nextSat (fun t => t.fg.result == 0x0040 && t.fg.rdata0 == 0x00070081)
      (exec (.iseq .one) (withArgs 0x00030001 0 (ready 0x0081 0x0007))) = true := by decide +kernel

/-- V6: the busy flag cannot be seen through a closed gate. -/
theorem test_iseq_closed_gate :
    nextSat (fun t => t.fg.result == 0x0000)
      (exec (.iseq .one) (withArgs 0x00020000 0 (ready 0x0010 0x0002))) = true := by decide +kernel

/-- V8: not busy. -/
theorem test_iseqm_not_busy :
    nextSat (fun t => t.fg.result == 0x0040)
      (exec (.iseqm .one) (withArgs 0 0x00020000 (ready 0 0))) = true := by decide +kernel

/-- V9: a flag outside the mask can never compare equal. -/
theorem test_iseqm_flag_outside_mask :
    nextSat (fun t => t.fg.result == 0x0000)
      (exec (.iseqm .one) (withArgs 0x00020000 0 (ready 0 0x0002))) = true := by decide +kernel

/-! ## Vectors: Bus Primitives -/

/-- V11: START is set although every busy decode said busy. -/
theorem test_gstart_busy_budget_exhausted :
    nextSat (fun t => t.fg.result == 0 && t.bus1.ctrl.ctl == 0x0100 &&
      t.trace == (List.replicate 3 (decodeItems .one 0 2 ++ [.delay 1])).flatten ++ [.regSet .one .ctl 0x0100] ++
        decodeItems .one 1 3)
      (exec (.gstart .one) (withSched (silence 11 ++ [[]] ++ dec 1 3) (ready 0 0x0002))) = true := by decide +kernel

/-- V12: start pattern never reached. -/
theorem test_gstart_fails :
    nextSat (fun t => t.fg.result == 0x0002 && t.bus1.ctrl.ctl == 0x0100 && t.bus1.phase == .idle && !t.bus1.lock &&
      t.sink == [⟨.err .startConditionFailed, 0x00020000, []⟩] && t.trace.countP (· == .delay 1) == 3)
      (exec (.gstart .one) (withSched (silence 2 ++ dec 0 0 ++ silence 1 ++ dec 0 2) (ready 0 0))) = true := by
  decide +kernel

/-- V14: exactly one register access. -/
theorem test_saddr_receive :
    nextSat (fun t => t.fg.result == 0 && t.trace == [.regWrite .one .dr 0x00A1])
      (exec (.saddr .one .rx 0x50) (ready 0 0)) = true := by decide +kernel

/-- V16, with N_SPIN = 2: acknowledge failure at the end. -/
theorem test_saddr_transmit_no_answer :
    nextSat (fun t => t.fg.result == 0x0013 && t.bus1.ctrl.drTx == 0x00A0 &&
      t.sink == [⟨.err .addressPhaseFailed, 0x00030400, []⟩, ⟨.err .busError, 0x00030400, []⟩])
      (exec (.saddr .one .tx 0x50) (withSched (silence 3 ++ dec 0 3 ++ dec 0 3 ++ dec 0x0400 3) (ready 0 0))) = true := by
  decide +kernel

/-- V17: TXE without BTF does not match. -/
theorem test_txbyte_waits_for_btf :
    nextSat (fun t => t.fg.result == 0 &&
      t.trace == [.regWrite .one .dr 0x00AB] ++ decodeItems .one 0x80 7 ++ decodeItems .one 0x84 7)
      (exec (.txbyte .one 0xAB) (withSched (silence 3 ++ dec 0x80 7 ++ dec 0x84 7) (ready 0 0))) = true := by decide +kernel

/-- V19: nothing arrives; RDATA0 and `last_rx` keep their old values (here with N_RX = 2). -/
theorem test_rxbyte_times_out :
    nextSat (fun t => t.fg.result == 0x0005 && t.fg.rdata0 == 0x77 && t.bus1.lastRx == 0x33 &&
      !t.trace.any (· == .regRead .one .dr 0))
      (exec (.rxbyte .one)
        { ready 0 0x0003 (fun b => { b with lastRx := 0x33 }) with fg := { Bank.reset with rdata0 := 0x77 } }) = true := by
  decide +kernel

/-- V19a: a byte ready at the 100th decode: 99 delays. -/
theorem test_rxbyte_at_last_decode :
    nextSat (fun t => t.fg.result == 0 && t.fg.rdata0 == 1 && t.trace.countP (· == .delay 1) == 99)
      (exec (.rxbyte .one)
        { withSched (silence 2 ++ (List.replicate 99 (silence 3)).flatten ++ dec 0x0040 3 ++ [[.envDr .one 1]])
            (ready 0 0x0003) with cfg := Config.default }) = true := by decide +kernel

/-- V19b. -/
theorem test_gstop_second_instance :
    nextSat (fun t => t.fg.result == 0 && t.bus2.ctrl.ctl == 0x0200 && t.trace == [.regSet .two .ctl 0x0200])
      (exec (.gstop .two) (ready 0 0)) = true := by decide +kernel

/-! ## Vectors: Transaction Engine -/

/-- The schedule of V20. -/
def v20 : List (List Move) :=
  silence 4 ++ dec 0 0 ++ silence 1 ++ dec 0 0 ++ silence 1 ++ dec 1 3 ++ silence 2 ++ dec 0x0082 7 ++ silence 2 ++
    dec 0x0084 7

/-- V20. -/
theorem test_write_succeeds :
    nextSat (fun t => t.fg.result == 0 && !t.bus1.lock && t.bus1.phase == .idle && t.sink == [] &&
      t.trace == decodeItems .one 0 0 ++ decodeItems .one 0 0 ++ [.regSet .one .ctl 0x0100] ++ decodeItems .one 1 3 ++
        [.regWrite .one .dr 0x00A0] ++ decodeItems .one 0x82 7 ++ [.regWrite .one .dr 0x00AB] ++
        decodeItems .one 0x84 7 ++ [.regSet .one .ctl 0x0200])
      (exec (.write .one 0x50 0xAB) (withSched v20 (ready 0 0))) = true := by decide +kernel

/-- V21, with the default budget: 101 decodes. -/
theorem test_write_busy :
    nextSat (fun t => t.fg.result == 0x0101 && !t.bus1.lock && t.bus1.phase == .idle && t.bus1.ctrl.ctl == 0 &&
      t.trace.length == 202 && t.sink == [⟨.err .busBusyTimeout, 0x00020000, []⟩])
      (exec (.write .one 0x50 0xAB) { ready 0 0x0002 with cfg := Config.default }) = true := by decide +kernel

/-- V23, with N_RX = 2: the byte never arrives and error flags are set. -/
theorem test_read_resets :
    nextSat (fun t => t.fg.result == 0x0435 && !t.bus1.lock && t.bus1.phase == .idle && t.bus1.ctrl.ctl == 0 &&
      t.bus1.ctrl.ctl2 == 0x0024 && t.bus1.ctrl.trise == 0x0025 && t.bus1.ctrl.oar == 0x0020 && t.bus1.ctrl.ccr == 0x00B4 &&
      t.sink == [⟨.err .receiveByteFailed, 0x00030400, []⟩, ⟨.err .busError, 0x00030400, []⟩])
      (exec (.read .one 0x50)
        (withSched
          (silence 4 ++ dec 0 0 ++ silence 1 ++ dec 0 0 ++ silence 1 ++ dec 1 3 ++ silence 3 ++ dec 0 3 ++ silence 4 ++
            dec 0x0400 3 ++ silence 6 ++ [[.envSrP .one 0]])
          (ready 0 0 fun b => { b with ownAddress := 0x10 }))) = true := by decide +kernel

/-- V25: BusCheck meets busy, master and error once: a Reset, then success with RESETRAN. -/
theorem test_read_recovers :
    nextSat (fun t => t.fg.result == 0x0020 && t.fg.rdata0 == 0x5A && t.bus1.lastRx == 0x5A && t.bus1.ctrl.drTx == 0x00A1)
      (exec (.read .one 0x50)
        (withSched
          (silence 4 ++ dec 0x0200 3 ++ silence 3 ++ [[.envSrP .one 0]] ++ silence 6 ++ dec 0 0 ++ silence 1 ++ dec 0 0 ++
            silence 1 ++ dec 1 3 ++ silence 3 ++ dec 0x0040 3 ++ [[.envDr .one 0x5A]])
          (ready 0 0))) = true := by decide +kernel

/-! ## Vectors: DMA Bulk Path -/

/-- V30. -/
theorem test_attach :
    nextSat (fun t => t.fg.result == 0 && t.bus1.dmaTx == some ⟨.one, .tx⟩ && t.bus1.dmaRx == none)
      (exec (.attach .one .tx) (ready 0 0)) = true := by decide +kernel

/-- V31: host memory of the vector, instance 1 with its transmit channel. -/
def v31 : State :=
  withArgs 0x20000000 17 <| withSched
    (silence 38 ++ dec 0 0 ++ silence 1 ++ dec 1 3 ++ silence 2 ++ dec 0x0082 7 ++ silence 3 ++
      [List.replicate 16 (.engine ⟨.one, .tx⟩)])
    { ready 0 0 (fun b => { b with dmaTx := some ⟨.one, .tx⟩ }) with
      mem := (List.range 17).map fun k => (0x20000000 + k, BitVec.ofNat 8 (0x10 + k)) }

/-- V31: 16 bytes copied and sent in index order; the 17th is not read. -/
theorem test_mtx_truncates :
    nextSat (fun t => t.fg.result == 0 && t.fg.rdata0 == 16 && t.fg.pollN == 1 && t.bus1.ctrl.ctl2 == 0x0800 && t.bus1.ctrl.ctl == 0x0100 &&
      t.bus1.chTx == ⟨(List.range 16).map fun k => BitVec.ofNat 8 (0x10 + k), true, true, 16, 16⟩ &&
      t.bus1.ctrl.drTx == 0x001F && !t.trace.any (· == .memRead 0x20000010 0x20))
      (exec (.mtx .one 0x20) v31) = true := by decide +kernel

/-- V32a: no bytes: never completes. -/
theorem test_mtx_of_nothing :
    nextSat (fun t => t.fg.result == 0x0407 && t.fg.rdata0 == 0 && t.bus1.chTx.en && !t.bus1.chTx.tc)
      (exec (.mtx .one 0x20)
        (withSched
          (silence 6 ++ dec 0 0 ++ silence 1 ++ dec 1 3 ++ silence 2 ++ dec 0x0082 7 ++ silence 3 ++
            [[.engine ⟨.one, .tx⟩]])
          (ready 0 0 fun b => { b with dmaTx := some ⟨.one, .tx⟩ }))) = true := by decide +kernel

/-- V33. -/
theorem test_srx_arms :
    nextSat (fun t => t.fg.result == 0 && t.fg.rdata0 == 1 && t.fg.rdata1 == 16 && !t.bus1.lock &&
      t.bus1.ctrl.ctl2 == 0x0800 && t.bus1.chRx == ⟨List.replicate 16 0, true, false, 16, 0⟩ &&
      t.sink == [⟨.info, 0x00000080, []⟩])
      (exec (.srx .one 0)
        (withSched (silence 7 ++ dec 2 0 ++ dec 0x80 0 ++ dec 0x80 0)
          (ready 0 0 fun b => { b with dmaRx := some ⟨.one, .rx⟩ }))) = true := by decide +kernel

/-- V53: a hook steals the address-match flag. -/
theorem test_srx_loses_its_match_to_a_hook :
    nextSat (fun t => t.fg.result == 0x0303 && t.irq.result == 0 &&
      t.sink == [⟨.eventIrq, 0x00000002, []⟩, ⟨.err .addressPhaseFailed, 0, []⟩])
      (exec (.srx .one 0)
        (withSched (silence 9 ++ [[.envSrP .one 2, .envEv .one true, .fire ⟨.event, .one⟩]])
          { ready 0 0 (fun b => { b with dmaRx := some ⟨.one, .rx⟩ }) with irqEn := [31] })) = true := by decide +kernel

/-- V36: after a completed receive. -/
theorem test_tcq :
    nextSat (fun t => t.fg.result == 0 && t.fg.rdata0 == 3)
      (exec (.tcq .one .rx)
        (ready 0 0 fun b =>
          { b with dmaRx := some ⟨.one, .rx⟩, chRx := ⟨List.replicate 16 0, true, true, 16, 16⟩ })) = true := by
  decide +kernel

/-- V36: no transmit channel attached. -/
theorem test_tcq_without_channel :
    nextSat (fun t => t.fg.result == 0x0009) (exec (.tcq .one .tx) (ready 0 0)) = true := by decide +kernel

/-! ## Vectors: Controller Lifecycle -/

/-- V40, from power-on, as a step. -/
theorem test_init :
    nextSat (fun t => t.fg.result == 0 && t.bus1.bound && !t.bus2.bound && t.bus1.ownAddress == 0x10 && !t.bus1.lock &&
      t.irqEn == [31, 32] && t.bus1.ctrl.ctl == 0 &&
      t.trace == resetItems Config.default .one 0x10 [.regRead .one .srP 0] ++ [.irqEnable 31, .irqEnable 32])
      (step (State.reset.withFetchWord 32 0x40000000)) = true := by decide +kernel

/-- V40: the values of its register writes. -/
theorem test_init_values :
    resetItems Config.default .one 0x10 [.regRead .one .srP 0] =
      [.regClr .one .ctl 0x0001, .regSet .one .ctl 0x8000, .regClr .one .ctl 0x8000, .regRead .one .srP 0x0000,
        .regClr .one .ctl 0x0001, .regWrite .one .ctl2 0x0024, .regWrite .one .trise 0x0025,
        .regWrite .one .oar 0x0020, .regWrite .one .ccr 0x00B4] := by decide +kernel

/-- V41: status slow to clear; `p_read` 0 at the end. -/
theorem test_reset_slow :
    nextSat (fun t => t.fg.result == 0x0020 && !t.bus2.ctrl.pRead && t.bus2.ctrl.oar == 0x0022 && t.bus2.ctrl.ctl == 0 &&
      (t.trace.drop 3).take 4 == decodeItems .two 1 2 ++ decodeItems .two 1 0)
      (exec (.reset .two)
        (withSched (silence 5 ++ answers .two 1 2 ++ answers .two 1 0)
          { ready 0 0 with bus2 := { Bus.reset 16 with bound := true, ownAddress := 0x11 } })) = true := by decide +kernel

/-- R127, D21: under "until both read zero" the loop waits on SR_P alone, then reads SR_S. -/
theorem test_reset_wait_is_a_parameter :
    nextSat (fun t => t.fg.result == 0x0020 && (t.trace.drop 3).take 3 == [.regRead .one .srP 4, .regRead .one .srP 0, .regRead .one .srS 0])
      (exec (.reset .one)
        (withSched (silence 6 ++ [[.envSrP .one 0]])
          { ready 4 0 with cfg := { short with resetWait := .untilBothZero } })) = true := by decide +kernel

/-- V42: every status read non-zero. -/
theorem test_reset_never_ends :
    nextSat (fun t => t.stuck == some (.spin .one) && t.fg.result == 0) (exec (.reset .one) (ready 0x0001 0x0001)) = true := by
  decide +kernel

/-- V43. -/
theorem test_enable :
    nextSat (fun t => t.fg.result == 0 && t.bus1.ctrl.ctl == 0x0001) (exec (.enable .one) (ready 0 0)) = true := by
  decide +kernel

/-- V43. -/
theorem test_disable :
    nextSat (fun t => t.fg.result == 0 && t.bus1.ctrl.ctl == 0x0100)
      (exec (.disable .one) (ready 0 0 fun b => { b with ctrl := { b.ctrl with ctl := 0x0101 } })) = true := by
  decide +kernel

/-- V44. -/
theorem test_pstat :
    nextSat (fun t => t.fg.result == 0 && t.sink == [⟨.info, 0, [0x0001, 0x0024, 0x0020, 0x00B4, 0x0025]⟩])
      (exec (.pstat .one)
        (ready 0 0 fun b =>
          { b with ctrl := { b.ctrl with ctl := 0x0001, ctl2 := 0x0024, oar := 0x0020, ccr := 0x00B4, trise := 0x0025 } })) =
      true := by decide +kernel

/-- V44, the busy variant with the default budget: ten delays and a warning. -/
theorem test_pstat_busy :
    nextSat (fun t => t.fg.result == 0 && t.trace.countP (· == .delay 1) == 10 &&
      t.sink.drop 1 == [⟨.warn, 0x00020000, []⟩])
      (exec (.pstat .one) { ready 0 0x0002 with cfg := Config.default }) = true := by decide +kernel

/-! ## Vectors: Interrupt Hooks and the ports -/

/-- V55: a hook completes the foreground's read sequence. -/
theorem test_evh_between_two_reads :
    nextSat (fun t => t.fg.rdata0 == 0x00020012 && t.bus1.ctrl.srP == 0x0010 &&
      t.sink == [⟨.eventIrq, 0x00020012, []⟩])
      (exec (.status .one)
        (withSched (silence 3 ++ [[.fire ⟨.event, .one⟩]])
          { ready 0x0012 0x0002 (fun b => { b with evPend := true }) with irqEn := [31] })) = true := by decide +kernel

/-- V52: only bits 8 to 11 fall, and the error line with them. -/
theorem test_erh_clears_the_error_bits :
    nextSat (fun t => t.fg.result == 0 && t.bus1.ctrl.srP == 0x0084 && !t.bus1.erPend &&
      t.sink == [⟨.errorIrq, 0x00070584, []⟩])
      (exec (.erh .one) (ready 0x0584 0x0007 fun b => { b with erPend := true })) = true := by decide +kernel

/-- V54, with N_RX = 2: a hook hides an error from READ. -/
theorem test_erh_hides_an_error_from_read :
    nextSat (fun t => t.fg.result == 0x0405 &&
      t.sink == [⟨.errorIrq, 0x00030400, []⟩, ⟨.err .receiveByteFailed, 0x00030000, []⟩])
      (exec (.read .one 0x50)
        (withSched
          (silence 4 ++ dec 0 0 ++ silence 1 ++ dec 0 0 ++ silence 1 ++ dec 1 3 ++ silence 3 ++ dec 0 3 ++ silence 4 ++
            [[.envSrP .one 0x0400, .envEr .one true, .fire ⟨.error, .one⟩]])
          { ready 0 0 with irqEn := [32] })) = true := by decide +kernel

/-- V21c: WRITE.1 issued on the interrupt port, no line raised, while a foreground READ.1 holds the lock. -/
theorem test_write_locked_on_the_interrupt_port :
    nextSat (fun t => t.irq.result == 0x0008 && !t.bus1.lock && t.port == .fg)
      (exec (.read .one 0x50)
        (withSched (silence 4 ++ [[.issueIrq ⟨none, none, 0x205000AB⟩]]) (ready 0 0x0002))) = true := by decide +kernel

/-- R153: INIT.2 issued on the interrupt port right after power-on. -/
theorem test_init_on_the_interrupt_port :
    nextSat (fun t => t.irq.result == 0 && t.bus2.bound && !t.bus1.bound && t.irqEn == [33, 34] && t.port == .fg)
      (step (withSched [[.issueIrq ⟨none, none, 0x40800000⟩]] State.reset)) = true := by decide +kernel

/-- R57(c), R151: a line fires again between two primitives of a command its handler issues after the hook has ended. -/
theorem test_hook_enters_a_later_command_of_its_handler :
    nextSat (fun t => t.sink.length == 2 && t.active == [] && t.bus1.ctrl.ctl == 0x0001)
      (step
        (withSched
          ([[.fire ⟨.event, .one⟩, .issueIrq ⟨none, none, 0x42000000⟩]] ++ silence 6 ++ [[.fire ⟨.event, .one⟩]])
          { ready 0 0 (fun b => { b with evPend := true }) with irqEn := [31] })) = true := by decide +kernel

/-- R57(c), R151: "a hook never interrupts itself", by its line or issued as a command. -/
theorem test_hook_does_not_interrupt_itself :
    nextSat (fun t => t.sink.length == 1)
      (step
        (withSched ([[.fire ⟨.event, .one⟩]] ++ silence 2 ++ [[.fire ⟨.event, .one⟩, .issueIrq ⟨none, none, 0x50000000⟩]])
          { ready 0 0 (fun b => { b with evPend := true }) with irqEn := [31] })) = true := by decide +kernel

/-- V45: before INIT.1, as a step. -/
theorem test_not_bound :
    nextSat (fun t => t.fg.result == 0x000B && t.trace == []) (step (State.reset.withFetchWord 32 0x01000000)) = true := by
  decide +kernel

/-- V46, as a step. -/
theorem test_illegal_step :
    nextSat (fun t => t.fg.result == 0x000A && t.trace == []) (step ((ready 0 0).withFetchWord 32 0x20500100)) = true := by
  decide +kernel

/-- R119: the byte at `idx` to DR; `tc` at the last. -/
theorem test_transmit_engine_last_byte :
    (fun b : Bus => b.ctrl.drTx == 0x22 && b.chTx.idx == 2 && b.chTx.tc)
      ((engineStep ⟨.one, .tx⟩
        (ready 0x0080 0 fun b =>
          { b with ctrl := { b.ctrl with ctl2 := 0x0800 }, chTx := ⟨[0x11, 0x22], true, false, 2, 1⟩ })).bus .one) = true := by
  decide +kernel

/-- V37: a 17th byte is not read by the engine. -/
theorem test_receive_engine_stops :
    engineStep ⟨.one, .rx⟩
        (ready 0x0040 0 fun b =>
          { b with ctrl := { b.ctrl with ctl2 := 0x0800 }, chRx := ⟨List.replicate 16 0, true, true, 16, 16⟩ }) =
      ready 0x0040 0 fun b =>
        { b with ctrl := { b.ctrl with ctl2 := 0x0800 }, chRx := ⟨List.replicate 16 0, true, true, 16, 16⟩ } := by
  decide +kernel

/-! ## Witnesses: a state and operands that meet the hypotheses of each statement -/

theorem witness_DecodeOfEncodeIsIdentity : (Instr.saddr .two .rx 0x7F).wellFormed = true := rfl

theorem witness_DecoderAcceptsExactlyLegalWords : decode 0x11FF0100 = .ok (.saddr .two .rx 0x7F) := by decide

/-- A state with channels attached and armed, a line enabled and a byte of host memory. -/
def busy : State :=
  { ready 0x0080 0x0007 (fun b =>
      { b with
        dmaTx := some ⟨.one, .tx⟩
        ctrl := { b.ctrl with ctl := 0x0001, ctl2 := 0x0824 }
        chTx := ⟨List.replicate 16 0x11, true, false, 2, 1⟩ }) with
    irqEn := [31, 32]
    mem := [(0x20000000, 0x10), (0x20000001, 0x11)]
    sched := [[.engine ⟨.one, .tx⟩], [.envEv .one true, .fire ⟨.event, .one⟩, .issueIrq ⟨some 3, none, 0x42000000⟩]]
    fgCmd := some 0x01000000 }

/-- The invariant holds of `busy`: an armed transfer in flight, a command pending, an interrupt to come. -/
theorem busy_inv : busy.Inv := by
  refine ⟨by decide, fun n => ?_, by decide, by decide, by decide, by decide⟩
  unfold Bus.Good Ctrl.Good Chan.Good
  cases n <;> decide +kernel

theorem busy_steps : ∃ t, step busy = .next t := next_of_any (by decide +kernel)

theorem witness_PowerOnMeetsInvariant : ({ short with dmaCap := 1 } : Config).wellFormed = true := by decide

theorem witness_StepKeepsInvariant : busy.Inv ∧ ∃ t, step busy = .next t := ⟨busy_inv, busy_steps⟩

theorem witness_StepKeepsParameters : ∃ t, step busy = .next t := busy_steps

theorem witness_NothingIsUndone :
    (busy.bus .one).bound = true ∧ (busy.bus .one).chanRef .tx ≠ none ∧ (busy.chan ⟨.one, .tx⟩).en = true ∧
      31 ∈ busy.irqEn ∧ ∃ t, step busy = .next t :=
  ⟨by decide, by decide, by decide, by decide, busy_steps⟩

theorem witness_BlockNeverWritesHostMemory :
    OnlyMoves (fun m => !isHostStore m) busy ∧ ∃ t, step busy = .next t :=
  ⟨by unfold OnlyMoves; decide, busy_steps⟩

theorem witness_UnnamedControlBitsKept : ∃ t, step busy = .next t := busy_steps

/-- MTX of one byte on instance 1, with moves about instance 1 and the host. -/
def sending : State :=
  withArgs 0x20000000 1 <| withSched
    (silence 8 ++ dec 0 0 ++ silence 1 ++ dec 1 3 ++ silence 2 ++ dec 0x0082 7 ++ silence 3 ++
      [[.engine ⟨.one, .tx⟩, .tick 1, .hostStore 5 6]])
    { busy with fgCmd := none }

theorem sending_ends :
    ∃ t, exec (.mtx .one 0x20) sending = .next t ∧
      (t.stuck == none && t.fg.result == 0 && t.bus1.phase == .idle && !t.bus1.lock) = true :=
  next_of_sat (by decide +kernel)

theorem witness_InstancesAreIsolated :
    Inst.two ≠ targetOf (.mtx .one 0x20) ∧ (sending.bus .one).Good sending.cfg .one ∧
      OnlyMoves (fun x => !movesInst .two x) sending ∧ ∃ t, exec (.mtx .one 0x20) sending = .next t :=
  ⟨by decide, busy_inv.2.1 .one, by unfold OnlyMoves; decide,
    let ⟨t, h, _⟩ := sending_ends
    ⟨t, h⟩⟩

theorem witness_PhaseAndLockBelongToGuardedCommands :
    isGuarded (.gstart .one) = false ∧ isInit (.gstart .one) = false ∧
      NoInterrupt (withSched [[.envSrP .one 3, .tick 2]] busy) ∧
      ∃ t, exec (.gstart .one) (withSched [[.envSrP .one 3, .tick 2]] busy) = .next t :=
  ⟨rfl, rfl, by unfold NoInterrupt; decide, next_of_any (by decide +kernel)⟩

/-- The clause about `phase` for INIT, which clears a held lock. -/
theorem witness_PhaseAndLockBelongToGuardedCommands_init :
    isGuarded (.init .one) = false ∧ NoInterrupt (ready 0 0) ∧ ∃ t, exec (.init .one) (ready 0 0) = .next t :=
  ⟨rfl, by unfold NoInterrupt; decide, next_of_any (by decide +kernel)⟩

theorem witness_GuardedCommandsReleaseTheLock :
    isGuarded (.mtx .one 0x20) = true ∧ NoInterrupt sending ∧ sending.stuck = none ∧ (sending.bus .one).lock = false ∧
      (sending.bus .one).phase = .idle ∧ ∃ t, exec (.mtx .one 0x20) sending = .next t ∧ t.stuck = none := by
  obtain ⟨t, h, ht⟩ := sending_ends
  simp only [Bool.and_eq_true, beq_iff_eq] at ht
  exact ⟨rfl, by unfold NoInterrupt; decide, rfl, rfl, rfl, t, h, ht.1.1.1⟩

theorem witness_WriteNeverResets :
    (withSched v20 (ready 0 0)).cfg.wellFormed = true ∧ NoInterrupt (withSched v20 (ready 0 0)) ∧
      ∃ t, exec (.write .one 0x50 0xAB) (withSched v20 (ready 0 0)) = .next t :=
  ⟨by decide, by unfold NoInterrupt; decide, next_of_any (by decide +kernel)⟩

theorem witness_ResultCodesPerCommand :
    NoInterrupt sending ∧ sending.stuck = none ∧ ∃ t, exec (.mtx .one 0x20) sending = .next t ∧ t.stuck = none := by
  obtain ⟨t, h, ht⟩ := sending_ends
  simp only [Bool.and_eq_true, beq_iff_eq] at ht
  exact ⟨by unfold NoInterrupt; decide, rfl, t, h, ht.1.1.1⟩

theorem witness_StepRunsTheDecodedCommand :
    busy.stuck = none ∧ busy.fgCmd = some 0x01000000 ∧ decode 0x01000000 = .ok (.status .one) := by decide

theorem witness_IllegalWordIsRefused :
    Quiet { ready 0 0 with fgCmd := some 0x20500100 } ∧ (ready 0 0).stuck = none ∧ wordLegal 0x20500100 = false := by
  unfold Quiet; decide

theorem witness_UnboundInstanceIsRefused :
    Quiet State.reset ∧ isInit (.write .two 1 2) = false ∧ (State.reset.bus .two).bound = false := by
  unfold Quiet; decide

/-- With the lock held, and for each command that needs a channel. -/
theorem witness_MissingChannelIsRefused :
    let s := ready 0 0 fun b => { b with lock := true }
    Quiet s ∧ (channelNeeded (.mtx .one 1) = some .tx ∧ channelNeeded (.srx .one 1) = some .rx ∧
      channelNeeded (.tcq .one .rx) = some .rx) ∧ (s.bus .one).bound = true ∧ (s.bus .one).chanRef .tx = none ∧
      (s.bus .one).chanRef .rx = none := by
  unfold Quiet; decide

theorem witness_HeldLockIsRefused :
    let s := ready 0 0 fun b => { b with lock := true, dmaTx := some ⟨.one, .tx⟩ }
    Quiet s ∧ isGuarded (.mtx .one 1) = true ∧ (s.bus .one).bound = true ∧ (s.bus .one).lock = true ∧
      ∀ d, channelNeeded (.mtx .one 1) = some d → (s.bus .one).chanRef d ≠ none := by
  refine ⟨rfl, rfl, rfl, rfl, fun d h => ?_⟩
  cases h; decide

/-- A bound instance, quiet, with the gate open and with it closed. -/
theorem witness_StatusAnswersTheComposite :
    (Quiet (ready 0x0012 2) ∧ ((ready 0x0012 2).bus .one).bound = true ∧
      gateOpen short ((ready 0x0012 2).bus .one).ctrl.srP = true) ∧
    Quiet (ready 0x0010 2) ∧ ((ready 0x0010 2).bus .one).bound = true ∧
      gateOpen short ((ready 0x0010 2).bus .one).ctrl.srP = false := by
  unfold Quiet; decide

theorem witness_IsEqualAnswersThePredicate :
    Quiet (withArgs 2 6 (ready 0x0012 2)) ∧ ((withArgs 2 6 (ready 0x0012 2)).bus .one).bound = true := by
  unfold Quiet; decide

/-- Every clause; MTX with its second byte missing. -/
theorem witness_OperandsAreLatchedAtIssue :
    let s := withSched [[.hostArg0 7, .hostArg1 8]] <| withArgs 0x10 2
      { ready 0x0012 2 (fun b => { b with dmaTx := some ⟨.one, .tx⟩ }) with mem := [(0x10, 1)] }
    s.port = .fg ∧ (s.bus .one).bound = true ∧ s.sched = [[.hostArg0 7, .hostArg1 8]] ∧ (s.bus .one).lock = false ∧
      (s.bus .one).dmaTx ≠ none ∧ 1 < min s.fg.arg1.toNat s.cfg.dmaCap ∧
      (∀ m, m < 1 → memGet s.mem (s.fg.arg0 + BitVec.ofNat 32 m) ≠ none) ∧
      memGet s.mem (s.fg.arg0 + BitVec.ofNat 32 1) = none := by decide +kernel

/-- The three clauses: SR_P, SR_S (with `p_read` set and clear), and another register. -/
theorem witness_ReadOrderClear :
    Reg.srP = .srP ∧ Reg.srS = .srS ∧ (Reg.dr ≠ .srP ∧ Reg.dr ≠ .srS) ∧
      (readReg .one .srP (ready 0x0012 2)).2.bus1.ctrl.pRead = true ∧ (ready 0x0012 2).bus1.ctrl.pRead = false := by
  decide

theorem witness_GstartCompletesOnStartPattern :
    Quiet (ready 1 3) ∧ Steady (ready 1 3) .one ∧ ((ready 1 3).bus .one).bound = true ∧ 0 < short.nStartWait ∧
      matchPat (decodedValue (ready 1 3) .one) (pStart short) = true := by
  unfold Quiet Steady; decide +kernel

theorem witness_GstartFailsWithoutStartPattern :
    Quiet (ready 0x0400 2) ∧ Steady (ready 0x0400 2) .one ∧ ((ready 0x0400 2).bus .one).bound = true ∧
      matchPat (decodedValue (ready 0x0400 2) .one) (pStart short) = false := by
  unfold Quiet Steady; decide +kernel

theorem witness_SaddrTransmitCompletes :
    Quiet (ready 0x0080 7) ∧ Steady (ready 0x0080 7) .one ∧ ((ready 0x0080 7).bus .one).bound = true ∧ 0 < short.nSpin ∧
      matchPat (decodedValue (ready 0x0080 7) .one) (pAddrTx short) = true := by
  unfold Quiet Steady; decide +kernel

theorem witness_SaddrReceiveIsUnverified : Quiet (ready 0 0) ∧ ((ready 0 0).bus .one).bound = true := by
  unfold Quiet; decide

theorem witness_TxbyteCompletes :
    Quiet (ready 0x0084 7) ∧ Steady (ready 0x0084 7) .one ∧ ((ready 0x0084 7).bus .one).bound = true ∧ 0 < short.nSpin ∧
      matchPat (decodedValue (ready 0x0084 7) .one) (pByteTx short) = true := by
  unfold Quiet Steady; decide +kernel

/-- Both clauses at once: neither pattern is shown. -/
theorem witness_TransmitPrimitivesTimeOut :
    Quiet (ready 0x0400 7) ∧ Steady (ready 0x0400 7) .one ∧ ((ready 0x0400 7).bus .one).bound = true ∧
      matchPat (decodedValue (ready 0x0400 7) .one) (pAddrTx short) = false ∧
      matchPat (decodedValue (ready 0x0400 7) .one) (pByteTx short) = false := by
  unfold Quiet Steady; decide +kernel

/-- TXE without BTF: the second clause alone (V17). -/
theorem witness_TransmitPrimitivesTimeOut_byte_only :
    matchPat (decodedValue (ready 0x0080 7) .one) (pAddrTx short) = true ∧
      matchPat (decodedValue (ready 0x0080 7) .one) (pByteTx short) = false := by decide +kernel

theorem witness_RxbyteCompletes :
    Quiet (ready 0x0040 3) ∧ Steady (ready 0x0040 3) .one ∧ ((ready 0x0040 3).bus .one).bound = true ∧ 0 < short.nRx ∧
      matchPat (decodedValue (ready 0x0040 3) .one) (pByteRx short) = true := by
  unfold Quiet Steady; decide +kernel

theorem witness_RxbyteTimesOut :
    Quiet (ready 0x0400 3) ∧ Steady (ready 0x0400 3) .one ∧ ((ready 0x0400 3).bus .one).bound = true ∧
      matchPat (decodedValue (ready 0x0400 3) .one) (pByteRx short) = false := by
  unfold Quiet Steady; decide +kernel

theorem witness_GstopCompletes : Quiet (ready 0 2) ∧ ((ready 0 2).bus .two).bound = true := by unfold Quiet; decide

/-- Answers by number. -/
def nth (l : List Half) (k : Nat) : Half := l.getD k 0

theorem witness_WriteCompletesOnCooperativeBus :
    let s := withSched (v20 ++ silence 5 ++ []) (ready 0 0)
    let q := nth [0, 0, 1, 0x0082, 0x0084]
    let v := nth [0, 0, 3, 7, 7]
    s.cfg.wellFormed = true ∧ NotInReset s .one ∧ (s.bus .one).bound = true ∧ (s.bus .one).lock = false ∧
      (0 < s.cfg.nWrBusy ∧ 0 < s.cfg.nStartBusy ∧ 0 < s.cfg.nStartWait ∧ 0 < s.cfg.nSpin) ∧
      FindsFree s.cfg (q 0) (v 0) ∧ FindsFree s.cfg (q 1) (v 1) ∧ Reaches s.cfg (q 2) (v 2) (pStart s.cfg) ∧
      Reaches s.cfg (q 3) (v 3) (pAddrTx s.cfg) ∧ Reaches s.cfg (q 4) (v 4) (pByteTx s.cfg) ∧
      s.sched = silence 4 ++ answers .one (q 0) (v 0) ++ silence 1 ++ answers .one (q 1) (v 1) ++ silence 1 ++
        answers .one (q 2) (v 2) ++ silence 2 ++ answers .one (q 3) (v 3) ++ silence 2 ++ answers .one (q 4) (v 4) ++
        silence 5 ++ [] := by
  unfold NotInReset FindsFree Reaches; decide +kernel

/-- The three clauses: a bus busy without master, and one with BUSY, MSL and an error bit. -/
theorem witness_BusyBusEndsInBusBusyTimeout :
    ((Quiet (ready 0x0100 2) ∧ Steady (ready 0x0100 2) .one ∧ ((ready 0x0100 2).bus .one).bound = true ∧
      ((ready 0x0100 2).bus .one).lock = false ∧ matchPat (decodedValue (ready 0x0100 2) .one) (pBusy short) = true ∧
      (errSeen short (decodedValue (ready 0x0100 2) .one) &&
        matchPat (decodedValue (ready 0x0100 2) .one) (pMaster short)) = false)) ∧
    let s := withSched (silence 9 ++ [[.envSrP .one 0]]) (ready 0x0100 3)
    (s.bus .one).bound = true ∧ (s.bus .one).lock = false ∧ s.sched = silence 9 ++ [[.envSrP .one 0]] ∧
      s.cfg.wellFormed = true ∧ (errSeen s.cfg (decodedValue s .one) && matchPat (decodedValue s .one) (pMaster s.cfg)) = true ∧
      0 < s.cfg.nRdOuter ∧ 0 < s.cfg.nRdInner ∧ waitByPrimary s.cfg.resetWait 0 = some false := by
  unfold Quiet Steady; decide +kernel

theorem witness_ReadCompletesOnCooperativeBus :
    let q := nth [0, 0, 1, 0x0040]
    let v := nth [0, 0, 3, 3]
    let l := silence 4 ++ answers .one (q 0) (v 0) ++ silence 1 ++ answers .one (q 1) (v 1) ++ silence 1 ++
      answers .one (q 2) (v 2) ++ silence 3 ++ answers .one (q 3) (v 3) ++ [[.envDr .one 0x5A]] ++ silence 7 ++ []
    let s := withSched l (ready 0 0)
    s.cfg.wellFormed = true ∧ NotInReset s .one ∧ (s.bus .one).bound = true ∧ (s.bus .one).lock = false ∧
      (0 < s.cfg.nRdOuter ∧ 0 < s.cfg.nRdInner ∧ 0 < s.cfg.nStartBusy ∧ 0 < s.cfg.nStartWait ∧ 0 < s.cfg.nRx) ∧
      FindsFree s.cfg (q 0) (v 0) ∧ FindsFree s.cfg (q 1) (v 1) ∧ Reaches s.cfg (q 2) (v 2) (pStart s.cfg) ∧
      Reaches s.cfg (q 3) (v 3) (pByteRx s.cfg) ∧ s.sched = l := by
  unfold NotInReset FindsFree Reaches; decide +kernel

/-- A guarded command in its DataPhase. -/
def inDataPhase (p v : Half) : State :=
  ready p v fun b => { b with lock := true, phase := .dataPhase, ownAddress := 0x10 }

theorem witness_FailureExitRecordsAndReleases_afterReset :
    let s := (inDataPhase 0x0400 3).modResult fun _ => 0x0020
    Quiet s ∧ Steady s .one ∧ ErrKind.busBusyTimeout ≠ .busError ∧ s.bank.result = 0x0020 ∧
      (failureResets .read .busBusyTimeout && errSeen s.cfg (decodedValue s .one)) = false := by
  unfold Quiet Steady; decide +kernel

theorem witness_FailureExitRecordsAndReleases :
    Quiet (inDataPhase 0x0400 3) ∧ Steady (inDataPhase 0x0400 3) .one ∧ ErrKind.transmitByteFailed ≠ .busError ∧
      (inDataPhase 0x0400 3).bank.result = 0 ∧
      (failureResets .write .transmitByteFailed && errSeen short (decodedValue (inDataPhase 0x0400 3) .one)) = false := by
  unfold Quiet Steady; decide +kernel

/-- RESULT 0, or RESETRAN as a BusyCheck Reset leaves it (V27), and the failure decode's gate open, or closed by LATCH. -/
theorem witness_ReadReceiveFailureResets :
    let meets (p : Half) (k : Nat) (r : Half) : Prop :=
      let s := withSched (silence k ++ [[.envSrP .one 0]]) ((inDataPhase p 3).modResult fun _ => r)
      s.cfg.wellFormed = true ∧ NotInReset s .one ∧ Steady s .one ∧ s.bank.result = r ∧
        waitByPrimary s.cfg.resetWait 0 = some false ∧ errSeen s.cfg (decodedValue s .one) = true ∧
        s.sched = silence (if gateOpen s.cfg (s.bus .one).ctrl.srP then 8 else 7) ++ [[.envSrP .one 0]]
    meets 0x0400 8 0 ∧ meets 0x0400 8 0x0020 ∧ meets 0x0410 7 0 := by
  unfold NotInReset Steady; decide +kernel

theorem witness_AttachCompletes : Quiet (ready 0 0) ∧ ((ready 0 0).bus .one).bound = true := by unfold Quiet; decide

/-- One byte, at the top of the address space. -/
theorem witness_MtxCompletesOnCooperativeBus :
    let q := nth [0, 1, 0x0082, 0x0080]
    let v := nth [0, 3, 7, 7]
    let data : Nat → Byte := fun _ => 0x10
    let c : ChanId := ⟨.one, .tx⟩
    let l := silence (6 + 2 * 1) ++ answers .one (q 0) (v 0) ++ silence 1 ++ answers .one (q 1) (v 1) ++ silence 2 ++
      answers .one (q 2) (v 2) ++ silence 3 ++ [.envSrP .one (q 3) :: List.replicate 1 (.engine c)] ++ silence 3 ++ []
    let s := withArgs 0xFFFFFFFF 1 <| withSched l { ready 0 0 (fun b => { b with dmaTx := some c }) with
      mem := [(0xFFFFFFFF, 0x10)] }
    let k := min s.bank.arg1.toNat s.cfg.dmaCap
    s.Inv ∧ NotInReset s .one ∧ (s.bus .one).bound = true ∧ (s.bus .one).lock = false ∧ (s.bus .one).dmaTx = some c ∧
      0 < k ∧ (0 < s.cfg.nStartBusy ∧ 0 < s.cfg.nStartWait ∧ 0 < s.cfg.nSpin) ∧
      (∀ j, j < k → memGet s.mem (s.bank.arg0 + BitVec.ofNat 32 j) = some (data j)) ∧
      FindsFree s.cfg (q 0) (v 0) ∧ Reaches s.cfg (q 1) (v 1) (pStart s.cfg) ∧
      Reaches s.cfg (q 2) (v 2) (pAddrTx s.cfg) ∧ (q 3).getLsbD s.cfg.flags.txe = true ∧ s.sched = l := by
  unfold NotInReset FindsFree Reaches
  refine ⟨⟨by decide, fun n => ?_, by decide, by decide, by decide, by decide⟩, ?_⟩
  · unfold Bus.Good Ctrl.Good Chan.Good
    cases n <;> decide +kernel
  · decide +kernel

/-- The last byte missing, the one before it at the top of the address space. -/
theorem witness_MtxStopsAtAbsentSourceByte :
    let s := withArgs 0xFFFFFFFF 2
      { ready 0 0 (fun b => { b with dmaTx := some ⟨.one, .tx⟩ }) with mem := [(0xFFFFFFFF, 1)] }
    Quiet s ∧ (s.bus .one).bound = true ∧ (s.bus .one).lock = false ∧ (s.bus .one).dmaTx ≠ none ∧
      1 < min s.bank.arg1.toNat s.cfg.dmaCap ∧ (∀ m, m < 1 → memGet s.mem (s.bank.arg0 + BitVec.ofNat 32 m) ≠ none) ∧
      memGet s.mem (s.bank.arg0 + BitVec.ofNat 32 1) = none := by
  unfold Quiet; decide +kernel

theorem witness_MtxOfNoBytesNeverSucceeds :
    let s := withSched [[.envSrP .one 3, .engine ⟨.one, .tx⟩]] (ready 0 0 fun b => { b with dmaTx := some ⟨.one, .tx⟩ })
    NoInterrupt s ∧ s.bank.arg1 = 0 ∧ ∃ t, exec (.mtx .one 0x20) s = .next t :=
  ⟨by unfold NoInterrupt; decide, rfl, next_of_any (by decide +kernel)⟩

theorem witness_SrxTimesOutUnaddressed :
    let s := ready 0 0 fun b => { b with dmaRx := some ⟨.one, .rx⟩ }
    Quiet s ∧ Steady s .one ∧ (s.bus .one).bound = true ∧ (s.bus .one).lock = false ∧ (s.bus .one).dmaRx ≠ none ∧
      (s.bus .one).ctrl.srP.getLsbD s.cfg.flags.addrm = false := by
  unfold Quiet Steady; decide

theorem witness_SrxArmsTheReceiveChannel :
    let s := ready 0x0082 0 fun b => { b with dmaRx := some ⟨.one, .rx⟩ }
    Quiet s ∧ s.cfg.wellFormed = true ∧ (s.bus .one).bound = true ∧ (s.bus .one).lock = false ∧
      (s.bus .one).dmaRx = some ⟨.one, .rx⟩ ∧ 0 < s.cfg.nSrxAddr ∧
      (s.bus .one).ctrl.srP.getLsbD s.cfg.flags.addrm = true := by
  unfold Quiet; decide

theorem witness_TcqAnswersTheQueries :
    let s := ready 0 0 fun b => { b with dmaRx := some ⟨.one, .rx⟩ }
    Quiet s ∧ (s.bus .one).bound = true ∧ (s.bus .one).chanRef .rx = some ⟨.one, .rx⟩ := by
  unfold Quiet; decide

/-- Both clauses: no byte asked for, and the last byte of a transfer. -/
theorem witness_TransmitEngineStep :
    engineEnabled (ready 0 0) ⟨.one, .tx⟩ = false ∧ engineEnabled busy ⟨.one, .tx⟩ = true ∧
      busy.bus1.chTx.buf[busy.bus1.chTx.idx]? = some 0x11 ∧ busy.bus1.ctrl.held busy.cfg = busy.bus1.ctrl := by
  decide +kernel

/-- Both clauses: a full buffer, and the last byte of one. -/
theorem witness_ReceiveEngineStep :
    let armed (k : Nat) := ready 0x0040 0 fun b =>
      { b with ctrl := { b.ctrl with ctl2 := 0x0800 }, chRx := ⟨List.replicate 16 0, true, k == 16, 16, k⟩ }
    engineEnabled (armed 16) ⟨.one, .rx⟩ = false ∧ engineEnabled (armed 15) ⟨.one, .rx⟩ = true := by
  decide +kernel

theorem witness_InitBringsTheInstanceUp :
    Quiet State.reset ∧ State.reset.cfg.wellFormed = true ∧ ¬ Waits State.reset .two := by
  unfold Quiet Waits; decide +kernel

/-- SR_P reading 0, and SR_P not 0 with SR_S reading 0. -/
theorem witness_ResetLeavesTheController :
    (Quiet (ready 0 7) ∧ (ready 0 7).cfg.wellFormed = true ∧ ((ready 0 7).bus .one).bound = true ∧
      ¬ Waits (ready 0 7) .one) ∧
    Quiet (ready 2 0) ∧ (ready 2 0).cfg.wellFormed = true ∧ ((ready 2 0).bus .one).bound = true ∧
      ¬ Waits (ready 2 0) .one := by
  unfold Quiet Waits; decide +kernel

theorem witness_EnableAndDisableTogglePe : Quiet (ready 0 0) ∧ ((ready 0 0).bus .one).bound = true := by
  unfold Quiet; decide

theorem witness_PstatRecordsTheStatus :
    Quiet (ready 0 2) ∧ Steady (ready 0 2) .one ∧ ((ready 0 2).bus .one).bound = true ∧ 0 < short.nPstat := by
  unfold Quiet Steady; decide

/-- Every clause: BUSY, MSL and an error bit, so READ's BusyCheck resets. -/
theorem witness_HungResetNeverEnds :
    let s := ready 0x0100 3
    Quiet s ∧ Steady s .one ∧ s.stuck = none ∧ Waits s .one ∧ (s.bus .one).bound = true ∧ (s.bus .one).lock = false ∧
      0 < s.cfg.nRdOuter ∧ 0 < s.cfg.nRdInner ∧ errSeen s.cfg (decodedValue s .one) = true ∧
      matchPat (decodedValue s .one) (pMaster s.cfg) = true := by
  unfold Quiet Steady Waits; decide +kernel

theorem witness_EndlessResetHasNoWayOut :
    (ready 1 1).stuck = none ∧ ∃ t, exec (.reset .one) (ready 1 1) = .next t ∧ t.stuck = some (.spin .one) := by
  obtain ⟨t, h, ht⟩ := next_of_sat (p := fun t => t.stuck == some (.spin .one)) (o := exec (.reset .one) (ready 1 1))
    (by decide +kernel)
  exact ⟨rfl, t, h, by simpa using ht⟩

theorem witness_HooksLogAndClear :
    Quiet (ready 0x0402 3) ∧ ((ready 0x0402 3).bus .one).bound = true ∧
      ((ready 0x0402 3).bus .one).ctrl.held short = ((ready 0x0402 3).bus .one).ctrl := by
  unfold Quiet; decide +kernel

/-- A line raised and enabled, of either kind. -/
def raised (l : Line) : State :=
  { ready 0x0400 3 (fun b => { b with evPend := true, erPend := true }) with irqEn := [31, 32], sched := [[.fire l]] }

theorem witness_InterruptRunsItsHookAndReturns :
    ∀ k ∈ [LineKind.event, LineKind.error],
      let l : Line := ⟨k, .one⟩
      (raised l).stuck = none ∧ (raised l).fgCmd = none ∧ (raised l).port = .fg ∧ (raised l).sched = [[.fire l]] ∧
        canFire (raised l) l = true ∧ ((raised l).bus .one).bound = true := by
  decide +kernel

/-- ENABLE.1 issued on the interrupt port. -/
theorem witness_InterruptRunsItsHookAndReturns_issued :
    let c : IrqCmd := ⟨some 1, none, 0x42000000⟩
    let s := withSched [[.issueIrq c]] (ready 0 0)
    s.stuck = none ∧ s.fgCmd = none ∧ s.port = .fg ∧ s.sched = [[.issueIrq c]] ∧ decode c.word = .ok (.enable .one) ∧
      hookLine (.enable .one) = none ∧
      ∃ t, EndsIn (.enable .one) (writeIrqArgs c { s with sched := [], port := .irq }) t :=
  ⟨rfl, rfl, rfl, rfl, by decide, rfl, _, .inl rfl⟩

/-- The three clauses: not raised, not enabled, its own hook running. -/
theorem witness_MaskedLineDoesNotFire :
    let l : Line := ⟨.event, .one⟩
    let s := raised l
    (s.stuck = none ∧ s.fgCmd = none ∧ s.sched = [.fire l] :: []) ∧
      (((ready 0 0).bus .one).linePend .event = false) ∧ (lineNumber s.cfg l ∉ { s with irqEn := [32] }.irqEn) ∧
      l ∈ { s with active := [l] }.active := by
  decide +kernel

theorem witness_StarvedForegroundNeverSteps :
    let s := { ready 1 3 with stuck := some (.starved .one), port := .irq }
    s.stuck = some (.starved .one) ∧ Quiet s ∧ s.port = .irq ∧ (s.bus .one).bound = true := by
  unfold Quiet; decide

theorem witness_ClockConfigDefaultFormula : Config.default.wellFormed = true ∧ Config.default.clock = .formula := by
  decide

/-- Every clause, at the last index of the buffer and one past it. -/
theorem witness_ViewReadsTheReceiveBuffer :
    busy.Inv ∧ viewRead busy 1 15 = some 0 ∧ viewRead busy 1 16 = none ∧ viewRead busy 3 15 = some 0 ∧
      viewRead busy 3 16 = none ∧ ((0 : Word) ≠ 1 ∧ (0 : Word) ≠ 3) ∧ viewRead busy 0 0 = none :=
  ⟨busy_inv, by decide +kernel⟩

end Sys2Proof.Tests
end

section
/-! PROOFS. One step of the machine, whatever it runs: the word on the foreground port is decoded and its command is the step
(R12), no step changes the parameters (R7), and no step but one with a host store changes host memory (R9, R62). -/
namespace Sys2Proof.Machine

open Sys2Proof.Claims

/-! ## The step of a state that holds a command -/

/-- The step of a state whose foreground port holds the word of a command runs that command (R12, R73). -/
theorem step_of_command {s : State} {w : Word} {i : Instr} (hs : s.stuck = none) (hf : s.fgCmd = some w)
    (hd : decode w = .ok i) : step s = exec i (acceptCommand s) := by
  simp only [step, hs, hf, hd]

/-! ## What no primitive changes: the parameters and host memory -/

/-- From `s` to `t` the parameters are as they were, no batch joins the schedule, and host memory is as it was where the
moves in `A` hold no store of the host. -/
structure Frozen (A : Move → Bool) (s t : State) : Prop where
  cfg : t.cfg = s.cfg
  sched : t.sched ⊆ s.sched
  mem : (∀ m, A m = true → isHostStore m = false) → t.mem = s.mem

variable {A : Move → Bool} {c : Config}

theorem frozen_of_eq {s t : State} (hc : t.cfg = s.cfg) (hs : t.sched = s.sched) (hm : t.mem = s.mem) : Frozen A s t :=
  ⟨hc, hs ▸ List.Subset.refl _, fun _ => hm⟩

theorem Frozen.refl (s : State) : Frozen A s s := frozen_of_eq rfl rfl rfl

theorem Frozen.trans {s t u : State} (h : Frozen A s t) (k : Frozen A t u) : Frozen A s u :=
  ⟨k.cfg.trans h.cfg, List.Subset.trans k.sched h.sched, fun hA => (k.mem hA).trans (h.mem hA)⟩

theorem frozen_modBus (s : State) (n : Inst) (f : Bus → Bus) : Frozen A s (s.modBus n f) :=
  frozen_of_eq (by simp) (by simp) (by simp)

theorem frozen_modBank (s : State) (f : Bank → Bank) : Frozen A s (s.modBank f) :=
  frozen_of_eq (by simp) (by simp) (by simp)

theorem frozen_log (s : State) (a : Access) : Frozen A s (s.log a) := frozen_of_eq rfl rfl rfl

/-- A change of one instance that crosses a port. -/
theorem frozen_modBus_log (s : State) (n : Inst) (f : Bus → Bus) (a : Access) : Frozen A s ((s.modBus n f).log a) :=
  (frozen_modBus s n f).trans (frozen_log _ a)

theorem frozen_modChan_log (s : State) (ch : ChanId) (f : Chan → Chan) (a : Access) :
    Frozen A s ((s.modChan ch f).log a) := by
  rw [State.modChan_eq_modBus]
  exact frozen_modBus_log s ch.inst _ a

theorem frozen_clrReg (n : Inst) (r : Reg) (m : Half) (s : State) : Frozen A s (clrReg n r m s) := by
  cases r with
  | srP => exact (frozen_modBus s n _).trans (frozen_modBus_log _ n _ _)
  | _ => exact frozen_modBus_log s n _ _

theorem frozen_engineStep (ch : ChanId) (s : State) : Frozen A s (engineStep ch s) := by
  obtain ⟨n, d⟩ := ch
  unfold engineStep
  split
  · cases d with
    | tx => exact (frozen_modBus s n _).trans (frozen_modChan_log _ ⟨n, .tx⟩ _ _)
    | rx => exact frozen_modChan_log s ⟨n, .rx⟩ _ _
  · exact .refl s

/-- Of the moves of one agent only the host's store changes host memory, and none changes the parameters. -/
theorem frozen_quietMove {m : Move} (hm : A m = true) (s : State) : Frozen A s (quietMove m s) := by
  cases m with
  | hostStore a b => exact ⟨rfl, List.Subset.refl _, fun hA => nomatch hA _ hm⟩
  | engine ch => exact frozen_engineStep ch s
  | envSrP n _ | envSrS n _ | envDr n _ | envClrStart n | envClrStop n | envEv n _ | envEr n _ =>
    simp only [quietMove, envEventLine, envErrorLine, State.modCtrl]
    exact frozen_modBus s n _
  | tick _ | hostArg0 _ | hostArg1 _ | hostIssue _ | fire _ | issueIrq _ | starve _ => exact frozen_of_eq rfl rfl rfl

/-! ## What no step changes -/

/-- A state with the parameters `c` whose schedule holds moves in `A` only. -/
def Within (A : Move → Bool) (c : Config) (s : State) : Prop := s.cfg = c ∧ OnlyMoves A s

theorem Frozen.within {s t : State} (h : Frozen A s t) (hs : Within A c s) : Within A c t :=
  ⟨h.cfg.trans hs.1, fun b hb => hs.2 b (h.sched hb)⟩

theorem moves_of_frozen {f : State → State} (hf : ∀ s, Frozen A s (f s)) : Moves (Within A c) (Frozen A) f := fun s hs =>
  ⟨(hf s).within hs, hf s⟩

/-- No primitive of a command changes the parameters, host memory or the schedule. -/
theorem frozen_closed (n : Inst) : Closed (Within A c) (Frozen A) c (fun _ => True) n .all where
  cfg _ hs := hs.1
  refl := .refl
  trans _ _ _ := .trans
  ref _ _ _ _ _ := trivial
  read _ := moves_of_frozen fun s => frozen_modBus_log s n _ _
  write _ _ := moves_of_frozen fun s => frozen_modBus_log s n _ _
  set _ _ := moves_of_frozen fun s => frozen_modBus_log s n _ _
  clr _ _ := moves_of_frozen (frozen_clrReg n _ _)
  setDma := moves_of_frozen fun s => frozen_modBus_log s n _ _
  clrErr := moves_of_frozen (frozen_clrReg n _ _)
  pulseSet _ := moves_of_frozen fun s => frozen_modBus_log s n _ _
  pulseClr _ := moves_of_frozen (frozen_clrReg n _ _)
  writeCtl2 _ := moves_of_frozen fun s => frozen_modBus_log s n _ _
  writeTrise _ := moves_of_frozen fun s => frozen_modBus_log s n _ _
  writeOar _ := moves_of_frozen fun s => frozen_modBus_log s n _ _
  writeCcr _ := moves_of_frozen fun s => frozen_modBus_log s n _ _
  record _ _ _ := moves_of_frozen fun _ => frozen_of_eq rfl rfl rfl
  log a := moves_of_frozen fun s => frozen_log s a
  phase _ _ := moves_of_frozen fun s => frozen_modBus s n _
  lock _ _ := moves_of_frozen fun s => frozen_modBus s n _
  lastRx _ := moves_of_frozen fun s => frozen_modBus s n _
  own := moves_of_frozen fun s => frozen_modBus s n _
  bound := moves_of_frozen fun s => frozen_modBus s n _
  attach _ := moves_of_frozen fun s => frozen_modBus s n _
  chanPut ch _ _ _ := moves_of_frozen fun s => frozen_modChan_log s ch _ _
  chanEnable ch _ _ _ := moves_of_frozen fun s => frozen_modChan_log s ch _ _
  irqLine _ := moves_of_frozen fun _ => frozen_of_eq rfl rfl rfl
  result _ _ := moves_of_frozen fun s => frozen_modBank s _
  failPhase _ := moves_of_frozen fun s => frozen_modBank s _
  start _ := moves_of_frozen fun s => (frozen_modBank s _).trans (frozen_of_eq rfl rfl rfl)
  free := moves_of_frozen fun s => (frozen_modBank s _).trans (frozen_of_eq rfl rfl rfl)
  rdata0 _ := moves_of_frozen fun s => frozen_modBank s _
  rdata1 _ := moves_of_frozen fun s => frozen_modBank s _
  pollN _ := moves_of_frozen fun s => frozen_modBank s _
  spin _ := moves_of_frozen fun _ => frozen_of_eq rfl rfl rfl

theorem frozen_irqClosed : IrqClosed (Within A c) (Frozen A) c fun _ => True where
  cmds := frozen_closed
  enter _ := moves_of_frozen fun _ => frozen_of_eq rfl rfl rfl
  args _ := moves_of_frozen fun _ => frozen_of_eq rfl rfl rfl
  back old s _ hs :=
    have h : Frozen A s (irqReturn old s) := frozen_of_eq rfl rfl rfl
    ⟨h.within hs, h⟩

theorem frozen_othersClosed : OthersClosed (Within A c) (Frozen A) c (fun _ => True) (A · = true) where
  refl := .refl
  trans _ _ _ := .trans
  allowed _ hs := hs.2
  pop s b rest hs hb :=
    have h : Frozen A s { s with sched := rest } := ⟨rfl, hb ▸ List.subset_cons_self b rest, fun _ => rfl⟩
    ⟨h.within hs, h⟩
  quiet _ hm := moves_of_frozen (frozen_quietMove hm)
  fire _ _ := frozen_irqClosed
  issue _ _ := frozen_irqClosed
  starve _ _ := moves_of_frozen fun _ => frozen_of_eq rfl rfl rfl

/-- A whole step, its interrupts included, leaves the parameters, and host memory where no store of the host is scheduled. -/
theorem step_frozen {s t : State} (hs : OnlyMoves A s) (he : step s = .next t) : Frozen A s t :=
  (step_keeps (frozen_othersClosed (c := s.cfg)) frozen_irqClosed (moves_of_frozen fun _ => frozen_of_eq rfl rfl rfl)
    ⟨rfl, hs⟩ he).2

end Sys2Proof.Machine

namespace Sys2Proof.Proofs

open Sys2Proof.Machine

/-- Settles O7: every step is `Frozen`, whatever moves its schedule holds. -/
theorem stepKeepsParameters : Obligations.StepKeepsParameters := by
  intro s t he
  have hall : Claims.OnlyMoves (fun _ => true) s := fun _ _ _ _ => rfl
  exact (step_frozen hall he).cfg

/-- Settles O9: a step is `Frozen`, and its schedule holds no store of the host. -/
theorem blockNeverWritesHostMemory : Obligations.BlockNeverWritesHostMemory := by
  intro s t hs he
  refine (step_frozen hs he).mem fun m hm => ?_
  simpa using hm

/-- Settles O16, by the branch of `step` for a word that decodes; `acceptCommand` is the state of the statement. -/
theorem stepRunsTheDecodedCommand : Obligations.StepRunsTheDecodedCommand := by
  intro s w i hs hf hd
  exact step_of_command hs hf hd

end Sys2Proof.Proofs
end

section
/-! PROOFS. Polls and failure exits where no other agent moves and the read order clears nothing: a decode repeats, a poll
whose pattern is never shown makes its whole budget of decodes, and the failure exit of a primitive issued alone ends the
command (R11, R90, R143). -/
namespace Sys2Proof.Machine

open Sys2Proof.Claims

variable {n : Inst}

/-! ## What is kept outside the instance -/

theorem keptOutside_refl (s : State) : KeptOutside n s s :=
  ⟨fun _ _ => rfl, rfl, rfl, rfl, rfl, rfl, rfl, fun _ => rfl, rfl, rfl, rfl, rfl⟩

theorem keptOutside_trans {s t u : State} (h : KeptOutside n s t) (k : KeptOutside n t u) : KeptOutside n s u := by
  obtain ⟨hb, hc, hp, hf, hi, ha, ht, hm, hs, ho, h0, h1⟩ := h
  obtain ⟨kb, kc, kp, kf, ki, ka, kt, km, ks, ko, k0, k1⟩ := k
  exact ⟨fun m hn => (kb m hn).trans (hb m hn), kc.trans hc, kp.trans hp, kf.trans hf, ki.trans hi, ka.trans ha,
    kt.trans ht, fun a => (km a).trans (hm a), ks.trans hs, ko.trans ho, k0.trans h0, k1.trans h1⟩

theorem keptOutside_modBus (s : State) (f : Bus → Bus) : KeptOutside n s (s.modBus n f) := by
  refine ⟨fun m hm => State.bus_modBus_other s hm f, ?_⟩
  simp [otherBank]

theorem keptOutside_log (s : State) (a : Access) : KeptOutside n s (s.log a) :=
  ⟨fun m _ => State.log_bus s a m, rfl, rfl, rfl, rfl, rfl, rfl, fun _ => rfl, rfl, rfl, rfl, rfl⟩

/-- A change of the port's own bank that leaves its operands. -/
theorem keptOutside_modBank (s : State) {f : Bank → Bank} (h0 : (f s.bank).arg0 = s.bank.arg0)
    (h1 : (f s.bank).arg1 = s.bank.arg1) : KeptOutside n s (s.modBank f) := by
  have ho : otherBank (s.modBank f) = otherBank s := by
    cases hp : s.port <;> simp [otherBank, State.modBank, hp]
  refine ⟨fun m _ => State.modBank_bus s f m, ?_⟩
  simp [ho, h0, h1]

theorem keptOutside_modResult (s : State) (f : Half → Half) : KeptOutside n s (s.modResult f) :=
  keptOutside_modBank s rfl rfl

theorem keptOutside_clearResult (k : Bool) (s : State) : KeptOutside n s (clearResult k s) :=
  keptOutside_modBank (f := _) s rfl rfl

/-! ## Issue -/

@[simp] theorem clearResult_bus (k : Bool) (s : State) (m : Inst) : (clearResult k s).bus m = s.bus m :=
  State.modBank_bus s _ m
@[simp] theorem clearResult_cfg (k : Bool) (s : State) : (clearResult k s).cfg = s.cfg := State.modBank_cfg s _
@[simp] theorem clearResult_sink (k : Bool) (s : State) : (clearResult k s).sink = s.sink := State.modBank_sink s _
@[simp] theorem clearResult_trace (k : Bool) (s : State) : (clearResult k s).trace = s.trace := State.modBank_trace s _

/-- RESULT is 0 and, where it is to be kept, RDATA0 as it was (R81(1), log 10). -/
theorem clearResult_bank (k : Bool) (s : State) :
    (clearResult k s).bank =
      { s.bank with
        result := 0
        rdata0 := if k then s.bank.rdata0 else Config.freeWord s.freeCtr
        rdata1 := Config.freeWord (s.freeCtr + 1) } :=
  State.bank_modBank s _

/-- On a bound instance issue does nothing but clear the result registers (R81). -/
theorem enter_quiet {s : State} (hq : Quiet s) (hb : (s.bus n).bound = true) (k : Bool) :
    enter others n k s = .ok () (clearResult k s) := by
  have hq' : (clearResult k s).sched = [] := (clearResult_sched k s).trans hq
  unfold enter startCommand checkBound
  rw [bind_of_ok (update_quiet hq _), bind_of_ok (others_quiet hq'), bind_of_ok (look_run _ _)]
  simp [hb, run_pure]

/-! ## The status of the instance, as decodes see it -/

/-- The parameters and the two status fields of instance `n` are the same in both states. -/
structure SameStatus (n : Inst) (s t : State) : Prop where
  cfg : t.cfg = s.cfg
  srP : (t.bus n).ctrl.srP = (s.bus n).ctrl.srP
  srS : (t.bus n).ctrl.srS = (s.bus n).ctrl.srS

namespace SameStatus
variable {s t : State} (h : SameStatus n s t)
include h

theorem steady (hs : Steady s n) : Steady t n := by
  unfold Steady
  rw [h.srP, h.cfg]
  exact hs

theorem decodedValue_eq : decodedValue t n = decodedValue s n := by simp only [decodedValue, h.cfg, h.srP, h.srS]

theorem decodeTrace_eq : decodeTrace t n = decodeTrace s n := by simp only [decodeTrace, h.cfg, h.srP, h.srS]

theorem pollTrace_eq (d k : Nat) : pollTrace t n d k = pollTrace s n d k := by
  simp only [pollTrace, h.decodeTrace_eq]

theorem decoded_eq (c : Ctrl) : decoded t n c = decoded s n c := by simp only [decoded, h.cfg, h.srP]

end SameStatus

theorem sameStatus_clearResult (k : Bool) (s : State) : SameStatus n s (clearResult k s) := ⟨by simp, by simp, by simp⟩

/-! ## Decodes and polls of a steady status -/

/-- From `s` to `t` nothing happened but reads of the status of instance `n` and delays, with the accesses `items`: only
`p_read`, the poll counter and the trace may differ. -/
structure Observed (n : Inst) (items : List Access) (s t : State) : Prop where
  sched : t.sched = s.sched
  bus : ∃ b, t.bus n = { s.bus n with ctrl := { (s.bus n).ctrl with pRead := b } }
  bank : ∃ j, t.bank = { s.bank with pollN := j }
  sink : t.sink = s.sink
  trace : t.trace = s.trace ++ items
  kept : KeptOutside n s t

namespace Observed
variable {s t u : State} {items more : List Access}

theorem refl (s : State) : Observed n [] s s := ⟨rfl, ⟨_, rfl⟩, ⟨_, rfl⟩, rfl, by simp, keptOutside_refl s⟩

theorem trans (h : Observed n items s t) (k : Observed n more t u) : Observed n (items ++ more) s u where
  sched := k.sched.trans h.sched
  bus := by
    obtain ⟨b, hb⟩ := h.bus
    obtain ⟨b', hb'⟩ := k.bus
    exact ⟨b', by rw [hb', hb]⟩
  bank := by
    obtain ⟨j, hj⟩ := h.bank
    obtain ⟨j', hj'⟩ := k.bank
    exact ⟨j', by rw [hj', hj]⟩
  sink := k.sink.trans h.sink
  trace := by rw [k.trace, h.trace, List.append_assoc]
  kept := keptOutside_trans h.kept k.kept

theorem quiet (h : Observed n items s t) (hq : Quiet s) : Quiet t := h.sched.trans hq

theorem sameStatus (h : Observed n items s t) : SameStatus n s t := by
  obtain ⟨b, hb⟩ := h.bus
  obtain ⟨-, hc, -⟩ := h.kept
  exact ⟨hc, by rw [hb], by rw [hb]⟩

/-- An access that changes nothing but `p_read`. -/
theorem of_log (s : State) {f : Ctrl → Ctrl} (a : Access) {b : Bool}
    (hf : f (s.bus n).ctrl = { (s.bus n).ctrl with pRead := b }) : Observed n [a] s ((s.modCtrl n f).log a) :=
  ⟨by simp [State.modCtrl], ⟨b, by simp [State.modCtrl, hf]⟩, ⟨s.bank.pollN, by simp [State.modCtrl]⟩,
    by simp [State.modCtrl], by simp [State.modCtrl], keptOutside_trans (keptOutside_modBus s _) (keptOutside_log _ a)⟩

end Observed

/-- What the read order would clear is not set, so clearing it changes nothing (R55). -/
theorem and_not_of_and_eq_zero {x m : Half} (h : x &&& m = 0) : x &&& ~~~m = x := by
  have hx : x = x &&& (m ||| ~~~m) := by simp
  rw [BitVec.and_or_distrib_left, h] at hx
  simpa using hx.symm

/-- A decode of a steady status answers it, and only `p_read` follows the gate (R90, R93, R55). -/
theorem decodeStatus_steady {s : State} (hq : Quiet s) (hs : Steady s n) :
    ∃ t, decodeStatus others n s = .ok (decodedValue s n) t ∧ Observed n (decodeTrace s n) s t ∧
      t.bus n = { s.bus n with ctrl := decoded s n (s.bus n).ctrl } := by
  have hp : Observed n [.regRead n .srP (s.bus n).ctrl.srP] s (readReg n .srP s).2 := .of_log s _ rfl
  have hpb : (readReg n .srP s).2.bus n = { s.bus n with ctrl := { (s.bus n).ctrl with pRead := true } } := by
    simp [readReg, State.modCtrl, Ctrl.afterRead]
  rw [decodeStatus_quiet hq]
  cases hg : gateOpen s.cfg (s.bus n).ctrl.srP with
  | false =>
    exact ⟨(readReg n .srP s).2, by simp [decodedValue, hg], by simpa [decodeTrace, hg] using hp,
      by simp [decoded, hg, hpb]⟩
  | true =>
    have hclr : ((readReg n .srP s).2.bus n).ctrl.afterRead (readReg n .srP s).2.cfg .srS =
        { ((readReg n .srP s).2.bus n).ctrl with pRead := false } := by
      have hc : (readReg n .srP s).2.cfg = s.cfg := hp.sameStatus.cfg
      simp [Ctrl.afterRead, hpb, hc, and_not_of_and_eq_zero hs]
    have hv := Observed.of_log (readReg n .srP s).2 (f := fun c => c.afterRead (readReg n .srP s).2.cfg .srS)
      (.regRead n .srS (((readReg n .srP s).2.bus n).ctrl.get .srS)) hclr
    refine ⟨(readReg n .srS (readReg n .srP s).2).2, by simp [decodedValue, hg], ?_, ?_⟩
    · simpa [decodeTrace, decodeItems, hg, hpb, Ctrl.get, readReg_frame n .srS] using hp.trans hv
    · rw [readReg_frame, State.log_bus, State.modCtrl, State.bus_modBus_same, hclr, hpb]
      simp [decoded, hg]

theorem delayMs_quiet {s : State} (hq : Quiet s) (d : Nat) :
    ∃ t, delayMs others d s = .ok () t ∧ Observed n (if d = 0 then [] else [.delay d]) s t := by
  by_cases hd : d = 0
  · subst hd
    exact ⟨s, rfl, .refl s⟩
  · refine ⟨s.log (.delay d), ?_, ?_⟩
    · have hb : (d != 0) = true := by simpa using hd
      rw [delayMs, hb, runIf_true, update_quiet hq]
    · rw [if_neg hd]
      exact ⟨rfl, ⟨_, State.log_bus s _ n⟩, ⟨_, rfl⟩, rfl, rfl, keptOutside_log s _⟩

theorem setPollN_observed (f : Nat → Nat) (s : State) : ∃ t, setPollN f s = .ok () t ∧ Observed n [] s t :=
  ⟨_, tweak_run _ s, by simp, ⟨(s.bus n).ctrl.pRead, by simp⟩, ⟨f s.bank.pollN, by simp⟩, by simp, by simp,
    keptOutside_modBank s rfl rfl⟩

/-- A poll whose condition the steady status never meets uses up its budget, a delay after each decode (R11). -/
theorem pollLoop_never {cond : Word → Bool} {s : State} (hq : Quiet s) (hs : Steady s n)
    (hc : cond (decodedValue s n) = false) (d k : Nat) :
    ∃ t, pollLoop others n cond d k s = .ok false t ∧ Observed n (pollTrace s n d k) s t := by
  induction k generalizing s with
  | zero => exact ⟨s, rfl, .refl s⟩
  | succ k ih =>
    obtain ⟨t, hdec, ht, -⟩ := decodeStatus_steady hq hs
    obtain ⟨u, hdel, hu⟩ := delayMs_quiet (n := n) (ht.quiet hq) d
    obtain ⟨v, hcnt, hv⟩ := setPollN_observed (n := n) (· + 1) u
    have turn := (ht.trans hu).trans hv
    obtain ⟨w, hrest, hw⟩ := ih (turn.quiet hq) (turn.sameStatus.steady hs) (by rw [turn.sameStatus.decodedValue_eq, hc])
    refine ⟨w, ?_, ?_⟩
    · rw [pollLoop, bind_of_ok hdec, hc, if_neg Bool.false_ne_true, bind_of_ok hdel, bind_of_ok hcnt, hrest]
    · have := turn.trans hw
      rw [turn.sameStatus.pollTrace_eq] at this
      simpa [pollTrace, List.replicate_succ] using this

theorem poll_never {cond : Word → Bool} {s : State} (hq : Quiet s) (hs : Steady s n)
    (hc : cond (decodedValue s n) = false) (k d : Nat) :
    ∃ t, poll others n cond k d s = .ok false t ∧ Observed n (pollTrace s n d k) s t := by
  obtain ⟨t, hset, ht⟩ := setPollN_observed (n := n) (fun _ => 0) s
  obtain ⟨u, hloop, hu⟩ :=
    pollLoop_never (cond := cond) (ht.quiet hq) (ht.sameStatus.steady hs) (by rw [ht.sameStatus.decodedValue_eq, hc]) d k
  refine ⟨u, by rw [poll, bind_of_ok hset, hloop], ?_⟩
  have := ht.trans hu
  rwa [ht.sameStatus.pollTrace_eq] at this

/-! ## The failure exit of a primitive issued alone -/

@[simp] theorem modResult_bus (s : State) (f : Half → Half) (m : Inst) : (s.modResult f).bus m = s.bus m :=
  State.modBank_bus s _ m
@[simp] theorem modResult_trace (s : State) (f : Half → Half) : (s.modResult f).trace = s.trace :=
  State.modBank_trace s _
@[simp] theorem modResult_sink (s : State) (f : Half → Half) : (s.modResult f).sink = s.sink := State.modBank_sink s _
@[simp] theorem modResult_bank (s : State) (f : Half → Half) :
    (s.modResult f).bank = { s.bank with result := f s.bank.result } :=
  State.bank_modBank s _

section
variable (d : DiagKind) (v : Word) (regs : List Half) (s : State)

@[simp] theorem pushRecord_bus (m : Inst) : (pushRecord d v regs s).bus m = s.bus m := by cases m <;> rfl
@[simp] theorem pushRecord_trace : (pushRecord d v regs s).trace = s.trace := rfl
@[simp] theorem pushRecord_sink : (pushRecord d v regs s).sink = s.sink ++ [⟨d, v, regs⟩] := rfl
@[simp] theorem pushRecord_bank : (pushRecord d v regs s).bank = s.bank := rfl

theorem keptOutside_pushRecord : KeptOutside n s (pushRecord d v regs s) :=
  ⟨fun m _ => pushRecord_bus d v regs s m, rfl, rfl, rfl, rfl, rfl, rfl, fun _ => rfl, rfl, rfl, rfl, rfl⟩

end

/-- What an error bit in the failure decode adds for a primitive issued alone: BusError logged, BUSERR set (R143). -/
def busErrorLogged (v : Word) (s : State) : State :=
  (pushRecord (.err .busError) v [] s).modResult withBusErr

/-- What the failure exit of a primitive issued alone does after its decode: the records, BUSERR, CODE, and FPHASE 0
(R143). -/
def failedAlone (k : ErrKind) (v : Word) (err : Bool) (s : State) : State :=
  let logged := pushRecord (.err k) v [] s
  ((if err then busErrorLogged v logged else logged).modResult (withCode · (errCode k))).modResult (withFPhase · 0)

theorem failBusError_alone {s : State} (hq : Quiet s) (k : ErrKind) (v : Word) :
    failBusError others .alone n k v s = .ok () (busErrorLogged v s) := by
  have hq' : (pushRecord (.err .busError) v [] s).sched = [] := hq
  unfold failBusError diag putResult
  rw [bind_of_ok (update_quiet hq _), bind_of_ok (update_quiet hq' _)]
  rfl

theorem runIf_failBusError_alone {s : State} (hq : Quiet s) (k : ErrKind) (v : Word) (err : Bool) :
    runIf err (failBusError others .alone n k v) s = .ok () (if err then busErrorLogged v s else s) := by
  cases err with
  | false => rfl
  | true => exact failBusError_alone hq k v

theorem fail_alone {α : Type} {s t : State} {v : Word} (hd : decodeStatus others n s = .ok v t) (hq : Quiet t)
    (k : ErrKind) :
    (fail others .alone n k : Run α) s = .error .ended (failedAlone k v (errSeen s.cfg v) t) := by
  have hlog : (pushRecord (.err k) v [] t).sched = [] := hq
  have hbus : (if errSeen s.cfg v then busErrorLogged v (pushRecord (.err k) v [] t)
      else pushRecord (.err k) v [] t).sched = [] := by
    split
    · exact (modResult_sched _ _).trans hlog
    · exact hlog
  have hend : failEnd others .alone n = putResult others (withFPhase · 0) := rfl
  unfold fail diag
  rw [hend]
  unfold putResult
  rw [bind_of_ok (params_run s), bind_of_ok hd, bind_of_ok (update_quiet hq _),
    bind_of_ok (runIf_failBusError_alone hlog k v _), bind_of_ok (update_quiet hbus _),
    bind_of_ok (update_quiet ((modResult_sched _ _).trans hbus) _), leave_run, failedAlone]

section
variable (k : ErrKind) (v : Word) (err : Bool) (s : State)

@[simp] theorem failedAlone_bus (m : Inst) : (failedAlone k v err s).bus m = s.bus m := by
  cases err <;> simp [failedAlone, busErrorLogged]

@[simp] theorem failedAlone_trace : (failedAlone k v err s).trace = s.trace := by
  cases err <;> simp [failedAlone, busErrorLogged]

@[simp] theorem failedAlone_sink : (failedAlone k v err s).sink = s.sink ++ failRecords k v err := by
  cases err <;> simp [failedAlone, busErrorLogged, failRecords]

@[simp] theorem failedAlone_bank :
    (failedAlone k v err s).bank =
      { s.bank with
        result := withFPhase (withCode (if err then withBusErr s.bank.result else s.bank.result) (errCode k)) 0 } := by
  cases err <;> simp [failedAlone, busErrorLogged]

theorem keptOutside_failedAlone : KeptOutside n s (failedAlone k v err s) := by
  have hlog : KeptOutside n s (pushRecord (.err k) v [] s) := keptOutside_pushRecord _ _ _ s
  have hend (u : State) : KeptOutside n u ((u.modResult (withCode · (errCode k))).modResult (withFPhase · 0)) :=
    keptOutside_trans (keptOutside_modResult u _) (keptOutside_modResult _ _)
  cases err with
  | false => exact keptOutside_trans hlog (hend _)
  | true =>
    have hbus : KeptOutside n (pushRecord (.err k) v [] s) (busErrorLogged v (pushRecord (.err k) v [] s)) :=
      keptOutside_trans (keptOutside_pushRecord _ _ _ _) (keptOutside_modResult _ _)
    exact keptOutside_trans (keptOutside_trans hlog hbus) (hend _)

end

/-- A poll that a steady status never ends, and the failure exit of the primitive it belongs to: the state `u` after the
failure decode has all the accesses of both (R11, R100, R143). -/
theorem poll_never_then_fail {cond : Word → Bool} {s : State} (hq : Quiet s) (hs : Steady s n)
    (hc : cond (decodedValue s n) = false) (budget d : Nat) (k : ErrKind) :
    ∃ t u, poll others n cond budget d s = .ok false t ∧
      (∀ α : Type, (fail others .alone n k : Run α) t =
        .error .ended (failedAlone k (decodedValue s n) (errSeen s.cfg (decodedValue s n)) u)) ∧
      Observed n (pollTrace s n d budget ++ decodeTrace s n) s u ∧
      u.bus n = { s.bus n with ctrl := decoded s n (s.bus n).ctrl } := by
  obtain ⟨t, hpoll, ht⟩ := poll_never hq hs hc budget d
  have hst := ht.sameStatus
  obtain ⟨u, hdec, hu, hub⟩ := decodeStatus_steady (ht.quiet hq) (hst.steady hs)
  rw [hst.decodeTrace_eq] at hu
  refine ⟨t, u, hpoll, fun α => ?_, ht.trans hu, ?_⟩
  · rw [fail_alone hdec (hu.quiet (ht.quiet hq)), hst.decodedValue_eq, hst.cfg]
  · obtain ⟨b, hb⟩ := ht.bus
    rw [hub, hst.decoded_eq, hb]
    rfl

/-! ## RXBYTE -/

/-- RESULT of a command that failed with ReceiveByteFailed in phase Idle (R33, R143). -/
theorem failResult_receiveByteFailed (err : Bool) :
    withFPhase (withCode (if err then withBusErr 0 else 0) (errCode .receiveByteFailed)) 0 = failResult 0x0005 err 0 := by
  cases err <;> decide

/-- RXBYTE where its pattern is never shown: issue, the poll, the failure exit (R98, R143). -/
theorem execRxbyte_never {s : State} (hq : Quiet s) (hs : Steady s n) (hb : (s.bus n).bound = true)
    (hp : matchPat (decodedValue s n) (pByteRx s.cfg) = false) :
    ∃ u, exec (.rxbyte n) s =
        .next (failedAlone .receiveByteFailed (decodedValue s n) (errSeen s.cfg (decodedValue s n)) u) ∧
      Observed n (pollTrace s n s.cfg.dRx s.cfg.nRx ++ decodeTrace s n) (clearResult true s) u ∧
      u.bus n = { s.bus n with ctrl := decoded s n (s.bus n).ctrl } := by
  have hst : SameStatus n s (clearResult true s) := sameStatus_clearResult true s
  have hq' : Quiet (clearResult true s) := (clearResult_sched true s).trans hq
  obtain ⟨t, u, hpoll, hfail, hu, hub⟩ := poll_never_then_fail
    (cond := fun v => matchPat v (pByteRx s.cfg)) hq' (hst.steady hs) (by rw [hst.decodedValue_eq, hp])
    s.cfg.nRx s.cfg.dRx .receiveByteFailed
  rw [hst.decodedValue_eq, hst.cfg] at hfail
  rw [hst.pollTrace_eq, hst.decodeTrace_eq] at hu
  rw [hst.decoded_eq, clearResult_bus] at hub
  have hrecv : receiveByte others .alone n (clearResult true s) = .error .ended
      (failedAlone .receiveByteFailed (decodedValue s n) (errSeen s.cfg (decodedValue s n)) u) := by
    unfold receiveByte
    rw [bind_of_ok (params_run _), clearResult_cfg, bind_of_ok hpoll]
    exact bind_of_error (hfail Unit)
  have hrun : rxbyteRun others n s = .error .ended
      (failedAlone .receiveByteFailed (decodedValue s n) (errSeen s.cfg (decodedValue s n)) u) := by
    unfold rxbyteRun
    rw [bind_of_ok (enter_quiet hq hb true), bind_of_error hrecv]
  exact ⟨u, by rw [exec, execRxbyte, hrun, toOutcome], hu, hub⟩

end Sys2Proof.Machine

namespace Sys2Proof.Proofs

open Sys2Proof.Machine Sys2Proof.Claims

/-- Settles O32: the poll makes its N_RX turns, and the failure exit one decode more; no access of either is a read of DR. -/
theorem rxbyteTimesOut : Obligations.RxbyteTimesOut := by
  intro n s hq hs hb hp
  obtain ⟨u, hexec, hu, hub⟩ := execRxbyte_never hq hs hb hp
  obtain ⟨j, hbank⟩ := hu.bank
  rw [clearResult_bank] at hbank
  refine ⟨_, hexec, ?_, ?_, ?_, ?_, ?_, ?_⟩
  · rw [failedAlone_bank, hbank]
    exact failResult_receiveByteFailed _
  · simp [hbank]
  · simp [hu.trace, pollTrace]
  · simp [hu.sink]
  · exact (failedAlone_bus _ _ _ u n).trans hub
  · exact keptOutside_trans (keptOutside_trans (keptOutside_clearResult true s) hu.kept) (keptOutside_failedAlone _ _ _ u)

end Sys2Proof.Proofs
end

section
/-! PROOFS. The invariant: every primitive of a command and every move of the other agents keeps the
invariant, so every step does, and power-on meets it (R23, R26, R28, R29, R33, R36). -/
namespace Sys2Proof.Machine

/-! ## RESULT: what each write leaves of the reserved bits and of FPHASE (R33) -/

theorem bit_cases3 {i : Nat} (h : i < 3) : i = 0 ∨ i = 1 ∨ i = 2 := by omega

@[simp] theorem resultFPhase_withCode (r : Half) (k : BitVec 4) : resultFPhase (withCode r k) = resultFPhase r := by
  refine BitVec.eq_of_getLsbD_eq fun i hi => ?_
  rcases bit_cases3 hi with rfl | rfl | rfl <;> simp [resultFPhase, withCode]

@[simp] theorem resultFPhase_withBusErr (r : Half) : resultFPhase (withBusErr r) = resultFPhase r := by
  refine BitVec.eq_of_getLsbD_eq fun i hi => ?_
  rcases bit_cases3 hi with rfl | rfl | rfl <;> simp [resultFPhase, withBusErr]

@[simp] theorem resultFPhase_withResetRan (r : Half) : resultFPhase (withResetRan r) = resultFPhase r := by
  refine BitVec.eq_of_getLsbD_eq fun i hi => ?_
  rcases bit_cases3 hi with rfl | rfl | rfl <;> simp [resultFPhase, withResetRan]

@[simp] theorem resultFPhase_withPred (r : Half) (b : Bool) : resultFPhase (withPred r b) = resultFPhase r := by
  refine BitVec.eq_of_getLsbD_eq fun i hi => ?_
  cases b <;> rcases bit_cases3 hi with rfl | rfl | rfl <;> simp [resultFPhase, withPred]

@[simp] theorem resultFPhase_withFPhase (r : Half) (p : BitVec 3) : resultFPhase (withFPhase r p) = p := by
  refine BitVec.eq_of_getLsbD_eq fun i hi => ?_
  rcases bit_cases3 hi with rfl | rfl | rfl <;> simp [resultFPhase, withFPhase]

/-- Bits 7 and 15:11 of RESULT (R33). -/
def resultReserved (r : Half) : Half := r &&& 0xF880

/-- Setting bits outside the reserved ones leaves these as they were. -/
theorem resultReserved_or {x : Half} (hx : x &&& 0xF880 = 0#16) (r : Half) : resultReserved (r ||| x) = resultReserved r := by
  simp only [resultReserved, BitVec.and_or_distrib_right, hx, BitVec.or_zero]

/-- Clearing bits outside the reserved ones leaves these as they were. -/
theorem resultReserved_and {m : Half} (hm : m &&& 0xF880 = 0xF880) (r : Half) :
    resultReserved (r &&& m) = resultReserved r := by
  simp only [resultReserved, BitVec.and_assoc, hm]

@[simp] theorem resultReserved_withCode (r : Half) (k : BitVec 4) : resultReserved (withCode r k) = resultReserved r :=
  (resultReserved_or (by revert k; decide) _).trans (resultReserved_and (by decide) r)

@[simp] theorem resultReserved_withBusErr (r : Half) : resultReserved (withBusErr r) = resultReserved r :=
  resultReserved_or (by decide) r

@[simp] theorem resultReserved_withResetRan (r : Half) : resultReserved (withResetRan r) = resultReserved r :=
  resultReserved_or (by decide) r

@[simp] theorem resultReserved_withPred (r : Half) (b : Bool) : resultReserved (withPred r b) = resultReserved r := by
  cases b with
  | true => exact resultReserved_or (by decide) r
  | false => exact resultReserved_and (by decide) r

@[simp] theorem resultReserved_withFPhase (r : Half) (p : BitVec 3) :
    resultReserved (withFPhase r p) = resultReserved r :=
  (resultReserved_or (by revert p; decide) _).trans (resultReserved_and (by decide) r)

theorem resultGood_iff (r : Half) :
    resultGood r = true ↔
      resultReserved r = 0 ∧ resultCode r ≤ 0xB ∧ resultCode r ≠ 0x6 ∧ resultFPhase r ≤ 5 := by
  simp [resultGood, resultReserved, and_assoc]

theorem resultGood_zero : resultGood 0 = true := by decide

theorem resultGood_withCode {r : Half} {k : BitVec 4} (hr : resultGood r = true) (hk : k ≤ 0xB) (h6 : k ≠ 0x6) :
    resultGood (withCode r k) = true := by
  rw [resultGood_iff] at hr ⊢
  obtain ⟨hres, -, -, hph⟩ := hr
  simpa using ⟨hres, hk, h6, hph⟩

theorem resultGood_withFPhase {r : Half} {p : BitVec 3} (hr : resultGood r = true) (hp : p ≤ 5) :
    resultGood (withFPhase r p) = true := by
  rw [resultGood_iff] at hr ⊢
  obtain ⟨hres, hle, h6, -⟩ := hr
  simpa using ⟨hres, hle, h6, hp⟩

theorem errCode_le (k : ErrKind) : errCode k ≤ 0xB := by cases k <;> decide

/-- The code of BusError is BusError's alone (R145). -/
theorem errCode_ne_busError {k : ErrKind} (h : k ≠ .busError) : errCode k ≠ 0x6 := by
  cases k with
  | busError => exact absurd rfl h
  | _ => decide

theorem refuseCode_le (k : RefuseCode) : refuseCode k ≤ 0xB := by cases k <;> decide

theorem refuseCode_ne_busError (k : RefuseCode) : refuseCode k ≠ 0x6 := by cases k <;> decide

theorem phaseCode_le (p : Phase) : phaseCode p ≤ 5 := by cases p <;> decide

/-- Every write of a field of RESULT keeps it in order: no command ends with BusError's code (R145). -/
theorem resultGood_write {u : Uses} {f : Half → Half} (hf : ResultWrite u f) {r : Half} (hr : resultGood r = true) :
    resultGood (f r) = true := by
  cases hf with
  | success => exact resultGood_withCode hr (by decide) (by decide)
  | err k hb _ => exact resultGood_withCode hr (errCode_le k) (errCode_ne_busError hb)
  | refuse k _ => exact resultGood_withCode hr (refuseCode_le k) (refuseCode_ne_busError k)
  | noPhase => exact resultGood_withFPhase hr (by decide)
  | busErr | resetRan _ | pred _ => simpa [resultGood_iff] using hr

/-! ## Channels -/

theorem Chan.good_enable {cap k : Nat} {ch : Chan} (h : ch.Good cap) (hk : k ≤ cap) : (ch.enable k).Good cap := by
  obtain ⟨hlen, -, -, -⟩ := h
  refine ⟨hlen, Nat.zero_le k, hk, ?_⟩
  simp only [Chan.enable, Bool.false_eq_true, false_iff]
  omega

theorem Chan.good_put {cap : Nat} {ch : Chan} (h : ch.Good cap) (k : Nat) (b : Byte) : (ch.put k b).Good cap := by
  obtain ⟨hlen, hidx, hcount, htc⟩ := h
  exact ⟨by simpa [Chan.put] using hlen, hidx, hcount, htc⟩

/-- An enabled engine step has bytes left, so it stays within the count, and `tc` rises exactly with the last one (R119, R120). -/
theorem Chan.good_advance {cap : Nat} {ch : Chan} (h : ch.Good cap) (hleft : ch.idx < ch.count) : ch.advance.Good cap := by
  obtain ⟨hlen, -, hcount, htc⟩ := h
  refine ⟨hlen, hleft, hcount, ?_⟩
  simp only [Chan.advance]
  split
  · simp; omega
  · rw [htc]; omega

theorem Chan.good_reset (cap : Nat) : (Chan.reset cap).Good cap := by
  simp [Chan.Good, Chan.reset]

/-! ## Instances -/

theorem Ctrl.good_reset (cfg : Config) : Ctrl.reset.Good cfg :=
  ⟨held_of_not_reset (by simp [Ctrl.reset]), by decide⟩

theorem Bus.good_reset (cfg : Config) (n : Inst) : (Bus.reset cfg.dmaCap).Good cfg n :=
  ⟨.inl rfl, .inl rfl, Ctrl.good_reset cfg, Chan.good_reset _, Chan.good_reset _⟩

/-- SWRST holds nothing that is not already at 0 (R28). -/
theorem held_eq_self_iff {cfg : Config} {c : Ctrl} :
    c.held cfg = c ↔ (c.ctl.getLsbD cfg.flags.swrst = true →
      c.ctl &&& ~~~(peMask cfg ||| startMask cfg ||| stopMask cfg) = c.ctl ∧ c.ctl2 = 0 ∧ c.oar = 0 ∧ c.ccr = 0 ∧
        c.trise = 0) := by
  obtain ⟨ctl, ctl2, oar, drRx, drTx, srP, srS, ccr, trise, pRead⟩ := c
  unfold Ctrl.held
  split
  · next hs => simp only [hs, forall_const, Ctrl.mk.injEq, true_and, and_true, eq_comm (a := (0 : Half))]
  · next hs => exact iff_of_true rfl fun h => absurd h hs

/-- Clearing bits of CTL keeps what SWRST holds: the bits it holds at 0 stay 0, and it may only be let go. -/
theorem good_clearCtl {cfg : Config} {c : Ctrl} (m : Half) (h : c.Good cfg) :
    ({ c with ctl := c.ctl &&& ~~~m } : Ctrl).Good cfg := by
  obtain ⟨hheld, hdr⟩ := h
  refine ⟨held_eq_self_iff.2 fun hs => ?_, hdr⟩
  have hset : c.ctl.getLsbD cfg.flags.swrst = true := by
    rw [BitVec.getLsbD_and, Bool.and_eq_true] at hs
    exact hs.1
  obtain ⟨hctl, hzero⟩ := held_eq_self_iff.1 hheld hset
  refine ⟨?_, hzero⟩
  rw [BitVec.and_assoc, BitVec.and_comm (~~~m), ← BitVec.and_assoc, hctl]

theorem Bus.Good.withCtrl {cfg : Config} {n : Inst} {b : Bus} {c : Ctrl} (h : b.Good cfg n) (hc : c.Good cfg) :
    ({ b with ctrl := c } : Bus).Good cfg n := by
  obtain ⟨htx, hrx, -, ht, hr⟩ := h
  exact ⟨htx, hrx, hc, ht, hr⟩

theorem Bus.Good.attach {cfg : Config} {n : Inst} {b : Bus} (h : b.Good cfg n) (d : Dir) : (b.attach n d).Good cfg n := by
  obtain ⟨htx, hrx, hrest⟩ := h
  cases d with
  | tx => exact ⟨.inr rfl, hrx, hrest⟩
  | rx => exact ⟨htx, .inr rfl, hrest⟩

/-! ## The invariant under each kind of update -/

/-- The invariant, with the parameters `c`. -/
def InvWith (c : Config) (s : State) : Prop := s.cfg = c ∧ s.Inv

namespace InvWith
variable {c : Config} {s t : State} {n : Inst}

/-- The invariant speaks of these fields alone. -/
theorem of_eq (hs : InvWith c s) (hcfg : t.cfg = s.cfg) (hbus : ∀ n, t.bus n = s.bus n)
    (hfg : t.fg.result = s.fg.result) (hirq : t.irq.result = s.irq.result) (hmem : t.mem = s.mem)
    (hen : t.irqEn = s.irqEn) : InvWith c t := by
  obtain ⟨hc, hinv⟩ := hs
  refine ⟨hcfg.trans hc, ?_⟩
  simpa only [State.Inv, hcfg, hbus, hfg, hirq, hmem, hen] using hinv

theorem bus (hs : InvWith c s) (n : Inst) : (s.bus n).Good c n := hs.1 ▸ hs.2.2.1 n

theorem log (hs : InvWith c s) (a : Access) : InvWith c (s.log a) :=
  hs.of_eq rfl (State.log_bus s a) rfl rfl rfl rfl

theorem modBus {f : Bus → Bus} (hs : InvWith c s) (hf : (f (s.bus n)).Good c n) : InvWith c (s.modBus n f) := by
  obtain ⟨rfl, hwf, hbus, hrest⟩ := hs
  refine ⟨State.modBus_cfg s n f, ?_⟩
  simp only [State.Inv, State.modBus_cfg, State.modBus_fg, State.modBus_irq, State.modBus_mem, State.modBus_irqEn]
  refine ⟨hwf, fun m => ?_, hrest⟩
  rw [State.bus_modBus]
  split
  · next hm => subst hm; exact hf
  · exact hbus m

theorem modCtrl {f : Ctrl → Ctrl} (hs : InvWith c s) (hf : (f (s.bus n).ctrl).Good c) : InvWith c (s.modCtrl n f) :=
  hs.modBus ((hs.bus n).withCtrl hf)

theorem ctrl (hs : InvWith c s) (n : Inst) : (s.bus n).ctrl.Good c := (hs.bus n).2.2.1

theorem modBank {f : Bank → Bank} (hs : InvWith c s)
    (hf : ∀ b : Bank, resultGood b.result = true → resultGood (f b).result = true) : InvWith c (s.modBank f) := by
  obtain ⟨rfl, hwf, hbus, hfg, hirq, hrest⟩ := hs
  refine ⟨State.modBank_cfg s f, ?_⟩
  simp only [State.Inv, State.modBank_cfg, State.modBank_bus, State.modBank_mem, State.modBank_irqEn, State.modBank_fg,
    State.modBank_irq]
  refine ⟨hwf, hbus, ?_, ?_, hrest⟩
  · split
    · exact hf _ hfg
    · exact hfg
  · split
    · exact hf _ hirq
    · exact hirq

theorem freeRdata0 (hs : InvWith c s) : InvWith c (Machine.freeRdata0 s) :=
  hs.modBank (f := fun b => { b with rdata0 := Config.freeWord s.freeCtr }) fun _ hb => hb

theorem chan (hs : InvWith c s) (ch : ChanId) : (s.chan ch).Good c.dmaCap := by
  obtain ⟨-, -, -, ht, hr⟩ := hs.bus ch.inst
  unfold State.chan
  split
  · exact ht
  · exact hr

theorem modChan {f : Chan → Chan} {ch : ChanId} (hs : InvWith c s) (hf : (f (s.chan ch)).Good c.dmaCap) :
    InvWith c (s.modChan ch f) := by
  obtain ⟨n, d⟩ := ch
  obtain ⟨htx, hrx, hctrl, ht, hr⟩ := hs.bus n
  cases d with
  | tx => exact hs.modBus ⟨htx, hrx, hctrl, hf, hr⟩
  | rx => exact hs.modBus ⟨htx, hrx, hctrl, ht, hf⟩

theorem enableLine (hs : InvWith c s) (l : Nat) : InvWith c (Machine.enableLine l s) := by
  obtain ⟨hc, hwf, hbus, hfg, hirq, hmem, hen⟩ := hs
  exact log (s := { s with irqEn := insertLine l s.irqEn }) ⟨hc, hwf, hbus, hfg, hirq, hmem, insertLine_rising hen⟩ _

theorem store (hs : InvWith c s) (a : Word) (b : Byte) : InvWith c { s with mem := memPut s.mem a b } := by
  obtain ⟨hc, hwf, hbus, hfg, hirq, hmem, hen⟩ := hs
  exact ⟨hc, hwf, hbus, hfg, hirq, memPut_wf a b hmem, hen⟩

/-! ## The register port -/

theorem readReg (hs : InvWith c s) (n : Inst) (r : Reg) : InvWith c (Machine.readReg n r s).2 := by
  rw [readReg_frame, hs.1]
  exact (hs.modCtrl (good_afterRead r (hs.ctrl n))).log _

/-- The high byte of what is stored matters only where it is handed to DR (R29). -/
theorem put (hs : InvWith c s) (n : Inst) {r : Reg} {v : Ctrl → Half} (hv : r = .dr → ∀ k, (v k).extractLsb' 8 8 = 0) :
    InvWith c (s.modCtrl n fun k => k.put s.cfg r (v k)) := by
  rw [hs.1]
  exact hs.modCtrl (good_put (hs.ctrl n) fun hr => hv hr _)

theorem writeReg (hs : InvWith c s) (n : Inst) {r : Reg} {v : Half} (hv : r = .dr → v.extractLsb' 8 8 = 0) :
    InvWith c (Machine.writeReg n r v s) :=
  (hs.put n fun hr _ => hv hr).log _

theorem setReg (hs : InvWith c s) (n : Inst) {r : Reg} (hr : r ≠ .dr) (m : Half) : InvWith c (Machine.setReg n r m s) :=
  (hs.put n fun h => absurd h hr).log _

theorem settleErrLine (hs : InvWith c s) (n : Inst) (cfg : Config) : InvWith c (s.modBus n (·.settleErrLine cfg)) :=
  hs.modBus (hs.bus n)

theorem clrReg (hs : InvWith c s) (n : Inst) {r : Reg} (hr : r ≠ .dr) (m : Half) : InvWith c (Machine.clrReg n r m s) := by
  have hput := hs.put n (r := r) (v := fun k => k.get r &&& ~~~m) fun h => absurd h hr
  unfold Machine.clrReg
  cases r with
  | srP => exact (hput.settleErrLine n _).log _
  | _ => exact hput.log _

/-! ## The other agents -/

/-- A return from the interrupt port writes no result register (R151). -/
theorem irqReturn (hs : InvWith c s) (old : State) : InvWith c (Machine.irqReturn old s) := by
  refine hs.of_eq rfl (fun m => by cases m <;> rfl) rfl ?_ rfl rfl
  unfold Machine.irqReturn
  split <;> rfl

theorem engineStep (hs : InvWith c s) (ch : ChanId) : InvWith c (Machine.engineStep ch s) := by
  unfold Machine.engineStep
  split
  · next hen =>
    obtain ⟨n, d⟩ := ch
    have hleft : (s.chan ⟨n, d⟩).idx < (s.chan ⟨n, d⟩).count := by
      simp only [engineEnabled, Bool.and_eq_true, decide_eq_true_eq] at hen
      exact hen.1.2
    cases d with
    | tx =>
      refine ((hs.put n (r := .dr) fun _ _ => dataHalf_high _).modChan (Chan.good_advance ?_ ?_)).log _
      · exact (hs.put n (r := .dr) fun _ _ => dataHalf_high _).chan ⟨n, .tx⟩
      · simpa [State.chan, State.modCtrl] using hleft
    | rx =>
      have hput := Chan.good_put (hs.chan ⟨n, .rx⟩) (s.chan ⟨n, .rx⟩).idx (lowByte ((s.bus n).ctrl.get .dr))
      exact (hs.modChan (f := fun ch => (ch.put ch.idx _).advance) (Chan.good_advance hput hleft)).log _
  · exact hs

theorem quietMove (hs : InvWith c s) (m : Move) : InvWith c (Machine.quietMove m s) := by
  cases m with
  | envSrP n v => exact hs.modCtrl (good_status v _ _ _ (hs.ctrl n))
  | envSrS n v => exact hs.modCtrl (good_status _ v _ _ (hs.ctrl n))
  | envDr n b => exact hs.modCtrl (good_status _ _ b _ (hs.ctrl n))
  | envClrStart n => exact hs.modCtrl (good_clearCtl _ (hs.ctrl n))
  | envClrStop n => exact hs.modCtrl (good_clearCtl _ (hs.ctrl n))
  | envEv n up => exact hs.modBus (hs.bus n)
  | envEr n up => exact hs.modBus (hs.bus n)
  | engine ch => exact hs.engineStep ch
  | hostStore a b => exact hs.store a b
  | tick _ | hostArg0 _ | hostArg1 _ | hostIssue _ | fire _ | issueIrq _ | starve _ =>
    exact hs.of_eq rfl (fun n => by cases n <;> rfl) rfl rfl rfl rfl

end InvWith

/-! ## Every step -/

/-- The relation that says nothing: an invariant is about the state a step leaves. -/
def Always (_ _ : State) : Prop := True

theorem moves_of_inv {c : Config} {f : State → State} (hf : ∀ s, InvWith c s → InvWith c (f s)) :
    Moves (InvWith c) Always f := fun s hs => ⟨hf s hs, trivial⟩

variable {c : Config}

/-- No primitive of a command breaks the invariant. -/
theorem inv_closed (n : Inst) : Closed (InvWith c) Always c (fun _ => True) n .all where
  cfg _ hs := hs.1
  refl _ := trivial
  trans _ _ _ _ _ := trivial
  ref _ _ _ _ _ := trivial
  read r := moves_of_inv fun _ hs => hs.readReg n r
  write _ b := moves_of_inv fun _ hs => hs.writeReg n fun _ => dataHalf_high b
  set m _ := moves_of_inv fun _ hs => hs.setReg n (by decide) m
  clr m _ := moves_of_inv fun _ hs => hs.clrReg n (by decide) m
  setDma := moves_of_inv fun _ hs => hs.setReg n (by decide) _
  clrErr := moves_of_inv fun _ hs => hs.clrReg n (by decide) _
  pulseSet _ := moves_of_inv fun _ hs => hs.setReg n (by decide) _
  pulseClr _ := moves_of_inv fun _ hs => hs.clrReg n (by decide) _
  writeCtl2 _ := moves_of_inv fun _ hs => hs.writeReg n (nomatch ·)
  writeTrise _ := moves_of_inv fun _ hs => hs.writeReg n (nomatch ·)
  writeOar _ := moves_of_inv fun _ hs => hs.writeReg n (nomatch ·)
  writeCcr _ := moves_of_inv fun _ hs => hs.writeReg n (nomatch ·)
  record _ _ _ := moves_of_inv fun _ hs => hs.of_eq rfl (fun m => by cases m <;> rfl) rfl rfl rfl rfl
  log a := moves_of_inv fun _ hs => hs.log a
  phase _ _ := moves_of_inv fun _ hs => hs.modBus (hs.bus n)
  lock _ _ := moves_of_inv fun _ hs => hs.modBus (hs.bus n)
  lastRx _ := moves_of_inv fun _ hs => hs.modBus (hs.bus n)
  own := moves_of_inv fun _ hs => hs.modBus (hs.bus n)
  bound := moves_of_inv fun _ hs => hs.modBus (hs.bus n)
  attach d := moves_of_inv fun _ hs => hs.modBus ((hs.bus n).attach d)
  chanPut ch k b _ := moves_of_inv fun _ hs => (hs.modChan (Chan.good_put (hs.chan ch) k b)).log _
  chanEnable ch _ _ hk := moves_of_inv fun _ hs => (hs.modChan (Chan.good_enable (hs.chan ch) hk)).log _
  irqLine _ := moves_of_inv fun _ hs => hs.enableLine _
  result _ hf := moves_of_inv fun _ hs => hs.modBank fun _ => resultGood_write hf
  failPhase _ := moves_of_inv fun _ hs => hs.modBank fun _ hb => resultGood_withFPhase hb (phaseCode_le _)
  start _ := moves_of_inv fun _ hs => hs.modBank fun _ _ => resultGood_zero
  free := moves_of_inv fun _ hs => hs.freeRdata0
  rdata0 _ := moves_of_inv fun _ hs => hs.modBank fun _ hb => hb
  rdata1 _ := moves_of_inv fun _ hs => hs.modBank fun _ hb => hb
  pollN _ := moves_of_inv fun _ hs => hs.modBank fun _ hb => hb
  spin _ := moves_of_inv fun _ hs => hs.of_eq rfl (fun m => by cases m <;> rfl) rfl rfl rfl rfl

theorem inv_irqClosed : IrqClosed (InvWith c) Always c fun _ => True where
  cmds := inv_closed
  enter _ := moves_of_inv fun _ hs => hs
  args _ := moves_of_inv fun _ hs => hs
  back old _ _ hs := ⟨hs.irqReturn old, trivial⟩

theorem inv_othersClosed : OthersClosed (InvWith c) Always c (fun _ => True) fun _ => True where
  refl _ := trivial
  trans _ _ _ _ _ := trivial
  allowed _ _ _ _ _ _ := trivial
  pop _ _ _ hs _ := ⟨hs, trivial⟩
  quiet m _ := moves_of_inv fun _ hs => hs.quietMove m
  fire _ _ := inv_irqClosed
  issue _ _ := inv_irqClosed
  starve _ _ := moves_of_inv fun _ hs => hs

/-- Whatever a step runs, its interrupts included, it keeps the invariant. -/
theorem step_inv {s t : State} (hs : s.Inv) (he : step s = .next t) : t.Inv :=
  (step_keeps inv_othersClosed inv_irqClosed (moves_of_inv fun _ hs => hs) ⟨rfl, hs⟩ he).1.2

/-- After power-on both instances are `Bus.reset`. -/
theorem bus_powerOn (cfg : Config) (n : Inst) : (State.powerOn cfg).bus n = Bus.reset cfg.dmaCap := by cases n <;> rfl

theorem inv_powerOn {cfg : Config} (h : cfg.wellFormed = true) : (State.powerOn cfg).Inv := by
  refine ⟨h, fun n => ?_, resultGood_zero, resultGood_zero, ⟨.nil, nofun⟩, .nil⟩
  rw [bus_powerOn]
  exact Bus.good_reset cfg n

end Sys2Proof.Machine

namespace Sys2Proof.Proofs

open Sys2Proof.Machine

/-- Settles O6: the invariant is closed under every primitive, every move and every interrupt. -/
theorem stepKeepsInvariant : Obligations.StepKeepsInvariant := by
  intro s t hs he
  exact step_inv hs he

/-- Settles O4: each instance, each bank and host memory are in order at the reset values. -/
theorem powerOnMeetsInvariant : Obligations.PowerOnMeetsInvariant := by
  intro cfg h
  exact inv_powerOn h

end Sys2Proof.Proofs
end

section
/-! PROOFS. `phase` and `lock` of both instances are as they were after every primitive of a command that may not write them, and
after every move of the other agents that takes no interrupt (R34, R63). -/
namespace Sys2Proof.Machine

open Sys2Proof.Claims

/-- From `s` to `t` no instance's `phase` changed where `u` does not write it, nor its `lock` where `u` does not. -/
structure Unguarded (u : Uses) (s t : State) : Prop where
  phase : u.phase = false → ∀ n, (t.bus n).phase = (s.bus n).phase
  lock : u.lock = false → ∀ n, (t.bus n).lock = (s.bus n).lock

variable {u : Uses} {n : Inst}

theorem unguarded_of_bus {s t : State} (h : ∀ n, t.bus n = s.bus n) : Unguarded u s t :=
  ⟨fun _ n => by rw [h n], fun _ n => by rw [h n]⟩

/-- A change of neither instance. -/
theorem unguarded_of_eq {s t : State} (h1 : t.bus1 = s.bus1) (h2 : t.bus2 = s.bus2) : Unguarded u s t :=
  unguarded_of_bus fun n => by
    cases n with
    | one => exact h1
    | two => exact h2

theorem Unguarded.refl (s : State) : Unguarded u s s := unguarded_of_eq rfl rfl

theorem Unguarded.trans {s t v : State} (h : Unguarded u s t) (k : Unguarded u t v) : Unguarded u s v :=
  ⟨fun hu n => (k.phase hu n).trans (h.phase hu n), fun hu n => (k.lock hu n).trans (h.lock hu n)⟩

theorem unguarded_log (s : State) (a : Access) : Unguarded u s (s.log a) :=
  unguarded_of_eq rfl rfl

theorem unguarded_modBank (s : State) (f : Bank → Bank) : Unguarded u s (s.modBank f) :=
  unguarded_of_bus (State.modBank_bus s f)

/-- A field of an instance that a change of one instance leaves is left in both. -/
theorem State.modBus_keeps {α : Type} (g : Bus → α) (s : State) (n : Inst) {f : Bus → Bus}
    (hf : g (f (s.bus n)) = g (s.bus n)) (m : Inst) : g ((s.modBus n f).bus m) = g (s.bus m) := by
  rw [State.bus_modBus]
  split
  · next hm => subst hm; exact hf
  · rfl

theorem unguarded_modBus (s : State) (n : Inst) {f : Bus → Bus} (hp : u.phase = false → (f (s.bus n)).phase = (s.bus n).phase)
    (hl : u.lock = false → (f (s.bus n)).lock = (s.bus n).lock) : Unguarded u s (s.modBus n f) :=
  ⟨fun hu => State.modBus_keeps (·.phase) s n (hp hu), fun hu => State.modBus_keeps (·.lock) s n (hl hu)⟩

theorem unguarded_modCtrl (s : State) (n : Inst) (f : Ctrl → Ctrl) : Unguarded u s (s.modCtrl n f) :=
  unguarded_modBus s n (fun _ => rfl) fun _ => rfl

theorem unguarded_modCtrl_log (s : State) (n : Inst) (f : Ctrl → Ctrl) (a : Access) :
    Unguarded u s ((s.modCtrl n f).log a) :=
  (unguarded_modCtrl s n f).trans (unguarded_log _ a)

theorem unguarded_clrReg (n : Inst) (r : Reg) (m : Half) (s : State) : Unguarded u s (clrReg n r m s) := by
  cases r with
  | srP =>
    exact ((unguarded_modCtrl s n _).trans (unguarded_modBus _ n (fun _ => rfl) fun _ => rfl)).trans (unguarded_log _ _)
  | _ => exact unguarded_modCtrl_log s n _ _

theorem unguarded_modChan_log (s : State) (ch : ChanId) (f : Chan → Chan) (a : Access) :
    Unguarded u s ((s.modChan ch f).log a) := by
  obtain ⟨n, d⟩ := ch
  cases d with
  | tx => exact (unguarded_modBus s n (fun _ => rfl) fun _ => rfl).trans (unguarded_log _ a)
  | rx => exact (unguarded_modBus s n (fun _ => rfl) fun _ => rfl).trans (unguarded_log _ a)

theorem unguarded_engineStep (ch : ChanId) (s : State) : Unguarded u s (engineStep ch s) := by
  obtain ⟨n, d⟩ := ch
  unfold engineStep
  split
  · cases d with
    | tx => exact (unguarded_modCtrl s n _).trans (unguarded_modChan_log _ ⟨n, .tx⟩ _ _)
    | rx => exact unguarded_modChan_log s ⟨n, .rx⟩ _ _
  · exact .refl s

/-- No agent but a command writes `phase` or `lock`. -/
theorem unguarded_quietMove (m : Move) (s : State) : Unguarded u s (quietMove m s) := by
  cases m with
  | engine ch => exact unguarded_engineStep ch s
  | envSrP n _ | envSrS n _ | envDr n _ | envClrStart n | envClrStop n | envEv n _ | envEr n _ =>
    simp only [quietMove, envEventLine, envErrorLine, State.modCtrl]
    exact unguarded_modBus s n (fun _ => rfl) fun _ => rfl
  | tick _ | hostStore _ _ | hostArg0 _ | hostArg1 _ | hostIssue _ | fire _ | issueIrq _ | starve _ =>
    exact unguarded_of_eq rfl rfl

variable {A : Move → Bool} {c : Config}

/-- A change that is known to stay in `P` is in any relation that holds of it from there. -/
theorem Moves.withRel {P : State → Prop} {R R' : State → State → Prop} {f : State → State} (hf : Moves P R f)
    (hr : ∀ s, P s → R' s (f s)) : Moves P R' f := fun s hs => ⟨(hf s hs).1, hr s hs⟩

/-- No primitive of a command that does only what `u` lets it do writes `phase` or `lock` where `u` does not. -/
theorem unguarded_closed (n : Inst) (u : Uses) : Closed (Within A c) (Unguarded u) c (fun _ => True) n u :=
  have F := frozen_closed (A := A) (c := c) n
  { cfg := F.cfg
    refl := .refl
    trans := fun _ _ _ => .trans
    ref := F.ref
    read := fun r => (F.read r).withRel fun s _ => unguarded_modCtrl_log s n _ _
    write := fun r b => (F.write r b).withRel fun s _ => unguarded_modCtrl_log s n _ _
    set := fun m hm => (F.set m hm).withRel fun s _ => unguarded_modCtrl_log s n _ _
    clr := fun m hm => (F.clr m hm).withRel fun s _ => unguarded_clrReg n _ m s
    setDma := F.setDma.withRel fun s _ => unguarded_modCtrl_log s n _ _
    clrErr := F.clrErr.withRel fun s _ => unguarded_clrReg n _ _ s
    pulseSet := fun _ => (F.pulseSet rfl).withRel fun s _ => unguarded_modCtrl_log s n _ _
    pulseClr := fun _ => (F.pulseClr rfl).withRel fun s _ => unguarded_clrReg n _ _ s
    writeCtl2 := fun _ => (F.writeCtl2 rfl).withRel fun s _ => unguarded_modCtrl_log s n _ _
    writeTrise := fun _ => (F.writeTrise rfl).withRel fun s _ => unguarded_modCtrl_log s n _ _
    writeOar := fun _ => (F.writeOar rfl).withRel fun s _ => unguarded_modCtrl_log s n _ _
    writeCcr := fun _ => (F.writeCcr rfl).withRel fun s _ => unguarded_modCtrl_log s n _ _
    record := fun k v regs => (F.record k v regs).withRel fun _ _ => unguarded_of_eq rfl rfl
    log := fun a => (F.log a).withRel fun s _ => unguarded_log s a
    phase := fun hu p => (F.phase rfl p).withRel fun s _ =>
      unguarded_modBus s n (fun h => nomatch hu.symm.trans h) fun _ => rfl
    lock := fun hu v => (F.lock rfl v).withRel fun s _ =>
      unguarded_modBus s n (fun _ => rfl) fun h => nomatch hu.symm.trans h
    lastRx := fun v => (F.lastRx v).withRel fun s _ => unguarded_modBus s n (fun _ => rfl) fun _ => rfl
    own := F.own.withRel fun s _ => unguarded_modBus s n (fun _ => rfl) fun _ => rfl
    bound := F.bound.withRel fun s _ => unguarded_modBus s n (fun _ => rfl) fun _ => rfl
    attach := fun d => (F.attach d).withRel fun s _ => by
      cases d <;> exact unguarded_modBus s n (fun _ => rfl) fun _ => rfl
    chanPut := fun ch k b hq => (F.chanPut ch k b hq).withRel fun s _ => unguarded_modChan_log s ch _ _
    chanEnable := fun ch k hq hk => (F.chanEnable ch k hq hk).withRel fun s _ => unguarded_modChan_log s ch _ _
    irqLine := fun k => (F.irqLine k).withRel fun _ _ => unguarded_of_eq rfl rfl
    result := fun f _ => (moves_of_frozen fun s => frozen_modBank s _).withRel fun s _ => unguarded_modBank s _
    failPhase := fun _ => (F.failPhase rfl).withRel fun s _ => unguarded_modBank s _
    start := fun k => (F.start k).withRel fun s _ => unguarded_of_bus (clearResult_bus k s)
    free := F.free.withRel fun s _ => unguarded_of_bus (freeRdata0_bus s)
    rdata0 := fun v => (F.rdata0 v).withRel fun s _ => unguarded_modBank s _
    rdata1 := fun v => (F.rdata1 v).withRel fun s _ => unguarded_modBank s _
    pollN := fun f => (F.pollN f).withRel fun s _ => unguarded_modBank s _
    spin := fun _ => (F.spin rfl).withRel fun _ _ => unguarded_of_eq rfl rfl }

/-- The moves that take no interrupt. -/
def notInterrupt (m : Move) : Bool := !m.isInterrupt

theorem onlyMoves_of_noInterrupt {s : State} (h : NoInterrupt s) : OnlyMoves notInterrupt s := fun b hb m hm => by
  rw [notInterrupt, h b hb m hm, Bool.not_false]

theorem unguarded_othersClosed (u : Uses) :
    OthersClosed (Within notInterrupt c) (Unguarded u) c (fun _ => True) (notInterrupt · = true) :=
  have F := frozen_othersClosed (A := notInterrupt) (c := c)
  { refl := .refl
    trans := fun _ _ _ => .trans
    allowed := F.allowed
    pop := fun s b rest hs hb => ⟨(F.pop s b rest hs hb).1, unguarded_of_eq rfl rfl⟩
    quiet := fun m hm => (F.quiet m hm).withRel fun s _ => unguarded_quietMove m s
    fire := fun _ h => nomatch h
    issue := fun _ h => nomatch h
    starve := fun _ h => nomatch h }

/-- A whole command with no interrupt leaves `phase` and `lock` where its rule does not write them. -/
theorem exec_unguarded {i : Instr} {s t : State} (hs : NoInterrupt s) (he : exec i s = .next t) :
    Unguarded (usesOf i) s t :=
  (exec_keeps (unguarded_othersClosed (c := s.cfg) _) i (unguarded_closed _ _) ⟨rfl, onlyMoves_of_noInterrupt hs⟩ he).2

theorem usesOf_phase {i : Instr} (h : isGuarded i = false) : (usesOf i).phase = false := by
  cases i with
  | write _ _ _ | read _ _ | mtx _ _ | srx _ _ => simp [isGuarded] at h
  | _ => rfl

theorem usesOf_lock {i : Instr} (h : isGuarded i = false) (hi : isInit i = false) : (usesOf i).lock = false := by
  cases i with
  | write _ _ _ | read _ _ | mtx _ _ | srx _ _ => simp [isGuarded] at h
  | init _ => simp [isInit] at hi
  | _ => rfl

end Sys2Proof.Machine

namespace Sys2Proof.Proofs

open Sys2Proof.Machine

/-- Settles O12: the primitives of a command that is not guarded, and the moves that take no interrupt, are `Unguarded`. -/
theorem phaseAndLockBelongToGuardedCommands : Obligations.PhaseAndLockBelongToGuardedCommands := by
  intro i s t hg hs he n
  have h := exec_unguarded hs he
  exact ⟨h.phase (usesOf_phase hg) n, fun hi => h.lock (usesOf_lock hg hi) n⟩

end Sys2Proof.Proofs
end

section
/-! PROOFS. No step changes a bit of CTL other than PE, START, STOP and SWRST (R28, R100). `Closed` asks that a data byte may be
written to any register, CTL among them, which this frame does not stand; so the commands are gone through here with the
accesses of CTL that they make. -/
namespace Sys2Proof.Machine

/-! ## The named bits of CTL -/

/-- PE, START, STOP and SWRST (R28). -/
def namedMask (c : Config) : Half := peMask c ||| startMask c ||| stopMask c ||| swrstMask c

/-- Every bit of the mask is a named bit. -/
def NamedOnly (c : Config) (m : Half) : Prop := ∀ i, m.getLsbD i = true → (namedMask c).getLsbD i = true

/-- CTL outside the named bits. -/
def Ctrl.unnamed (c : Config) (k : Ctrl) : Half := k.ctl &&& ~~~namedMask c

section
variable {c : Config} {m : Half}

theorem namedOnly_pe : NamedOnly c (peMask c) := fun i hi => by simp [namedMask, BitVec.getLsbD_or, hi]

theorem namedOnly_start : NamedOnly c (startMask c) := fun i hi => by simp [namedMask, BitVec.getLsbD_or, hi]

theorem namedOnly_stop : NamedOnly c (stopMask c) := fun i hi => by simp [namedMask, BitVec.getLsbD_or, hi]

theorem namedOnly_swrst : NamedOnly c (swrstMask c) := fun i hi => by simp [namedMask, BitVec.getLsbD_or, hi]

/-- What SWRST holds of CTL are named bits. -/
theorem namedOnly_held : NamedOnly c (peMask c ||| startMask c ||| stopMask c) := fun i hi => by
  rw [namedMask, BitVec.getLsbD_or, hi, Bool.true_or]

theorem unnamed_set (h : NamedOnly c m) (v : Half) : (v ||| m) &&& ~~~namedMask c = v &&& ~~~namedMask c := by
  refine BitVec.eq_of_getLsbD_eq fun i hi => ?_
  have hi' := h i
  cases hm : m.getLsbD i <;> simp_all

theorem unnamed_clear (h : NamedOnly c m) (v : Half) : v &&& ~~~m &&& ~~~namedMask c = v &&& ~~~namedMask c := by
  refine BitVec.eq_of_getLsbD_eq fun i hi => ?_
  have hi' := h i
  cases hm : m.getLsbD i <;> simp_all

/-- What SWRST forces is of the named bits (R28). -/
theorem unnamed_held (k : Ctrl) : (k.held c).unnamed c = k.unnamed c := by
  unfold Ctrl.held
  split
  · exact unnamed_clear namedOnly_held k.ctl
  · rfl

theorem unnamed_put_other (k : Ctrl) {r : Reg} (hr : r ≠ .ctl) (v : Half) : (k.put c r v).unnamed c = k.unnamed c := by
  refine (unnamed_held _).trans ?_
  cases r with
  | ctl => exact absurd rfl hr
  | _ => rfl

theorem unnamed_put_ctl (k : Ctrl) {v : Half} (hv : v &&& ~~~namedMask c = k.unnamed c) :
    (k.put c .ctl v).unnamed c = k.unnamed c :=
  (unnamed_held _).trans hv

theorem unnamed_afterRead (k : Ctrl) (r : Reg) : (k.afterRead c r).unnamed c = k.unnamed c := by
  cases r with
  | srS => unfold Ctrl.afterRead; simp only; split <;> rfl
  | _ => rfl

end

/-! ## Changes of the state -/

/-- From `s` to `t` the parameters are as they were, and so is CTL of both instances outside the named bits. -/
structure CtlKept (c : Config) (s t : State) : Prop where
  cfg : t.cfg = s.cfg
  ctl : ∀ n, (t.bus n).ctrl.unnamed c = (s.bus n).ctrl.unnamed c

section
variable {c : Config} {s t : State} {n : Inst}

theorem ctlKept_of_bus (hc : t.cfg = s.cfg) (h : ∀ n, t.bus n = s.bus n) : CtlKept c s t := ⟨hc, fun n => by rw [h n]⟩

/-- A change of neither instance. -/
theorem ctlKept_of_eq (hc : t.cfg = s.cfg) (h1 : t.bus1 = s.bus1) (h2 : t.bus2 = s.bus2) : CtlKept c s t :=
  ctlKept_of_bus hc fun n => by
    cases n with
    | one => exact h1
    | two => exact h2

theorem CtlKept.refl (s : State) : CtlKept c s s := ctlKept_of_eq rfl rfl rfl

theorem CtlKept.trans {s t v : State} (h : CtlKept c s t) (k : CtlKept c t v) : CtlKept c s v :=
  ⟨k.cfg.trans h.cfg, fun n => (k.ctl n).trans (h.ctl n)⟩

theorem ctlKept_log (s : State) (a : Access) : CtlKept c s (s.log a) := ctlKept_of_eq rfl rfl rfl

theorem ctlKept_modBank (s : State) (f : Bank → Bank) : CtlKept c s (s.modBank f) :=
  ctlKept_of_bus (State.modBank_cfg s f) (State.modBank_bus s f)

theorem ctlKept_clearResult (k : Bool) (s : State) : CtlKept c s (clearResult k s) :=
  ctlKept_of_bus (clearResult_cfg k s) (clearResult_bus k s)

theorem ctlKept_freeRdata0 (s : State) : CtlKept c s (freeRdata0 s) :=
  ctlKept_of_bus (freeRdata0_cfg s) (freeRdata0_bus s)

theorem ctlKept_modBus (s : State) (n : Inst) {f : Bus → Bus}
    (hf : (f (s.bus n)).ctrl.unnamed c = (s.bus n).ctrl.unnamed c) : CtlKept c s (s.modBus n f) :=
  ⟨State.modBus_cfg s n f, State.modBus_keeps (·.ctrl.unnamed c) s n hf⟩

theorem ctlKept_modCtrl (s : State) (n : Inst) {f : Ctrl → Ctrl}
    (hf : (f (s.bus n).ctrl).unnamed c = (s.bus n).ctrl.unnamed c) : CtlKept c s (s.modCtrl n f) :=
  ctlKept_modBus s n hf

theorem ctlKept_clearCtl (s : State) (n : Inst) {m : Half} (hm : NamedOnly c m) :
    CtlKept c s (s.modCtrl n fun k => { k with ctl := k.ctl &&& ~~~m }) :=
  ctlKept_modBus s n (unnamed_clear hm (s.bus n).ctrl.ctl)

theorem ctlKept_modChan_log (s : State) (ch : ChanId) (f : Chan → Chan) (a : Access) :
    CtlKept c s ((s.modChan ch f).log a) := by
  obtain ⟨n, d⟩ := ch
  cases d with
  | tx => exact (ctlKept_modBus s n rfl).trans (ctlKept_log _ a)
  | rx => exact (ctlKept_modBus s n rfl).trans (ctlKept_log _ a)

/-! The register port. -/

theorem ctlKept_readReg (hc : s.cfg = c) (n : Inst) (r : Reg) : CtlKept c s (readReg n r s).2 := by
  rw [readReg_frame, hc]
  exact (ctlKept_modCtrl s n (unnamed_afterRead _ r)).trans (ctlKept_log _ _)

theorem ctlKept_put_other (hc : s.cfg = c) (n : Inst) {r : Reg} (hr : r ≠ .ctl) (v : Ctrl → Half) :
    CtlKept c s (s.modCtrl n fun k => k.put s.cfg r (v k)) := by
  rw [hc]
  exact ctlKept_modCtrl s n (unnamed_put_other _ hr _)

theorem ctlKept_writeReg (hc : s.cfg = c) (n : Inst) {r : Reg} (hr : r ≠ .ctl) (v : Half) :
    CtlKept c s (writeReg n r v s) :=
  (ctlKept_put_other hc n hr fun _ => v).trans (ctlKept_log _ _)

theorem ctlKept_setReg (hc : s.cfg = c) (n : Inst) (r : Reg) {m : Half} (hm : r = .ctl → NamedOnly c m) :
    CtlKept c s (setReg n r m s) := by
  refine CtlKept.trans ?_ (ctlKept_log _ _)
  by_cases hr : r = .ctl
  · subst hr hc
    exact ctlKept_modCtrl s n (unnamed_put_ctl _ (unnamed_set (hm rfl) _))
  · exact ctlKept_put_other hc n hr _

theorem ctlKept_clrReg (hc : s.cfg = c) (n : Inst) (r : Reg) {m : Half} (hm : r = .ctl → NamedOnly c m) :
    CtlKept c s (clrReg n r m s) := by
  subst hc
  have hput : CtlKept s.cfg s (s.modCtrl n fun k => k.put s.cfg r (k.get r &&& ~~~m)) := by
    by_cases hr : r = .ctl
    · subst hr
      exact ctlKept_modCtrl s n (unnamed_put_ctl _ (unnamed_clear (hm rfl) _))
    · exact ctlKept_put_other rfl n hr _
  cases r with
  | srP => exact (hput.trans (ctlKept_modBus _ n rfl)).trans (ctlKept_log _ _)
  | _ => exact hput.trans (ctlKept_log _ _)

/-! The other agents. -/

theorem ctlKept_engineStep (hc : s.cfg = c) (ch : ChanId) : CtlKept c s (engineStep ch s) := by
  obtain ⟨n, d⟩ := ch
  unfold engineStep
  split
  · cases d with
    | tx => exact (ctlKept_put_other hc n (by decide) _).trans (ctlKept_modChan_log _ ⟨n, .tx⟩ _ _)
    | rx => exact ctlKept_modChan_log s ⟨n, .rx⟩ _ _
  · exact .refl s

/-- Of CTL the environment clears START and STOP alone (R60). -/
theorem ctlKept_quietMove (hc : s.cfg = c) (m : Move) : CtlKept c s (quietMove m s) := by
  subst hc
  cases m with
  | envClrStart n => exact ctlKept_clearCtl s n namedOnly_start
  | envClrStop n => exact ctlKept_clearCtl s n namedOnly_stop
  | engine ch => exact ctlKept_engineStep rfl ch
  | envSrP n _ | envSrS n _ | envDr n _ | envEv n _ | envEr n _ =>
    simp only [quietMove, envEventLine, envErrorLine, State.modCtrl]
    exact ctlKept_modBus s n rfl
  | tick _ | hostStore _ _ | hostArg0 _ | hostArg1 _ | hostIssue _ | fire _ | issueIrq _ | starve _ =>
    exact ctlKept_of_eq rfl rfl rfl

end

/-! ## Runs -/

/-- With the parameters `c`, the run is `CtlKept`. -/
def KeepsCtl (c : Config) {α : Type} (x : Run α) : Prop := Keeps (·.cfg = c) (CtlKept c) x

namespace KeepsCtl
variable {c : Config} {n : Inst} {bt : Run Unit} {α β : Type} {x : Run α} {f : α → Run β}

theorem pure (a : α) : KeepsCtl c (Pure.pure a : Run α) := keeps_pure .refl a

theorem leave (e : Exit) : KeepsCtl c (Machine.leave e : Run α) := keeps_leave .refl e

theorem look (g : State → α) : KeepsCtl c (Machine.look g) := fun s hs => ⟨hs, .refl s⟩

theorem bind (hx : KeepsCtl c x) (hf : ∀ a, KeepsCtl c (f a)) : KeepsCtl c (x >>= f) :=
  keeps_bind (fun _ _ _ => .trans) hx hf

theorem params {f : Config → Run β} (hf : KeepsCtl c (f c)) : KeepsCtl c (Machine.params >>= f) := fun s hs => by
  rw [bind_of_ok (params_run s), hs]
  exact hf s hs

theorem ite {b : Prop} [Decidable b] {x y : Run α} (hx : KeepsCtl c x) (hy : KeepsCtl c y) :
    KeepsCtl c (if b then x else y) :=
  keeps_ite hx hy

theorem runIf {x : Run Unit} (hx : KeepsCtl c x) (b : Bool) : KeepsCtl c (Machine.runIf b x) := keeps_runIf .refl hx

/-- A run that always goes on, by what it does to the state. -/
theorem effect {g : State → α × State} (hg : ∀ s, s.cfg = c → CtlKept c s (g s).2) : KeepsCtl c (Machine.effect g) :=
  fun s hs => ⟨(hg s hs).cfg.trans hs, hg s hs⟩

theorem tweak {g : State → State} (hg : ∀ s, s.cfg = c → CtlKept c s (g s)) : KeepsCtl c (Machine.tweak g) :=
  fun s hs => ⟨(hg s hs).cfg.trans hs, hg s hs⟩

theorem refused (r : RefuseCode) : KeepsCtl c (Machine.refused r : Run α) := fun s hs =>
  have h : CtlKept c s (freeRdata0 (s.modResult (withCode · (refuseCode r)))) :=
    (ctlKept_modBank s _).trans (ctlKept_freeRdata0 _)
  ⟨h.cfg.trans hs, h⟩

theorem hangInReset : KeepsCtl c (Machine.hangInReset n : Run α) := fun _ hs => ⟨hs, ctlKept_of_eq rfl rfl rfl⟩

theorem setPollN (g : Nat → Nat) : KeepsCtl c (Machine.setPollN g) := tweak fun s _ => ctlKept_modBank s _

variable (hbt : KeepsCtl c bt)
include hbt

theorem atom {g : State → α × State} (hg : ∀ s, s.cfg = c → CtlKept c s (g s).2) : KeepsCtl c (Machine.atom bt g) :=
  hbt.bind fun _ => effect hg

theorem update {g : State → State} (hg : ∀ s, s.cfg = c → CtlKept c s (g s)) : KeepsCtl c (Machine.update bt g) :=
  hbt.atom hg

theorem modBank (g : Bank → Bank) : KeepsCtl c (Machine.update bt (·.modBank g)) := hbt.update fun s _ => ctlKept_modBank s g

theorem regRead (n : Inst) (r : Reg) : KeepsCtl c (Machine.regRead bt n r) := hbt.atom fun _ hs => ctlKept_readReg hs n r

theorem regWrite {r : Reg} (hr : r ≠ .ctl) (v : Half) : KeepsCtl c (Machine.regWrite bt n r v) :=
  hbt.update fun _ hs => ctlKept_writeReg hs n hr v

theorem regSet (r : Reg) {m : Half} (hm : r = .ctl → NamedOnly c m) : KeepsCtl c (Machine.regSet bt n r m) :=
  hbt.update fun _ hs => ctlKept_setReg hs n r hm

theorem regClr (r : Reg) {m : Half} (hm : r = .ctl → NamedOnly c m) : KeepsCtl c (Machine.regClr bt n r m) :=
  hbt.update fun _ hs => ctlKept_clrReg hs n r hm

theorem setDmaen (m : Half) : KeepsCtl c (Machine.regSet bt n .ctl2 m) := hbt.regSet _ fun h => nomatch h

theorem clrErr (m : Half) : KeepsCtl c (Machine.regClr bt n .srP m) := hbt.regClr _ fun h => nomatch h

theorem diag (k : DiagKind) (v : Word) (regs : List Half) : KeepsCtl c (Machine.diag bt k v regs) :=
  hbt.update fun _ _ => ctlKept_of_eq rfl rfl rfl

theorem delayMs (d : Nat) : KeepsCtl c (Machine.delayMs bt d) := (hbt.update fun s _ => ctlKept_log s _).runIf _

theorem setPhase (p : Phase) : KeepsCtl c (Machine.setPhase bt n p) := hbt.update fun s _ => ctlKept_modBus s n rfl

theorem putResult (g : Half → Half) : KeepsCtl c (Machine.putResult bt g) := hbt.modBank _

theorem succeed : KeepsCtl c (Machine.succeed bt) := hbt.putResult _

theorem putRdata0 (v : Word) : KeepsCtl c (Machine.putRdata0 bt v) := hbt.modBank _

theorem putRdata1 (v : Word) : KeepsCtl c (Machine.putRdata1 bt v) := hbt.modBank _

theorem startCommand (k : Bool) : KeepsCtl c (Machine.startCommand bt k) := hbt.update fun s _ => ctlKept_clearResult k s

theorem enter (k : Bool) : KeepsCtl c (Machine.enter bt n k) :=
  (hbt.startCommand k).bind fun _ => hbt.bind fun _ => (look _).bind fun _ => ite (pure ()) (refused _)

theorem needChannel (d : Dir) : KeepsCtl c (Machine.needChannel bt n d) :=
  hbt.bind fun _ => (look _).bind fun ref => by
    cases ref with
    | some ch => exact pure ch
    | none => exact refused _

theorem acquire : KeepsCtl c (Machine.acquire bt n) :=
  hbt.bind fun _ => (look _).bind fun _ => ite (refused _) (tweak fun s _ => ctlKept_modBus s n rfl)

theorem release : KeepsCtl c (Machine.release bt n) := hbt.update fun s _ => ctlKept_modBus s n rfl

theorem illegalCommand : KeepsCtl c (Machine.illegalCommand bt) :=
  (hbt.startCommand _).bind fun _ => hbt.bind fun _ => refused _

theorem decodeStatus (n : Inst) : KeepsCtl c (Machine.decodeStatus bt n) :=
  params <| (hbt.regRead n _).bind fun _ => ite ((hbt.regRead n _).bind fun _ => pure _) (pure _)

theorem poll (n : Inst) (cond : Word → Bool) (budget d : Nat) : KeepsCtl c (Machine.poll bt n cond budget d) := by
  refine (setPollN _).bind fun _ => ?_
  induction budget with
  | zero => exact pure _
  | succ k ih =>
    exact (hbt.decodeStatus n).bind fun _ => ite (pure _) <|
      (hbt.delayMs d).bind fun _ => (setPollN _).bind fun _ => ih

/-! The reset sequence and the failure exit. -/

theorem resetTurn (n : Inst) : KeepsCtl c (Machine.resetTurn bt n) :=
  params <| (hbt.regRead n _).bind fun _ => by
    split
    · exact pure _
    · exact (hbt.regRead n _).bind fun _ => pure _

theorem resetLoop (n : Inst) (k : Nat) : KeepsCtl c (Machine.resetLoop bt n k) := by
  induction k with
  | zero => exact hangInReset
  | succ k ih => exact (hbt.resetTurn n).bind fun _ => ite ih (pure ())

theorem resetSeq (n : Inst) : KeepsCtl c (Machine.resetSeq bt n) :=
  params <| (hbt.regClr _ fun _ => namedOnly_pe).bind fun _ => (hbt.regSet _ fun _ => namedOnly_swrst).bind fun _ =>
    (hbt.regClr _ fun _ => namedOnly_swrst).bind fun _ => (look _).bind fun _ => (hbt.resetLoop n _).bind fun _ =>
    (hbt.regClr _ fun _ => namedOnly_pe).bind fun _ => (hbt.regWrite (by decide) _).bind fun _ =>
    (hbt.regWrite (by decide) _).bind fun _ =>
    (hbt.update fun _ hs => ctlKept_writeReg hs n (by decide) _).bind fun _ => hbt.regWrite (by decide) _

theorem failBusError (w : Caller) (k : ErrKind) (sf : Word) : KeepsCtl c (Machine.failBusError bt w n k sf) :=
  (hbt.diag _ _ _).bind fun _ => (hbt.putResult _).bind fun _ =>
    ((hbt.resetSeq n).bind fun _ => hbt.putResult _).runIf _

theorem failEnd (w : Caller) : KeepsCtl c (Machine.failEnd bt w n) :=
  ite ((hbt.update fun s _ => ctlKept_modBank s _).bind fun _ => (hbt.setPhase _).bind fun _ => hbt.release)
    (hbt.putResult _)

theorem failUnless (w : Caller) (k : ErrKind) (ok : Bool) : KeepsCtl c (Machine.failUnless bt w n k ok) :=
  ite (pure ()) <| params <| (hbt.decodeStatus n).bind fun _ => (hbt.diag _ _ _).bind fun _ =>
    ((hbt.failBusError w k _).runIf _).bind fun _ => (hbt.putResult _).bind fun _ => (hbt.failEnd w).bind fun _ => leave _

/-! The Bus Primitives, the Transaction Engine's and the DMA path's parts. -/

theorem generateStart (w : Caller) : KeepsCtl c (Machine.generateStart bt w n) :=
  params <| (hbt.poll n _ _ _).bind fun _ => (hbt.regSet _ fun _ => namedOnly_start).bind fun _ =>
    (hbt.poll n _ _ _).bind fun _ => hbt.failUnless w _ _

theorem sendAddress (w : Caller) (d : Dir) (a : Addr7) : KeepsCtl c (Machine.sendAddress bt w n d a) :=
  params <| (hbt.regWrite (by decide) _).bind fun _ => by
    cases d with
    | tx => exact (hbt.poll n _ _ _).bind fun _ => hbt.failUnless w _ _
    | rx => exact pure ()

theorem transmitByte (w : Caller) (b : Byte) : KeepsCtl c (Machine.transmitByte bt w n b) :=
  params <| (hbt.regWrite (by decide) _).bind fun _ => (hbt.poll n _ _ _).bind fun _ => hbt.failUnless w _ _

theorem receiveByte (w : Caller) : KeepsCtl c (Machine.receiveByte bt w n) :=
  params <| (hbt.poll n _ _ _).bind fun _ => (hbt.failUnless w _ _).bind fun _ => (hbt.regRead n _).bind fun _ =>
    (hbt.update fun s _ => ctlKept_modBus s n rfl).bind fun _ => pure _

theorem generateStop : KeepsCtl c (Machine.generateStop bt n) := params <| hbt.regSet _ fun _ => namedOnly_stop

theorem finishGuarded : KeepsCtl c (Machine.finishGuarded bt n) := (hbt.setPhase _).bind fun _ => hbt.release

theorem readInner (k : Nat) : KeepsCtl c (Machine.readInner bt n k) := by
  induction k with
  | zero => exact pure _
  | succ k ih =>
    exact params <| (hbt.decodeStatus n).bind fun _ => ite (pure _) <|
      ite ((hbt.resetSeq n).bind fun _ => (hbt.putResult _).bind fun _ => pure _) <| (setPollN _).bind fun _ => ih

theorem readOuter (k : Nat) : KeepsCtl c (Machine.readOuter bt n k) := by
  induction k with
  | zero => exact pure _
  | succ k ih =>
    exact params <| (setPollN _).bind fun _ => (hbt.readInner _).bind fun _ => ite (pure _) ih

theorem memRead (a : Word) : KeepsCtl c (Machine.memRead bt a) :=
  hbt.bind fun _ => (look _).bind fun b => by
    cases b with
    | some b => exact (tweak fun s _ => ctlKept_log s _).bind fun _ => pure b
    | none => exact leave _

theorem copyLoop (ch : ChanId) (src : Word) (k left : Nat) : KeepsCtl c (Machine.copyLoop bt ch src k left) := by
  induction left generalizing k with
  | zero => exact pure ()
  | succ left ih =>
    exact (hbt.memRead _).bind fun _ => (hbt.update fun s _ => ctlKept_modChan_log s ch _ _).bind fun _ => ih _

theorem chTc (ch : ChanId) : KeepsCtl c (Machine.chTc bt ch) := hbt.atom fun s _ => ctlKept_log s _

theorem chEnabled (ch : ChanId) : KeepsCtl c (Machine.chEnabled bt ch) := hbt.atom fun s _ => ctlKept_log s _

theorem chEnable (ch : ChanId) (k : Nat) : KeepsCtl c (Machine.chEnable bt ch k) :=
  hbt.update fun s _ => ctlKept_modChan_log s ch _ _

theorem tcLoop (ch : ChanId) (k : Nat) : KeepsCtl c (Machine.tcLoop bt ch k) := by
  induction k with
  | zero => exact pure _
  | succ k ih => exact (hbt.chTc ch).bind fun _ => (setPollN _).bind fun _ => ite (pure _) ih

theorem irqEnable (l : Line) : KeepsCtl c (Machine.irqEnable bt l) :=
  params <| hbt.update fun _ _ => ctlKept_of_eq rfl rfl rfl

/-! ## The commands -/

theorem iseqRun (n : Inst) : KeepsCtl c (Machine.iseqRun bt n) :=
  (look _).bind fun _ => (hbt.enter _).bind fun _ => (hbt.decodeStatus n).bind fun _ => (hbt.putResult _).bind fun _ =>
    (hbt.putRdata0 _).bind fun _ => hbt.succeed

theorem iseqmRun (n : Inst) : KeepsCtl c (Machine.iseqmRun bt n) :=
  (look _).bind fun _ => (look _).bind fun _ => (hbt.enter _).bind fun _ => (hbt.decodeStatus n).bind fun _ =>
    (hbt.putResult _).bind fun _ => (hbt.putRdata0 _).bind fun _ => hbt.succeed

theorem writeRun (n : Inst) (a : Addr7) (b : Byte) : KeepsCtl c (Machine.writeRun bt n a b) :=
  (hbt.enter _).bind fun _ => hbt.acquire.bind fun _ => (hbt.setPhase _).bind fun _ => params <|
    (hbt.poll n _ _ _).bind fun _ => (hbt.failUnless _ _ _).bind fun _ => (hbt.setPhase _).bind fun _ =>
    (hbt.generateStart _).bind fun _ => (hbt.setPhase _).bind fun _ => (hbt.sendAddress _ _ a).bind fun _ =>
    (hbt.setPhase _).bind fun _ => (hbt.transmitByte _ b).bind fun _ => (hbt.setPhase _).bind fun _ =>
    hbt.generateStop.bind fun _ => hbt.finishGuarded.bind fun _ => hbt.succeed

theorem readRun (n : Inst) (a : Addr7) : KeepsCtl c (Machine.readRun bt n a) :=
  (hbt.enter _).bind fun _ => hbt.acquire.bind fun _ => (hbt.setPhase _).bind fun _ => params <|
    (hbt.readOuter _).bind fun _ => (hbt.failUnless _ _ _).bind fun _ => (hbt.setPhase _).bind fun _ =>
    (hbt.generateStart _).bind fun _ => (hbt.setPhase _).bind fun _ => (hbt.sendAddress _ _ a).bind fun _ =>
    (hbt.setPhase _).bind fun _ => (hbt.receiveByte _).bind fun _ => (hbt.setPhase _).bind fun _ =>
    hbt.generateStop.bind fun _ => hbt.finishGuarded.bind fun _ => (hbt.putRdata0 _).bind fun _ => hbt.succeed

theorem mtxRun (n : Inst) (a : Addr7) : KeepsCtl c (Machine.mtxRun bt n a) :=
  (look _).bind fun _ => (look _).bind fun _ => (hbt.enter _).bind fun _ => (hbt.needChannel _).bind fun ch =>
    hbt.acquire.bind fun _ => params <| (hbt.copyLoop ch _ _ _).bind fun _ => (hbt.putRdata0 _).bind fun _ =>
    (hbt.setPhase _).bind fun _ => (hbt.generateStart _).bind fun _ => (hbt.setPhase _).bind fun _ =>
    (hbt.sendAddress _ _ a).bind fun _ => (hbt.setPhase _).bind fun _ => (hbt.setDmaen _).bind fun _ =>
    (hbt.chEnable ch _).bind fun _ => (setPollN _).bind fun _ => (hbt.tcLoop ch _).bind fun _ =>
    (hbt.failUnless _ _ _).bind fun _ => hbt.finishGuarded.bind fun _ => hbt.succeed

theorem srxRun (n : Inst) (a : Addr7) : KeepsCtl c (Machine.srxRun bt n a) :=
  (hbt.enter _).bind fun _ => (hbt.needChannel _).bind fun ch => hbt.acquire.bind fun _ => params <|
    (hbt.putRdata0 _).bind fun _ => (hbt.putRdata1 _).bind fun _ => (hbt.setPhase _).bind fun _ =>
    (hbt.poll n _ _ _).bind fun _ => (hbt.failUnless _ _ _).bind fun _ => (hbt.poll n _ _ _).bind fun _ =>
    (hbt.decodeStatus n).bind fun _ => (hbt.diag _ _ _).bind fun _ => (hbt.setPhase _).bind fun _ =>
    (hbt.setDmaen _).bind fun _ => (hbt.chEnable ch _).bind fun _ => hbt.finishGuarded.bind fun _ => hbt.succeed

theorem initRun (n : Inst) : KeepsCtl c (Machine.initRun bt n) :=
  (hbt.startCommand _).bind fun _ => params <| (hbt.update fun s _ => ctlKept_modBus s n rfl).bind fun _ =>
    (hbt.update fun s _ => ctlKept_modBus s n rfl).bind fun _ =>
    (hbt.update fun s _ => ctlKept_modBus s n rfl).bind fun _ => (hbt.resetSeq n).bind fun _ =>
    (hbt.irqEnable _).bind fun _ => (hbt.irqEnable _).bind fun _ => hbt.succeed

theorem pstatRun (n : Inst) : KeepsCtl c (Machine.pstatRun bt n) :=
  (hbt.enter _).bind fun _ => params <| (hbt.regRead n _).bind fun _ => (hbt.regRead n _).bind fun _ =>
    (hbt.regRead n _).bind fun _ => (hbt.regRead n _).bind fun _ => (hbt.regRead n _).bind fun _ =>
    (hbt.decodeStatus n).bind fun _ => (hbt.diag _ _ _).bind fun _ => (hbt.poll n _ _ _).bind fun _ =>
    (((hbt.decodeStatus n).bind fun _ => hbt.diag _ _ _).runIf _).bind fun _ => hbt.succeed

/-- No command changes a bit of CTL other than the named four (R100). -/
theorem runInstr (i : Instr) : KeepsCtl c (Machine.runInstr bt i) := by
  cases i with
  | status n =>
    exact (hbt.enter _).bind fun _ => (hbt.decodeStatus n).bind fun _ => (hbt.putRdata0 _).bind fun _ => hbt.succeed
  | iseq n => exact hbt.iseqRun n
  | iseqm n => exact hbt.iseqmRun n
  | gstart n => exact (hbt.enter _).bind fun _ => (hbt.generateStart _).bind fun _ => hbt.succeed
  | saddr n d a => exact (hbt.enter _).bind fun _ => (hbt.sendAddress _ d a).bind fun _ => hbt.succeed
  | txbyte n b => exact (hbt.enter _).bind fun _ => (hbt.transmitByte _ b).bind fun _ => hbt.succeed
  | rxbyte n =>
    exact (hbt.enter _).bind fun _ => (hbt.receiveByte _).bind fun _ => (hbt.putRdata0 _).bind fun _ => hbt.succeed
  | gstop n => exact (hbt.enter _).bind fun _ => hbt.generateStop.bind fun _ => hbt.succeed
  | write n a b => exact hbt.writeRun n a b
  | read n a => exact hbt.readRun n a
  | attach n d =>
    exact (hbt.enter _).bind fun _ =>
      (hbt.update fun s _ => ctlKept_modBus s n (by cases d <;> rfl)).bind fun _ => hbt.succeed
  | mtx n a => exact hbt.mtxRun n a
  | srx n a => exact hbt.srxRun n a
  | tcq n d =>
    exact (hbt.enter _).bind fun _ => (hbt.needChannel d).bind fun ch => (hbt.chEnabled ch).bind fun _ =>
      (hbt.chTc ch).bind fun _ => (hbt.putRdata0 _).bind fun _ => hbt.succeed
  | init n => exact hbt.initRun n
  | reset n =>
    exact (hbt.enter _).bind fun _ => (hbt.resetSeq n).bind fun _ => (hbt.putResult _).bind fun _ => hbt.succeed
  | enable n =>
    exact (hbt.enter _).bind fun _ => params <| (hbt.regSet _ fun _ => namedOnly_pe).bind fun _ => hbt.succeed
  | disable n =>
    exact (hbt.enter _).bind fun _ => params <| (hbt.regClr _ fun _ => namedOnly_pe).bind fun _ => hbt.succeed
  | pstat n => exact hbt.pstatRun n
  | evh n =>
    exact (hbt.enter _).bind fun _ => (hbt.decodeStatus n).bind fun _ => (hbt.diag _ _ _).bind fun _ => hbt.succeed
  | erh n =>
    exact (hbt.enter _).bind fun _ => params <| (hbt.decodeStatus n).bind fun _ => (hbt.diag _ _ _).bind fun _ =>
      (hbt.clrErr _).bind fun _ => hbt.succeed

/-! ## The interrupt port and the other agents -/

theorem runWord (w : Word) : KeepsCtl c (Machine.runWord bt w) := by
  unfold Machine.runWord
  split
  · exact hbt.runInstr _
  · exact hbt.illegalCommand

omit hbt in
theorem onIrqPort (hook : Option Line) {x : Run Unit} (hx : KeepsCtl c x) : KeepsCtl c (Machine.onIrqPort hook x) :=
  (look _).bind fun old => (tweak (g := irqEnter hook) fun _ _ => ctlKept_of_eq rfl rfl rfl).bind fun _ =>
    bind (keeps_runWhole hx) fun _ => tweak (g := irqReturn old) fun _ _ => ctlKept_of_eq rfl rfl rfl

theorem issueIrq (k : IrqCmd) : KeepsCtl c (Machine.issueIrq bt k) :=
  (look _).bind fun _ => runIf
    ((tweak (g := writeIrqArgs k) fun _ _ => ctlKept_of_eq rfl rfl rfl).bind fun _ => onIrqPort _ (hbt.runWord _)) _

omit hbt in
theorem starveFrom (n : Inst) : KeepsCtl c (Machine.starveFrom n) :=
  (look _).bind fun fires => by
    cases fires with
    | true => exact fun _ hs => ⟨hs, ctlKept_of_eq rfl rfl rfl⟩
    | false => exact pure ()

theorem applyMove (m : Move) : KeepsCtl c (Machine.applyMove bt m) := by
  cases m with
  | fire l => exact (look _).bind fun _ => (onIrqPort _ (hbt.runInstr _)).runIf _
  | issueIrq k => exact hbt.issueIrq k
  | starve n => exact starveFrom n
  | _ => exact tweak fun _ hs => ctlKept_quietMove hs _

theorem applyMoves (ms : List Move) : KeepsCtl c (Machine.applyMoves bt ms) := by
  induction ms with
  | nil => exact pure ()
  | cons m ms ih => exact (hbt.applyMove m).bind fun _ => ih

omit hbt

theorem popBatch : KeepsCtl c Machine.popBatch := by
  intro s hs
  unfold Machine.popBatch
  split
  · exact ⟨hs, .refl s⟩
  · exact ⟨hs, ctlKept_of_eq rfl rfl rfl⟩

theorem between (depth : Nat) : KeepsCtl c (Machine.between depth) := by
  induction depth with
  | zero => exact pure ()
  | succ d ih => exact popBatch.bind fun ms => ih.applyMoves ms

theorem others : KeepsCtl c Machine.others := (look _).bind fun d => between d

/-- A run that a step makes. -/
theorem of_next {x : Run Unit} (hx : KeepsCtl c x) {s t : State} (hs : s.cfg = c) (he : toOutcome (x s) = .next t) :
    CtlKept c s t :=
  outState_of_next he ▸ (hx s hs).2

end KeepsCtl

theorem exec_eq_runInstr (i : Instr) (s : State) : exec i s = toOutcome (runInstr others i s) := by cases i <;> rfl

/-- Whatever a step runs, its interrupts included, CTL is kept outside the named bits. -/
theorem step_ctlKept {s t : State} (he : step s = .next t) : CtlKept s.cfg s t := by
  have haccept : CtlKept s.cfg s (acceptCommand s) := ctlKept_of_eq rfl rfl rfl
  unfold step at he
  split at he
  · next k _ =>
    cases k with
    | spin n => exact ((KeepsCtl.others.resetTurn n).bind fun _ => KeepsCtl.pure ()).of_next rfl he
    | starved n =>
      exact (KeepsCtl.others.bind fun _ => .onIrqPort _ (KeepsCtl.others.runInstr (.evh n))).of_next rfl he
  · split at he
    · exact KeepsCtl.others.of_next rfl he
    · split at he
      · next i _ => exact haccept.trans ((KeepsCtl.others.runInstr i).of_next haccept.cfg (exec_eq_runInstr i _ ▸ he))
      · exact haccept.trans (KeepsCtl.others.illegalCommand.of_next haccept.cfg he)

end Sys2Proof.Machine

namespace Sys2Proof.Proofs

open Sys2Proof.Machine

/-- Settles O10: `Ctrl.unnamed` of both instances is kept by every primitive, every move and every interrupt. -/
theorem unnamedControlBitsKept : Obligations.UnnamedControlBitsKept := by
  intro s t he n
  exact (step_ctlKept he).ctl n

end Sys2Proof.Proofs
end

section
/-! PROOFS. The values after power-on and with nothing scheduled (R36, R165), and the default clock constants (R25, R131). -/
namespace Sys2Proof.Machine

theorem chan_powerOn (cfg : Config) (ch : ChanId) : (State.powerOn cfg).chan ch = Chan.reset cfg.dmaCap := by
  obtain ⟨n, d⟩ := ch
  cases n <;> cases d <;> rfl

/-- With no command on the foreground port and nothing listed in the schedule, a step changes nothing (R165, log 5). -/
theorem step_idle_quiet {s : State} (hstuck : s.stuck = none) (hcmd : s.fgCmd = none) (hq : s.sched = []) :
    step s = .next s := by
  simp only [step, hstuck, hcmd, idleStep, others_quiet hq, toOutcome]

/-- The ranges of the default formula, of a configuration the spec allows that uses it (R131). -/
theorem formulaOk_of_wellFormed {c : Config} (h : c.wellFormed = true) (hf : c.clock = .formula) : c.formulaOk = true := by
  simp only [Config.wellFormed, Bool.and_eq_true] at h
  obtain ⟨⟨⟨-, hclock⟩, -⟩, -⟩ := h
  simp only [Config.clockOk, hf, Bool.and_eq_true] at hclock
  exact hclock.2

/-- A number that fits its field keeps its value in the 16-bit register. -/
theorem toNat_field {w k : Nat} (hw : w ≤ 16) (hk : k < 2 ^ w) : ((BitVec.ofNat w k).setWidth 16).toNat = k := by
  rw [BitVec.toNat_setWidth_of_le hw, BitVec.toNat_ofNat, Nat.mod_eq_of_lt hk]

theorem clockConfig_formula {c : Config} (h : c.clock = .formula) : clockConfig c = clockFormula c.pclkHz c.targetHz := by
  rw [clockConfig, h]

end Sys2Proof.Machine

namespace Sys2Proof.Proofs

open Sys2Proof.Machine

/-- Settles O59: within the ranges of R131 freq_range and rise_time are below 2^6 and ccr is below 2^12. -/
theorem clockConfigDefaultFormula : Obligations.ClockConfigDefaultFormula := by
  intro c hwf hf
  have hok := formulaOk_of_wellFormed hwf hf
  simp only [Config.formulaOk, Bool.and_eq_true, decide_eq_true_eq] at hok
  obtain ⟨⟨⟨⟨-, -⟩, hfreq⟩, -⟩, hccr⟩ := hok
  rw [ctl2Value, triseValue, ccrValue, clockConfig_formula hf]
  refine ⟨toNat_field (by decide) ?_, toNat_field (by decide) ?_, toNat_field (by decide) ?_⟩
  all_goals omega

/-- Settles O5: the reset values, read off both instances and all four channels, and the idle step. -/
theorem powerOnValues : Obligations.PowerOnValues := by
  refine ⟨rfl, fun cfg => ⟨fun n => ?_, fun ch => ?_, rfl, rfl, rfl, rfl, rfl, step_idle_quiet rfl rfl rfl⟩⟩
  · rw [bus_powerOn]
    exact ⟨rfl, rfl, rfl, rfl, rfl, rfl, rfl⟩
  · rw [chan_powerOn]
    exact ⟨rfl, rfl, rfl, rfl⟩

end Sys2Proof.Proofs
end

section
/-! PROOFS. What the host sees of memory and of the registers: the read-order clear (R55), the view of the receive buffer (R64),
and the refusal of a guarded command on a held lock (R63, R81(5)). -/
namespace Sys2Proof.Machine

open Sys2Proof.Claims

/-! ## The read-order clear -/

/-- A read leaves of the controller what its side effect leaves (R55, R56). -/
theorem readReg_ctrl (n : Inst) (r : Reg) (s : State) :
    ((readReg n r s).2.bus n).ctrl = (s.bus n).ctrl.afterRead s.cfg r := by
  simp [readReg_frame, State.modCtrl]

/-! ## The view -/

/-- The handle SRX returns is the one of its own receive channel (R64, R115). -/
theorem viewChannel_viewHandle (n : Inst) : viewChannel (viewHandle ⟨n, .rx⟩) = some ⟨n, .rx⟩ := by
  cases n <;> decide

theorem viewRead_viewHandle (s : State) (n : Inst) (k : Nat) :
    viewRead s (viewHandle ⟨n, .rx⟩) k = (s.bus n).chRx.buf[k]? := by
  rw [viewRead, viewChannel_viewHandle]
  rfl

theorem viewRead_none {h : Word} (h1 : h ≠ 1) (h3 : h ≠ 3) (s : State) (k : Nat) : viewRead s h k = none := by
  rw [viewRead, viewChannel, if_neg h1, if_neg h3]

/-- In a good state the receive buffer holds a byte at exactly the places below DMA_CAP (R26). -/
theorem lt_dmaCap_iff_receive_byte {s : State} (hs : s.Inv) (n : Inst) (k : Nat) :
    k < s.cfg.dmaCap ↔ (s.bus n).chRx.buf[k]? ≠ none := by
  obtain ⟨-, hbus, -⟩ := hs
  obtain ⟨-, -, -, -, hlen, -⟩ := hbus n
  rw [Ne, List.getElem?_eq_none_iff, hlen, Nat.not_le]

/-! ## Refusals -/

/-- The state a refusal with code `r` leaves of a command issued in `s` (R81(1), R141). -/
def refusedAfterIssue (r : RefuseCode) (s : State) : State :=
  freeRdata0 ((clearResult false s).modResult (withCode · (refuseCode r)))

theorem refused_after_issue {α : Type} (r : RefuseCode) (s : State) :
    (refused r : Run α) (clearResult false s) = .error .ended (refusedAfterIssue r s) := rfl

theorem keptOutside_freeRdata0 (n : Inst) (s : State) : KeptOutside n s (freeRdata0 s) :=
  keptOutside_modBank (f := fun b => { b with rdata0 := Config.freeWord s.freeCtr }) s rfl rfl

theorem refusedWith_refusedAfterIssue (r : RefuseCode) (s : State) :
    RefusedWith (withCode 0 (refuseCode r)) s (refusedAfterIssue r s) := by
  have hkept : KeptOutside .one s (refusedAfterIssue r s) :=
    keptOutside_trans (keptOutside_trans (keptOutside_clearResult false s) (keptOutside_modResult _ _))
      (keptOutside_freeRdata0 _ _)
  obtain ⟨-, hcfg, hport, hcmd, hen, hactive, htick, -, hstuck, hother, harg0, harg1⟩ := hkept
  have hmem : (refusedAfterIssue r s).mem = s.mem := by
    simp [refusedAfterIssue, freeRdata0, clearResult, State.modResult]
  refine ⟨fun n => ?_, ?_, ?_, hcfg, hport, hcmd, hen, hactive, htick, hmem, hstuck, hother, harg0, harg1, ?_, ?_⟩ <;>
    simp [refusedAfterIssue, clearResult_bank]

/-- With the channel attached the check answers it and changes nothing (R81(4)). -/
theorem needChannel_quiet {n : Inst} {d : Dir} {s : State} (hq : Quiet s) {ch : ChanId}
    (hc : (s.bus n).chanRef d = some ch) : needChannel others n d s = .ok ch s := by
  rw [needChannel, bind_of_ok (others_quiet hq), bind_of_ok (look_run _ s), hc]
  rfl

theorem acquire_held {n : Inst} {s : State} (hq : Quiet s) (hl : (s.bus n).lock = true) :
    acquire others n s = refused .locked s := by
  rw [acquire, bind_of_ok (others_quiet hq), bind_of_ok (look_run _ s), hl, if_pos rfl]

theorem acquire_free {n : Inst} {s : State} (hq : Quiet s) (hl : (s.bus n).lock = false) :
    acquire others n s = .ok () (s.modBus n fun b => { b with lock := true }) := by
  rw [acquire, bind_of_ok (others_quiet hq), bind_of_ok (look_run _ s), hl, if_neg Bool.false_ne_true, tweak_run]

section
variable {n : Inst} {s : State} (hq : Quiet s)
include hq

theorem quiet_clearResult (k : Bool) : Quiet (clearResult k s) := (clearResult_sched k s).trans hq

/-- On a held lock, `acquire` after issue is the LOCKED refusal (R63, R81(5)). -/
theorem acquire_held_after_issue (hl : (s.bus n).lock = true) :
    acquire others n (clearResult false s) = .error .ended (refusedAfterIssue .locked s) := by
  rw [acquire_held (quiet_clearResult hq false) ((clearResult_bus false s n).symm ▸ hl), refused_after_issue]

theorem needChannel_after_issue {d : Dir} (hc : (s.bus n).chanRef d ≠ none) :
    ∃ ch, needChannel others n d (clearResult false s) = .ok ch (clearResult false s) := by
  obtain ⟨ch, hch⟩ := Option.ne_none_iff_exists'.1 hc
  exact ⟨ch, needChannel_quiet (quiet_clearResult hq false) ((clearResult_bus false s n).symm ▸ hch)⟩

/-- Every guarded command comes to `acquire` with nothing done but issue (R63, R81). -/
theorem exec_guarded_held {i : Instr} (hg : isGuarded i = true) (hb : (s.bus (targetOf i)).bound = true)
    (hl : (s.bus (targetOf i)).lock = true)
    (hc : ∀ d, channelNeeded i = some d → (s.bus (targetOf i)).chanRef d ≠ none) :
    exec i s = .next (refusedAfterIssue .locked s) := by
  have henter := enter_quiet hq hb false
  have hacq := acquire_held_after_issue hq hl
  suffices h : runInstr others i s = .error .ended (refusedAfterIssue .locked s) by rw [exec_eq_runInstr, h, toOutcome]
  cases i with
  | write n a b => exact (bind_of_ok henter).trans (bind_of_error hacq)
  | read n a => exact (bind_of_ok henter).trans (bind_of_error hacq)
  | mtx n a =>
    obtain ⟨ch, hch⟩ := needChannel_after_issue hq (hc .tx rfl)
    exact (bind_of_ok henter).trans ((bind_of_ok hch).trans (bind_of_error hacq))
  | srx n a =>
    obtain ⟨ch, hch⟩ := needChannel_after_issue hq (hc .rx rfl)
    exact (bind_of_ok henter).trans ((bind_of_ok hch).trans (bind_of_error hacq))
  | _ => exact absurd hg Bool.false_ne_true

end

end Sys2Proof.Machine

namespace Sys2Proof.Proofs

open Sys2Proof.Machine

/-- Settles O24: the three cases of the side effect of a read. -/
theorem readOrderClear : Obligations.ReadOrderClear := by
  intro n r s
  simp only [readReg_ctrl, readReg_value]
  cases r with
  | srP => exact ⟨fun _ => ⟨rfl, rfl⟩, nofun, fun h => absurd rfl h⟩
  | srS => exact ⟨nofun, fun _ => ⟨rfl, rfl⟩, fun _ h => absurd rfl h⟩
  | ctl | ctl2 | oar | dr | ccr | trise => exact ⟨nofun, nofun, fun _ _ => rfl⟩

/-- Settles O60: 1 and 3 are the handles of the two receive channels, whose buffers hold DMA_CAP bytes. -/
theorem viewReadsTheReceiveBuffer : Obligations.ViewReadsTheReceiveBuffer := by
  intro s h k hs
  have hview (n : Inst) : viewRead s (viewHandle ⟨n, .rx⟩) k = (s.bus n).chRx.buf[k]? ∧
      (k < s.cfg.dmaCap ↔ viewRead s (viewHandle ⟨n, .rx⟩) k ≠ none) := by
    rw [viewRead_viewHandle]
    exact ⟨rfl, lt_dmaCap_iff_receive_byte hs n k⟩
  refine ⟨?_, ?_, fun h1 h3 => viewRead_none h1 h3 s k⟩
  · rintro rfl
    exact hview .one
  · rintro rfl
    exact hview .two

/-- Settles O20: issue, the channel check where there is one, and LOCKED (0x8). -/
theorem heldLockIsRefused : Obligations.HeldLockIsRefused := by
  intro i s hq hg hb hl hc
  exact ⟨_, exec_guarded_held hq hg hb hl hc, refusedWith_refusedAfterIssue .locked s⟩

end Sys2Proof.Proofs
end

section
/-! PROOFS. Operands are latched at issue (R65, R74), and MTX stops at the first source byte that host memory does not hold (R62,
U15): the copy loop reads from the latched `src`, so many bytes as the latched `len` and DMA_CAP allow. -/
namespace Sys2Proof.Machine

open Sys2Proof.Claims

variable {n : Inst} {s : State}

/-! ## MTX's copy loop -/

theorem memRead_absent (hq : Quiet s) {a : Word} (h : memGet s.mem a = none) :
    memRead others a s = .error (.fault (.hostByteAbsent a)) s := by
  rw [memRead, bind_of_ok (others_quiet hq), bind_of_ok (look_run _ s), h]
  rfl

theorem memRead_present (hq : Quiet s) {a : Word} {b : Byte} (h : memGet s.mem a = some b) :
    memRead others a s = .ok b (s.log (.memRead a b)) := by
  rw [memRead, bind_of_ok (others_quiet hq), bind_of_ok (look_run _ s), h]
  rfl

/-- The state after byte `b` of address `a` is copied into place `k` of the channel's buffer (R114). -/
def byteCopied (ch : ChanId) (a : Word) (k : Nat) (b : Byte) (s : State) : State :=
  ((s.log (.memRead a b)).modChan ch (Chan.put k b)).log (.bufWrite ch k b)

theorem byteCopied_sched (ch : ChanId) (a : Word) (k : Nat) (b : Byte) (s : State) :
    (byteCopied ch a k b s).sched = s.sched := by
  simp [byteCopied, State.modChan_eq_modBus]

theorem byteCopied_mem (ch : ChanId) (a : Word) (k : Nat) (b : Byte) (s : State) :
    (byteCopied ch a k b s).mem = s.mem := by
  simp [byteCopied, State.modChan_eq_modBus]

theorem copyLoop_present (hq : Quiet s) (ch : ChanId) {src : Word} {k : Nat} {b : Byte}
    (h : memGet s.mem (sourceAddress src k) = some b) (left : Nat) :
    copyLoop others ch src k (left + 1) s =
      copyLoop others ch src (k + 1) left (byteCopied ch (sourceAddress src k) k b s) := by
  have hlog : (s.log (.memRead (sourceAddress src k) b)).sched = [] := hq
  exact (bind_of_ok (memRead_present hq h)).trans (bind_of_ok (update_quiet hlog _))

/-- The loop stops at the first byte from `k` on that host memory does not hold, if it comes so far. -/
theorem copyLoop_absent (hq : Quiet s) (ch : ChanId) (src : Word) {j k left : Nat} (hj : j < left)
    (hp : ∀ m, m < j → memGet s.mem (sourceAddress src (k + m)) ≠ none)
    (ha : memGet s.mem (sourceAddress src (k + j)) = none) :
    ∃ t, copyLoop others ch src k left s = .error (.fault (.hostByteAbsent (sourceAddress src (k + j)))) t := by
  induction left generalizing s j k with
  | zero => exact absurd hj (Nat.not_lt_zero j)
  | succ left ih =>
    cases j with
    | zero => exact ⟨s, bind_of_error (memRead_absent hq ha)⟩
    | succ j =>
      obtain ⟨b, hb⟩ := Option.ne_none_iff_exists'.1 (hp 0 (Nat.succ_pos j))
      have hnext (m : Nat) : k + (m + 1) = k + 1 + m := by omega
      rw [copyLoop_present (k := k) hq ch hb, hnext j]
      refine ih (j := j) ((byteCopied_sched ..).trans hq) (by omega) (fun m hm => ?_) ?_
      · rw [byteCopied_mem, ← hnext]
        exact hp (m + 1) (by omega)
      · rw [byteCopied_mem, ← hnext]
        exact ha

/-- MTX issued in `s`: `u` is the state after issue, and `src` and `len` are those of `s`, whatever `u` holds (R74). -/
theorem exec_mtx_absent {u : State} {j : Nat} (a : Addr7) (hi : enter others n false s = .ok () u) (hq : Quiet u)
    (hl : (u.bus n).lock = false) (hc : (u.bus n).dmaTx ≠ none) (hj : j < copyCount u.cfg s.bank.arg1)
    (hp : ∀ m, m < j → memGet u.mem (sourceAddress s.bank.arg0 m) ≠ none)
    (ha : memGet u.mem (sourceAddress s.bank.arg0 j) = none) :
    exec (.mtx n a) s = .fault (.hostByteAbsent (sourceAddress s.bank.arg0 j)) := by
  obtain ⟨ch, hch⟩ := Option.ne_none_iff_exists'.1 hc
  have hchan : needChannel others n .tx u = .ok ch u := needChannel_quiet hq hch
  obtain ⟨t, ht⟩ := copyLoop_absent (s := u.modBus n fun b => { b with lock := true }) (k := 0)
    ((State.modBus_sched u n _).trans hq) ch s.bank.arg0 (j := j) (left := copyCount u.cfg s.bank.arg1) hj
    (by simpa using hp) (by simpa using ha)
  rw [Nat.zero_add] at ht
  have hrun : mtxRun others n a s = .error (.fault (.hostByteAbsent (sourceAddress s.bank.arg0 j))) t := by
    refine (bind_of_ok hi).trans ((bind_of_ok hchan).trans ((bind_of_ok (acquire_free hq hl)).trans ?_))
    rw [bind_of_ok (params_run _), State.modBus_cfg]
    exact bind_of_error ht
  rw [exec, execMtx, hrun, toOutcome]

/-! ## Issue where other agents move before it and nowhere else -/

theorem enter_of_others {t : State} (ht : others s = .ok () t) (hq : Quiet t) (hb : (t.bus n).bound = true) (k : Bool) :
    enter others n k s = .ok () (clearResult k t) := by
  have hstart : startCommand others k s = .ok () (clearResult k t) := update_of ht _
  have hcheck : checkBound others n (clearResult k t) = .ok () (clearResult k t) := by
    rw [checkBound, bind_of_ok (others_quiet (quiet_clearResult hq k)), bind_of_ok (look_run _ _), clearResult_bus, hb]
    rfl
  exact (bind_of_ok hstart).trans hcheck

/-- `s` with nothing scheduled and the operands of the foreground bank written over. -/
def withFgArgs (s : State) (x y : Word) : State :=
  { s with sched := [], fg := { s.fg with arg0 := x, arg1 := y } }

theorem others_hostArgs {x y : Word} (h : s.sched = [[.hostArg0 x, .hostArg1 y]]) : others s = .ok () (withFgArgs s x y) :=
  others_batch h (by simp [Move.isInterrupt])

@[simp] theorem withFgArgs_bus (s : State) (x y : Word) (m : Inst) : (withFgArgs s x y).bus m = s.bus m := by
  cases m <;> rfl

/-- The state after the issue of a command before which the host writes `x` and `y` over the operands. -/
def issuedAfterArgs (s : State) (x y : Word) : State := clearResult false (withFgArgs s x y)

theorem enter_hostArgs {x y : Word} (h : s.sched = [[.hostArg0 x, .hostArg1 y]]) (hb : (s.bus n).bound = true) :
    enter others n false s = .ok () (issuedAfterArgs s x y) :=
  enter_of_others (others_hostArgs h) rfl ((withFgArgs_bus s x y n).symm ▸ hb) false

section
variable (s) (x y : Word)

theorem issuedAfterArgs_quiet : Quiet (issuedAfterArgs s x y) := clearResult_sched false _

@[simp] theorem issuedAfterArgs_bus (m : Inst) : (issuedAfterArgs s x y).bus m = s.bus m := by simp [issuedAfterArgs]

@[simp] theorem issuedAfterArgs_cfg : (issuedAfterArgs s x y).cfg = s.cfg := State.modBank_cfg _ _

@[simp] theorem issuedAfterArgs_mem : (issuedAfterArgs s x y).mem = s.mem := State.modBank_mem _ _

@[simp] theorem issuedAfterArgs_port : (issuedAfterArgs s x y).port = s.port := State.modBank_port _ _

theorem sameStatus_issuedAfterArgs : SameStatus n s (issuedAfterArgs s x y) := ⟨by simp, by simp, by simp⟩

end

theorem State.bank_eq_fg (h : s.port = .fg) : s.bank = s.fg := by rw [State.bank, h]

/-- The host's values stand in the bank, though the command does not use them. -/
theorem issuedAfterArgs_args (hp : s.port = .fg) (x y : Word) :
    (issuedAfterArgs s x y).bank.arg0 = x ∧ (issuedAfterArgs s x y).bank.arg1 = y := by
  have hbank : (withFgArgs s x y).bank = (withFgArgs s x y).fg := State.bank_eq_fg hp
  rw [issuedAfterArgs, clearResult_bank, hbank]
  exact ⟨rfl, rfl⟩

/-! ## The predicates -/

@[simp] theorem resultPred_withCode (r : Half) (k : BitVec 4) : resultPred (withCode r k) = resultPred r := by
  simp [resultPred, withCode]

@[simp] theorem resultPred_withPred (r : Half) (b : Bool) : resultPred (withPred r b) = b := by
  cases b <;> simp [resultPred, withPred]

theorem decodeStatus_keeps_bank (hq : Quiet s) (n : Inst) :
    ∃ t, decodeStatus others n s = .ok (decodedValue s n) t ∧ Quiet t ∧ t.bank = s.bank ∧ t.port = s.port := by
  rw [decodeStatus_quiet hq, decodedValue]
  split
  · exact ⟨_, rfl, by simpa [Quiet] using hq, by simp [readReg, State.modCtrl], by simp [readReg, State.modCtrl]⟩
  · exact ⟨_, rfl, by simpa [Quiet] using hq, by simp [readReg, State.modCtrl], by simp [readReg, State.modCtrl]⟩

/-- How ISEQ and ISEQM end: PRED and RDATA0 of the decoded value, then success (R91, R92). -/
def answerPred (n : Inst) (f : Word → Bool) : Run Unit := do
  let v ← decodeStatus others n
  putResult others (withPred · (f v))
  putRdata0 others v
  succeed others

/-- ISEQ's flags are those of the state it is issued in, whatever stands in ARG0 after issue (R74). -/
theorem iseqRun_eq (n : Inst) (s : State) :
    iseqRun others n s = (enter others n false >>= fun _ => answerPred n (isEqual · s.bank.arg0)) s := rfl

/-- And so are ISEQM's flags and mask. -/
theorem iseqmRun_eq (n : Inst) (s : State) :
    iseqmRun others n s =
      (enter others n false >>= fun _ => answerPred n (isEqualMasked · s.bank.arg0 s.bank.arg1)) s := rfl

/-- The state after the answer `p` about the decoded value `v`, and success. -/
def predAnswered (p : Bool) (v : Word) (s : State) : State :=
  ((s.modResult (withPred · p)).modBank fun b => { b with rdata0 := v }).modResult (withCode · 0)

@[simp] theorem predAnswered_port (p : Bool) (v : Word) (s : State) : (predAnswered p v s).port = s.port := by
  simp [predAnswered, State.modResult]

@[simp] theorem predAnswered_bank (p : Bool) (v : Word) (s : State) :
    (predAnswered p v s).bank = { s.bank with result := withCode (withPred s.bank.result p) 0, rdata0 := v } := by
  simp [predAnswered]

theorem answerPred_quiet (hq : Quiet s) (n : Inst) (f : Word → Bool) :
    ∃ t, answerPred n f s = .ok () t ∧ t.port = s.port ∧ t.bank.arg0 = s.bank.arg0 ∧ t.bank.arg1 = s.bank.arg1 ∧
      resultPred t.bank.result = f (decodedValue s n) := by
  obtain ⟨u, hdec, huq, hbank, hport⟩ := decodeStatus_keeps_bank hq n
  have hpred := update_quiet huq (·.modResult (withPred · (f (decodedValue s n))))
  have hpredq := (modResult_sched u (withPred · (f (decodedValue s n)))).trans huq
  have hword := update_quiet hpredq (·.modBank fun b => { b with rdata0 := decodedValue s n })
  have hwordq := (State.modBank_sched _ fun b => { b with rdata0 := decodedValue s n }).trans hpredq
  refine ⟨predAnswered (f (decodedValue s n)) (decodedValue s n) u, ?_, by simp [hport], by simp [hbank], by simp [hbank],
    by simp⟩
  exact (bind_of_ok hdec).trans ((bind_of_ok hpred).trans ((bind_of_ok hword).trans (update_quiet hwordq _)))

/-- ISEQ and ISEQM issued in `s` before the host writes over the operands: the predicate is the one that was latched. -/
theorem answerPred_hostArgs (hp : s.port = .fg) (x y : Word) (n : Inst) (f : Word → Bool) :
    ∃ t, answerPred n f (issuedAfterArgs s x y) = .ok () t ∧ t.fg.arg0 = x ∧ t.fg.arg1 = y ∧
      resultPred t.fg.result = f (decodedValue s n) := by
  obtain ⟨t, hrun, hport, h0, h1, hpred⟩ := answerPred_quiet (issuedAfterArgs_quiet s x y) n f
  obtain ⟨hx, hy⟩ := issuedAfterArgs_args hp x y
  rw [State.bank_eq_fg (hport.trans (by simpa using hp))] at h0 h1 hpred
  rw [(sameStatus_issuedAfterArgs s x y).decodedValue_eq] at hpred
  exact ⟨t, hrun, h0.trans hx, h1.trans hy, hpred⟩

end Sys2Proof.Machine

namespace Sys2Proof.Proofs

open Sys2Proof.Machine

/-- Settles O41: issue changes neither host memory nor the operands, and the copy loop comes as far as the absent byte. -/
theorem mtxStopsAtAbsentSourceByte : Obligations.MtxStopsAtAbsentSourceByte := by
  intro n a s j hq hb hl hc hj hp ha
  have hmem : (clearResult false s).mem = s.mem := State.modBank_mem s _
  refine exec_mtx_absent a (enter_quiet hq hb false) (quiet_clearResult hq false) ?_ ?_ ?_ ?_ ?_
  · rwa [clearResult_bus]
  · rwa [clearResult_bus]
  · rwa [clearResult_cfg]
  · rwa [hmem]
  · rwa [hmem]

/-- Settles O23: issue comes after the latch, and the host's values are there before any use of the latched ones. -/
theorem operandsAreLatchedAtIssue : Obligations.OperandsAreLatchedAtIssue := by
  intro n s x y hport hb hsched
  have hi := enter_hostArgs hsched hb
  have hbank := State.bank_eq_fg hport
  refine ⟨?_, ?_, fun a j hl hc hj hp ha => ?_⟩
  · obtain ⟨t, hrun, h0, h1, hpred⟩ := answerPred_hostArgs hport x y n (isEqual · s.bank.arg0)
    refine ⟨t, by rw [exec, execIseq, iseqRun_eq, bind_of_ok hi, hrun, toOutcome], h0, h1, ?_⟩
    rw [hpred, isEqual, beq_iff_eq, hbank]
  · obtain ⟨t, hrun, h0, h1, hpred⟩ := answerPred_hostArgs hport x y n (isEqualMasked · s.bank.arg0 s.bank.arg1)
    refine ⟨t, by rw [exec, execIseqm, iseqmRun_eq, bind_of_ok hi, hrun, toOutcome], h0, h1, ?_⟩
    rw [hpred, isEqualMasked, beq_iff_eq, hbank]
  · rw [← hbank] at hj hp ha ⊢
    exact exec_mtx_absent a hi (issuedAfterArgs_quiet s x y) (by simpa using hl) (by simpa using hc)
      (by simpa [copyCount] using hj) (by simpa [sourceAddress] using hp) (by simpa [sourceAddress] using ha)

end Sys2Proof.Proofs
end

section
/-! PROOFS. A command on one instance leaves the other as it was (R51, R156): the instance's channel references stay its own
(R23, R113), so every primitive of the command, and every move that is not about the other instance, changes no other. -/
namespace Sys2Proof.Machine

open Sys2Proof.Claims

/-- Both channel references of instance `n` are none or channels of `n` (R23). -/
def OwnRefs (n : Inst) (s : State) : Prop := ∀ d ch, (s.bus n).chanRef d = some ch → ch.inst = n

/-- From `s` to `t` instance `m` is as it was, and the references of `n` stay its own. -/
structure Isolated (n m : Inst) (s t : State) : Prop where
  other : t.bus m = s.bus m
  refs : OwnRefs n s → OwnRefs n t

variable {n m k : Inst} {A : Move → Bool} {c : Config}

/-- A reference of a good instance is none or the instance's own channel of that direction (R23, R26). -/
theorem Bus.Good.chanRef {cfg : Config} {b : Bus} (h : b.Good cfg n) (d : Dir) :
    b.chanRef d = none ∨ b.chanRef d = some ⟨n, d⟩ := by
  obtain ⟨htx, hrx, -⟩ := h
  cases d with
  | tx => exact htx
  | rx => exact hrx

theorem ownRefs_of_good {cfg : Config} {s : State} (h : (s.bus n).Good cfg n) : OwnRefs n s := by
  intro d ch hch
  obtain hnone | hown := h.chanRef d
  · exact nomatch hnone.symm.trans hch
  · exact congrArg ChanId.inst (Option.some.inj (hch.symm.trans hown))

theorem isolated_of_bus {s t : State} (h : ∀ k, t.bus k = s.bus k) : Isolated n m s t :=
  ⟨h m, fun hs d ch hch => hs d ch (h n ▸ hch)⟩

/-- A change of neither instance. -/
theorem isolated_of_eq {s t : State} (h1 : t.bus1 = s.bus1) (h2 : t.bus2 = s.bus2) : Isolated n m s t :=
  isolated_of_bus fun k => by
    cases k with
    | one => exact h1
    | two => exact h2

theorem Isolated.refl (s : State) : Isolated n m s s := isolated_of_eq rfl rfl

theorem Isolated.trans {s t u : State} (h : Isolated n m s t) (k : Isolated n m t u) : Isolated n m s u :=
  ⟨k.other.trans h.other, fun hs => k.refs (h.refs hs)⟩

theorem isolated_log (s : State) (a : Access) : Isolated n m s (s.log a) := isolated_of_eq rfl rfl

theorem isolated_modBank (s : State) (f : Bank → Bank) : Isolated n m s (s.modBank f) :=
  isolated_of_bus (State.modBank_bus s f)

/-- A change of an instance other than `m` that leaves its references. -/
theorem isolated_modBus (hk : m ≠ k) (s : State) {f : Bus → Bus} (htx : (f (s.bus k)).dmaTx = (s.bus k).dmaTx)
    (hrx : (f (s.bus k)).dmaRx = (s.bus k).dmaRx) : Isolated n m s (s.modBus k f) where
  other := State.bus_modBus_other s hk f
  refs hs d ch hch := by
    have hrefs (d : Dir) : (f (s.bus k)).chanRef d = (s.bus k).chanRef d := by
      cases d with
      | tx => exact htx
      | rx => exact hrx
    exact hs d ch ((State.modBus_keeps (·.chanRef d) s k (hrefs d) n).symm.trans hch)

theorem isolated_modCtrl (hk : m ≠ k) (s : State) (f : Ctrl → Ctrl) : Isolated n m s (s.modCtrl k f) :=
  isolated_modBus hk s rfl rfl

theorem isolated_modCtrl_log (hk : m ≠ k) (s : State) (f : Ctrl → Ctrl) (a : Access) :
    Isolated n m s ((s.modCtrl k f).log a) :=
  (isolated_modCtrl hk s f).trans (isolated_log _ a)

theorem isolated_clrReg (hk : m ≠ k) (r : Reg) (v : Half) (s : State) : Isolated n m s (clrReg k r v s) := by
  cases r with
  | srP => exact ((isolated_modCtrl hk s _).trans (isolated_modBus hk _ rfl rfl)).trans (isolated_log _ _)
  | _ => exact isolated_modCtrl_log hk s _ _

theorem isolated_modChan_log (s : State) {ch : ChanId} (hch : m ≠ ch.inst) (f : Chan → Chan) (a : Access) :
    Isolated n m s ((s.modChan ch f).log a) := by
  obtain ⟨k, d⟩ := ch
  cases d with
  | tx => exact (isolated_modBus hch s rfl rfl).trans (isolated_log _ a)
  | rx => exact (isolated_modBus hch s rfl rfl).trans (isolated_log _ a)

theorem Bus.chanRef_attach (n : Inst) (d d' : Dir) (b : Bus) :
    (b.attach n d).chanRef d' = if d' = d then some ⟨n, d⟩ else b.chanRef d' := by
  cases d <;> cases d' <;> rfl

/-- ATTACH gives an instance its own channel (R113). -/
theorem isolated_attach (h : m ≠ n) (d : Dir) (s : State) : Isolated n m s (s.modBus n (Bus.attach n d)) where
  other := State.bus_modBus_other s h _
  refs hs d' ch hch := by
    rw [State.bus_modBus_same, Bus.chanRef_attach] at hch
    split at hch
    · cases hch
      rfl
    · exact hs d' ch hch

theorem isolated_engineStep {ch : ChanId} (hch : m ≠ ch.inst) (s : State) : Isolated n m s (engineStep ch s) := by
  obtain ⟨k, d⟩ := ch
  unfold engineStep
  split
  · cases d with
    | tx => exact (isolated_modCtrl hch s _).trans (isolated_modChan_log _ (ch := ⟨k, .tx⟩) hch _ _)
    | rx => exact isolated_modChan_log s (ch := ⟨k, .rx⟩) hch _ _
  · exact .refl s

/-- A move that is not about `m` leaves it (R156). -/
theorem isolated_quietMove {x : Move} (hx : movesInst m x = false) (s : State) : Isolated n m s (quietMove x s) := by
  cases x with
  | envSrP k _ | envSrS k _ | envDr k _ | envClrStart k | envClrStop k | envEv k _ | envEr k _ =>
    have hk : m ≠ k := fun h => by simp [movesInst, h] at hx
    simp only [quietMove, envEventLine, envErrorLine, State.modCtrl]
    exact isolated_modBus hk s rfl rfl
  | engine ch =>
    have hk : m ≠ ch.inst := fun h => by simp [movesInst, h] at hx
    exact isolated_engineStep hk s
  | tick _ | hostStore _ _ | hostArg0 _ | hostArg1 _ | hostIssue _ | fire _ | issueIrq _ | starve _ =>
    exact isolated_of_eq rfl rfl

/-! ## A whole command -/

/-- A state within `A` and `c` in which the references of `n` are its own. -/
def WithinOwn (n : Inst) (A : Move → Bool) (c : Config) (s : State) : Prop := Within A c s ∧ OwnRefs n s

theorem Moves.isolated {R : State → State → Prop} {f : State → State} (hf : Moves (Within A c) R f)
    (hi : ∀ s, Isolated n m s (f s)) : Moves (WithinOwn n A c) (Isolated n m) f := fun s ⟨hw, ho⟩ =>
  ⟨⟨(hf s hw).1, (hi s).refs ho⟩, hi s⟩

/-- No primitive of a command on `n` changes another instance: the channels it uses are `n`'s own. -/
theorem isolated_closed (h : m ≠ n) : Closed (WithinOwn n A c) (Isolated n m) c (·.inst = n) n .all :=
  have F := frozen_closed (A := A) (c := c) n
  { cfg := fun _ hs => hs.1.1
    refl := .refl
    trans := fun _ _ _ => .trans
    ref := fun _ d ch hs hch => hs.2 d ch hch
    read := fun r => (F.read r).isolated fun s => isolated_modCtrl_log h s _ _
    write := fun r b => (F.write r b).isolated fun s => isolated_modCtrl_log h s _ _
    set := fun v hv => (F.set v hv).isolated fun s => isolated_modCtrl_log h s _ _
    clr := fun v hv => (F.clr v hv).isolated (isolated_clrReg h _ _)
    setDma := F.setDma.isolated fun s => isolated_modCtrl_log h s _ _
    clrErr := F.clrErr.isolated (isolated_clrReg h _ _)
    pulseSet := fun hu => (F.pulseSet hu).isolated fun s => isolated_modCtrl_log h s _ _
    pulseClr := fun hu => (F.pulseClr hu).isolated (isolated_clrReg h _ _)
    writeCtl2 := fun hu => (F.writeCtl2 hu).isolated fun s => isolated_modCtrl_log h s _ _
    writeTrise := fun hu => (F.writeTrise hu).isolated fun s => isolated_modCtrl_log h s _ _
    writeOar := fun hu => (F.writeOar hu).isolated fun s => isolated_modCtrl_log h s _ _
    writeCcr := fun hu => (F.writeCcr hu).isolated fun s => isolated_modCtrl_log h s _ _
    record := fun d v regs => (F.record d v regs).isolated fun _ => isolated_of_eq rfl rfl
    log := fun a => (F.log a).isolated fun s => isolated_log s a
    phase := fun hu p => (F.phase hu p).isolated fun s => isolated_modBus h s rfl rfl
    lock := fun hu v => (F.lock hu v).isolated fun s => isolated_modBus h s rfl rfl
    lastRx := fun v => (F.lastRx v).isolated fun s => isolated_modBus h s rfl rfl
    own := F.own.isolated fun s => isolated_modBus h s rfl rfl
    bound := F.bound.isolated fun s => isolated_modBus h s rfl rfl
    attach := fun d => (F.attach d).isolated (isolated_attach h d)
    chanPut := fun ch j b hch =>
      (F.chanPut ch j b trivial).isolated fun s => isolated_modChan_log s (hch.symm ▸ h) _ _
    chanEnable := fun ch j hch hj =>
      (F.chanEnable ch j trivial hj).isolated fun s => isolated_modChan_log s (hch.symm ▸ h) _ _
    irqLine := fun l => (F.irqLine l).isolated fun _ => isolated_of_eq rfl rfl
    result := fun f hf => (F.result f hf).isolated fun s => isolated_modBank s _
    failPhase := fun hu => (F.failPhase hu).isolated fun s => isolated_modBank s _
    start := fun b => (F.start b).isolated fun s => isolated_of_bus (clearResult_bus b s)
    free := F.free.isolated fun s => isolated_of_bus (freeRdata0_bus s)
    rdata0 := fun v => (F.rdata0 v).isolated fun s => isolated_modBank s _
    rdata1 := fun v => (F.rdata1 v).isolated fun s => isolated_modBank s _
    pollN := fun f => (F.pollN f).isolated fun s => isolated_modBank s _
    spin := fun hu => (F.spin hu).isolated fun _ => isolated_of_eq rfl rfl }

/-- The moves that are not about instance `m`; no interrupt is among them. -/
def notAbout (m : Inst) (x : Move) : Bool := !movesInst m x

theorem isolated_othersClosed :
    OthersClosed (WithinOwn n (notAbout m) c) (Isolated n m) c (·.inst = n) (notAbout m · = true) :=
  have F := frozen_othersClosed (A := notAbout m) (c := c)
  { refl := .refl
    trans := fun _ _ _ => .trans
    allowed := fun s hs => F.allowed s hs.1
    pop := fun s b rest hs hb => ⟨⟨(F.pop s b rest hs.1 hb).1, hs.2⟩, isolated_of_eq rfl rfl⟩
    quiet := fun x hx => (F.quiet x hx).isolated (isolated_quietMove (by simpa [notAbout] using hx))
    fire := fun _ h => nomatch h
    issue := fun _ h => nomatch h
    starve := fun _ h => nomatch h }

/-- A whole command on `n` leaves `m`, whatever the other agents do that is not about `m` (R156). -/
theorem exec_isolated {i : Instr} {s t : State} (h : m ≠ targetOf i) (hs : OnlyMoves (notAbout m) s)
    (ho : OwnRefs (targetOf i) s) (he : exec i s = .next t) : Isolated (targetOf i) m s t :=
  (exec_keeps isolated_othersClosed i ((isolated_closed h).weaken _) ⟨⟨rfl, hs⟩, ho⟩ he).2

end Sys2Proof.Machine

namespace Sys2Proof.Proofs

open Sys2Proof.Machine

/-- Settles O11: in a good instance the references are its own, and the command is `Isolated` from the other instance. -/
theorem instancesAreIsolated : Obligations.InstancesAreIsolated := by
  intro i m s t hm hgood hs he
  exact (exec_isolated hm hs (ownRefs_of_good hgood) he).other

end Sys2Proof.Proofs
end

section
/-! PROOFS. A guarded command releases the lock (R63, R109, R143). Where no interrupt is taken, a command goes through three kinds
of states: the instance free, before the lock is taken and after it is released; the lock held, where nothing is claimed of
`phase` and `lock`; and `phase` Idle again, just before the release. It is left early only with the instance free, or for
ever, or by a fault. -/
namespace Sys2Proof.Machine

open Sys2Proof.Claims

/-! ## Kinds of states -/

/-- The lock free and the phase Idle (R63, R105). -/
def Released (n : Inst) (s : State) : Prop := (s.bus n).lock = false ∧ (s.bus n).phase = .idle

/-- No interrupt from here on, and the instance free. -/
def Free (n : Inst) (s : State) : Prop := NoInterrupt s ∧ Released n s

/-- No interrupt from here on, and the phase Idle. -/
def PhaseIdle (n : Inst) (s : State) : Prop := NoInterrupt s ∧ (s.bus n).phase = .idle

variable {n : Inst} {P Q R : State → Prop} {α β : Type}

theorem noInterrupt_of_sched {s t : State} (h : t.sched = s.sched) (hs : NoInterrupt s) : NoInterrupt t := fun b hb =>
  hs b (h ▸ hb)

theorem Free.of_eq {s t : State} (h : Free n s) (hb : t.bus n = s.bus n) (hs : t.sched = s.sched) : Free n t := by
  obtain ⟨hni, hr⟩ := h
  exact ⟨noInterrupt_of_sched hs hni, by rwa [Released, hb]⟩

/-! ## The other agents, taking no interrupt -/

theorem others_ok {s : State} (hs : NoInterrupt s) : ∃ t, others s = .ok () t := by
  cases hb : s.sched with
  | nil => exact ⟨s, others_quiet hb⟩
  | cons b rest => exact ⟨_, others_batch hb (hs b (hb ▸ List.mem_cons_self))⟩

/-- They come back, with no interrupt to come, and write neither `phase` nor `lock`. -/
theorem others_noInterrupt {s : State} (hs : NoInterrupt s) :
    ∃ t, others s = .ok () t ∧ NoInterrupt t ∧ Unguarded (.plain []) s t := by
  obtain ⟨t, ht⟩ := others_ok hs
  have hk := (unguarded_othersClosed (c := s.cfg) (.plain [])).others s ⟨rfl, onlyMoves_of_noInterrupt hs⟩
  rw [ht] at hk
  obtain ⟨⟨-, hmoves⟩, hu⟩ := hk
  exact ⟨t, ht, fun b hb m hm => by simpa [notInterrupt] using hmoves b hb m hm, hu⟩

/-- The other agents come back to a state in `P`. -/
def Stable (P : State → Prop) : Prop := ∀ s, P s → ∃ t, others s = .ok () t ∧ P t

theorem stable_noInterrupt : Stable NoInterrupt := fun _ hs =>
  have ⟨t, ht, hni, _⟩ := others_noInterrupt hs
  ⟨t, ht, hni⟩

theorem stable_phaseIdle : Stable (PhaseIdle n) := fun _ ⟨hs, hp⟩ =>
  have ⟨t, ht, hni, hu⟩ := others_noInterrupt hs
  ⟨t, ht, hni, (hu.phase rfl n).trans hp⟩

theorem stable_free : Stable (Free n) := fun _ ⟨hs, hl, hp⟩ =>
  have ⟨t, ht, hni, hu⟩ := others_noInterrupt hs
  ⟨t, ht, hni, (hu.lock rfl n).trans hl, (hu.phase rfl n).trans hp⟩

/-! ## Runs -/

/-- How a command on `n` may be left before its last step. -/
def LeftReleased (n : Inst) : Exit → State → Prop
  | .ended, t => Released n t
  | .hung, t => t.stuck ≠ none
  | .fault _, _ => True

/-- From `P` the run goes on in `Q`, or leaves the command as `LeftReleased` says. -/
def Leads (n : Inst) (P Q : State → Prop) {α : Type} (x : Run α) : Prop :=
  ∀ s, P s →
    match x s with
    | .ok _ t => Q t
    | .error e t => LeftReleased n e t

theorem leads_bind {x : Run α} {f : α → Run β} (hx : Leads n P Q x) (hf : ∀ a, Leads n Q R (f a)) :
    Leads n P R (x >>= f) := by
  intro s hs
  have h := hx s hs
  rw [run_bind]
  cases hr : x s with
  | ok a t =>
    rw [hr] at h
    exact hf a t h
  | error e t =>
    rw [hr] at h
    exact h

theorem leads_pure (a : α) : Leads n P P (pure a : Run α) := fun _ hs => hs

theorem leads_look (f : State → α) : Leads n P P (look f) := fun _ hs => hs

theorem leads_tweak {f : State → State} (hf : ∀ s, P s → Q (f s)) : Leads n P Q (tweak f) := hf

theorem leads_ite {b : Prop} [Decidable b] {x y : Run α} (hx : Leads n P Q x) (hy : Leads n P Q y) :
    Leads n P Q (if b then x else y) := by split <;> assumption

theorem leads_runIf {x : Run Unit} (hx : Leads n P P x) (b : Bool) : Leads n P P (runIf b x) := leads_ite hx (leads_pure ())

theorem leads_others (hP : Stable P) : Leads n P P others := by
  intro s hs
  obtain ⟨t, ht, h⟩ := hP s hs
  rw [ht]
  exact h

theorem leads_atom (hP : Stable P) {f : State → α × State} (hf : ∀ s, P s → Q (f s).2) : Leads n P Q (atom others f) :=
  leads_bind (leads_others hP) fun _ => hf

theorem leads_update (hP : Stable P) {f : State → State} (hf : ∀ s, P s → Q (f s)) : Leads n P Q (update others f) :=
  leads_atom hP hf

/-! ## While the lock is held -/

/-- A part of a command that runs while the lock is held. -/
abbrev Held (n : Inst) {α : Type} (x : Run α) : Prop := Leads n NoInterrupt NoInterrupt x

theorem held_atom {f : State → α × State} (hf : ∀ s, (f s).2.sched = s.sched) : Held n (atom others f) :=
  leads_atom stable_noInterrupt fun s hs => noInterrupt_of_sched (hf s) hs

theorem held_update {f : State → State} (hf : ∀ s, (f s).sched = s.sched) : Held n (update others f) := held_atom hf

theorem held_modBus (k : Inst) (f : Bus → Bus) : Held n (update others (·.modBus k f)) :=
  held_update fun s => State.modBus_sched s k f

theorem held_modBank (f : Bank → Bank) : Held n (update others (·.modBank f)) :=
  held_update fun s => State.modBank_sched s f

theorem held_putResult (f : Half → Half) : Held n (putResult others f) := held_modBank _

theorem held_setPollN (f : Nat → Nat) : Held n (setPollN f) :=
  leads_tweak fun s hs => noInterrupt_of_sched (State.modBank_sched s _) hs

theorem held_regRead (r : Reg) : Held n (regRead others n r) := held_atom (readReg_sched n r)

theorem held_regWrite (r : Reg) (v : Half) : Held n (regWrite others n r v) := held_update (writeReg_sched n r v)

theorem held_regSet (r : Reg) (v : Half) : Held n (regSet others n r v) := held_update (setReg_sched n r v)

theorem held_regClr (r : Reg) (v : Half) : Held n (regClr others n r v) := held_update (clrReg_sched n r v)

theorem held_diag (k : DiagKind) (v : Word) (regs : List Half) : Held n (diag others k v regs) := held_update fun _ => rfl

theorem held_delayMs (d : Nat) : Held n (delayMs others d) := leads_runIf (held_update fun s => State.log_sched s _) _

theorem held_setPhase (p : Phase) : Held n (setPhase others n p) := held_modBus n _

theorem held_modChan_log (ch : ChanId) (f : Chan → Chan) (a : Access) :
    Held n (update others fun s => (s.modChan ch f).log a) :=
  held_update fun s => by simp [State.modChan_eq_modBus]

theorem held_decodeStatus : Held n (decodeStatus others n) :=
  leads_bind (leads_look _) fun _ => leads_bind (held_regRead _) fun _ =>
    leads_ite (leads_bind (held_regRead _) fun _ => leads_pure _) (leads_pure _)

theorem held_poll (cond : Word → Bool) (budget d : Nat) : Held n (poll others n cond budget d) := by
  refine leads_bind (held_setPollN _) fun _ => ?_
  induction budget with
  | zero => exact leads_pure _
  | succ k ih =>
    exact leads_bind held_decodeStatus fun _ => leads_ite (leads_pure _) <|
      leads_bind (held_delayMs d) fun _ => leads_bind (held_setPollN _) fun _ => ih

theorem held_resetTurn : Held n (resetTurn others n) :=
  leads_bind (leads_look _) fun _ => leads_bind (held_regRead _) fun _ => by
    split
    · exact leads_pure _
    · exact leads_bind (held_regRead _) fun _ => leads_pure _

/-- The loop ends, or leaves a command that never ends (R157). -/
theorem held_resetLoop (k : Nat) : Held n (resetLoop others n k) := by
  induction k with
  | zero => exact fun _ _ => Option.some_ne_none _
  | succ k ih => exact leads_bind held_resetTurn fun _ => leads_ite ih (leads_pure ())

theorem held_resetSeq : Held n (resetSeq others n) :=
  leads_bind (leads_look _) fun _ => leads_bind (held_regClr _ _) fun _ => leads_bind (held_regSet _ _) fun _ =>
    leads_bind (held_regClr _ _) fun _ => leads_bind (leads_look _) fun _ => leads_bind (held_resetLoop _) fun _ =>
    leads_bind (held_regClr _ _) fun _ => leads_bind (held_regWrite _ _) fun _ => leads_bind (held_regWrite _ _) fun _ =>
    leads_bind (held_update fun s => writeReg_sched n _ _ s) fun _ => held_regWrite _ _

/-! ## The release, and the exits -/

/-- `phase[i] <- Idle; release(i)` frees the instance, whatever the other agents do between the two. -/
theorem leads_finishGuarded : Leads n NoInterrupt (Free n) (finishGuarded others n) := by
  have hphase : Leads n NoInterrupt (PhaseIdle n) (setPhase others n .idle) :=
    leads_update stable_noInterrupt fun s hs => ⟨noInterrupt_of_sched (State.modBus_sched s n _) hs, by simp⟩
  have hrelease : Leads n (PhaseIdle n) (Free n) (release others n) :=
    leads_update stable_phaseIdle fun s ⟨hs, hp⟩ =>
      ⟨noInterrupt_of_sched (State.modBus_sched s n _) hs, by simp [Released, hp]⟩
  exact leads_bind hphase fun _ => hrelease

theorem held_failBusError (w : Caller) (k : ErrKind) (sf : Word) : Held n (failBusError others w n k sf) :=
  leads_bind (held_diag _ _ _) fun _ => leads_bind (held_putResult _) fun _ =>
    leads_runIf (leads_bind held_resetSeq fun _ => held_putResult _) _

theorem leads_failEnd {w : Caller} (hw : w.guarded = true) : Leads n NoInterrupt (Free n) (failEnd others w n) := by
  rw [failEnd, if_pos hw]
  exact leads_bind (held_update fun s => modResult_sched s _) fun _ => leads_finishGuarded

/-- The failure exit of a guarded command ends it with the instance free (R109, R143). -/
theorem leads_fail {w : Caller} (hw : w.guarded = true) (k : ErrKind) :
    Leads n NoInterrupt Q (fail others w n k : Run α) :=
  leads_bind (leads_look _) fun _ => leads_bind held_decodeStatus fun _ => leads_bind (held_diag _ _ _) fun _ =>
    leads_bind (leads_runIf (held_failBusError w k _) _) fun _ => leads_bind (held_putResult _) fun _ =>
    leads_bind (leads_failEnd hw) fun _ _ hs => hs.2

theorem held_failUnless {w : Caller} (hw : w.guarded = true) (k : ErrKind) (ok : Bool) :
    Held n (failUnless others w n k ok) :=
  leads_ite (leads_pure ()) (leads_fail hw k)

/-! ## The parts of the guarded commands -/

section
variable {w : Caller} (hw : w.guarded = true)
include hw

theorem held_generateStart : Held n (generateStart others w n) :=
  leads_bind (leads_look _) fun _ => leads_bind (held_poll _ _ _) fun _ => leads_bind (held_regSet _ _) fun _ =>
    leads_bind (held_poll _ _ _) fun _ => held_failUnless hw _ _

theorem held_sendAddress (d : Dir) (a : Addr7) : Held n (sendAddress others w n d a) :=
  leads_bind (leads_look _) fun _ => leads_bind (held_regWrite _ _) fun _ => by
    cases d with
    | tx => exact leads_bind (held_poll _ _ _) fun _ => held_failUnless hw _ _
    | rx => exact leads_pure ()

theorem held_transmitByte (b : Byte) : Held n (transmitByte others w n b) :=
  leads_bind (leads_look _) fun _ => leads_bind (held_regWrite _ _) fun _ => leads_bind (held_poll _ _ _) fun _ =>
    held_failUnless hw _ _

theorem held_receiveByte : Held n (receiveByte others w n) :=
  leads_bind (leads_look _) fun _ => leads_bind (held_poll _ _ _) fun _ => leads_bind (held_failUnless hw _ _) fun _ =>
    leads_bind (held_regRead _) fun _ => leads_bind (held_modBus n _) fun _ => leads_pure _

end

theorem held_generateStop : Held n (generateStop others n) := leads_bind (leads_look _) fun _ => held_regSet _ _

theorem held_readInner (k : Nat) : Held n (readInner others n k) := by
  induction k with
  | zero => exact leads_pure _
  | succ k ih =>
    exact leads_bind (leads_look _) fun _ => leads_bind held_decodeStatus fun _ => leads_ite (leads_pure _) <| leads_ite
      (leads_bind held_resetSeq fun _ => leads_bind (held_putResult _) fun _ => leads_pure _)
      (leads_bind (held_setPollN _) fun _ => ih)

theorem held_readOuter (k : Nat) : Held n (readOuter others n k) := by
  induction k with
  | zero => exact leads_pure _
  | succ k ih =>
    exact leads_bind (leads_look _) fun _ => leads_bind (held_setPollN _) fun _ => leads_bind (held_readInner _) fun _ =>
      leads_ite (leads_pure _) ih

theorem held_memRead (a : Word) : Held n (memRead others a) :=
  leads_bind (leads_others stable_noInterrupt) fun _ => leads_bind (leads_look _) fun b => by
    cases b with
    | some b => exact leads_bind (leads_tweak fun _ hs => hs) fun _ => leads_pure b
    | none => exact fun _ _ => trivial

theorem held_copyLoop (ch : ChanId) (src : Word) (k left : Nat) : Held n (copyLoop others ch src k left) := by
  induction left generalizing k with
  | zero => exact leads_pure ()
  | succ left ih =>
    exact leads_bind (held_memRead _) fun _ => leads_bind (held_modChan_log ch _ _) fun _ => ih _

theorem held_tcLoop (ch : ChanId) (k : Nat) : Held n (tcLoop others ch k) := by
  induction k with
  | zero => exact leads_pure _
  | succ k ih =>
    exact leads_bind (held_atom fun _ => rfl) fun _ => leads_bind (held_setPollN _) fun _ => leads_ite (leads_pure _) ih

/-! ## Before the lock is taken and after it is released -/

theorem free_modBank (f : Bank → Bank) : Leads n (Free n) (Free n) (update others (·.modBank f)) :=
  leads_update stable_free fun s hs => hs.of_eq (State.modBank_bus s f n) (State.modBank_sched s f)

theorem free_succeed : Leads n (Free n) (Free n) (succeed others) := free_modBank _

/-- A refusal leaves the instance as free as it found it. -/
theorem leads_refused (r : RefuseCode) : Leads n (Free n) Q (refused r : Run α) := fun _ hs =>
  (hs.of_eq (by simp) (by simp) : Free n (freeRdata0 _)).2

theorem free_enter (k : Bool) : Leads n (Free n) (Free n) (enter others n k) :=
  leads_bind (leads_update stable_free fun s hs => hs.of_eq (clearResult_bus k s n) (clearResult_sched k s)) fun _ =>
    leads_bind (leads_others stable_free) fun _ => leads_bind (leads_look _) fun _ =>
    leads_ite (leads_pure ()) (leads_refused _)

theorem free_needChannel (d : Dir) : Leads n (Free n) (Free n) (needChannel others n d) :=
  leads_bind (leads_others stable_free) fun _ => leads_bind (leads_look _) fun ref => by
    cases ref with
    | some ch => exact leads_pure ch
    | none => exact leads_refused _

theorem leads_acquire : Leads n (Free n) NoInterrupt (acquire others n) :=
  leads_bind (leads_others stable_free) fun _ => leads_bind (leads_look _) fun _ =>
    leads_ite (leads_refused _) (leads_tweak fun s hs => noInterrupt_of_sched (State.modBus_sched s n _) hs.1)

/-! ## The guarded commands -/

theorem free_writeRun (n : Inst) (a : Addr7) (b : Byte) : Leads n (Free n) (Free n) (writeRun others n a b) :=
  leads_bind (free_enter _) fun _ => leads_bind leads_acquire fun _ => leads_bind (held_setPhase _) fun _ =>
    leads_bind (leads_look _) fun _ => leads_bind (held_poll _ _ _) fun _ => leads_bind (held_failUnless rfl _ _) fun _ =>
    leads_bind (held_setPhase _) fun _ => leads_bind (held_generateStart rfl) fun _ => leads_bind (held_setPhase _) fun _ =>
    leads_bind (held_sendAddress rfl _ a) fun _ => leads_bind (held_setPhase _) fun _ =>
    leads_bind (held_transmitByte rfl b) fun _ => leads_bind (held_setPhase _) fun _ =>
    leads_bind held_generateStop fun _ => leads_bind leads_finishGuarded fun _ => free_succeed

theorem free_readRun (n : Inst) (a : Addr7) : Leads n (Free n) (Free n) (readRun others n a) :=
  leads_bind (free_enter _) fun _ => leads_bind leads_acquire fun _ => leads_bind (held_setPhase _) fun _ =>
    leads_bind (leads_look _) fun _ => leads_bind (held_readOuter _) fun _ => leads_bind (held_failUnless rfl _ _) fun _ =>
    leads_bind (held_setPhase _) fun _ => leads_bind (held_generateStart rfl) fun _ => leads_bind (held_setPhase _) fun _ =>
    leads_bind (held_sendAddress rfl _ a) fun _ => leads_bind (held_setPhase _) fun _ =>
    leads_bind (held_receiveByte rfl) fun _ => leads_bind (held_setPhase _) fun _ =>
    leads_bind held_generateStop fun _ => leads_bind leads_finishGuarded fun _ => leads_bind (free_modBank _) fun _ =>
    free_succeed

theorem free_mtxRun (n : Inst) (a : Addr7) : Leads n (Free n) (Free n) (mtxRun others n a) :=
  leads_bind (leads_look _) fun _ => leads_bind (leads_look _) fun _ => leads_bind (free_enter _) fun _ =>
    leads_bind (free_needChannel _) fun ch => leads_bind leads_acquire fun _ => leads_bind (leads_look _) fun _ =>
    leads_bind (held_copyLoop ch _ _ _) fun _ => leads_bind (held_modBank _) fun _ => leads_bind (held_setPhase _) fun _ =>
    leads_bind (held_generateStart rfl) fun _ => leads_bind (held_setPhase _) fun _ =>
    leads_bind (held_sendAddress rfl _ a) fun _ => leads_bind (held_setPhase _) fun _ =>
    leads_bind (held_regSet _ _) fun _ => leads_bind (held_modChan_log ch _ _) fun _ =>
    leads_bind (held_setPollN _) fun _ => leads_bind (held_tcLoop ch _) fun _ =>
    leads_bind (held_failUnless rfl _ _) fun _ => leads_bind leads_finishGuarded fun _ => free_succeed

theorem free_srxRun (n : Inst) (a : Addr7) : Leads n (Free n) (Free n) (srxRun others n a) :=
  leads_bind (free_enter _) fun _ => leads_bind (free_needChannel _) fun ch => leads_bind leads_acquire fun _ =>
    leads_bind (leads_look _) fun _ => leads_bind (held_modBank _) fun _ => leads_bind (held_modBank _) fun _ =>
    leads_bind (held_setPhase _) fun _ => leads_bind (held_poll _ _ _) fun _ =>
    leads_bind (held_failUnless rfl _ _) fun _ => leads_bind (held_poll _ _ _) fun _ =>
    leads_bind held_decodeStatus fun _ => leads_bind (held_diag _ _ _) fun _ => leads_bind (held_setPhase _) fun _ =>
    leads_bind (held_regSet _ _) fun _ => leads_bind (held_modChan_log ch _ _) fun _ =>
    leads_bind leads_finishGuarded fun _ => free_succeed

theorem free_runInstr {i : Instr} (hg : isGuarded i = true) :
    Leads (targetOf i) (Free (targetOf i)) (Free (targetOf i)) (runInstr others i) := by
  cases i with
  | write n a b => exact free_writeRun n a b
  | read n a => exact free_readRun n a
  | mtx n a => exact free_mtxRun n a
  | srx n a => exact free_srxRun n a
  | _ => exact absurd hg Bool.false_ne_true

/-- A command that has ended, and not stopped for ever, leaves the instance free. -/
theorem released_of_next {x : Run Unit} (hx : Leads n P (Free n) x) {s t : State} (hs : P s)
    (he : toOutcome (x s) = .next t) (ht : t.stuck = none) : Released n t := by
  have h := hx s hs
  cases hr : x s with
  | ok a u =>
    rw [hr] at h he
    cases he
    exact h.2
  | error e u =>
    rw [hr] at h he
    cases e with
    | ended =>
      cases he
      exact h
    | hung =>
      cases he
      exact absurd ht h
    | fault f => cases he

end Sys2Proof.Machine

namespace Sys2Proof.Proofs

open Sys2Proof.Machine

/-- Settles O13: the command starts with the instance free, and every way out of it leaves it so, or for ever running. -/
theorem guardedCommandsReleaseTheLock : Obligations.GuardedCommandsReleaseTheLock := by
  intro i s t hg hs _ hl hp he ht
  rw [exec_eq_runInstr] at he
  exact released_of_next (free_runInstr hg) ⟨hs, hl, hp⟩ he ht

end Sys2Proof.Proofs
end

section
/-! PROOFS. The encoding (R71 to R75, R79, R82): the six fields of a word determine it and are determined by it, a row of the
opcode map is its OP value and the fields it leaves zero, and the decoder and the encoder agree on every row. -/
namespace Sys2Proof

/-! ## A word and its fields -/

theorem toNat_append_eq_add {v w : Nat} (x : BitVec v) (y : BitVec w) : (x ++ y).toNat = x.toNat * 2 ^ w + y.toNat := by
  rw [BitVec.toNat_append, ← Nat.shiftLeft_add_eq_or_of_lt y.isLt, Nat.shiftLeft_eq]

/-- Each field of a word counts by its lowest bit (R71). -/
theorem toNat_joinWord (f : Fields) :
    (joinWord f).toNat = f.op.toNat * 2 ^ 24 + f.inst.toNat * 2 ^ 23 + f.a7.toNat * 2 ^ 16 + f.z.toNat * 2 ^ 9 +
      f.dir.toNat * 2 ^ 8 + f.d8.toNat := by
  simp only [joinWord, toNat_append_eq_add]
  omega

theorem splitWord_joinWord (f : Fields) : splitWord (joinWord f) = f := by
  obtain ⟨op, inst, a7, z, dir, d8⟩ := f
  simp only [splitWord, Fields.mk.injEq, ← BitVec.toNat_inj, BitVec.extractLsb'_toNat, toNat_joinWord]
  omega

theorem joinWord_splitWord (w : Word) : joinWord (splitWord w) = w := by
  simp only [← BitVec.toNat_inj, toNat_joinWord, splitWord, BitVec.extractLsb'_toNat]
  omega

theorem splitWord_injective : Function.Injective splitWord := Function.LeftInverse.injective joinWord_splitWord

/-! ## The rows of the opcode map -/

/-- The word a row compares with holds its OP value and zero in every other field (R72). -/
theorem splitWord_match (op : Byte) : splitWord (op ++ (0 : BitVec 24)) = ⟨op, 0, 0, 0, 0, 0⟩ := by
  have hjoin : op ++ (0 : BitVec 24) = joinWord ⟨op, 0, 0, 0, 0, 0⟩ := by
    rw [← BitVec.toNat_inj, toNat_joinWord, toNat_append_eq_add]
    simp
  rw [hjoin, splitWord_joinWord]

/-- A row selects the words with its OP value and zero in the fields its format does not free (R72, R79). -/
theorem selects_iff (r : Row) (w : Word) :
    r.selects w = true ↔ (splitWord w).op = r.op ∧ fieldsFit r.format (splitWord w) = true := by
  obtain ⟨op, fmt⟩ := r
  have h8 (x : BitVec 8) : x &&& 255#8 = x := BitVec.and_allOnes
  have h7 (x : BitVec 7) : x &&& 127#7 = x := BitVec.and_allOnes
  have h1 (x : BitVec 1) : x &&& 1#1 = x := BitVec.and_allOnes
  rw [Row.selects, beq_iff_eq, ← splitWord_injective.eq_iff, splitWord_match]
  cases fmt <;> simp [splitWord, fieldsFit, Format.mask, BitVec.extractLsb'_and, h8, h7, h1, and_assoc]

theorem wordLegal_iff (w : Word) :
    wordLegal w = true ↔
      ∃ r ∈ opcodeRows, (splitWord w).op = r.op ∧ fieldsFit r.format (splitWord w) = true := by
  simp only [wordLegal, List.any_eq_true, selects_iff]

/-! ## The decoder and the encoder on a row -/

theorem bitOfInst_instOfBit : ∀ b : BitVec 1, bitOfInst (instOfBit b) = b := by decide

theorem bitOfDir_dirOfBit : ∀ b : BitVec 1, bitOfDir (dirOfBit b) = b := by decide

/-- The fields of the encoder for a command of this format whose operands are those of `f` (R72, R73). -/
def Format.encoded (f : Fields) : Format → Fields
  | .n => fieldsN f.op (instOfBit f.inst)
  | .a => fieldsA f.op (instOfBit f.inst) f.a7
  | .ad => fieldsAD f.op (instOfBit f.inst) (dirOfBit f.dir) f.a7
  | .b => fieldsB f.op (instOfBit f.inst) f.d8
  | .ab => fieldsAB f.op (instOfBit f.inst) f.a7 f.d8
  | .d => fieldsD f.op (instOfBit f.inst) (dirOfBit f.dir)

theorem encoded_of_fieldsFit {fmt : Format} {f : Fields} (h : fieldsFit fmt f = true) : fmt.encoded f = f := by
  obtain ⟨op, inst, a7, z, dir, d8⟩ := f
  cases fmt <;> simp_all [fieldsFit, Format.encoded, fieldsN, fieldsA, fieldsAD, fieldsB, fieldsAB, fieldsD,
    bitOfInst_instOfBit, bitOfDir_dirOfBit]

theorem decodeRow_eq_ok_iff {fmt : Format} {f : Fields} {i j : Instr} :
    decodeRow fmt f i = .ok j ↔ fieldsFit fmt f = true ∧ i = j := by
  unfold decodeRow
  split <;> simp_all

/-- What an accepted row of the decoder says of the fields, where the map lists it and the encoder has it too. -/
theorem row_of_decodeRow {f : Fields} {op : Nat} {fmt : Format} {i j : Instr} (hop : f.op.toNat = op)
    (hrow : ⟨BitVec.ofNat 8 op, fmt⟩ ∈ opcodeRows)
    (henc : encodeFields i = fmt.encoded { f with op := BitVec.ofNat 8 op }) (h : decodeRow fmt f i = .ok j) :
    (∃ r ∈ opcodeRows, f.op = r.op ∧ fieldsFit r.format f = true) ∧ encodeFields j = f := by
  subst hop
  rw [BitVec.ofNat_toNat, BitVec.setWidth_eq] at hrow henc
  obtain ⟨hfit, rfl⟩ := decodeRow_eq_ok_iff.1 h
  exact ⟨⟨_, hrow, rfl, hfit⟩, henc.trans (encoded_of_fieldsFit hfit)⟩

/-- The decoder accepts fields of a row only, and as the command whose fields they are. -/
theorem row_of_decodeFields {f : Fields} {i : Instr} (h : decodeFields f = .ok i) :
    (∃ r ∈ opcodeRows, f.op = r.op ∧ fieldsFit r.format f = true) ∧ encodeFields i = f := by
  unfold decodeFields at h
  split at h
  case h_22 => cases h
  all_goals exact row_of_decodeRow ‹_› (by decide) rfl h

/-- Every row of the map is a row of the decoder. -/
theorem decodeFields_of_row {r : Row} (hr : r ∈ opcodeRows) {f : Fields} (hop : f.op = r.op) :
    ∃ i, decodeFields f = decodeRow r.format f i := by
  obtain ⟨op, inst, a7, z, dir, d8⟩ := f
  subst hop
  fin_cases hr <;> exact ⟨_, rfl⟩

theorem decodeFields_encodeFields : ∀ i, decodeFields (encodeFields i) = .ok i
  | .status n => Laws.FieldsFit.status n
  | .iseq n => Laws.FieldsFit.iseq n
  | .iseqm n => Laws.FieldsFit.iseqm n
  | .gstart n => Laws.FieldsFit.gstart n
  | .saddr n d a => Laws.FieldsFit.saddr n d a
  | .txbyte n b => Laws.FieldsFit.txbyte n b
  | .rxbyte n => Laws.FieldsFit.rxbyte n
  | .gstop n => Laws.FieldsFit.gstop n
  | .write n a b => Laws.FieldsFit.write n a b
  | .read n a => Laws.FieldsFit.read n a
  | .attach n d => Laws.FieldsFit.attach n d
  | .mtx n a => Laws.FieldsFit.mtx n a
  | .srx n a => Laws.FieldsFit.srx n a
  | .tcq n d => Laws.FieldsFit.tcq n d
  | .init n => Laws.FieldsFit.init n
  | .reset n => Laws.FieldsFit.reset n
  | .enable n => Laws.FieldsFit.enable n
  | .disable n => Laws.FieldsFit.disable n
  | .pstat n => Laws.FieldsFit.pstat n
  | .evh n => Laws.FieldsFit.evh n
  | .erh n => Laws.FieldsFit.erh n

/-! ## Words -/

theorem decode_encode (i : Instr) : decode (encode i) = .ok i := by
  rw [decode, encode, splitWord_joinWord, decodeFields_encodeFields]

theorem encode_of_decode {w : Word} {i : Instr} (h : decode w = .ok i) : encode i = w := by
  rw [encode, (row_of_decodeFields h).2, joinWord_splitWord]

theorem decode_ok_iff_wordLegal (w : Word) : (∃ i, decode w = .ok i) ↔ wordLegal w = true := by
  rw [wordLegal_iff]
  constructor
  · rintro ⟨i, h⟩
    exact (row_of_decodeFields h).1
  · rintro ⟨r, hr, hop, hfit⟩
    obtain ⟨i, hi⟩ := decodeFields_of_row hr hop
    exact ⟨i, hi.trans (decodeRow_eq_ok_iff.2 ⟨hfit, rfl⟩)⟩

theorem decode_error_of_not_wordLegal {w : Word} (h : wordLegal w = false) : ∃ e, decode w = .error e := by
  cases hd : decode w with
  | error e => exact ⟨e, rfl⟩
  | ok i =>
    have hlegal := (decode_ok_iff_wordLegal w).1 ⟨i, hd⟩
    rw [h] at hlegal
    cases hlegal

end Sys2Proof

namespace Sys2Proof.Proofs

/-- Settles O1: splitting undoes joining, and the fields of each command decode to it. -/
theorem decodeOfEncodeIsIdentity : Obligations.DecodeOfEncodeIsIdentity := by
  intro i _
  exact decode_encode i

/-- Settles O2: the decoder's rows are those of the opcode map, and what a row accepts is what the encoder joins. -/
theorem decoderAcceptsExactlyLegalWords : Obligations.DecoderAcceptsExactlyLegalWords := by
  intro w
  exact ⟨decode_ok_iff_wordLegal w, fun _ => encode_of_decode⟩

/-- Settles O3: the nine words are evaluated. -/
theorem writtenWordsDecode : Obligations.WrittenWordsDecode := by
  unfold Obligations.WrittenWordsDecode
  decide

end Sys2Proof.Proofs
end

section
/-! PROOFS. Refusals before any access: a word that selects no row (R79, R81(2)) and a command other than INIT on an unbound
instance (R80, R81(3)). -/
namespace Sys2Proof.Machine

open Sys2Proof.Claims

/-- A refusal right after issue leaves the same state whether or not issue kept RDATA0, which the refusal frees (R32, R141). -/
theorem refused_after_clearResult {α : Type} (r : RefuseCode) (k : Bool) (s : State) :
    (refused r : Run α) (clearResult k s) = .error .ended (refusedAfterIssue r s) := by
  have hstate : freeRdata0 ((clearResult k s).modResult (withCode · (refuseCode r))) = refusedAfterIssue r s := by
    cases hp : s.port <;> simp [refusedAfterIssue, freeRdata0, clearResult, State.modResult, State.modBank, hp]
  rw [refused, hstate]

variable {n : Inst} {s : State}

/-- On an unbound instance issue ends in NOTBOUND (R80, R81(3)). -/
theorem enter_unbound (hq : Quiet s) (hb : (s.bus n).bound = false) (k : Bool) :
    enter others n k s = .error .ended (refusedAfterIssue .notBound s) := by
  have hb' : ((clearResult k s).bus n).bound = false := by rw [clearResult_bus, hb]
  rw [enter, startCommand, bind_of_ok (update_quiet hq _), checkBound, bind_of_ok (others_quiet (quiet_clearResult hq k)),
    bind_of_ok (look_run _ _), hb', if_neg Bool.false_ne_true, refused_after_clearResult]

/-- Every command but INIT begins with `enter`, after it has latched its operands (R80, R81). -/
theorem exec_unbound {i : Instr} (hq : Quiet s) (hi : isInit i = false) (hb : (s.bus (targetOf i)).bound = false) :
    exec i s = .next (refusedAfterIssue .notBound s) := by
  have henter := enter_unbound hq hb
  suffices h : runInstr others i s = .error .ended (refusedAfterIssue .notBound s) by rw [exec_eq_runInstr, h, toOutcome]
  cases i with
  | init n => exact absurd hi.symm Bool.false_ne_true
  | iseq n => exact (bind_of_ok (look_run _ s)).trans (bind_of_error (henter _))
  | iseqm n | mtx n _ =>
    exact (bind_of_ok (look_run _ s)).trans ((bind_of_ok (look_run _ s)).trans (bind_of_error (henter _)))
  | _ => exact bind_of_error (henter _)

theorem illegalCommand_quiet (hq : Quiet s) :
    illegalCommand others s = .error .ended (refusedAfterIssue .illegal s) := by
  rw [illegalCommand, startCommand, bind_of_ok (update_quiet hq _),
    bind_of_ok (others_quiet (quiet_clearResult hq false)), refused_after_issue]

/-- The step of a state whose foreground port holds an illegal word refuses it (R79, R81(2)). -/
theorem step_of_illegal {w : Word} (hq : Quiet s) (hs : s.stuck = none) (hf : s.fgCmd = some w) (hw : wordLegal w = false) :
    step s = .next (refusedAfterIssue .illegal (acceptCommand s)) := by
  obtain ⟨e, he⟩ := decode_error_of_not_wordLegal hw
  have hrun : illegalCommand others (acceptCommand s) = .error .ended (refusedAfterIssue .illegal (acceptCommand s)) :=
    illegalCommand_quiet hq
  simp only [step, hs, hf, he, illegalStep, hrun, toOutcome]

end Sys2Proof.Machine

namespace Sys2Proof.Proofs

open Sys2Proof.Machine

/-- Settles O17: issue clears RESULT, and the refusal writes ILLEGAL (0xA). -/
theorem illegalWordIsRefused : Obligations.IllegalWordIsRefused := by
  intro s w hq hs hf hw
  exact ⟨_, step_of_illegal hq hs hf hw, refusedWith_refusedAfterIssue .illegal (acceptCommand s)⟩

/-- Settles O18: issue clears RESULT, and the first check writes NOTBOUND (0xB). -/
theorem unboundInstanceIsRefused : Obligations.UnboundInstanceIsRefused := by
  intro i s hq hi hb
  exact ⟨_, exec_unbound hq hi hb, refusedWith_refusedAfterIssue .notBound s⟩

end Sys2Proof.Proofs
end

section
/-! PROOFS. The address byte (R76) and the expected patterns (R78). -/
namespace Sys2Proof.Machine

/-- The address stands in bits 7:1 of the address byte and the direction in bit 0 (R76). -/
theorem addressByte_eq_append (d : Dir) (a : Addr7) : addressByte d a = a ++ bitOfDir d := by
  rw [BitVec.append_def, BitVec.shiftLeftZeroExtend_eq]
  cases d <;> rfl

theorem toNat_addressByte (d : Dir) (a : Addr7) : (addressByte d a).toNat = 2 * a.toNat + (bitOfDir d).toNat := by
  rw [addressByte_eq_append, toNat_append_eq_add, pow_one, Nat.mul_comm]

end Sys2Proof.Machine

namespace Sys2Proof.Proofs

open Sys2Proof.Machine

/-- Settles O58: the address byte is the address and the direction bit side by side, and the nine patterns are evaluated. -/
theorem addressByteAndPatternValues : Obligations.AddressByteAndPatternValues := by
  refine ⟨fun a => ⟨toNat_addressByte .tx a, toNat_addressByte .rx a⟩, ?_⟩
  decide

end Sys2Proof.Proofs
end

section
/-! PROOFS. The Status Decoder's commands where no other agent moves: STATUS, ISEQ and ISEQM make one decode (R90 to R93), and
beyond what it does they change the result registers alone. -/
namespace Sys2Proof.Machine

open Sys2Proof.Claims

variable {n : Inst} {s t : State}

/-! ## The value of a decode -/

theorem composite_eq_or (v p : Half) : composite v p = v.setWidth 32 <<< 16 ||| p.setWidth 32 := by
  rw [composite, BitVec.append_def, BitVec.shiftLeftZeroExtend_eq]
  rfl

theorem suppressed_eq_setWidth (p : Half) : suppressed p = p.setWidth 32 := (BitVec.setWidth_eq_append (by decide)).symm

theorem decodedValue_eq_ite (s : State) (n : Inst) :
    decodedValue s n = if gateOpen s.cfg (s.bus n).ctrl.srP
      then (s.bus n).ctrl.srS.setWidth 32 <<< 16 ||| (s.bus n).ctrl.srP.setWidth 32
      else (s.bus n).ctrl.srP.setWidth 32 := by
  rw [decodedValue, composite_eq_or, suppressed_eq_setWidth]

/-! ## One read -/

section
variable (n : Inst) (r : Reg) (s : State)

@[simp] theorem readReg_cfg : (readReg n r s).2.cfg = s.cfg := State.modBus_cfg s n _
@[simp] theorem readReg_bank : (readReg n r s).2.bank = s.bank := State.modBus_bank s n _
@[simp] theorem readReg_sink : (readReg n r s).2.sink = s.sink := State.modBus_sink s n _

@[simp] theorem readReg_trace : (readReg n r s).2.trace = s.trace ++ [.regRead n r ((s.bus n).ctrl.get r)] := by
  rw [readReg_frame, State.log_trace, State.modCtrl, State.modBus_trace]

@[simp] theorem readReg_bus_same :
    (readReg n r s).2.bus n = { s.bus n with ctrl := (s.bus n).ctrl.afterRead s.cfg r } := by
  rw [readReg_frame, State.log_bus, State.modCtrl, State.bus_modBus_same]

theorem keptOutside_readReg : KeptOutside n s (readReg n r s).2 :=
  keptOutside_trans (keptOutside_modBus s _) (keptOutside_log _ _)

end

/-! ## The state after a decode -/

/-- The controller after one decode: the read order clears SEQ_CLEAR where SR_S was read, and `p_read` is left set where it
was not (R55, R90). -/
def Ctrl.afterDecode (cfg : Config) (c : Ctrl) : Ctrl :=
  { c with srP := if gateOpen cfg c.srP then c.srP &&& ~~~cfg.seqClear else c.srP, pRead := !gateOpen cfg c.srP }

theorem Ctrl.afterDecode_of_open {cfg : Config} {c : Ctrl} (h : gateOpen cfg c.srP = true) :
    c.afterDecode cfg = (c.afterRead cfg .srP).afterRead cfg .srS := by
  simp [afterDecode, afterRead, h]

theorem Ctrl.afterDecode_of_closed {cfg : Config} {c : Ctrl} (h : gateOpen cfg c.srP = false) :
    c.afterDecode cfg = c.afterRead cfg .srP := by
  simp [afterDecode, afterRead, h]

/-- From `s` to `t` one decode of instance `n` was made; beyond it only RESULT, RDATA0 and RDATA1 of the port in use may
differ. -/
structure DecodedOnce (n : Inst) (s t : State) : Prop where
  ctrl : OnlyCtrl n s t ((s.bus n).ctrl.afterDecode s.cfg)
  kept : KeptOutside n s t
  pollN : t.bank.pollN = s.bank.pollN
  sink : t.sink = s.sink
  trace : t.trace = s.trace ++ decodeTrace s n

namespace DecodedOnce

/-- A command's result may be written after its decode. -/
theorem modBank (h : DecodedOnce n s t) {f : Bank → Bank} (h0 : (f t.bank).arg0 = t.bank.arg0)
    (h1 : (f t.bank).arg1 = t.bank.arg1) (hp : (f t.bank).pollN = t.bank.pollN) : DecodedOnce n s (t.modBank f) where
  ctrl := (State.modBank_bus t f n).trans h.ctrl
  kept := keptOutside_trans h.kept (keptOutside_modBank t h0 h1)
  pollN := by rw [State.bank_modBank, hp, h.pollN]
  sink := (State.modBank_sink t f).trans h.sink
  trace := (State.modBank_trace t f).trans h.trace

theorem modResult (h : DecodedOnce n s t) (f : Half → Half) : DecodedOnce n s (t.modResult f) :=
  h.modBank (f := fun b => { b with result := f b.result }) rfl rfl rfl

/-- Issue, before the decode, clears result registers alone. -/
theorem of_clearResult {k : Bool} (h : DecodedOnce n (clearResult k s) t) : DecodedOnce n s t where
  ctrl := by simpa [OnlyCtrl] using h.ctrl
  kept := keptOutside_trans (keptOutside_clearResult k s) h.kept
  pollN := by rw [h.pollN, clearResult_bank]
  sink := by rw [h.sink, clearResult_sink]
  trace := by rw [h.trace, clearResult_trace, (sameStatus_clearResult k s).decodeTrace_eq]

end DecodedOnce

/-- Whatever the status, a decode answers it and leaves the result registers (R90, R93, R55). -/
theorem decodeStatus_once (hq : Quiet s) (n : Inst) :
    ∃ t, decodeStatus others n s = .ok (decodedValue s n) t ∧ Quiet t ∧ t.bank = s.bank ∧ DecodedOnce n s t := by
  have hp := keptOutside_readReg n .srP s
  rw [decodeStatus_quiet hq]
  cases hg : gateOpen s.cfg (s.bus n).ctrl.srP with
  | false =>
    refine ⟨(readReg n .srP s).2, by simp [decodedValue, hg], (readReg_sched ..).trans hq, by simp, ?_, hp, by simp, by simp,
      ?_⟩
    · rw [OnlyCtrl, readReg_bus_same, Ctrl.afterDecode_of_closed hg]
    · simp [decodeTrace, hg, Ctrl.get]
  | true =>
    refine ⟨(readReg n .srS (readReg n .srP s).2).2, by simp [decodedValue, hg], by simpa [Quiet] using hq, by simp, ?_,
      keptOutside_trans hp (keptOutside_readReg n .srS _), by simp, by simp, ?_⟩
    · rw [OnlyCtrl, readReg_bus_same, readReg_bus_same, readReg_cfg, Ctrl.afterDecode_of_open hg]
    · simp [decodeTrace, decodeItems, hg, Ctrl.get, Ctrl.afterRead]

/-! ## The commands -/

/-- RDATA0 gets `v`, and the command succeeds (R90). -/
def valueAnswered (v : Word) (s : State) : State :=
  (s.modBank fun b => { b with rdata0 := v }).modResult (withCode · 0)

theorem valueAnswered_bank (v : Word) (s : State) :
    (valueAnswered v s).bank = { s.bank with result := withCode s.bank.result 0, rdata0 := v } := by
  simp [valueAnswered]

theorem putRdata0_succeed_quiet (hq : Quiet s) (v : Word) :
    (putRdata0 others v >>= fun _ => succeed others) s = .ok () (valueAnswered v s) :=
  (bind_of_ok (update_quiet hq _)).trans (update_quiet ((State.modBank_sched s _).trans hq) _)

theorem DecodedOnce.answered (h : DecodedOnce n s t) (v : Word) : DecodedOnce n s (valueAnswered v t) :=
  (h.modBank (f := fun b => { b with rdata0 := v }) rfl rfl rfl).modResult _

theorem withCode_zero_zero : withCode 0 0 = 0 := by decide

/-- RESULT of a command that answers the predicate `p` (R33, R91, R92). -/
theorem withCode_withPred_zero (p : Bool) : withCode (withPred 0 p) 0 = if p then 0x0040 else 0x0000 := by
  cases p <;> decide

/-- STATUS: one decode, its value in RDATA0, RESULT 0 (R90). -/
theorem exec_status_once (hq : Quiet s) (hb : (s.bus n).bound = true) :
    ∃ t, exec (.status n) s = .next t ∧ t.bank.result = 0 ∧ t.bank.rdata0 = decodedValue s n ∧ DecodedOnce n s t := by
  obtain ⟨u, hdec, huq, hbank, hu⟩ := decodeStatus_once (quiet_clearResult hq false) n
  rw [(sameStatus_clearResult false s).decodedValue_eq] at hdec
  refine ⟨valueAnswered (decodedValue s n) u, ?_, ?_, ?_, hu.of_clearResult.answered _⟩
  · rw [exec, execStatus, statusRun, bind_of_ok (enter_quiet hq hb false), bind_of_ok hdec,
      putRdata0_succeed_quiet huq, toOutcome]
  · rw [valueAnswered_bank, hbank, clearResult_bank]
    exact withCode_zero_zero
  · rw [valueAnswered_bank]

/-- Issue and the answer `f` about one decode: PRED alone in RESULT, the decoded value in RDATA0 (R91, R92). -/
theorem answerPred_once (hq : Quiet s) (hb : (s.bus n).bound = true) (f : Word → Bool) :
    ∃ t, (enter others n false >>= fun _ => answerPred n f) s = .ok () t ∧ t.bank.rdata0 = decodedValue s n ∧
      t.bank.result = (if f (decodedValue s n) then 0x0040 else 0x0000) ∧ DecodedOnce n s t := by
  obtain ⟨u, hdec, huq, hbank, hu⟩ := decodeStatus_once (quiet_clearResult hq false) n
  rw [(sameStatus_clearResult false s).decodedValue_eq] at hdec
  have hput := update_quiet huq (·.modResult (withPred · (f (decodedValue s n))))
  refine ⟨predAnswered (f (decodedValue s n)) (decodedValue s n) u, ?_, by simp, ?_,
    (hu.of_clearResult.modResult _).answered _⟩
  · rw [bind_of_ok (enter_quiet hq hb false), answerPred, bind_of_ok hdec]
    exact (bind_of_ok hput).trans (putRdata0_succeed_quiet ((modResult_sched u _).trans huq) _)
  · rw [predAnswered_bank, hbank, clearResult_bank]
    exact withCode_withPred_zero _

end Sys2Proof.Machine

namespace Sys2Proof.Proofs

open Sys2Proof.Machine

/-- Settles O21: issue, one decode, whose value is the composite written out, and the answer. -/
theorem statusAnswersTheComposite : Obligations.StatusAnswersTheComposite := by
  intro n s hq hb
  obtain ⟨t, hexec, hresult, hvalue, ht⟩ := exec_status_once hq hb
  exact ⟨t, hexec, hresult, hvalue.trans (decodedValue_eq_ite s n), ht.ctrl, ht.kept, ht.pollN, ht.sink, ht.trace⟩

/-- Settles O22: both commands are one decode and a predicate of its value, with the operands latched before issue. -/
theorem isEqualAnswersThePredicate : Obligations.IsEqualAnswersThePredicate := by
  intro n s hq hb
  refine ⟨by cases n <;> decide, by cases n <;> decide, ?_, ?_⟩
  · obtain ⟨t, hrun, hvalue, hresult, ht⟩ := answerPred_once hq hb (isEqual · s.bank.arg0)
    refine ⟨t, by rw [exec, execIseq, iseqRun_eq, hrun, toOutcome], hvalue, ?_, ht.ctrl, ht.kept, ht.pollN, ht.sink⟩
    simpa [isEqual] using hresult
  · obtain ⟨t, hrun, hvalue, hresult, ht⟩ := answerPred_once hq hb (isEqualMasked · s.bank.arg0 s.bank.arg1)
    refine ⟨t, by rw [exec, execIseqm, iseqmRun_eq, hrun, toOutcome], hvalue, ?_, ht.ctrl, ht.kept, ht.pollN, ht.sink⟩
    simpa [isEqualMasked] using hresult

end Sys2Proof.Proofs
end

section
/-! PROOFS. The Bus Primitives issued alone, where no other agent moves (R95 to R100): issue, at most one write of DR or CTL,
the polls of a steady status, and the end of the command with success or by the failure exit. -/
namespace Sys2Proof.Machine

open Sys2Proof.Claims

variable {n : Inst} {s t u : State} {items more : List Access} {c : Ctrl}

/-! ## A primitive under way -/

theorem SameStatus.trans (h : SameStatus n s t) (k : SameStatus n t u) : SameStatus n s u :=
  ⟨k.cfg.trans h.cfg, k.srP.trans h.srP, k.srS.trans h.srS⟩

theorem sameStatus_modResult (s : State) (f : Half → Half) : SameStatus n s (s.modResult f) :=
  ⟨State.modBank_cfg s _, by rw [modResult_bus], by rw [modResult_bus]⟩

/-- A command issued in `s` has come to `t`: it has made the accesses `items`, all on instance `n`, whose controller is now
`c`; the two status fields are as they were, RESULT is 0 and nothing has been logged. -/
structure Underway (n : Inst) (items : List Access) (c : Ctrl) (s t : State) : Prop where
  quiet : Quiet t
  result : t.bank.result = 0
  status : SameStatus n s t
  ctrl : OnlyCtrl n s t c
  kept : KeptOutside n s t
  sink : t.sink = s.sink
  trace : t.trace = s.trace ++ items

theorem underway_clearResult (hq : Quiet s) (k : Bool) : Underway n [] (s.bus n).ctrl s (clearResult k s) where
  quiet := quiet_clearResult hq k
  result := by rw [clearResult_bank]
  status := sameStatus_clearResult k s
  ctrl := clearResult_bus k s n
  kept := keptOutside_clearResult k s
  sink := clearResult_sink k s
  trace := by simp

/-- The last step of a command that succeeds: `RESULT.CODE <- 0` (R33). -/
def succeeded (t : State) : State := t.modResult (withCode · 0)

theorem succeeded_pollN (t : State) : (succeeded t).bank.pollN = t.bank.pollN := by rw [succeeded, modResult_bank]

theorem writeReg_bank (n : Inst) (r : Reg) (v : Half) (s : State) : (writeReg n r v s).bank = s.bank :=
  State.modBus_bank s n _

theorem setReg_bank (n : Inst) (r : Reg) (m : Half) (s : State) : (setReg n r m s).bank = s.bank := State.modBus_bank s n _

namespace Underway

theorem ctrl_eq (h : Underway n items c s t) : (t.bus n).ctrl = c := by rw [h.ctrl]

/-- An access whose effect on the controller leaves the status fields. -/
theorem access (h : Underway n items c s t) {f : Ctrl → Ctrl} (a : Access) (hp : (f c).srP = c.srP)
    (hv : (f c).srS = c.srS) : Underway n (items ++ [a]) (f c) s ((t.modCtrl n f).log a) where
  quiet := (State.modBus_sched t n _).trans h.quiet
  result := by rw [State.log_bank, State.modCtrl, State.modBus_bank, h.result]
  status := by
    have hsP := h.status.srP
    have hsS := h.status.srS
    rw [h.ctrl_eq] at hsP hsS
    exact ⟨by simp [State.modCtrl, h.status.cfg], by simp [State.modCtrl, h.ctrl_eq, hp, hsP],
      by simp [State.modCtrl, h.ctrl_eq, hv, hsS]⟩
  ctrl := by rw [OnlyCtrl, State.log_bus, State.modCtrl, State.bus_modBus_same, h.ctrl]
  kept := keptOutside_trans h.kept (keptOutside_trans (keptOutside_modBus t _) (keptOutside_log _ a))
  sink := (State.modBus_sink t n _).trans h.sink
  trace := by rw [State.log_trace, State.modCtrl, State.modBus_trace, h.trace, List.append_assoc]

/-- `RegWrite(i, DR, v)` (R56). -/
theorem writeDr (h : Underway n items c s t) (v : Half) :
    Underway n (items ++ [.regWrite n .dr v]) (({ c with drTx := v } : Ctrl).held s.cfg) s (writeReg n .dr v t) := by
  rw [← h.status.cfg]
  exact h.access (f := fun c => c.put t.cfg .dr v) _ (held_srP _ _) (held_srS _ _)

/-- `RegSet(i, CTL, m)` (R58). -/
theorem setCtl (h : Underway n items c s t) (m : Half) :
    Underway n (items ++ [.regSet n .ctl m]) (({ c with ctl := c.ctl ||| m } : Ctrl).held s.cfg) s (setReg n .ctl m t) := by
  rw [← h.status.cfg]
  exact h.access (f := fun c => c.put t.cfg .ctl (c.get .ctl ||| m)) _ (held_srP _ _) (held_srS _ _)

/-- Reads of the status and delays. -/
theorem observed (h : Underway n items c s t) (o : Observed n more t u) {b : Bool}
    (hb : u.bus n = { t.bus n with ctrl := { (t.bus n).ctrl with pRead := b } }) :
    Underway n (items ++ more) { c with pRead := b } s u where
  quiet := o.quiet h.quiet
  result := by
    obtain ⟨j, hj⟩ := o.bank
    rw [hj, h.result]
  status := h.status.trans o.sameStatus
  ctrl := by rw [OnlyCtrl, hb, h.ctrl]
  kept := keptOutside_trans h.kept o.kept
  sink := o.sink.trans h.sink
  trace := by rw [o.trace, h.trace, List.append_assoc]

/-- Reads of the status that end with a decode. -/
theorem observed_decoded (h : Underway n items c s t) (o : Observed n more t u)
    (hu : u.bus n = { t.bus n with ctrl := decoded t n (t.bus n).ctrl }) :
    Underway n (items ++ more) (decoded s n c) s u :=
  h.observed o (hu.trans (by rw [h.status.decoded_eq]; rfl))

/-- The last step leaves RESULT 0. -/
theorem succeeds (h : Underway n items c s t) : Underway n items c s (succeeded t) where
  quiet := (modResult_sched t _).trans h.quiet
  result := by
    rw [succeeded, modResult_bank, h.result]
    exact withCode_zero_zero
  status := h.status.trans (sameStatus_modResult t _)
  ctrl := (modResult_bus t _ n).trans h.ctrl
  kept := keptOutside_trans h.kept (keptOutside_modResult t _)
  sink := (modResult_sink t _).trans h.sink
  trace := (modResult_trace t _).trans h.trace

end Underway

/-! ## The polls of a primitive -/

/-- A poll whose condition the steady status meets ends at its first decode (R11). -/
theorem poll_met {cond : Word → Bool} (hq : Quiet s) (hs : Steady s n) (hc : cond (decodedValue s n) = true) {k : Nat}
    (hk : 0 < k) (d : Nat) :
    ∃ t, poll others n cond k d s = .ok true t ∧ Observed n (decodeTrace s n) s t ∧
      t.bus n = { s.bus n with ctrl := decoded s n (s.bus n).ctrl } := by
  obtain ⟨k, rfl⟩ := Nat.exists_eq_succ_of_ne_zero hk.ne'
  obtain ⟨t, hset, ht⟩ := setPollN_observed (n := n) (fun _ => 0) s
  have hst := ht.sameStatus
  obtain ⟨u, hdec, hu, hub⟩ := decodeStatus_steady (ht.quiet hq) (hst.steady hs)
  obtain ⟨b, hb⟩ := ht.bus
  rw [hst.decodedValue_eq] at hdec
  rw [hst.decodeTrace_eq] at hu
  refine ⟨u, ?_, ht.trans hu, by rw [hub, hst.decoded_eq, hb]; rfl⟩
  rw [poll, bind_of_ok hset, pollLoop, bind_of_ok hdec, hc, if_pos rfl, run_pure]

/-- A poll of a steady status, whatever its condition: all its turns, or the one decode that ends it (R11). -/
theorem poll_steady (cond : Word → Bool) (hq : Quiet s) (hs : Steady s n) (k d : Nat) :
    ∃ ok t, poll others n cond k d s = .ok ok t ∧
      Observed n (if cond (decodedValue s n) then pollTrace s n 0 (min 1 k) else pollTrace s n d k) s t := by
  cases hc : cond (decodedValue s n) with
  | false =>
    obtain ⟨t, hpoll, ht⟩ := poll_never hq hs hc k d
    exact ⟨false, t, hpoll, ht⟩
  | true =>
    cases k with
    | zero =>
      obtain ⟨t, hset, ht⟩ := setPollN_observed (n := n) (fun _ => 0) s
      exact ⟨false, t, bind_of_ok hset, ht⟩
    | succ k =>
      obtain ⟨t, hpoll, ht, -⟩ := poll_met hq hs hc k.succ_pos d
      exact ⟨true, t, hpoll, by simpa [pollTrace] using ht⟩

namespace Underway
variable {cond : Word → Bool} (h : Underway n items c s t) (hs : Steady s n)
include h hs

theorem poll_met (hc : cond (decodedValue s n) = true) {k : Nat} (hk : 0 < k) (d : Nat) :
    ∃ u, poll others n cond k d t = .ok true u ∧ Underway n (items ++ decodeTrace s n) (decoded s n c) s u := by
  obtain ⟨u, hpoll, hu, hub⟩ :=
    Machine.poll_met (cond := cond) h.quiet (h.status.steady hs) (by rw [h.status.decodedValue_eq, hc]) hk d
  rw [h.status.decodeTrace_eq] at hu
  exact ⟨u, hpoll, h.observed_decoded hu hub⟩

theorem poll_steady (cond : Word → Bool) (k d : Nat) :
    ∃ ok u b, poll others n cond k d t = .ok ok u ∧
      Underway n (items ++ if cond (decodedValue s n) then pollTrace s n 0 (min 1 k) else pollTrace s n d k)
        { c with pRead := b } s u := by
  obtain ⟨ok, u, hpoll, hu⟩ := Machine.poll_steady cond h.quiet (h.status.steady hs) k d
  rw [h.status.decodedValue_eq, h.status.pollTrace_eq, h.status.pollTrace_eq] at hu
  obtain ⟨b, hb⟩ := hu.bus
  exact ⟨ok, u, b, hpoll, h.observed hu hb⟩

/-- The poll that ends a primitive, its pattern shown. -/
theorem pollOrFail_met {pat : Word} (hp : matchPat (decodedValue s n) pat = true) {k : Nat} (hk : 0 < k) (d : Nat)
    (e : ErrKind) :
    ∃ u, (poll others n (matchPat · pat) k d >>= failUnless others .alone n e) t = .ok () u ∧
      Underway n (items ++ decodeTrace s n) (decoded s n c) s u := by
  obtain ⟨u, hpoll, hu⟩ := h.poll_met hs (cond := (matchPat · pat)) hp hk d
  exact ⟨u, (bind_of_ok hpoll).trans rfl, hu⟩

/-- The poll that ends a primitive, its pattern never shown: its whole budget, the failure decode and the failure exit. -/
theorem pollOrFail_never {pat : Word} (hp : matchPat (decodedValue s n) pat = false) (k d : Nat) (e : ErrKind) :
    ∃ u, (poll others n (matchPat · pat) k d >>= failUnless others .alone n e) t =
        .error .ended (failedAlone e (decodedValue s n) (errSeen s.cfg (decodedValue s n)) u) ∧
      Underway n (items ++ (pollTrace s n d k ++ decodeTrace s n)) (decoded s n c) s u := by
  have hst := h.status
  obtain ⟨p, u, hpoll, hfail, hu, hub⟩ :=
    poll_never_then_fail (cond := (matchPat · pat)) h.quiet (hst.steady hs) (by rw [hst.decodedValue_eq, hp]) k d e
  rw [hst.decodedValue_eq, hst.cfg] at hfail
  rw [hst.pollTrace_eq, hst.decodeTrace_eq] at hu
  exact ⟨u, (bind_of_ok hpoll).trans (hfail Unit), h.observed_decoded hu hub⟩

end Underway

/-! ## How a command of its own ends -/

/-- RESULT of a primitive that failed on its own (R33, R100, R143). -/
theorem failResult_of_errCode (e : ErrKind) (err : Bool) :
    withFPhase (withCode (if err then withBusErr 0 else 0) (errCode e)) 0 = failResult ((errCode e).setWidth 16) err 0 := by
  cases e <;> cases err <;> decide

/-- What the failure exit of a primitive issued alone leaves (R100, R143). -/
theorem Underway.fails (h : Underway n items c s t) (e : ErrKind) (v : Word) (err : Bool) :
    let u := failedAlone e v err t
    u.bank.result = failResult ((errCode e).setWidth 16) err 0 ∧ u.sink = s.sink ++ failRecords e v err ∧
      u.trace = s.trace ++ items ∧ OnlyCtrl n s u c ∧ KeptOutside n s u := by
  refine ⟨?_, by rw [failedAlone_sink, h.sink], by rw [failedAlone_trace, h.trace],
    (failedAlone_bus e v err t n).trans h.ctrl, keptOutside_trans h.kept (keptOutside_failedAlone e v err t)⟩
  rw [failedAlone_bank, h.result]
  exact failResult_of_errCode e err

/-- A primitive `x` as a command of its own: issue, `x`, `RESULT.CODE <- 0` (R95 to R99). -/
def primitiveAlone (n : Inst) (x : Run Unit) : Run Unit := do
  enter others n false
  x
  succeed others

theorem exec_gstart (n : Inst) (s : State) :
    exec (.gstart n) s = toOutcome (primitiveAlone n (generateStart others .alone n) s) := rfl

theorem exec_saddr (n : Inst) (d : Dir) (a : Addr7) (s : State) :
    exec (.saddr n d a) s = toOutcome (primitiveAlone n (sendAddress others .alone n d a) s) := rfl

theorem exec_txbyte (n : Inst) (b : Byte) (s : State) :
    exec (.txbyte n b) s = toOutcome (primitiveAlone n (transmitByte others .alone n b) s) := rfl

theorem exec_gstop (n : Inst) (s : State) :
    exec (.gstop n) s = toOutcome (primitiveAlone n (generateStop others n) s) := rfl

section
variable (hq : Quiet s) (hb : (s.bus n).bound = true) {x : Run Unit}
include hq hb

theorem primitiveAlone_succeeds (hx : x (clearResult false s) = .ok () t) (ht : Quiet t) :
    toOutcome (primitiveAlone n x s) = .next (succeeded t) := by
  rw [primitiveAlone, bind_of_ok (enter_quiet hq hb false), bind_of_ok hx]
  exact congrArg toOutcome (update_quiet ht _)

theorem primitiveAlone_fails (hx : x (clearResult false s) = .error .ended t) :
    toOutcome (primitiveAlone n x s) = .next t := by
  rw [primitiveAlone, bind_of_ok (enter_quiet hq hb false), bind_of_error hx, toOutcome]

end

/-! ## SADDR Transmit and TXBYTE -/

/-- What SADDR Transmit and TXBYTE do between issue and their last step: hand `v` to DR and wait, without a delay, for their
pattern (R96, R97). -/
def writeAndPoll (n : Inst) (v : Half) (pat : Word) (k : Nat) (e : ErrKind) : Run Unit := do
  regWrite others n .dr v
  let ok ← poll others n (matchPat · pat) k 0
  failUnless others .alone n e ok

theorem writeAndPoll_quiet (hq : Quiet s) (v : Half) (pat : Word) (k : Nat) (e : ErrKind) :
    writeAndPoll n v pat k e s =
      (poll others n (matchPat · pat) k 0 >>= failUnless others .alone n e) (writeReg n .dr v s) :=
  bind_of_ok (update_quiet hq _)

theorem sendAddress_tx_eq (n : Inst) (a : Addr7) (s : State) :
    sendAddress others .alone n .tx a s =
      writeAndPoll n (dataHalf (addressByte .tx a)) (pAddrTx s.cfg) s.cfg.nSpin .addressPhaseFailed s := rfl

theorem transmitByte_eq (n : Inst) (b : Byte) (s : State) :
    transmitByte others .alone n b s = writeAndPoll n (dataHalf b) (pByteTx s.cfg) s.cfg.nSpin .transmitByteFailed s := rfl

/-- The address byte as DR takes it (R76). -/
theorem dataHalf_addressByte (d : Dir) (a : Addr7) :
    dataHalf (addressByte d a) = a.setWidth 16 <<< 1 ||| (bitOfDir d).setWidth 16 := by
  have happend (i : Nat) :
      (addressByte d a).getLsbD i = if i < 1 then (bitOfDir d).getLsbD i else a.getLsbD (i - 1) := by
    rw [addressByte_eq_append]
    exact BitVec.getLsbD_append
  refine BitVec.eq_of_getLsbD_eq fun i hi => ?_
  rw [dataHalf, BitVec.getLsbD_setWidth, happend]
  cases i with
  | zero => simp
  | succ i => simp [hi]

theorem dataHalf_addressByte_tx (a : Addr7) : dataHalf (addressByte .tx a) = a.setWidth 16 <<< 1 :=
  (dataHalf_addressByte .tx a).trans BitVec.or_zero

theorem dataHalf_addressByte_rx (a : Addr7) : dataHalf (addressByte .rx a) = a.setWidth 16 <<< 1 ||| 1 :=
  dataHalf_addressByte .rx a

/-- Decodes without a delay, and one more (R11). -/
theorem pollTrace_append_decodeTrace (s : State) (n : Inst) (k : Nat) :
    pollTrace s n 0 k ++ decodeTrace s n = (List.replicate (k + 1) (decodeTrace s n)).flatten := by
  simp [pollTrace, List.replicate_succ']

section
variable (hq : Quiet s) (hs : Steady s n) (hb : (s.bus n).bound = true) {x : Run Unit} {v : Half} {pat : Word} {k : Nat}
  {e : ErrKind} (hx : x (clearResult false s) = writeAndPoll n v pat k e (clearResult false s))
include hq hs hb hx

theorem writeAndPoll_completes (hk : 0 < k) (hp : matchPat (decodedValue s n) pat = true) :
    ∃ t, toOutcome (primitiveAlone n x s) = .next t ∧ t.bank.result = 0 ∧
      OnlyCtrl n s t (decoded s n (({ (s.bus n).ctrl with drTx := v } : Ctrl).held s.cfg)) ∧ KeptOutside n s t ∧
      t.sink = s.sink ∧ t.trace = s.trace ++ [.regWrite n .dr v] ++ decodeTrace s n := by
  have hw := (underway_clearResult (n := n) hq false).writeDr v
  obtain ⟨u, hrun, hu⟩ := hw.pollOrFail_met hs hp hk 0 e
  have hux := hx.trans ((writeAndPoll_quiet (quiet_clearResult hq false) v pat k e).trans hrun)
  have hdone := hu.succeeds
  exact ⟨_, primitiveAlone_succeeds hq hb hux hu.quiet, hdone.result, hdone.ctrl, hdone.kept, hdone.sink,
    by simpa using hdone.trace⟩

theorem writeAndPoll_timesOut (hp : matchPat (decodedValue s n) pat = false) :
    let err := errSeen s.cfg (decodedValue s n)
    ∃ t, toOutcome (primitiveAlone n x s) = .next t ∧
      t.bank.result = failResult ((errCode e).setWidth 16) err 0 ∧
      t.sink = s.sink ++ failRecords e (decodedValue s n) err ∧
      t.trace = s.trace ++ [.regWrite n .dr v] ++ (List.replicate (k + 1) (decodeTrace s n)).flatten ∧
      OnlyCtrl n s t (decoded s n (({ (s.bus n).ctrl with drTx := v } : Ctrl).held s.cfg)) ∧ KeptOutside n s t := by
  have hw := (underway_clearResult (n := n) hq false).writeDr v
  obtain ⟨u, hrun, hu⟩ := hw.pollOrFail_never hs hp k 0 e
  have hux := hx.trans ((writeAndPoll_quiet (quiet_clearResult hq false) v pat k e).trans hrun)
  obtain ⟨hresult, hsink, htrace, hctrl, hkept⟩ := hu.fails e (decodedValue s n) (errSeen s.cfg (decodedValue s n))
  refine ⟨_, primitiveAlone_fails hq hb hux, hresult, hsink, ?_, hctrl, hkept⟩
  rw [htrace, pollTrace_append_decodeTrace, List.nil_append, List.append_assoc]

end

/-! ## GSTART -/

theorem matchPat_of_and_eq {v p q : Word} (hpq : p &&& q = p) (h : matchPat v q = true) : matchPat v p = true := by
  have hv : v &&& q = q := by simpa [matchPat] using h
  have : v &&& p = p := by
    calc v &&& p = v &&& q &&& p := by rw [BitVec.and_assoc, BitVec.and_comm q, hpq]
      _ = p := by rw [hv, BitVec.and_comm, hpq]
  simpa [matchPat] using this

/-- A status that shows P_START is busy (R78). -/
theorem pBusy_and_pStart (c : Config) : pBusy c &&& pStart c = pBusy c := by
  have habsorb (b m : Half) : b &&& (b ||| m) = b := by
    ext i
    simpa using Or.inl
  rw [pBusy, pStart, pattern, pattern, BitVec.and_append, habsorb]
  exact congrArg _ BitVec.zero_and

theorem ite_not_isBusy {α : Type} (c : Config) (v : Word) (x y : α) :
    (if !isBusy c v then x else y) = if matchPat v (pBusy c) then y else x := by
  rw [isBusy]
  cases matchPat v (pBusy c) <;> rfl

theorem held_withPRead (cfg : Config) (c : Ctrl) (b : Bool) :
    ({ c with pRead := b } : Ctrl).held cfg = { c.held cfg with pRead := b } := by
  simpa using held_status cfg c c.srP c.srS c.drRx b

/-- GSTART up to its second poll: the busy wait, then START (R95). -/
theorem generateStart_busyWait (hq : Quiet s) (hs : Steady s n) :
    let busyWait := if matchPat (decodedValue s n) (pBusy s.cfg) then pollTrace s n s.cfg.dStartBusy s.cfg.nStartBusy
      else pollTrace s n 0 (min 1 s.cfg.nStartBusy)
    let c := (s.bus n).ctrl
    ∃ t b, generateStart others .alone n (clearResult false s) =
        (poll others n (matchPat · (pStart s.cfg)) s.cfg.nStartWait s.cfg.dStartWait >>=
          failUnless others .alone n .startConditionFailed) t ∧
      Underway n (busyWait ++ [.regSet n .ctl (startMask s.cfg)])
        { ({ c with ctl := c.ctl ||| startMask s.cfg } : Ctrl).held s.cfg with pRead := b } s t := by
  obtain ⟨ok, u, b, hpoll, hu⟩ :=
    (underway_clearResult (n := n) hq false).poll_steady hs (fun v => !isBusy s.cfg v) s.cfg.nStartBusy s.cfg.dStartBusy
  refine ⟨setReg n .ctl (startMask s.cfg) u, b, ?_, ?_⟩
  · rw [generateStart, bind_of_ok (params_run _), clearResult_cfg, bind_of_ok hpoll, regSet,
      bind_of_ok (update_quiet hu.quiet _)]
  · rw [ite_not_isBusy] at hu
    have hstart := hu.setCtl (startMask s.cfg)
    have hheld := held_withPRead s.cfg { (s.bus n).ctrl with ctl := (s.bus n).ctrl.ctl ||| startMask s.cfg } b
    rwa [hheld] at hstart

/-! ## RXBYTE -/

theorem lowByte_dataHalf (b : Byte) : lowByte (dataHalf b) = b := by simp [lowByte, dataHalf]

/-- `last_rx[i] <- b` (R98). -/
def byteKept (n : Inst) (b : Byte) (s : State) : State := s.modBus n fun i => { i with lastRx := b }

/-- `RegRead(i, DR)`, which has no side effect on the controller (R56). -/
theorem Underway.readDr (h : Underway n items c s t) :
    Underway n (items ++ [.regRead n .dr (dataHalf c.drRx)]) c s (readReg n .dr t).2 := by
  have hval : (t.bus n).ctrl.get .dr = dataHalf c.drRx := by
    rw [h.ctrl_eq]
    rfl
  rw [readReg_frame, hval]
  exact h.access (f := fun c => c.afterRead t.cfg .dr) _ rfl rfl

/-- The receive poll, its pattern shown, and the one read of DR after it (R98). -/
theorem Underway.receiveByte_met (h : Underway n items c s t) (hs : Steady s n) (hk : 0 < s.cfg.nRx)
    (hp : matchPat (decodedValue s n) (pByteRx s.cfg) = true) :
    ∃ u, receiveByte others .alone n t = .ok c.drRx (byteKept n c.drRx u) ∧
      Underway n (items ++ decodeTrace s n ++ [.regRead n .dr (dataHalf c.drRx)]) (decoded s n c) s u := by
  obtain ⟨u, hpoll, hu⟩ := h.poll_met hs (cond := (matchPat · (pByteRx s.cfg))) hp hk s.cfg.dRx
  have hr := hu.readDr
  have hdr : lowByte (readReg n .dr u).1 = c.drRx := by
    rw [readReg_value, hu.ctrl_eq]
    exact lowByte_dataHalf c.drRx
  refine ⟨_, ?_, hr⟩
  rw [receiveByte, bind_of_ok (params_run _), h.status.cfg, bind_of_ok hpoll, failUnless, if_pos rfl,
    bind_of_ok (run_pure () u), bind_of_ok (regRead_quiet hu.quiet n .dr), hdr, bind_of_ok (update_quiet hr.quiet _),
    run_pure, byteKept]

/-- What RXBYTE leaves when it succeeds (R98). -/
theorem Underway.byteAnswered (h : Underway n items c s t) (b : Byte) :
    let u := valueAnswered (dataWord b) (byteKept n b t)
    u.bank.result = 0 ∧ u.bank.rdata0 = dataWord b ∧ u.bus n = { s.bus n with ctrl := c, lastRx := b } ∧
      KeptOutside n s u ∧ u.sink = s.sink ∧ u.trace = s.trace ++ items := by
  refine ⟨?_, by rw [valueAnswered_bank], ?_, ?_, ?_, ?_⟩
  · rw [valueAnswered_bank, byteKept, State.modBus_bank, h.result]
    exact withCode_zero_zero
  · rw [valueAnswered, modResult_bus, State.modBank_bus, byteKept, State.bus_modBus_same, h.ctrl]
  · exact keptOutside_trans (keptOutside_trans h.kept (keptOutside_modBus t _))
      (keptOutside_trans (keptOutside_modBank _ rfl rfl) (keptOutside_modResult _ _))
  · rw [valueAnswered, modResult_sink, State.modBank_sink, byteKept, State.modBus_sink, h.sink]
  · rw [valueAnswered, modResult_trace, State.modBank_trace, byteKept, State.modBus_trace, h.trace]

end Sys2Proof.Machine

namespace Sys2Proof.Proofs

open Sys2Proof.Machine

/-- Settles O25: P_START shows BUSY, so the busy wait runs out; the first decode after START shows P_START. -/
theorem gstartCompletesOnStartPattern : Obligations.GstartCompletesOnStartPattern := by
  intro n s hq hs hb hk hp
  rw [exec_gstart]
  obtain ⟨t, b, hstart, ht⟩ := generateStart_busyWait hq hs
  obtain ⟨u, hrun, hu⟩ := ht.pollOrFail_met hs hp hk s.cfg.dStartWait .startConditionFailed
  have hdone := hu.succeeds
  refine ⟨_, primitiveAlone_succeeds hq hb (hstart.trans hrun) hu.quiet, hdone.result, ?_, hdone.ctrl, hdone.kept,
    hdone.sink⟩
  rw [hdone.trace, if_pos (matchPat_of_and_eq (pBusy_and_pStart s.cfg) hp)]
  simp

/-- Settles O26: the busy wait, START, the second poll's whole budget, and the failure exit. -/
theorem gstartFailsWithoutStartPattern : Obligations.GstartFailsWithoutStartPattern := by
  intro n s hq hs hb hp
  rw [exec_gstart]
  obtain ⟨t, b, hstart, ht⟩ := generateStart_busyWait hq hs
  obtain ⟨u, hrun, hu⟩ := ht.pollOrFail_never hs hp s.cfg.nStartWait s.cfg.dStartWait .startConditionFailed
  obtain ⟨hresult, hsink, htrace, hctrl, hkept⟩ :=
    hu.fails .startConditionFailed (decodedValue s n) (errSeen s.cfg (decodedValue s n))
  refine ⟨_, primitiveAlone_fails hq hb (hstart.trans hrun), hresult, hsink, ?_, hctrl, hkept⟩
  rw [htrace]
  simp

/-- Settles O27: the one write of DR, and the first decode shows P_ADDR_TX. -/
theorem saddrTransmitCompletes : Obligations.SaddrTransmitCompletes := by
  intro n a s hq hs hb hk hp
  have hx := sendAddress_tx_eq n a (clearResult false s)
  rw [clearResult_cfg, dataHalf_addressByte_tx] at hx
  rw [exec_saddr]
  exact writeAndPoll_completes hq hs hb hx hk hp

/-- Settles O28: the one write of DR, and no decode. -/
theorem saddrReceiveIsUnverified : Obligations.SaddrReceiveIsUnverified := by
  intro n a s hq hb
  rw [exec_saddr, ← dataHalf_addressByte_rx]
  have hw := (underway_clearResult (n := n) hq false).writeDr (dataHalf (addressByte .rx a))
  have hrun : sendAddress others .alone n .rx a (clearResult false s) = .ok () _ :=
    (bind_of_ok (params_run _)).trans (bind_of_ok (update_quiet (quiet_clearResult hq false) _))
  have hdone := hw.succeeds
  refine ⟨_, primitiveAlone_succeeds hq hb hrun hw.quiet, hdone.result, hdone.ctrl, hdone.kept, ?_, hdone.sink,
    hdone.trace⟩
  rw [succeeded_pollN, writeReg_bank, clearResult_bank]

/-- Settles O29: the one write of DR, and the first decode shows P_BYTE_TX. -/
theorem txbyteCompletes : Obligations.TxbyteCompletes := by
  intro n b s hq hs hb hk hp
  have hx := transmitByte_eq n b (clearResult false s)
  rw [clearResult_cfg] at hx
  rw [exec_txbyte]
  exact writeAndPoll_completes hq hs hb hx hk hp

/-- Settles O30: each is the one write of DR, N_SPIN decodes and the failure exit with its own kind. -/
theorem transmitPrimitivesTimeOut : Obligations.TransmitPrimitivesTimeOut := by
  intro n a b s hq hs hb
  have haddr := sendAddress_tx_eq n a (clearResult false s)
  have hbyte := transmitByte_eq n b (clearResult false s)
  rw [clearResult_cfg] at haddr hbyte
  rw [dataHalf_addressByte_tx] at haddr
  rw [exec_saddr, exec_txbyte]
  exact ⟨writeAndPoll_timesOut hq hs hb haddr, writeAndPoll_timesOut hq hs hb hbyte⟩

/-- Settles O31: the first decode shows P_BYTE_RX, and DR is read once after it. -/
theorem rxbyteCompletes : Obligations.RxbyteCompletes := by
  intro n s hq hs hb hk hp
  obtain ⟨t, hrecv, ht⟩ := (underway_clearResult (n := n) hq true).receiveByte_met hs hk hp
  obtain ⟨hresult, hrdata, hbus, hkept, hsink, htrace⟩ := ht.byteAnswered (s.bus n).ctrl.drRx
  have hrun : rxbyteRun others n s =
      .ok () (valueAnswered (dataWord (s.bus n).ctrl.drRx) (byteKept n (s.bus n).ctrl.drRx t)) := by
    rw [rxbyteRun, bind_of_ok (enter_quiet hq hb true), bind_of_ok hrecv]
    exact putRdata0_succeed_quiet ((State.modBus_sched t n _).trans ht.quiet) _
  exact ⟨_, congrArg toOutcome hrun, hresult, hrdata, hbus, hkept, hsink, by simp [htrace, dataHalf]⟩

/-- Settles O33: the one set of CTL, and no decode. -/
theorem gstopCompletes : Obligations.GstopCompletes := by
  intro n s hq hb
  rw [exec_gstop]
  have hw := (underway_clearResult (n := n) hq false).setCtl (stopMask s.cfg)
  have hrun : generateStop others n (clearResult false s) = .ok () _ :=
    (bind_of_ok (params_run _)).trans (update_quiet (quiet_clearResult hq false) _)
  rw [clearResult_cfg] at hrun
  have hdone := hw.succeeds
  refine ⟨by cases n <;> decide, _, primitiveAlone_succeeds hq hb hrun hw.quiet, hdone.result, hdone.ctrl, hdone.kept, ?_,
    hdone.sink, hdone.trace⟩
  rw [succeeded_pollN, setReg_bank, clearResult_bank]

end Sys2Proof.Proofs
end

section
/-! PROOFS. How far a guarded command has come: a stage says what is scheduled still, the instance, the results, and the accesses
and records so far; each primitive goes from one stage to the next, whatever the other agents do just before it being part of
the stage's schedule (R9, R57). The parts of WRITE and READ that every path has are here: issue, lock and BusyCheck (R105),
and the failure exit (R143). -/
namespace Sys2Proof.Machine

open Sys2Proof.Claims

/-! ## WRITE and READ as guarded commands -/

/-- A guarded command that needs no channel, up to its BusyCheck, and then `x` (R63, R105). -/
def guardedCommand (n : Inst) (x : Run Unit) : Run Unit := do
  enter others n false
  acquire others n
  setPhase others n .busyCheck
  x

/-- WRITE from its BusyCheck on (R106). -/
def writeBody (n : Inst) (a : Addr7) (b : Byte) : Run Unit := do
  let c ← params
  let free ← poll others n (fun v => !isBusy c v) c.nWrBusy 0
  failUnless others .write n .busBusyTimeout free
  setPhase others n .start
  generateStart others .write n
  setPhase others n .address
  sendAddress others .write n .tx a
  setPhase others n .dataPhase
  transmitByte others .write n b
  setPhase others n .stop
  generateStop others n
  finishGuarded others n
  succeed others

/-- READ from its BusyCheck on (R107). -/
def readBody (n : Inst) (a : Addr7) : Run Unit := do
  let c ← params
  let free ← readOuter others n c.nRdOuter
  failUnless others .read n .busBusyTimeout free
  setPhase others n .start
  generateStart others .read n
  setPhase others n .address
  sendAddress others .read n .rx a
  setPhase others n .dataPhase
  let b ← receiveByte others .read n
  setPhase others n .stop
  generateStop others n
  finishGuarded others n
  putRdata0 others (dataWord b)
  succeed others

theorem exec_write (n : Inst) (a : Addr7) (b : Byte) (s : State) :
    exec (.write n a b) s = toOutcome (guardedCommand n (writeBody n a b) s) := rfl

theorem exec_read (n : Inst) (a : Addr7) (s : State) :
    exec (.read n a) s = toOutcome (guardedCommand n (readBody n a) s) := rfl

/-! ## Stages -/

/-- How far a command on an instance has come: the schedule that is left, the instance, RESULT, RDATA0 where its value is
known, and the accesses and records so far. -/
structure Stage where
  sched : List (List Move)
  bus : Bus
  result : Half
  rdata0 : Option Word
  items : List Access
  records : List Record

/-- A command on instance `n`, issued in `s`, has come to stage `p` in the state `t`; nothing outside the stage differs but
RDATA1 and the poll counter. -/
structure AtStage (n : Inst) (s : State) (p : Stage) (t : State) : Prop where
  sched : t.sched = p.sched
  bus : t.bus n = p.bus
  result : t.bank.result = p.result
  rdata0 : ∀ v, p.rdata0 = some v → t.bank.rdata0 = v
  sink : t.sink = s.sink ++ p.records
  trace : t.trace = s.trace ++ p.items
  kept : KeptOutside n s t

namespace Stage

/-- A command is presented in `s`. -/
def initial (n : Inst) (s : State) : Stage := ⟨s.sched, s.bus n, s.bank.result, none, [], []⟩

variable (p : Stage)

/-- The next batch of the schedule is taken. -/
def next : Stage := { p with sched := p.sched.drop 1 }

def mapBus (f : Bus → Bus) : Stage := { p with bus := f p.bus }

def mapCtrl (f : Ctrl → Ctrl) : Stage := p.mapBus fun b => { b with ctrl := f b.ctrl }

def mapResult (f : Half → Half) : Stage := { p with result := f p.result }

def log (a : Access) : Stage := { p with items := p.items ++ [a] }

def record (r : Record) : Stage := { p with records := p.records ++ [r] }

/-- No other agent moves before the next primitive. -/
abbrev Silent : Prop := p.sched.headD [] = []

theorem next_of_quiet {p : Stage} (h : p.sched = []) : p.next = p := by
  rw [next, h, List.drop_nil, ← h]

end Stage

variable {n : Inst} {s t u : State} {p q r : Stage} {α β : Type}

namespace AtStage

theorem initial (n : Inst) (s : State) : AtStage n s (.initial n s) s :=
  ⟨rfl, rfl, rfl, nofun, (List.append_nil _).symm, (List.append_nil _).symm, keptOutside_refl s⟩

theorem cfg (h : AtStage n s p t) : t.cfg = s.cfg := by
  obtain ⟨-, hc, -⟩ := h.kept
  exact hc

theorem modBus (h : AtStage n s p t) (f : Bus → Bus) : AtStage n s (p.mapBus f) (t.modBus n f) where
  sched := (State.modBus_sched t n f).trans h.sched
  bus := by rw [State.bus_modBus_same, h.bus, Stage.mapBus]
  result := by rw [State.modBus_bank, h.result, Stage.mapBus]
  rdata0 v hv := by rw [State.modBus_bank, h.rdata0 v hv]
  sink := (State.modBus_sink t n f).trans h.sink
  trace := (State.modBus_trace t n f).trans h.trace
  kept := keptOutside_trans h.kept (keptOutside_modBus t f)

theorem modCtrl (h : AtStage n s p t) (f : Ctrl → Ctrl) : AtStage n s (p.mapCtrl f) (t.modCtrl n f) := h.modBus _

theorem log (h : AtStage n s p t) (a : Access) : AtStage n s (p.log a) (t.log a) where
  sched := h.sched
  bus := (State.log_bus t a n).trans h.bus
  result := h.result
  rdata0 := h.rdata0
  sink := h.sink
  trace := by rw [State.log_trace, h.trace, List.append_assoc, Stage.log]
  kept := keptOutside_trans h.kept (keptOutside_log t a)

/-- A change of the port's bank that leaves its operands. -/
theorem modBank (h : AtStage n s p t) {f : Bank → Bank} (h0 : (f t.bank).arg0 = t.bank.arg0)
    (h1 : (f t.bank).arg1 = t.bank.arg1) {v : Half} (hv : (f t.bank).result = v) {w : Option Word}
    (hw : ∀ x, w = some x → (f t.bank).rdata0 = x) : AtStage n s { p with result := v, rdata0 := w } (t.modBank f) where
  sched := (State.modBank_sched t f).trans h.sched
  bus := (State.modBank_bus t f n).trans h.bus
  result := by rw [State.bank_modBank, hv]
  rdata0 x hx := by rw [State.bank_modBank, hw x hx]
  sink := (State.modBank_sink t f).trans h.sink
  trace := (State.modBank_trace t f).trans h.trace
  kept := keptOutside_trans h.kept (keptOutside_modBank t h0 h1)

theorem modResult (h : AtStage n s p t) (f : Half → Half) : AtStage n s (p.mapResult f) (t.modResult f) :=
  h.modBank (f := fun b => { b with result := f b.result }) rfl rfl (congrArg f h.result) h.rdata0

theorem pushRecord (h : AtStage n s p t) (k : DiagKind) (v : Word) :
    AtStage n s (p.record ⟨k, v, []⟩) (Machine.pushRecord k v [] t) where
  sched := h.sched
  bus := (pushRecord_bus k v [] t n).trans h.bus
  result := h.result
  rdata0 := h.rdata0
  sink := by rw [pushRecord_sink, h.sink, List.append_assoc, Stage.record]
  trace := h.trace
  kept := keptOutside_trans h.kept (keptOutside_pushRecord k v [] t)

/-- RESULT is cleared at issue, and nothing is known of RDATA0 (R81(1)). -/
theorem clearResult (h : AtStage n s p t) :
    AtStage n s { p with result := 0, rdata0 := none } (Machine.clearResult false t) where
  sched := (clearResult_sched false t).trans h.sched
  bus := (clearResult_bus false t n).trans h.bus
  result := by rw [clearResult_bank]
  rdata0 := nofun
  sink := (clearResult_sink false t).trans h.sink
  trace := (clearResult_trace false t).trans h.trace
  kept := keptOutside_trans h.kept (keptOutside_clearResult false t)

/-- A batch of the schedule is gone. -/
theorem dropBatch (h : AtStage n s p t) : AtStage n s p.next { t with sched := t.sched.drop 1 } where
  sched := congrArg (List.drop 1) h.sched
  bus := by
    rw [Stage.next, ← h.bus]
    cases n <;> rfl
  result := h.result
  rdata0 := h.rdata0
  sink := h.sink
  trace := h.trace
  kept := by
    refine keptOutside_trans h.kept ⟨fun m _ => ?_, rfl, rfl, rfl, rfl, rfl, rfl, fun _ => rfl, rfl, rfl, rfl, rfl⟩
    cases m <;> rfl

end AtStage

/-! ## From stage to stage -/

/-- From stage `p` the run answers `a` and has come to stage `q`. -/
def Goes (n : Inst) (s : State) (p : Stage) (x : Run α) (a : α) (q : Stage) : Prop :=
  ∀ t, AtStage n s p t → ∃ u, x t = .ok a u ∧ AtStage n s q u

/-- From stage `p` the command ends early, at stage `q`. -/
def Ends (n : Inst) (s : State) (p : Stage) (x : Run α) (q : Stage) : Prop :=
  ∀ t, AtStage n s p t → ∃ u, x t = .error .ended u ∧ AtStage n s q u

theorem Goes.bind {x : Run α} {f : α → Run β} {a : α} {b : β} (hx : Goes n s p x a q) (hf : Goes n s q (f a) b r) :
    Goes n s p (x >>= f) b r := fun t ht =>
  have ⟨u, hxu, hu⟩ := hx t ht
  have ⟨v, hfv, hv⟩ := hf u hu
  ⟨v, (bind_of_ok hxu).trans hfv, hv⟩

theorem Goes.bindEnds {x : Run α} {f : α → Run β} {a : α} (hx : Goes n s p x a q) (hf : Ends n s q (f a) r) :
    Ends n s p (x >>= f) r := fun t ht =>
  have ⟨u, hxu, hu⟩ := hx t ht
  have ⟨v, hfv, hv⟩ := hf u hu
  ⟨v, (bind_of_ok hxu).trans hfv, hv⟩

theorem Goes.to {x : Run α} {a : α} (hx : Goes n s p x a q) (h : q = r) : Goes n s p x a r := h ▸ hx

theorem goes_pure (a : α) : Goes n s p (pure a : Run α) a p := fun t ht => ⟨t, rfl, ht⟩

theorem goes_params : Goes n s p params s.cfg p := fun t ht => ⟨t, by rw [params_run, ht.cfg], ht⟩

theorem goes_look {f : State → α} {a : α} (h : ∀ t, AtStage n s p t → f t = a) : Goes n s p (look f) a p := fun t ht =>
  ⟨t, by rw [look_run, h t ht], ht⟩

theorem goes_tweak {f : State → State} (h : ∀ t, AtStage n s p t → AtStage n s q (f t)) : Goes n s p (tweak f) () q :=
  fun t ht => ⟨f t, tweak_run f t, h t ht⟩

theorem goes_setPollN (f : Nat → Nat) : Goes n s p (setPollN f) () p :=
  goes_tweak fun _ ht => ht.modBank (f := fun b => { b with pollN := f b.pollN }) rfl rfl ht.result ht.rdata0

/-! ## The other agents -/

/-- The moves of a batch do to the state what `f` does to the controller of `n`. -/
structure ActsAs (n : Inst) (ms : List Move) (f : Ctrl → Ctrl) : Prop where
  quiet : ∀ m ∈ ms, m.isInterrupt = false
  acts : ∀ t, applyQuiet ms t = t.modCtrl n f

theorem actsAs_nil (n : Inst) : ActsAs n [] id := ⟨nofun, fun _ => by cases n <;> rfl⟩

theorem actsAs_envSrP (n : Inst) (v : Half) : ActsAs n [.envSrP n v] fun c => { c with srP := v } :=
  ⟨by simp [Move.isInterrupt], fun _ => rfl⟩

theorem actsAs_envSrS (n : Inst) (v : Half) : ActsAs n [.envSrS n v] fun c => { c with srS := v } :=
  ⟨by simp [Move.isInterrupt], fun _ => rfl⟩

theorem actsAs_envDr (n : Inst) (b : Byte) : ActsAs n [.envDr n b] fun c => { c with drRx := b } :=
  ⟨by simp [Move.isInterrupt], fun _ => rfl⟩

theorem goes_others {f : Ctrl → Ctrl} (h : ActsAs n (p.sched.headD []) f) : Goes n s p others () (p.next.mapCtrl f) := by
  intro t ht
  have hnext := ht.dropBatch.modCtrl f
  rw [← h.acts, ← ht.sched] at hnext
  rw [← ht.sched] at h
  refine ⟨_, ?_, hnext⟩
  cases hs : t.sched with
  | nil =>
    rw [others_quiet hs]
    exact congrArg _ (show t = { t with sched := [] } from hs ▸ rfl)
  | cons b rest =>
    rw [hs] at h
    exact others_batch hs h.quiet

theorem goes_silent (h : p.Silent) : Goes n s p others () p.next :=
  goes_others (p := p) (f := id) (by rw [h]; exact actsAs_nil n)

theorem goes_quiet (h : p.sched = []) : Goes n s p others () p := by
  have hnext := goes_silent (n := n) (s := s) (p := p) (by rw [Stage.Silent, h, List.headD_nil])
  rwa [Stage.next_of_quiet h] at hnext

/-! ## Primitives -/

section
variable (hp : Goes n s p others () q)
include hp

theorem goes_update {f : State → State} (hf : ∀ t, AtStage n s q t → AtStage n s r (f t)) :
    Goes n s p (update others f) () r := fun t ht =>
  have ⟨u, hu, hq⟩ := hp t ht
  ⟨f u, update_of hu f, hf u hq⟩

theorem goes_modBus (f : Bus → Bus) : Goes n s p (update others (·.modBus n f)) () (q.mapBus f) :=
  goes_update hp fun _ ht => ht.modBus f

theorem goes_setPhase (k : Phase) : Goes n s p (setPhase others n k) () (q.mapBus fun b => { b with phase := k }) :=
  goes_modBus hp _

theorem goes_release : Goes n s p (release others n) () (q.mapBus fun b => { b with lock := false }) := goes_modBus hp _

theorem goes_putResult (f : Half → Half) : Goes n s p (putResult others f) () (q.mapResult f) :=
  goes_update hp fun _ ht => ht.modResult f

theorem goes_succeed : Goes n s p (succeed others) () (q.mapResult (withCode · 0)) := goes_putResult hp _

theorem goes_putRdata0 (v : Word) : Goes n s p (putRdata0 others v) () { q with rdata0 := some v } :=
  goes_update hp fun _ ht => ht.modBank (f := fun b => { b with rdata0 := v }) rfl rfl ht.result fun _ hx => by
    cases hx
    rfl

theorem goes_diag (k : DiagKind) (v : Word) : Goes n s p (diag others k v []) () (q.record ⟨k, v, []⟩) :=
  goes_update hp fun _ ht => ht.pushRecord k v

theorem goes_regRead (k : Reg) :
    Goes n s p (regRead others n k) (q.bus.ctrl.get k)
      ((q.mapCtrl (·.afterRead s.cfg k)).log (.regRead n k (q.bus.ctrl.get k))) := fun t ht => by
  obtain ⟨u, hu, hq⟩ := hp t ht
  have hr := (hq.modCtrl (·.afterRead s.cfg k)).log (.regRead n k (q.bus.ctrl.get k))
  refine ⟨_, ?_, hr⟩
  rw [regRead_of hu, readReg_value, readReg_frame, hq.bus, hq.cfg]

theorem goes_regWrite (k : Reg) (v : Half) :
    Goes n s p (regWrite others n k v) () ((q.mapCtrl (·.put s.cfg k v)).log (.regWrite n k v)) :=
  goes_update hp fun t ht => ht.cfg ▸ (ht.modCtrl (·.put t.cfg k v)).log _

theorem goes_setCtl (m : Half) :
    Goes n s p (regSet others n .ctl m) () ((q.mapCtrl fun c => c.put s.cfg .ctl (c.ctl ||| m)).log (.regSet n .ctl m)) :=
  goes_update hp fun t ht => ht.cfg ▸ (ht.modCtrl fun c => c.put t.cfg .ctl (c.ctl ||| m)).log _

theorem goes_clrCtl (m : Half) :
    Goes n s p (regClr others n .ctl m) () ((q.mapCtrl fun c => c.put s.cfg .ctl (c.ctl &&& ~~~m)).log (.regClr n .ctl m)) :=
  goes_update hp fun t ht => ht.cfg ▸ (ht.modCtrl fun c => c.put t.cfg .ctl (c.ctl &&& ~~~m)).log _

end

/-! ## Decodes -/

namespace Stage
variable (n : Inst) (p : Stage)

/-- SR_P has been read, and `v` stood in it. -/
def readSrP (v : Half) : Stage :=
  (p.next.mapCtrl fun c => { c with srP := v, pRead := true }).log (.regRead n .srP v)

/-- A decode's two reads have been answered `v` and `w`, the gate open, and `l` is left of the schedule (R55, R90). -/
def answered (cfg : Config) (v w : Half) (l : List (List Move)) : Stage :=
  { p with
    sched := l
    bus := { p.bus with ctrl := { p.bus.ctrl with srP := v &&& ~~~cfg.seqClear, srS := w, pRead := false } }
    items := p.items ++ decodeItems n v w }

end Stage

/-- A decode with the gate open: `v` stands in SR_P at the first read and `w` in SR_S at the second. -/
theorem goes_decode_open {v w : Half} (hg : gateOpen s.cfg v = true)
    (hv : Goes n s p others () (p.next.mapCtrl fun c => { c with srP := v }))
    (hw : Goes n s (p.readSrP n v) others () ((p.readSrP n v).next.mapCtrl fun c => { c with srS := w })) :
    Goes n s p (decodeStatus others n) (composite w v) (p.answered n s.cfg v w (p.sched.drop 2)) := by
  have hfirst : Goes n s p (regRead others n .srP) v (p.readSrP n v) := goes_regRead hv .srP
  have hsecond : Goes n s (p.readSrP n v) (regRead others n .srS) w (p.answered n s.cfg v w (p.sched.drop 2)) := by
    have hread := goes_regRead hw .srS
    simpa [Stage.readSrP, Stage.answered, Stage.log, Stage.mapCtrl, Stage.mapBus, Stage.next, Ctrl.afterRead, Ctrl.get,
      decodeItems] using hread
  refine goes_params.bind (hfirst.bind ?_)
  rw [if_pos hg]
  exact hsecond.bind (goes_pure _)

/-- The environment answers the two reads (R60(a)). -/
theorem goes_decode_answers {v w : Half} {l : List (List Move)} (hs : p.sched = answers n v w ++ l)
    (hg : gateOpen s.cfg v = true) : Goes n s p (decodeStatus others n) (composite w v) (p.answered n s.cfg v w l) := by
  have hfirst : p.sched.headD [] = [.envSrP n v] := by rw [hs]; rfl
  have hsecond : (p.readSrP n v).sched.headD [] = [.envSrS n w] := congrArg (fun l => (l.drop 1).headD []) hs
  have hrest : p.sched.drop 2 = l := by rw [hs]; rfl
  exact hrest ▸ goes_decode_open hg (goes_others (hfirst ▸ actsAs_envSrP n v))
    (goes_others (hsecond ▸ actsAs_envSrS n w))

/-- No other agent moves, and the status is what stands in the fields. -/
theorem goes_decode_silent (h1 : p.Silent) (h2 : p.next.Silent) (hg : gateOpen s.cfg p.bus.ctrl.srP = true) :
    Goes n s p (decodeStatus others n) (composite p.bus.ctrl.srS p.bus.ctrl.srP)
      (p.answered n s.cfg p.bus.ctrl.srP p.bus.ctrl.srS (p.sched.drop 2)) :=
  goes_decode_open hg (goes_silent h1) (goes_silent (p := p.readSrP n p.bus.ctrl.srP) h2)

/-- A poll whose condition the first decode meets (R11). -/
theorem goes_poll {cond : Word → Bool} {v : Word} (hd : Goes n s p (decodeStatus others n) v q) (hc : cond v = true)
    {k : Nat} (hk : 0 < k) (d : Nat) : Goes n s p (poll others n cond k d) true q := by
  obtain ⟨k, rfl⟩ := Nat.exists_eq_succ_of_ne_zero hk.ne'
  refine (goes_setPollN _).bind (hd.bind ?_)
  rw [hc, if_pos rfl]
  exact goes_pure true

theorem goes_failUnless (w : Caller) (k : ErrKind) : Goes n s p (failUnless others w n k true) () p := goes_pure ()

/-! ## Issue, the lock and BusyCheck -/

/-- A command issued in `s` that has made `k` primitives, none with an access; its instance is now `b` (R81). -/
def issuedStage (s : State) (k : Nat) (b : Bus) : Stage := ⟨s.sched.drop k, b, 0, none, [], []⟩

/-- A guarded command in its BusyCheck (R105). -/
def busyCheckStage (n : Inst) (s : State) : Stage := issuedStage s 4 { s.bus n with lock := true, phase := .busyCheck }

/-- A batch that is among the first `k` ones, which are all empty. -/
theorem headD_drop_of_silent {l : List (List Move)} {k : Nat} (h : ∀ b ∈ l.take k, b = []) {i : Nat} (hi : i < k) :
    (l.drop i).headD [] = [] := by
  rw [List.headD_eq_head?_getD, List.head?_drop]
  cases hb : l[i]? with
  | none => rfl
  | some b => exact h b (List.mem_take_iff_getElem.mpr (by grind))

theorem goes_startCommand (hp : Goes n s p others () q) :
    Goes n s p (startCommand others false) () { q with result := 0, rdata0 := none } :=
  goes_update hp fun _ ht => ht.clearResult

theorem goes_checkBound (hp : Goes n s p others () q) (hb : q.bus.bound = true) : Goes n s p (checkBound others n) () q := by
  refine hp.bind ((goes_look (a := true) fun t ht => by rw [ht.bus, hb]).bind ?_)
  rw [if_pos rfl]
  exact goes_pure ()

theorem goes_acquire (hp : Goes n s p others () q) (hl : q.bus.lock = false) :
    Goes n s p (acquire others n) () (q.mapBus fun b => { b with lock := true }) := by
  refine hp.bind ((goes_look (a := false) fun t ht => by rw [ht.bus, hl]).bind ?_)
  rw [if_neg Bool.false_ne_true]
  exact goes_tweak fun _ ht => ht.modBus _

/-- With the instance bound and the lock free, a guarded command comes to its BusyCheck. -/
theorem guardedCommand_busyCheck (hb : (s.bus n).bound = true) (hl : (s.bus n).lock = false)
    (hs : ∀ b ∈ s.sched.take 4, b = []) :
    ∃ t, AtStage n s (busyCheckStage n s) t ∧ ∀ x, guardedCommand n x s = x t := by
  have hsilent (b : Bus) (k : Nat) (hk : k < 4) :
      Goes n s (issuedStage s k b) others () (issuedStage s (k + 1) b) := by
    have hnext := goes_silent (n := n) (s := s) (p := issuedStage s k b) (headD_drop_of_silent hs hk)
    rwa [Stage.next, issuedStage, List.drop_drop] at hnext
  have hstart : Goes n s (.initial n s) (startCommand others false) () (issuedStage s 1 (s.bus n)) :=
    goes_startCommand (goes_silent (headD_drop_of_silent hs (i := 0) (by decide)))
  have hissue : Goes n s (.initial n s) (enter others n false) () (issuedStage s 2 (s.bus n)) :=
    hstart.bind (goes_checkBound (hsilent (s.bus n) 1 (by decide)) hb)
  have hlock := goes_acquire (hsilent (s.bus n) 2 (by decide)) hl
  have hphase := goes_setPhase (hsilent { s.bus n with lock := true } 3 (by decide)) .busyCheck
  obtain ⟨t, ht, h2⟩ := hissue s (.initial n s)
  obtain ⟨u, hu, h3⟩ := hlock t h2
  obtain ⟨v, hv, h4⟩ := hphase u h3
  exact ⟨v, h4, fun x => (bind_of_ok ht).trans ((bind_of_ok hu).trans (bind_of_ok hv))⟩

end Sys2Proof.Machine
end

section
/-! PROOFS. WRITE never resets the controller (R106, R108): while no interrupt is taken, none of its primitives and no move of the
other agents sets RESETRAN or is a set of SWRST. `Closed` lets any access be logged, which this frame does not stand; so WRITE is
gone through here with the accesses that it makes. -/
namespace Sys2Proof.Machine

open Sys2Proof.Claims

/-! ## What counts as no reset -/

/-- The set of SWRST that begins a software reset of instance `n` (R28, R127). -/
def resetSet (n : Inst) (c : Config) : Access := .regSet n .ctl (swrstMask c)

/-- From `s` to `t` no software reset of `n` began, and RESETRAN, where it is set, was set before. -/
structure NoReset (n : Inst) (c : Config) (s t : State) : Prop where
  frozen : Frozen notInterrupt s t
  resetRan : resultResetRan t.bank.result = true → resultResetRan s.bank.result = true
  trace : ∃ items, t.trace = s.trace ++ items ∧ ∀ x ∈ items, x ≠ resetSet n c

section
variable {n : Inst} {c : Config} {s t u : State}

theorem noReset_of_eq (hf : Frozen notInterrupt s t) (hb : t.bank = s.bank) (ht : t.trace = s.trace) : NoReset n c s t :=
  ⟨hf, fun h => hb ▸ h, [], by simp [ht], by simp⟩

theorem NoReset.refl (s : State) : NoReset n c s s := noReset_of_eq (.refl s) rfl rfl

theorem NoReset.trans (h : NoReset n c s t) (k : NoReset n c t u) : NoReset n c s u := by
  obtain ⟨xs, hxs, hx⟩ := h.trace
  obtain ⟨ys, hys, hy⟩ := k.trace
  refine ⟨h.frozen.trans k.frozen, fun hr => h.resetRan (k.resetRan hr), xs ++ ys, ?_, fun a ha => ?_⟩
  · rw [hys, hxs, List.append_assoc]
  · exact (List.mem_append.mp ha).elim (hx a) (hy a)

theorem noReset_log (s : State) {a : Access} (ha : a ≠ resetSet n c) : NoReset n c s (s.log a) :=
  ⟨frozen_log s a, id, [a], rfl, fun _ hx => List.mem_singleton.mp hx ▸ ha⟩

theorem noReset_modBus (s : State) (m : Inst) (f : Bus → Bus) : NoReset n c s (s.modBus m f) :=
  noReset_of_eq (frozen_modBus s m f) (State.modBus_bank s m f) (State.modBus_trace s m f)

/-- An access of an instance. -/
theorem noReset_modBus_log (s : State) (m : Inst) (f : Bus → Bus) {a : Access} (ha : a ≠ resetSet n c) :
    NoReset n c s ((s.modBus m f).log a) :=
  (noReset_modBus s m f).trans (noReset_log _ ha)

theorem noReset_modChan_log (s : State) (ch : ChanId) (f : Chan → Chan) {a : Access} (ha : a ≠ resetSet n c) :
    NoReset n c s ((s.modChan ch f).log a) := by
  rw [State.modChan_eq_modBus]
  exact noReset_modBus_log s ch.inst _ ha

theorem noReset_modBank (s : State) {f : Bank → Bank}
    (hf : resultResetRan (f s.bank).result = true → resultResetRan s.bank.result = true) : NoReset n c s (s.modBank f) :=
  ⟨frozen_modBank s f, by rwa [State.bank_modBank], [], by simp, by simp⟩

theorem noReset_engineStep (ch : ChanId) (s : State) : NoReset n c s (engineStep ch s) := by
  obtain ⟨m, d⟩ := ch
  unfold engineStep
  split
  · cases d with
    | tx => exact (noReset_modBus s m _).trans (noReset_modChan_log _ ⟨m, .tx⟩ _ nofun)
    | rx => exact noReset_modChan_log s ⟨m, .rx⟩ _ nofun
  · exact .refl s

/-- The other agents, taking no interrupt, write no result and set no bit of CTL. -/
theorem noReset_quietMove {m : Move} (hm : notInterrupt m = true) (s : State) : NoReset n c s (quietMove m s) := by
  cases m with
  | engine ch => exact noReset_engineStep ch s
  | envSrP k _ | envSrS k _ | envDr k _ | envClrStart k | envClrStop k | envEv k _ | envEr k _ =>
    simp only [quietMove, envEventLine, envErrorLine, State.modCtrl]
    exact noReset_modBus s k _
  | hostArg0 _ | hostArg1 _ =>
    refine ⟨frozen_quietMove hm s, ?_, [], by simp [quietMove], by simp⟩
    cases hp : s.port <;> simp [quietMove, State.bank, hp]
  | tick _ | hostStore _ _ | hostIssue _ => exact noReset_of_eq (frozen_quietMove hm s) rfl rfl
  | fire _ | issueIrq _ | starve _ => exact .refl s

end

/-! ## Runs -/

/-- While no interrupt is taken, with the parameters `c`, the run resets nothing. -/
def NeverResets (n : Inst) (c : Config) {α : Type} (x : Run α) : Prop := Keeps (Within notInterrupt c) (NoReset n c) x

section
variable {n : Inst} {c : Config} {α β : Type}

theorem neverResets_of {x : Run α} (h : ∀ s, Within notInterrupt c s → NoReset n c s (outState (x s))) :
    NeverResets n c x := fun s hs =>
  ⟨(h s hs).frozen.within hs, h s hs⟩

theorem neverResets_others : NeverResets n c others :=
  have F := frozen_othersClosed (A := notInterrupt) (c := c)
  OthersClosed.others (c := c) (Q := fun _ => True) (A := (notInterrupt · = true)) <|
  { refl := .refl
    trans := fun _ _ _ => .trans
    allowed := F.allowed
    pop := fun s b rest hs hb =>
      have hk := F.pop s b rest hs hb
      ⟨hk.1, noReset_of_eq hk.2 rfl rfl⟩
    quiet := fun m hm => (F.quiet m hm).withRel fun s _ => noReset_quietMove hm s
    fire := fun _ h => nomatch h
    issue := fun _ h => nomatch h
    starve := fun _ h => nomatch h }

namespace NeverResets

theorem pure (a : α) : NeverResets n c (Pure.pure a : Run α) := keeps_pure .refl a

theorem bind {x : Run α} {f : α → Run β} (hx : NeverResets n c x) (hf : ∀ a, NeverResets n c (f a)) :
    NeverResets n c (x >>= f) :=
  keeps_bind (fun _ _ _ => .trans) hx hf

theorem look (g : State → α) : NeverResets n c (Machine.look g) := fun s hs => ⟨hs, .refl s⟩

theorem params {f : Config → Run β} (hf : NeverResets n c (f c)) : NeverResets n c (Machine.params >>= f) := fun s hs => by
  rw [bind_of_ok (params_run s), hs.1]
  exact hf s hs

theorem ite {b : Prop} [Decidable b] {x y : Run α} (hx : NeverResets n c x) (hy : NeverResets n c y) :
    NeverResets n c (if b then x else y) :=
  keeps_ite hx hy

theorem runIf {x : Run Unit} (hx : NeverResets n c x) (b : Bool) : NeverResets n c (Machine.runIf b x) :=
  keeps_runIf .refl hx

theorem tweak {g : State → State} (hg : ∀ s, NoReset n c s (g s)) : NeverResets n c (Machine.tweak g) :=
  neverResets_of fun s _ => hg s

theorem atom {g : State → α × State} (hg : ∀ s, NoReset n c s (g s).2) : NeverResets n c (Machine.atom others g) :=
  neverResets_others.bind fun _ => neverResets_of fun s _ => hg s

theorem update {g : State → State} (hg : ∀ s, NoReset n c s (g s)) : NeverResets n c (Machine.update others g) := atom hg

/-! The primitives. -/

theorem regRead (m : Inst) (r : Reg) : NeverResets n c (Machine.regRead others m r) :=
  atom fun s => noReset_modBus_log s m _ nofun

theorem regWrite (m : Inst) (r : Reg) (v : Half) : NeverResets n c (Machine.regWrite others m r v) :=
  update fun s => noReset_modBus_log s m _ nofun

theorem setCtl (m : Inst) {v : Half} (hv : v ≠ swrstMask c) : NeverResets n c (Machine.regSet others m .ctl v) :=
  update fun s => noReset_modBus_log s m _ fun h => by
    rw [resetSet] at h
    injection h with _ _ h
    exact hv h

theorem diag (k : DiagKind) (v : Word) (regs : List Half) : NeverResets n c (Machine.diag others k v regs) :=
  update fun _ => noReset_of_eq (frozen_of_eq rfl rfl rfl) rfl rfl

theorem modBus (m : Inst) (f : Bus → Bus) : NeverResets n c (Machine.update others (·.modBus m f)) :=
  update fun s => noReset_modBus s m f

theorem setPhase (m : Inst) (p : Phase) : NeverResets n c (Machine.setPhase others m p) := modBus m _

theorem release (m : Inst) : NeverResets n c (Machine.release others m) := modBus m _

/-- A write of RESULT that sets no RESETRAN. -/
theorem putResult {f : Half → Half} (hf : ∀ r, resultResetRan (f r) = resultResetRan r) :
    NeverResets n c (Machine.putResult others f) :=
  update fun s => noReset_modBank s (f := fun b => { b with result := f b.result }) fun h => hf _ ▸ h

theorem succeed : NeverResets n c (Machine.succeed others) := putResult fun _ => resultResetRan_withCode _ _

theorem setPollN (f : Nat → Nat) : NeverResets n c (Machine.setPollN f) := tweak fun s => noReset_modBank s id

theorem refused (r : RefuseCode) : NeverResets n c (Machine.refused r : Run α) := neverResets_of fun s _ => by
  have hcode : NoReset n c s (s.modResult (withCode · (refuseCode r))) :=
    noReset_modBank s fun h => resultResetRan_withCode _ _ ▸ h
  have hfree (t : State) : NoReset n c t (freeRdata0 t) :=
    (noReset_modBank t (f := fun b => { b with rdata0 := Config.freeWord t.freeCtr }) id).trans
      (noReset_of_eq (frozen_of_eq rfl rfl rfl) rfl rfl)
  exact hcode.trans (hfree _)

/-! The parts of WRITE. -/

theorem checkBound (m : Inst) : NeverResets n c (Machine.checkBound others m) :=
  neverResets_others.bind fun _ => (look _).bind fun _ => ite (pure ()) (refused _)

theorem acquire (m : Inst) : NeverResets n c (Machine.acquire others m) :=
  neverResets_others.bind fun _ => (look _).bind fun _ => ite (refused _) (tweak fun s => noReset_modBus s m _)

theorem decodeStatus (m : Inst) : NeverResets n c (Machine.decodeStatus others m) :=
  params <| (regRead m _).bind fun _ => ite ((regRead m _).bind fun _ => pure _) (pure _)

theorem delayMs (d : Nat) : NeverResets n c (Machine.delayMs others d) :=
  runIf (update fun s => noReset_log s (a := .delay d) nofun) _

theorem poll (m : Inst) (cond : Word → Bool) (budget d : Nat) : NeverResets n c (Machine.poll others m cond budget d) := by
  refine (setPollN _).bind fun _ => ?_
  induction budget with
  | zero => exact pure _
  | succ k ih =>
    exact (decodeStatus m).bind fun _ => ite (pure _) <| (delayMs d).bind fun _ => (setPollN _).bind fun _ => ih

theorem failEnd (w : Caller) (m : Inst) : NeverResets n c (Machine.failEnd others w m) :=
  ite
    ((update fun s => noReset_modBank s (f := fun b => { b with result := withFPhase b.result _ }) fun h =>
        resultResetRan_withFPhase _ _ ▸ h).bind fun _ => (setPhase m _).bind fun _ => release m)
    (putResult fun _ => resultResetRan_withFPhase _ _)

/-- The failure exit of a command that has no Reset there (R143). -/
theorem failUnless {w : Caller} {k : ErrKind} (hw : failureResets w k = false) (m : Inst) (ok : Bool) :
    NeverResets n c (Machine.failUnless others w m k ok) := by
  have hbusError (v : Word) : NeverResets n c (Machine.failBusError others w m k v) := by
    rw [Machine.failBusError, hw]
    exact (diag _ _ _).bind fun _ => (putResult fun _ => resultResetRan_withBusErr _).bind fun _ => pure ()
  exact ite (pure ()) <| params <| (decodeStatus m).bind fun _ => (diag _ _ _).bind fun _ =>
    (runIf (hbusError _) _).bind fun _ => (putResult fun _ => resultResetRan_withCode _ _).bind fun _ =>
    (failEnd w m).bind fun _ => keeps_leave .refl _

theorem finishGuarded (m : Inst) : NeverResets n c (Machine.finishGuarded others m) :=
  (setPhase m _).bind fun _ => release m

end NeverResets

/-! ## WRITE -/

theorem bitMask_injective : Function.Injective bitMask := fun i j h => by
  have hi : (bitMask j).getLsbD i = true := h ▸ by simp [bitMask]
  simp only [bitMask, BitVec.getLsbD_twoPow, Bool.and_eq_true, decide_eq_true_eq] at hi
  exact Fin.ext hi.2.symm

/-- START and STOP are not SWRST (R7: the control bits are an injective map). -/
theorem controlMasks_ne_swrstMask (hc : c.wellFormed = true) : startMask c ≠ swrstMask c ∧ stopMask c ≠ swrstMask c := by
  have hbits : c.controlBitsOk = true := by
    simp only [Config.wellFormed, Bool.and_eq_true] at hc
    obtain ⟨⟨⟨⟨⟨⟨⟨-, hbits⟩, -⟩, -⟩, -⟩, -⟩, -⟩, -⟩ := hc
    exact hbits
  simp only [Config.controlBitsOk, Bool.and_eq_true, decide_eq_true_eq, List.nodup_cons, List.mem_cons, List.not_mem_nil,
    or_false, not_or] at hbits
  obtain ⟨⟨-, ⟨-, hstart⟩, hstop, -⟩, -⟩ := hbits
  exact ⟨bitMask_injective.ne hstart, bitMask_injective.ne hstop⟩

/-- A guarded command after its first step, which clears RESULT (R81(1)). -/
def guardedAfterIssue (n : Inst) (x : Run Unit) : Run Unit := do
  checkBound others n
  acquire others n
  setPhase others n .busyCheck
  x

theorem guardedCommand_eq (n : Inst) (x : Run Unit) :
    guardedCommand n x = (do startCommand others false; guardedAfterIssue n x) :=
  bind_assoc _ _ _

theorem neverResets_writeBody (hc : c.wellFormed = true) (a : Addr7) (b : Byte) :
    NeverResets n c (writeBody n a b) := by
  obtain ⟨hstart, hstop⟩ := controlMasks_ne_swrstMask hc
  have hgen : NeverResets n c (generateStart others .write n) :=
    .params <| (NeverResets.poll _ _ _ _).bind fun _ => (NeverResets.setCtl n hstart).bind fun _ =>
      (NeverResets.poll _ _ _ _).bind fun _ => .failUnless rfl _ _
  have haddr : NeverResets n c (sendAddress others .write n .tx a) :=
    .params <| (NeverResets.regWrite _ _ _).bind fun _ => (NeverResets.poll _ _ _ _).bind fun _ => .failUnless rfl _ _
  have hbyte : NeverResets n c (transmitByte others .write n b) :=
    .params <| (NeverResets.regWrite _ _ _).bind fun _ => (NeverResets.poll _ _ _ _).bind fun _ => .failUnless rfl _ _
  have hend : NeverResets n c (generateStop others n) := .params (.setCtl n hstop)
  exact .params <| (NeverResets.poll _ _ _ _).bind fun _ =>
    (NeverResets.failUnless rfl _ _).bind fun _ => (NeverResets.setPhase n _).bind fun _ => hgen.bind fun _ =>
    (NeverResets.setPhase n _).bind fun _ => haddr.bind fun _ => (NeverResets.setPhase n _).bind fun _ =>
    hbyte.bind fun _ => (NeverResets.setPhase n _).bind fun _ => hend.bind fun _ =>
    (NeverResets.finishGuarded n).bind fun _ => .succeed

theorem neverResets_guardedAfterIssue {x : Run Unit} (hx : NeverResets n c x) : NeverResets n c (guardedAfterIssue n x) :=
  (NeverResets.checkBound n).bind fun _ => (NeverResets.acquire n).bind fun _ => (NeverResets.setPhase n _).bind fun _ => hx

/-- WRITE clears RESULT at issue, and from there on nothing resets. -/
theorem exec_write_noReset {s t : State} {a : Addr7} {b : Byte} (hc : s.cfg.wellFormed = true) (hs : NoInterrupt s)
    (he : exec (.write n a b) s = .next t) :
    resultResetRan t.bank.result = false ∧ ∃ items, t.trace = s.trace ++ items ∧ ∀ x ∈ items, x ≠ resetSet n s.cfg := by
  obtain ⟨u, hu⟩ := others_ok hs
  have hothers := neverResets_others (n := n) s ⟨rfl, onlyMoves_of_noInterrupt hs⟩
  rw [hu, outState_ok] at hothers
  obtain ⟨hwithin, hsu⟩ := hothers
  have hclear : Frozen notInterrupt u (clearResult false u) := frozen_of_eq (by simp) (by simp) (State.modBank_mem u _)
  have hrun : exec (.write n a b) s = toOutcome (guardedAfterIssue n (writeBody n a b) (clearResult false u)) := by
    rw [exec_write, guardedCommand_eq, startCommand, bind_of_ok (update_of hu _)]
  have hrest := (neverResets_guardedAfterIssue (neverResets_writeBody (n := n) hc a b) _ (hclear.within hwithin)).2
  rw [outState_of_next (hrun ▸ he)] at hrest
  obtain ⟨xs, hxs, hx⟩ := hsu.trace
  obtain ⟨ys, hys, hy⟩ := hrest.trace
  refine ⟨?_, xs ++ ys, ?_, fun x hx' => (List.mem_append.mp hx').elim (hx x) (hy x)⟩
  · refine Bool.eq_false_iff.mpr fun hr => ?_
    have hzero := hrest.resetRan hr
    rw [clearResult_bank] at hzero
    exact absurd hzero (Bool.eq_false_iff.mp (show resultResetRan 0 = false by decide))
  · rw [hys, clearResult_trace, hxs, List.append_assoc]

end

end Sys2Proof.Machine

namespace Sys2Proof.Proofs

open Sys2Proof.Machine

/-- Settles O14: RESULT is cleared at issue, and no primitive of WRITE after it sets RESETRAN or sets SWRST. -/
theorem writeNeverResets : Obligations.WriteNeverResets := by
  intro n a b s t hc hs he
  exact exec_write_noReset hc hs he

end Sys2Proof.Proofs
end

section
/-! PROOFS. WRITE and READ on a bus that reports not busy and reaches every expected pattern (R106, R107): each poll ends at its
first decode, which the environment answers, and the accesses between the polls are made once. -/
namespace Sys2Proof.Machine

open Sys2Proof.Claims

variable {n : Inst} {s : State} {p q : Stage} {w : Caller}

/-! ## Accesses out of a software reset -/

namespace Stage
variable (n : Inst) (p : Stage)

/-- SWRST is 0 in CTL, so an access forces nothing (R28). -/
abbrev OutOfReset (cfg : Config) : Prop := p.bus.ctrl.ctl.getLsbD cfg.flags.swrst = false

variable (l : List (List Move))

/-- `v` has been handed to DR. -/
def drWritten (v : Half) : Stage :=
  { p with
    sched := l
    bus := { p.bus with ctrl := { p.bus.ctrl with drTx := v } }
    items := p.items ++ [.regWrite n .dr v] }

/-- The bits `m` of CTL have been set. -/
def ctlSet (m : Half) : Stage :=
  { p with
    sched := l
    bus := { p.bus with ctrl := { p.bus.ctrl with ctl := p.bus.ctrl.ctl ||| m } }
    items := p.items ++ [.regSet n .ctl m] }

/-- `phase` has been written. -/
def inPhase (k : Phase) : Stage := { p with sched := l, bus := { p.bus with phase := k } }

/-- The instance has been freed at the end of a guarded command (R63, R105). -/
def freed : Stage := { p with sched := l, bus := { p.bus with lock := false, phase := .idle } }

/-- The byte `b` has been read from DR and kept (R98). -/
def byteReceived (b : Byte) : Stage :=
  { p with
    sched := l
    bus := { p.bus with ctrl := { p.bus.ctrl with drRx := b }, lastRx := b }
    items := p.items ++ [.regRead n .dr (dataHalf b)] }

end Stage

variable {l : List (List Move)}

/-- No other agent moves before this primitive. -/
theorem goes_still (hs : p.sched = silence 1 ++ l) : Goes n s p others () { p with sched := l } := by
  have hsilent := goes_silent (n := n) (s := s) (p := p) (by rw [Stage.Silent, hs]; rfl)
  rwa [Stage.next, hs] at hsilent

theorem goes_inPhase (hs : p.sched = silence 1 ++ l) (k : Phase) : Goes n s p (setPhase others n k) () (p.inPhase l k) :=
  goes_setPhase (goes_still hs) k

theorem goes_writeReg (hp : Goes n s p others () q) (hr : q.OutOfReset s.cfg) {k : Reg} (hk : k ≠ .ctl) (v : Half) :
    Goes n s p (regWrite others n k v) () ((q.mapCtrl (·.store k v)).log (.regWrite n k v)) := by
  have hput : q.bus.ctrl.put s.cfg k v = q.bus.ctrl.store k v := held_of_not_reset (by
    cases k with
    | ctl => exact absurd rfl hk
    | _ => exact hr)
  have hwrite := goes_regWrite hp k v
  rwa [Stage.mapCtrl, Stage.mapBus, hput] at hwrite

theorem goes_writeDr (hs : p.sched = silence 1 ++ l) (hr : p.OutOfReset s.cfg) (v : Half) :
    Goes n s p (regWrite others n .dr v) () (p.drWritten n l v) :=
  goes_writeReg (goes_still hs) hr (k := .dr) nofun v

theorem goes_setBits (hs : p.sched = silence 1 ++ l) {m : Half}
    (hr : (p.bus.ctrl.ctl ||| m).getLsbD s.cfg.flags.swrst = false) :
    Goes n s p (regSet others n .ctl m) () (p.ctlSet n l m) := by
  have hput : p.bus.ctrl.put s.cfg .ctl (p.bus.ctrl.ctl ||| m) = { p.bus.ctrl with ctl := p.bus.ctrl.ctl ||| m } :=
    held_of_not_reset hr
  have hset := goes_setCtl (n := n) (s := s) (goes_still hs) m
  rwa [Stage.mapCtrl, Stage.mapBus, hput] at hset

theorem getLsbD_bitMask_of_ne {i j : Fin 16} (h : i ≠ j) : (bitMask i).getLsbD j = false := by
  simp [bitMask, Fin.val_inj, h.symm]

/-- START and STOP are not SWRST, so setting them begins no software reset (R7, R28). -/
theorem outOfReset_or_start {cfg : Config} (hc : cfg.wellFormed = true) {x : Half} (hx : x.getLsbD cfg.flags.swrst = false) :
    (x ||| startMask cfg).getLsbD cfg.flags.swrst = false := by
  have hne : cfg.flags.start ≠ cfg.flags.swrst := fun h => (controlMasks_ne_swrstMask hc).1 (congrArg bitMask h)
  rw [BitVec.getLsbD_or, hx, Bool.false_or, startMask]
  exact getLsbD_bitMask_of_ne hne

theorem outOfReset_or_stop {cfg : Config} (hc : cfg.wellFormed = true) {x : Half} (hx : x.getLsbD cfg.flags.swrst = false) :
    (x ||| stopMask cfg).getLsbD cfg.flags.swrst = false := by
  have hne : cfg.flags.stop ≠ cfg.flags.swrst := fun h => (controlMasks_ne_swrstMask hc).2 (congrArg bitMask h)
  rw [BitVec.getLsbD_or, hx, Bool.false_or, stopMask]
  exact getLsbD_bitMask_of_ne hne

/-! ## The primitives -/

/-- The poll that ends a primitive, its pattern reached at the first decode. -/
theorem goes_pollOrFail {v x : Half} {pat : Word} (hs : p.sched = answers n v x ++ l) (h : Reaches s.cfg v x pat) {k : Nat}
    (hk : 0 < k) (d : Nat) (e : ErrKind) :
    Goes n s p (poll others n (matchPat · pat) k d >>= failUnless others w n e) () (p.answered n s.cfg v x l) :=
  (goes_poll (goes_decode_answers hs h.1) h.2 hk d).bind (goes_failUnless w e)

/-- A wait for a free bus that the first decode ends. -/
theorem goes_busyWait {v x : Half} (hs : p.sched = answers n v x ++ l) (h : FindsFree s.cfg v x) {k : Nat} (hk : 0 < k)
    (d : Nat) : Goes n s p (poll others n (fun z => !isBusy s.cfg z) k d) true (p.answered n s.cfg v x l) :=
  goes_poll (goes_decode_answers hs h.1) (by simpa [isBusy] using h.2) hk d

theorem goes_generateStart {v x v' x' : Half} {m : List (List Move)} (hc : s.cfg.wellFormed = true)
    (hs : p.sched = answers n v x ++ m) (hm : m = silence 1 ++ (answers n v' x' ++ l)) (hr : p.OutOfReset s.cfg)
    (hk : 0 < s.cfg.nStartBusy) (hk' : 0 < s.cfg.nStartWait)
    (h : FindsFree s.cfg v x) (h' : Reaches s.cfg v' x' (pStart s.cfg)) :
    Goes n s p (generateStart others w n) ()
      (((p.answered n s.cfg v x m).ctlSet n (answers n v' x' ++ l) (startMask s.cfg)).answered n s.cfg v' x' l) :=
  Goes.bind goes_params <| Goes.bind (goes_busyWait hs h hk _) <|
    Goes.bind (goes_setBits hm (outOfReset_or_start hc hr)) <| goes_pollOrFail rfl h' hk' _ _

theorem goes_sendAddress_tx {v x : Half} (hs : p.sched = silence 1 ++ (answers n v x ++ l))
    (hr : p.OutOfReset s.cfg) (hk : 0 < s.cfg.nSpin) (h : Reaches s.cfg v x (pAddrTx s.cfg)) (a : Addr7) :
    Goes n s p (sendAddress others w n .tx a) ()
      ((p.drWritten n (answers n v x ++ l) (dataHalf (addressByte .tx a))).answered n s.cfg v x l) :=
  Goes.bind goes_params <| Goes.bind (goes_writeDr hs hr _) <| goes_pollOrFail rfl h hk _ _

theorem goes_sendAddress_rx (hs : p.sched = silence 1 ++ l) (hr : p.OutOfReset s.cfg) (a : Addr7) :
    Goes n s p (sendAddress others w n .rx a) () (p.drWritten n l (dataHalf (addressByte .rx a))) :=
  Goes.bind goes_params <| Goes.bind (goes_writeDr hs hr _) <| goes_pure ()

theorem goes_transmitByte {v x : Half} (hs : p.sched = silence 1 ++ (answers n v x ++ l)) (hr : p.OutOfReset s.cfg)
    (hk : 0 < s.cfg.nSpin) (h : Reaches s.cfg v x (pByteTx s.cfg)) (b : Byte) :
    Goes n s p (transmitByte others w n b) ()
      ((p.drWritten n (answers n v x ++ l) (dataHalf b)).answered n s.cfg v x l) :=
  Goes.bind goes_params <| Goes.bind (goes_writeDr hs hr _) <| goes_pollOrFail rfl h hk _ _

theorem goes_readDr {b : Byte} (hs : p.sched = [.envDr n b] :: l) :
    Goes n s p (regRead others n .dr) (dataHalf b)
      { p with
        sched := l
        bus := { p.bus with ctrl := { p.bus.ctrl with drRx := b } }
        items := p.items ++ [.regRead n .dr (dataHalf b)] } := by
  have hdr : p.sched.headD [] = [.envDr n b] := by rw [hs, List.headD_cons]
  have hread := goes_regRead (s := s) (goes_others (hdr ▸ actsAs_envDr n b)) .dr
  rwa [Stage.next, hs] at hread

theorem goes_receiveByte {v x : Half} {b : Byte} (hs : p.sched = answers n v x ++ [.envDr n b] :: (silence 1 ++ l))
    (hk : 0 < s.cfg.nRx) (h : Reaches s.cfg v x (pByteRx s.cfg)) :
    Goes n s p (receiveByte others w n) b
      ((p.answered n s.cfg v x ([.envDr n b] :: (silence 1 ++ l))).byteReceived n l b) := by
  obtain ⟨hg, hm⟩ := h
  refine Goes.bind goes_params ?_
  refine Goes.bind (goes_poll (cond := (matchPat · (pByteRx s.cfg))) (goes_decode_answers hs hg) hm hk _) ?_
  refine Goes.bind (goes_failUnless _ _) <| Goes.bind (goes_readDr rfl) ?_
  rw [lowByte_dataHalf]
  exact Goes.bind (goes_modBus (goes_still rfl) _) (goes_pure b)

theorem goes_generateStop (hc : s.cfg.wellFormed = true) (hs : p.sched = silence 1 ++ l) (hr : p.OutOfReset s.cfg) :
    Goes n s p (generateStop others n) () (p.ctlSet n l (stopMask s.cfg)) :=
  Goes.bind goes_params <| goes_setBits hs (outOfReset_or_stop hc hr)

theorem goes_finishGuarded (hs : p.sched = silence 1 ++ (silence 1 ++ l)) :
    Goes n s p (finishGuarded others n) () (p.freed l) :=
  Goes.bind (goes_inPhase hs _) <| goes_release (goes_still rfl)

/-! ## The commands -/

/-- The bus is reported free in BusyCheck (`v 0`, `x 0`) and before START (`v 1`, `x 1`), and shows P_START after it (`v 2`,
`x 2`), each at the first decode of a poll that makes one (R105). -/
structure StartCooperates (c : Config) (v x : Nat → Half) : Prop where
  wellFormed : c.wellFormed = true
  startBusy_pos : 0 < c.nStartBusy
  startWait_pos : 0 < c.nStartWait
  busyCheck : FindsFree c (v 0) (x 0)
  free : FindsFree c (v 1) (x 1)
  start : Reaches c (v 2) (x 2) (pStart c)

/-- WRITE's polls end so (R106). -/
structure WriteCooperates (c : Config) (v x : Nat → Half) : Prop extends StartCooperates c v x where
  wrBusy_pos : 0 < c.nWrBusy
  spin_pos : 0 < c.nSpin
  address : Reaches c (v 3) (x 3) (pAddrTx c)
  byte : Reaches c (v 4) (x 4) (pByteTx c)

/-- READ's polls end so (R107). -/
structure ReadCooperates (c : Config) (v x : Nat → Half) : Prop extends StartCooperates c v x where
  rdOuter_pos : 0 < c.nRdOuter
  rdInner_pos : 0 < c.nRdInner
  rx_pos : 0 < c.nRx
  byte : Reaches c (v 3) (x 3) (pByteRx c)

/-- WRITE from its BusyCheck on (R106). -/
theorem goes_writeBody {v x : Nat → Half} {i : Bus} (h : WriteCooperates s.cfg v x)
    (hr : i.ctrl.ctl.getLsbD s.cfg.flags.swrst = false) (a : Addr7) (b : Byte) :
    Goes n s
      ⟨answers n (v 0) (x 0) ++ (silence 1 ++ (answers n (v 1) (x 1) ++ (silence 1 ++ (answers n (v 2) (x 2) ++
        (silence 1 ++ (silence 1 ++ (answers n (v 3) (x 3) ++ (silence 1 ++ (silence 1 ++ (answers n (v 4) (x 4) ++
        (silence 1 ++ (silence 1 ++ (silence 1 ++ (silence 1 ++ (silence 1 ++ l))))))))))))))), i, 0, none, [], []⟩
      (writeBody n a b) ()
      { sched := l
        bus :=
          { i with
            lock := false
            phase := .idle
            ctrl :=
              { i.ctrl with
                ctl := i.ctrl.ctl ||| startMask s.cfg ||| stopMask s.cfg
                drTx := dataHalf b
                srP := v 4 &&& ~~~s.cfg.seqClear
                srS := x 4
                pRead := false } }
        result := 0
        rdata0 := none
        items := decodeItems n (v 0) (x 0) ++ decodeItems n (v 1) (x 1) ++ [.regSet n .ctl (startMask s.cfg)] ++
          decodeItems n (v 2) (x 2) ++ [.regWrite n .dr (dataHalf (addressByte .tx a))] ++ decodeItems n (v 3) (x 3) ++
          [.regWrite n .dr (dataHalf b)] ++ decodeItems n (v 4) (x 4) ++ [.regSet n .ctl (stopMask s.cfg)]
        records := [] } := by
  have hstarted := outOfReset_or_start h.wellFormed hr
  refine goes_params.bind <| Goes.bind (goes_busyWait rfl h.busyCheck h.wrBusy_pos _) <| Goes.bind (goes_failUnless _ _) ?_
  refine Goes.bind (goes_inPhase rfl .start) ?_
  refine Goes.bind (goes_generateStart h.wellFormed rfl rfl hr h.startBusy_pos h.startWait_pos h.free h.start) ?_
  refine Goes.bind (goes_inPhase rfl .address) ?_
  refine Goes.bind (goes_sendAddress_tx rfl hstarted h.spin_pos h.address a) ?_
  refine Goes.bind (goes_inPhase rfl .dataPhase) ?_
  refine Goes.bind (goes_transmitByte rfl hstarted h.spin_pos h.byte b) ?_
  refine Goes.bind (goes_inPhase rfl .stop) ?_
  refine Goes.bind (goes_generateStop h.wellFormed rfl hstarted) ?_
  refine Goes.bind (goes_finishGuarded rfl) (Goes.to (goes_succeed (goes_still rfl)) ?_)
  simpa [Stage.answered, Stage.inPhase, Stage.ctlSet, Stage.drWritten, Stage.freed, Stage.mapResult]
    using withCode_zero_zero

/-- READ's BusyCheck on a bus that the first decode finds free (R107). -/
theorem goes_readOuter {v x : Half} (hs : p.sched = answers n v x ++ l) (h : FindsFree s.cfg v x)
    (hk : 0 < s.cfg.nRdInner) {a : Nat} (ha : 0 < a) :
    Goes n s p (readOuter others n a) true (p.answered n s.cfg v x l) := by
  obtain ⟨k, hk⟩ := Nat.exists_eq_succ_of_ne_zero hk.ne'
  obtain ⟨a, rfl⟩ := Nat.exists_eq_succ_of_ne_zero ha.ne'
  have hfree : (!isBusy s.cfg (composite x v)) = true := by simpa [isBusy] using h.2
  refine Goes.bind goes_params <| Goes.bind (goes_setPollN _) <| Goes.bind (a := true) ?_ (goes_pure true)
  rw [hk]
  refine Goes.bind goes_params <| Goes.bind (goes_decode_answers hs h.1) ?_
  rw [if_pos hfree]
  exact goes_pure true

/-- READ from its BusyCheck on (R107). -/
theorem goes_readBody {v x : Nat → Half} {i : Bus} (h : ReadCooperates s.cfg v x)
    (hr : i.ctrl.ctl.getLsbD s.cfg.flags.swrst = false) (a : Addr7) (b : Byte) :
    Goes n s
      ⟨answers n (v 0) (x 0) ++ (silence 1 ++ (answers n (v 1) (x 1) ++ (silence 1 ++ (answers n (v 2) (x 2) ++
        (silence 1 ++ (silence 1 ++ (silence 1 ++ (answers n (v 3) (x 3) ++ [.envDr n b] :: (silence 1 ++
        (silence 1 ++ (silence 1 ++ (silence 1 ++ (silence 1 ++ (silence 1 ++ (silence 1 ++ l))))))))))))))),
        i, 0, none, [], []⟩
      (readBody n a) ()
      { sched := l
        bus :=
          { i with
            lock := false
            phase := .idle
            lastRx := b
            ctrl :=
              { i.ctrl with
                ctl := i.ctrl.ctl ||| startMask s.cfg ||| stopMask s.cfg
                drTx := dataHalf (addressByte .rx a)
                drRx := b
                srP := v 3 &&& ~~~s.cfg.seqClear
                srS := x 3
                pRead := false } }
        result := 0
        rdata0 := some (dataWord b)
        items := decodeItems n (v 0) (x 0) ++ decodeItems n (v 1) (x 1) ++ [.regSet n .ctl (startMask s.cfg)] ++
          decodeItems n (v 2) (x 2) ++ [.regWrite n .dr (dataHalf (addressByte .rx a))] ++ decodeItems n (v 3) (x 3) ++
          [.regRead n .dr (dataHalf b)] ++ [.regSet n .ctl (stopMask s.cfg)]
        records := [] } := by
  have hstarted := outOfReset_or_start h.wellFormed hr
  refine goes_params.bind <| Goes.bind (goes_readOuter rfl h.busyCheck h.rdInner_pos h.rdOuter_pos) <| Goes.bind (goes_failUnless _ _) ?_
  refine Goes.bind (goes_inPhase rfl .start) ?_
  refine Goes.bind (goes_generateStart h.wellFormed rfl rfl hr h.startBusy_pos h.startWait_pos h.free h.start) ?_
  refine Goes.bind (goes_inPhase rfl .address) ?_
  refine Goes.bind (goes_sendAddress_rx rfl hstarted a) ?_
  refine Goes.bind (goes_inPhase rfl .dataPhase) ?_
  refine Goes.bind (goes_receiveByte rfl h.rx_pos h.byte) ?_
  refine Goes.bind (goes_inPhase rfl .stop) ?_
  refine Goes.bind (goes_generateStop h.wellFormed rfl hstarted) ?_
  refine Goes.bind (goes_finishGuarded rfl) ?_
  refine Goes.bind (goes_putRdata0 (goes_still rfl) _) (Goes.to (goes_succeed (goes_still rfl)) ?_)
  simpa [Stage.answered, Stage.inPhase, Stage.ctlSet, Stage.drWritten, Stage.freed, Stage.mapResult, Stage.byteReceived]
    using withCode_zero_zero

/-- A command that comes to the end of its stages. -/
theorem next_of_goes {x : Run Unit} (hb : (s.bus n).bound = true)
    (hl : (s.bus n).lock = false) (hs : s.sched = silence 4 ++ l)
    (hx : Goes n s ⟨l, { s.bus n with lock := true, phase := .busyCheck }, 0, none, [], []⟩ x () q) :
    ∃ t, toOutcome (guardedCommand n x s) = .next t ∧ AtStage n s q t := by
  obtain ⟨t, ht, hrun⟩ := guardedCommand_busyCheck hb hl (by simp [hs, silence])
  rw [busyCheckStage, issuedStage, hs] at ht
  obtain ⟨u, hu, hq⟩ := hx t ht
  exact ⟨u, by rw [hrun, hu, toOutcome], hq⟩

end Sys2Proof.Machine

namespace Sys2Proof.Proofs

open Sys2Proof.Machine Sys2Proof.Claims

/-- Settles O34: every poll ends at its first decode, and the stages of WRITE are gone through once. -/
theorem writeCompletesOnCooperativeBus : Obligations.WriteCompletesOnCooperativeBus := by
  intro n a b s v x rest hc hr hb hl hkb hks hkw hkp hbusy hfree hstart haddr hbyte hs
  have hbody := goes_writeBody (n := n) (l := rest) (i := { s.bus n with lock := true, phase := .busyCheck })
    ⟨⟨hc, hks, hkw, hbusy, hfree, hstart⟩, hkb, hkp, haddr, hbyte⟩ hr a b
  obtain ⟨t, hexec, ht⟩ := next_of_goes hb hl (by simp [hs, silence]) hbody
  rw [dataHalf_addressByte_tx] at ht
  refine ⟨t, hexec, ht.result, ht.sched, by simpa using ht.sink, ?_, ht.bus, ht.kept⟩
  simpa [dataHalf] using ht.trace

/-- Settles O36: as WRITE, but for the address, which is not waited for, and the byte, which is read once. -/
theorem readCompletesOnCooperativeBus : Obligations.ReadCompletesOnCooperativeBus := by
  intro n a b s v x rest hc hr hb hl hko hki hks hkw hkr hbusy hfree hstart hbyte hs
  have hbody := goes_readBody (n := n) (l := rest) (i := { s.bus n with lock := true, phase := .busyCheck })
    ⟨⟨hc, hks, hkw, hbusy, hfree, hstart⟩, hko, hki, hkr, hbyte⟩ hr a b
  obtain ⟨t, hexec, ht⟩ := next_of_goes hb hl (by simp [hs, silence]) hbody
  rw [dataHalf_addressByte_rx] at ht
  refine ⟨t, hexec, ht.result, ht.rdata0 _ rfl, ht.sched, by simpa using ht.sink, ?_, ht.bus, ht.kept⟩
  simpa [dataHalf] using ht.trace

end Sys2Proof.Proofs
end

section
/-! PROOFS. WRITE and READ on a bus that stays busy (R106, R107, R143): BusyCheck uses up its budget of decodes and the failure
exit ends the command. READ's Reset in BusyCheck (R107, R127) uses up one outer attempt; the bus it leaves is as busy. -/
namespace Sys2Proof.Machine

open Sys2Proof.Claims

variable {n : Inst} {r s t u : State} {p q : Stage} {w : Caller} {α β : Type}

/-! ## The failure exit of a guarded command -/

/-- The failure exit `k` of a guarded command has been gone through, its decode having answered `v`; no Reset (R143). -/
def Stage.failed (p : Stage) (k : ErrKind) (v : Word) (err : Bool) : Stage :=
  { p with
    bus := { p.bus with phase := .idle, lock := false }
    result := withFPhase (withCode (if err then withBusErr p.result else p.result) (errCode k)) (phaseCode p.bus.phase)
    records := p.records ++ failRecords k v err }

/-- The failure decode `v` has been looked at for an error bit, and one was seen if `err` (R143). -/
def Stage.errorTested (p : Stage) (v : Word) (err : Bool) : Stage :=
  { p with
    result := if err then withBusErr p.result else p.result
    records := p.records ++ if err then [⟨.err .busError, v, []⟩] else [] }

theorem goes_failBusError (hq : p.sched = []) {k : ErrKind} (hr : failureResets w k = false) (v : Word) (err : Bool) :
    Goes n s p (runIf err (failBusError others w n k v)) () (p.errorTested v err) := by
  cases err with
  | false => exact Goes.to (goes_pure ()) (by simp [Stage.errorTested])
  | true =>
    rw [runIf_true, failBusError, hr, runIf_false]
    refine Goes.bind (goes_diag (goes_quiet hq) _ v) ?_
    exact Goes.bind (goes_putResult (goes_quiet (by exact hq)) _) (goes_pure ())

theorem goes_failEnd (hq : p.sched = []) (hw : w.guarded = true) :
    Goes n s p (failEnd others w n) ()
      { p with
        bus := { p.bus with phase := .idle, lock := false }
        result := withFPhase p.result (phaseCode p.bus.phase) } := by
  have hphase : Goes n s p (update others fun t => t.modResult (withFPhase · (phaseCode (t.bus n).phase))) ()
      (p.mapResult (withFPhase · (phaseCode p.bus.phase))) :=
    goes_update (goes_quiet hq) fun t ht => by
      rw [ht.bus]
      exact ht.modResult _
  rw [failEnd, if_pos hw]
  refine Goes.bind hphase ?_
  exact Goes.bind (goes_setPhase (goes_quiet (by exact hq)) .idle) (goes_release (goes_quiet (by exact hq)))

theorem ends_leave : Ends n s p (leave .ended : Run α) p := fun t ht => ⟨t, leave_run _ t, ht⟩

/-- The failure exit after its decode. -/
theorem fail_guarded {v : Word} (hu : u.cfg = s.cfg) (hd : decodeStatus others n u = .ok v t) (ht : AtStage n s p t)
    (hq : p.sched = []) (hw : w.guarded = true) {k : ErrKind} (hr : failureResets w k = false) :
    ∃ x, (fail others w n k : Run α) u = .error .ended x ∧ AtStage n s (p.failed k v (errSeen s.cfg v)) x := by
  rw [fail, bind_of_ok (params_run u), bind_of_ok hd, hu]
  refine Goes.bindEnds (goes_diag (goes_quiet hq) (.err k) v) ?_ t ht
  refine Goes.bindEnds (goes_failBusError (by exact hq) hr v _) ?_
  refine Goes.bindEnds (goes_putResult (goes_quiet (by exact hq)) _) ?_
  refine Goes.bindEnds (Goes.to (goes_failEnd (by exact hq) hw) ?_) ends_leave
  simp [Stage.failed, Stage.errorTested, Stage.record, Stage.mapResult, failRecords]

/-! ## A status that stays -/

/-- The status has been read, the accesses `items` made for it; `p_read` is left `b`. -/
def Stage.observed (p : Stage) (items : List Access) (b : Bool) : Stage :=
  { p with bus := { p.bus with ctrl := { p.bus.ctrl with pRead := b } }, items := p.items ++ items }

theorem AtStage.observed {items : List Access} {b : Bool} (h : AtStage n s p t) (o : Observed n items t u)
    (hb : u.bus n = { t.bus n with ctrl := { (t.bus n).ctrl with pRead := b } }) :
    AtStage n s (p.observed items b) u where
  sched := o.sched.trans h.sched
  bus := by rw [hb, h.bus, Stage.observed]
  result := by
    obtain ⟨j, hj⟩ := o.bank
    rw [hj, h.result, Stage.observed]
  rdata0 v hv := by
    obtain ⟨j, hj⟩ := o.bank
    rw [hj, h.rdata0 v hv]
  sink := o.sink.trans h.sink
  trace := by rw [o.trace, h.trace, List.append_assoc, Stage.observed]
  kept := keptOutside_trans h.kept o.kept

/-- At stage `p` the status fields and the parameters are those of the state `r`. -/
structure Shows (n : Inst) (s r : State) (p : Stage) : Prop where
  cfg : r.cfg = s.cfg
  srP : p.bus.ctrl.srP = (r.bus n).ctrl.srP
  srS : p.bus.ctrl.srS = (r.bus n).ctrl.srS

theorem Shows.sameStatus (h : Shows n s r p) (ht : AtStage n s p t) : SameStatus n r t :=
  ⟨ht.cfg.trans h.cfg.symm, by rw [ht.bus, h.srP], by rw [ht.bus, h.srS]⟩

theorem AtStage.shows (ht : AtStage n s p t) : Shows n s t p := ⟨ht.cfg, by rw [ht.bus], by rw [ht.bus]⟩

theorem pollTrace_add (s : State) (n : Inst) (d j k : Nat) :
    pollTrace s n d (j + k) = pollTrace s n d j ++ pollTrace s n d k := by
  rw [pollTrace, List.replicate_add, List.flatten_append, pollTrace, pollTrace]

theorem pollTrace_one (s : State) (n : Inst) : pollTrace s n 0 1 = decodeTrace s n := by simp [pollTrace]

/-- The stage after `k` decodes of the status of `r` that end in the failure exit `e`, the failure decode being one more. -/
def Stage.timedOut (p : Stage) (n : Inst) (r : State) (k : Nat) (e : ErrKind) : Stage :=
  (p.observed (pollTrace r n 0 (k + 1)) (!gateOpen r.cfg (r.bus n).ctrl.srP)).failed e (decodedValue r n)
    (errSeen r.cfg (decodedValue r n))

/-- `x` decodes the steady status of `r` `k` times to no avail: the failure exit ends the command. -/
theorem ends_timedOut {x : Run Bool} {f : Unit → Run β} {k : Nat} {e : ErrKind} (hp : Shows n s r p) (hq : p.sched = [])
    (hs : Steady r n)
    (hx : ∀ t, SameStatus n r t → Quiet t → ∃ u, x t = .ok false u ∧ Observed n (pollTrace r n 0 k) t u)
    (hw : w.guarded = true) (hr : failureResets w e = false) :
    Ends n s p (x >>= fun ok => failUnless others w n e ok >>= f) (p.timedOut n r k e) := by
  intro t ht
  have hst := hp.sameStatus ht
  obtain ⟨u, hxu, hu⟩ := hx t hst (ht.sched.trans hq)
  obtain ⟨b, hb⟩ := hu.bus
  have hsu : SameStatus n r u := hst.trans hu.sameStatus
  have hat := ht.observed hu hb
  obtain ⟨v, hdec, hv, hvb⟩ := decodeStatus_steady (hat.sched.trans hq) (hsu.steady hs)
  rw [hsu.decodedValue_eq] at hdec
  rw [hsu.decodeTrace_eq] at hv
  rw [hsu.decoded_eq] at hvb
  have hlast := hat.observed hv hvb
  obtain ⟨y, hy, hfailed⟩ := fail_guarded (α := Unit) hat.cfg hdec hlast hq hw hr
  refine ⟨y, (bind_of_ok hxu).trans (bind_of_error hy), ?_⟩
  rw [Stage.timedOut, hp.cfg, pollTrace_add, pollTrace_one]
  simpa [Stage.observed, Stage.failed, hp.cfg] using hfailed

/-! ## BusyCheck on a bus that stays busy -/

/-- An outer attempt of READ's BusyCheck, where BUSY, MSL and an error bit do not meet: its whole budget of decodes (R107). -/
theorem readInner_busy (hq : Quiet s) (hs : Steady s n) (hb : isBusy s.cfg (decodedValue s n) = true)
    (hr : (errSeen s.cfg (decodedValue s n) && matchPat (decodedValue s n) (pMaster s.cfg)) = false) (k : Nat) :
    ∃ t, readInner others n k s = .ok false t ∧ Observed n (pollTrace s n 0 k) s t := by
  induction k generalizing s with
  | zero => exact ⟨s, rfl, .refl s⟩
  | succ k ih =>
    obtain ⟨t, hdec, ht, -⟩ := decodeStatus_steady hq hs
    obtain ⟨u, hcnt, hu⟩ := setPollN_observed (n := n) (· + 1) t
    have turn := ht.trans hu
    have hst := turn.sameStatus
    obtain ⟨v, hrest, hv⟩ := ih (turn.quiet hq) (hst.steady hs) (by rw [hst.decodedValue_eq, hst.cfg, hb])
      (by rw [hst.decodedValue_eq, hst.cfg, hr])
    refine ⟨v, ?_, ?_⟩
    · rw [readInner, bind_of_ok (params_run s), bind_of_ok hdec, hb, Bool.not_true, if_neg Bool.false_ne_true, hr,
        if_neg Bool.false_ne_true, bind_of_ok hcnt, hrest]
    · rw [Nat.add_comm, pollTrace_add, pollTrace_one, ← hst.pollTrace_eq]
      simpa using turn.trans hv

/-- And so is every outer attempt. -/
theorem readOuter_busy (hq : Quiet s) (hs : Steady s n) (hb : isBusy s.cfg (decodedValue s n) = true)
    (hr : (errSeen s.cfg (decodedValue s n) && matchPat (decodedValue s n) (pMaster s.cfg)) = false) (a : Nat) :
    ∃ t, readOuter others n a s = .ok false t ∧ Observed n (pollTrace s n 0 (a * s.cfg.nRdInner)) s t := by
  induction a generalizing s with
  | zero => exact ⟨s, rfl, by rw [Nat.zero_mul]; exact .refl s⟩
  | succ a ih =>
    obtain ⟨t, hset, ht⟩ := setPollN_observed (n := n) (fun _ => 0) s
    have hst := ht.sameStatus
    obtain ⟨u, hinner, hu⟩ := readInner_busy (ht.quiet hq) (hst.steady hs) (by rw [hst.decodedValue_eq, hst.cfg, hb])
      (by rw [hst.decodedValue_eq, hst.cfg, hr]) s.cfg.nRdInner
    have attempt := ht.trans hu
    have hsu := attempt.sameStatus
    obtain ⟨v, hrest, hv⟩ := ih (attempt.quiet hq) (hsu.steady hs) (by rw [hsu.decodedValue_eq, hsu.cfg, hb])
      (by rw [hsu.decodedValue_eq, hsu.cfg, hr])
    refine ⟨v, ?_, ?_⟩
    · rw [readOuter, bind_of_ok (params_run s), bind_of_ok hset, bind_of_ok hinner, if_neg Bool.false_ne_true, hrest]
    · have hall := attempt.trans hv
      rw [hst.pollTrace_eq, hsu.pollTrace_eq, hsu.cfg] at hall
      rw [Nat.succ_mul, Nat.add_comm, pollTrace_add]
      simpa using hall

/-! ## What the software-reset pulse leaves -/

theorem getLsbD_clear_swrst (cfg : Config) (v : Half) : (v &&& ~~~swrstMask cfg).getLsbD cfg.flags.swrst = false := by
  simp [swrstMask, bitMask]

theorem getLsbD_set_swrst (cfg : Config) (v : Half) : (v ||| swrstMask cfg).getLsbD cfg.flags.swrst = true := by
  simp [swrstMask, bitMask]

/-- The controller after the software-reset pulse, before the status loop (R28, R127). -/
def Ctrl.pulsed (cfg : Config) (c : Ctrl) : Ctrl :=
  { c with ctl := c.unnamed cfg, ctl2 := 0, oar := 0, ccr := 0, trise := 0 }

/-- A bit that is no named one is left. -/
theorem pulse_ctl (cfg : Config) (x : Half) :
    (x ||| swrstMask cfg) &&& ~~~(peMask cfg ||| startMask cfg ||| stopMask cfg) &&& ~~~swrstMask cfg =
      x &&& ~~~namedMask cfg := by
  rw [namedMask, BitVec.not_or, BitVec.not_or, BitVec.not_or]
  ext i hi
  simp
  grind

theorem unnamed_clear_pe (cfg : Config) (c : Ctrl) : c.unnamed cfg &&& ~~~peMask cfg = c.unnamed cfg := by
  rw [Ctrl.unnamed, namedMask]
  ext i hi
  simp
  grind

theorem outOfReset_unnamed (cfg : Config) (c : Ctrl) : (c.unnamed cfg).getLsbD cfg.flags.swrst = false := by
  simp [Ctrl.unnamed, namedMask, swrstMask, bitMask]

/-- Setting SWRST brings everything it holds to 0 (R28). -/
theorem put_set_swrst (cfg : Config) (c : Ctrl) (v : Half) :
    c.put cfg .ctl (v ||| swrstMask cfg) =
      { c with
        ctl := (v ||| swrstMask cfg) &&& ~~~(peMask cfg ||| startMask cfg ||| stopMask cfg)
        ctl2 := 0, oar := 0, ccr := 0, trise := 0 } :=
  if_pos (getLsbD_set_swrst cfg v)

/-- Clearing SWRST lets go. -/
theorem put_clear_swrst (cfg : Config) (c : Ctrl) (v : Half) :
    c.put cfg .ctl (v &&& ~~~swrstMask cfg) = { c with ctl := v &&& ~~~swrstMask cfg } :=
  held_of_not_reset (getLsbD_clear_swrst cfg v)

/-- Clear PE, set SWRST, clear SWRST: what SWRST holds while it is set is left at 0 (R28). -/
theorem put_pulse (cfg : Config) (c : Ctrl) :
    let c1 := c.put cfg .ctl (c.ctl &&& ~~~peMask cfg)
    let c2 := c1.put cfg .ctl (c1.ctl ||| swrstMask cfg)
    c2.put cfg .ctl (c2.ctl &&& ~~~swrstMask cfg) = c.pulsed cfg := by
  intro c1 c2
  have hctl : c1.unnamed cfg = c.unnamed cfg := unnamed_put_ctl c (unnamed_clear namedOnly_pe c.ctl)
  have hrest : { c1 with ctl := 0, ctl2 := 0, oar := 0, ccr := 0, trise := 0 } =
      ({ c with ctl := 0, ctl2 := 0, oar := 0, ccr := 0, trise := 0 } : Ctrl) := by
    simp only [c1, Ctrl.put, Ctrl.held]
    split <;> rfl
  simp only [Ctrl.mk.injEq] at hrest
  rw [put_clear_swrst, Ctrl.pulsed, ← hctl, Ctrl.unnamed, ← pulse_ctl]
  simp only [c2, put_set_swrst]
  simp [hrest]

/-! ## The reset sequence, its loop left at the first read of SR_P -/

variable {l : List (List Move)}

/-- CTL holds none of its named bits any more, so clearing PE changes nothing (R127). -/
theorem goes_clrPe_afterReset (hp : Goes n s p others () q) {c : Ctrl} (hc : q.bus.ctrl.ctl = c.unnamed s.cfg) :
    Goes n s p (regClr others n .ctl (peMask s.cfg)) () (q.log (.regClr n .ctl (peMask s.cfg))) := by
  have hstore : q.bus.ctrl.store .ctl (c.unnamed s.cfg) = q.bus.ctrl := hc ▸ rfl
  have hput : q.bus.ctrl.put s.cfg .ctl (q.bus.ctrl.ctl &&& ~~~peMask s.cfg) = q.bus.ctrl := by
    rw [hc, unnamed_clear_pe, Ctrl.put, hstore]
    exact held_of_not_reset (by rw [hc, outOfReset_unnamed])
  have hclr := goes_clrCtl hp (peMask s.cfg)
  rwa [Stage.mapCtrl, Stage.mapBus, hput] at hclr

/-- `RegWrite(i, OAR, own_address << 1)`, the address being the instance's at that time (R127). -/
theorem goes_writeOar (hp : Goes n s p others () q) (hr : q.OutOfReset s.cfg) :
    Goes n s p (update others fun s => writeReg n .oar (oarValue (s.bus n).ownAddress) s) ()
      ((q.mapCtrl (·.store .oar (oarValue q.bus.ownAddress))).log (.regWrite n .oar (oarValue q.bus.ownAddress))) := by
  intro t ht
  obtain ⟨u, hu, hq⟩ := hp t ht
  obtain ⟨v, hv, hw⟩ := goes_writeReg hp hr (k := .oar) nofun (oarValue q.bus.ownAddress) t ht
  rw [regWrite, update_of hu] at hv
  refine ⟨v, ?_, hw⟩
  rw [update_of hu, hq.bus, hv]

/-- A turn of the status loop that SR_P ends, reading `v` (R127, D22). -/
theorem goes_resetTurn {v : Half} (hs : p.sched = [.envSrP n v] :: l) (hv : waitByPrimary s.cfg.resetWait v = some false) :
    Goes n s p (resetTurn others n) false
      { p with
        sched := l
        bus := { p.bus with ctrl := { p.bus.ctrl with srP := v, pRead := true } }
        items := p.items ++ [.regRead n .srP v] } := by
  have hsrP : p.sched.headD [] = [.envSrP n v] := by rw [hs, List.headD_cons]
  have hread := goes_regRead (s := s) (goes_others (hsrP ▸ actsAs_envSrP n v)) .srP
  rw [Stage.next, hs] at hread
  refine Goes.bind goes_params <| Goes.bind hread ?_
  simp only [Stage.mapCtrl, Stage.mapBus, Ctrl.get, hv]
  exact goes_pure false

/-- The reset sequence, where SR_P reads `v` first and RESET_WAIT ends on that (R127). -/
theorem goes_resetSeq {v : Half} (hs : p.sched = silence 1 ++ (silence 1 ++ (silence 1 ++ [[.envSrP n v]])))
    (hv : waitByPrimary s.cfg.resetWait v = some false) :
    Goes n s p (resetSeq others n) ()
      { p with
        sched := []
        bus := { p.bus with ctrl := { afterReset s.cfg p.bus.ownAddress p.bus.ctrl with srP := v, pRead := true } }
        items := p.items ++ resetItems s.cfg n p.bus.ownAddress [.regRead n .srP v] } := by
  have hout := outOfReset_unnamed s.cfg p.bus.ctrl
  refine Goes.bind goes_params ?_
  refine Goes.bind (goes_clrCtl (goes_still hs) _) ?_
  refine Goes.bind (goes_setCtl (goes_still rfl) _) ?_
  refine Goes.bind (Goes.to (goes_clrCtl (goes_still rfl) _) (r := { p with
    sched := [[.envSrP n v]]
    bus := { p.bus with ctrl := p.bus.ctrl.pulsed s.cfg }
    items := p.items ++ [.regClr n .ctl (peMask s.cfg), .regSet n .ctl (swrstMask s.cfg),
      .regClr n .ctl (swrstMask s.cfg)] }) ?_) ?_
  · have hpulse := put_pulse s.cfg p.bus.ctrl
    simp only [Stage.log, Stage.mapCtrl, Stage.mapBus, hpulse]
    simp
  refine Goes.bind (goes_look fun t ht => congrArg (·.length + 2) ht.sched) ?_
  refine Goes.bind (Goes.bind (goes_resetTurn rfl hv) (goes_pure ())) ?_
  refine Goes.bind (goes_clrPe_afterReset (goes_quiet rfl) (c := p.bus.ctrl) rfl) ?_
  refine Goes.bind (goes_writeReg (goes_quiet rfl) hout (k := .ctl2) nofun _) ?_
  refine Goes.bind (goes_writeReg (goes_quiet rfl) hout (k := .trise) nofun _) ?_
  refine Goes.bind (goes_writeOar (goes_quiet rfl) hout) ?_
  refine Goes.to (goes_writeReg (goes_quiet rfl) hout (k := .ccr) nofun _) ?_
  simp [Stage.log, Stage.mapCtrl, Stage.mapBus, Ctrl.store, Ctrl.pulsed, Ctrl.unnamed, namedMask, afterReset, resetItems]

/-! ## READ's Reset in BusyCheck -/

/-- A decode that shows BUSY, MSL and an error bit makes READ reset the controller and give up the attempt (R107). -/
theorem goes_readInner_reset
    (hs : p.sched = silence 1 ++ (silence 1 ++ (silence 1 ++ (silence 1 ++ (silence 1 ++ [[.envSrP n 0]])))))
    (hg : gateOpen s.cfg p.bus.ctrl.srP = true) (hb : isBusy s.cfg (composite p.bus.ctrl.srS p.bus.ctrl.srP) = true)
    (hr : (errSeen s.cfg (composite p.bus.ctrl.srS p.bus.ctrl.srP) &&
      matchPat (composite p.bus.ctrl.srS p.bus.ctrl.srP) (pMaster s.cfg)) = true)
    (hw : waitByPrimary s.cfg.resetWait 0 = some false) {k : Nat} (hk : 0 < k) :
    Goes n s p (readInner others n k) false
      { p with
        sched := []
        bus := { p.bus with ctrl := { afterReset s.cfg p.bus.ownAddress p.bus.ctrl with srP := 0, pRead := true } }
        result := withResetRan p.result
        items := p.items ++ decodeItems n p.bus.ctrl.srP p.bus.ctrl.srS ++
          resetItems s.cfg n p.bus.ownAddress [.regRead n .srP 0] } := by
  obtain ⟨k, rfl⟩ := Nat.exists_eq_succ_of_ne_zero hk.ne'
  refine Goes.bind goes_params <| Goes.bind (goes_decode_silent (by rw [Stage.Silent, hs]; rfl)
    (by rw [Stage.Silent, Stage.next, hs]; rfl) hg) ?_
  rw [hb, Bool.not_true, if_neg Bool.false_ne_true, hr, if_pos rfl]
  refine Goes.bind (goes_resetSeq (by rw [Stage.answered, hs]; rfl) hw) ?_
  exact Goes.bind (goes_putResult (goes_quiet rfl) _) (goes_pure false)

/-- An outer attempt that does not find the bus free is followed by the others. -/
theorem ends_readOuter_succ {F : Bool → Run β} {a : Nat} (hi : Goes n s p (readInner others n s.cfg.nRdInner) false q)
    {x : Stage} (ho : Ends n s q (readOuter others n a >>= F) x) : Ends n s p (readOuter others n (a + 1) >>= F) x := by
  intro t ht
  obtain ⟨u, hset, hu⟩ := goes_setPollN (fun _ => 0) t ht
  obtain ⟨v, hinner, hv⟩ := hi u hu
  obtain ⟨y, hy, hx⟩ := ho v hv
  have hstep : readOuter others n (a + 1) t = readOuter others n a v := by
    rw [readOuter, bind_of_ok (params_run t), bind_of_ok hset, ht.cfg, bind_of_ok hinner, if_neg Bool.false_ne_true]
  exact ⟨y, by rw [run_bind, hstep, ← run_bind, hy], hx⟩

/-! ## Statuses -/

/-- A pattern of secondary flags alone does not look at the primary field (R10). -/
theorem matchPat_composite_high (v p p' h : Half) :
    matchPat (composite v p) (pattern h 0) = matchPat (composite v p') (pattern h 0) := by
  have hzero (x : Half) : x &&& 0 = 0 := BitVec.and_zero
  rw [matchPat, matchPat, composite, composite, pattern, BitVec.and_append, BitVec.and_append, hzero, hzero]

/-- The suppressed form never shows BUSY (R77). -/
theorem not_matchPat_suppressed (c : Config) (p : Half) : matchPat (suppressed p) (pBusy c) = false := by
  refine Bool.eq_false_iff.mpr fun h => ?_
  have hbusy : (pBusy c).getLsbD (16 + c.flags.busy.val) = true := by
    rw [pBusy, pattern, BitVec.getLsbD_append]
    simp [bitMask]
  have hzero : (suppressed p).getLsbD (16 + c.flags.busy.val) = false := by
    rw [suppressed, BitVec.getLsbD_append]
    simp
  rw [← beq_iff_eq.mp h, BitVec.getLsbD_and, hzero, Bool.false_and] at hbusy
  exact Bool.false_ne_true hbusy

/-- With SR_P zero no error bit is seen (R30). -/
theorem errSeen_composite_zero (c : Config) (v : Half) : errSeen c (composite v 0) = false := by
  have hzero : composite v 0 &&& pErr c = 0 := by
    rw [composite, pErr, pattern, BitVec.and_append]
    simp
  rw [errSeen, hzero, bne_self_eq_false]

theorem gateOpen_zero (c : Config) : gateOpen c 0 = true := by simp [gateOpen]

/-- A status that shows BUSY and MSL shows BUSY (R78). -/
theorem pBusy_and_pMaster (c : Config) : pBusy c &&& pMaster c = pBusy c := by
  have habsorb (b m : Half) : b &&& (b ||| m) = b := by
    ext i
    simpa using Or.inl
  rw [pBusy, pMaster, pattern, pattern, BitVec.and_append, habsorb]
  exact congrArg _ BitVec.zero_and

/-- A busy status is a full composite (R77, R90). -/
theorem decodedValue_of_busy (h : matchPat (decodedValue s n) (pBusy s.cfg) = true) :
    gateOpen s.cfg (s.bus n).ctrl.srP = true ∧ decodedValue s n = composite (s.bus n).ctrl.srS (s.bus n).ctrl.srP := by
  cases hg : gateOpen s.cfg (s.bus n).ctrl.srP with
  | true => exact ⟨rfl, by simp [decodedValue, hg]⟩
  | false =>
    have hv : decodedValue s n = suppressed (s.bus n).ctrl.srP := by simp [decodedValue, hg]
    rw [hv, not_matchPat_suppressed] at h
    exact absurd h Bool.false_ne_true

/-! ## The commands -/

/-- A guarded command that ends early after its BusyCheck has begun. -/
theorem next_of_ends {x : Run Unit} (hb : (s.bus n).bound = true) (hl : (s.bus n).lock = false)
    (hs : ∀ b ∈ s.sched.take 4, b = []) (hx : Ends n s (busyCheckStage n s) x q) :
    ∃ t, toOutcome (guardedCommand n x s) = .next t ∧ AtStage n s q t := by
  obtain ⟨t, ht, hrun⟩ := guardedCommand_busyCheck hb hl hs
  obtain ⟨u, hu, hq⟩ := hx t ht
  exact ⟨u, by rw [hrun, hu, toOutcome], hq⟩

/-- BusyCheck's failure exit leaves RESULT so (R33, R143). -/
theorem failResult_busBusyTimeout (err : Bool) :
    withFPhase (withCode (if err then withBusErr 0 else 0) (errCode .busBusyTimeout)) (phaseCode .busyCheck) =
      failResult 0x0001 err 1 := by
  cases err <;> decide

/-- What a guarded command leaves that finds the bus busy `k` times in BusyCheck and then fails (R106, R107, R143). -/
theorem busyCheck_timedOut {k : Nat} (hl : (s.bus n).lock = false)
    (ht : AtStage n s ((busyCheckStage n s).timedOut n s k .busBusyTimeout) t) :
    let v := decodedValue s n
    let err := errSeen s.cfg v
    t.bank.result = failResult 0x0001 err 1 ∧ t.trace = s.trace ++ pollTrace s n 0 (k + 1) ∧
      t.sink = s.sink ++ failRecords .busBusyTimeout v err ∧
      t.bus n = { s.bus n with ctrl := decoded s n (s.bus n).ctrl, phase := .idle } ∧ KeptOutside n s t := by
  refine ⟨ht.result.trans (failResult_busBusyTimeout _), ht.trace, ht.sink, ht.bus.trans ?_, ht.kept⟩
  simp [Stage.timedOut, Stage.failed, Stage.observed, busyCheckStage, issuedStage, decoded, hl]

theorem busyCheck_shows (n : Inst) (s : State) : Shows n s s (busyCheckStage n s) := ⟨rfl, rfl, rfl⟩

theorem busyCheck_quiet (hq : Quiet s) : (busyCheckStage n s).sched = [] := by
  rw [busyCheckStage, issuedStage, hq, List.drop_nil]

theorem ends_writeBody_busy (hq : Quiet s) (hs : Steady s n) (hb : matchPat (decodedValue s n) (pBusy s.cfg) = true)
    (a : Addr7) (b : Byte) :
    Ends n s (busyCheckStage n s) (writeBody n a b)
      ((busyCheckStage n s).timedOut n s s.cfg.nWrBusy .busBusyTimeout) := by
  refine Goes.bindEnds goes_params (ends_timedOut (busyCheck_shows n s) (busyCheck_quiet hq) hs ?_ rfl rfl)
  intro t hst hqt
  obtain ⟨u, hpoll, hu⟩ := poll_never (cond := fun v => !isBusy s.cfg v) hqt (hst.steady hs)
    (by rw [hst.decodedValue_eq, isBusy, hb, Bool.not_true]) s.cfg.nWrBusy 0
  exact ⟨u, hpoll, hst.pollTrace_eq 0 _ ▸ hu⟩

/-- The outer attempts of READ's BusyCheck on the status of `r`, busy, where no Reset is called for. -/
theorem readOuter_busy_of_sameStatus (hs : Steady r n) (hb : matchPat (decodedValue r n) (pBusy r.cfg) = true)
    (hr : (errSeen r.cfg (decodedValue r n) && matchPat (decodedValue r n) (pMaster r.cfg)) = false) (a : Nat)
    (hst : SameStatus n r t) (hq : Quiet t) :
    ∃ u, readOuter others n a t = .ok false u ∧ Observed n (pollTrace r n 0 (a * r.cfg.nRdInner)) t u := by
  have h := readOuter_busy hq (hst.steady hs) (by rw [hst.decodedValue_eq, hst.cfg, isBusy, hb])
    (by rw [hst.decodedValue_eq, hst.cfg, hr]) a
  rwa [hst.pollTrace_eq, hst.cfg] at h

theorem ends_readBody_busy (hq : Quiet s) (hs : Steady s n) (hb : matchPat (decodedValue s n) (pBusy s.cfg) = true)
    (hr : (errSeen s.cfg (decodedValue s n) && matchPat (decodedValue s n) (pMaster s.cfg)) = false) (a : Addr7) :
    Ends n s (busyCheckStage n s) (readBody n a)
      ((busyCheckStage n s).timedOut n s (s.cfg.nRdOuter * s.cfg.nRdInner) .busBusyTimeout) :=
  Goes.bindEnds goes_params <| ends_timedOut (busyCheck_shows n s) (busyCheck_quiet hq) hs
    (fun _ hst hqt => readOuter_busy_of_sameStatus hs hb hr _ hst hqt) rfl rfl

/-- READ in BusyCheck after the Reset of its first attempt, SR_P reading 0 at the Reset's first status read (R107, R127). -/
def readResetStage (n : Inst) (s : State) : Stage where
  sched := []
  bus :=
    { s.bus n with
      lock := true
      phase := .busyCheck
      ctrl := { afterReset s.cfg (s.bus n).ownAddress (s.bus n).ctrl with srP := 0, pRead := true } }
  result := withResetRan 0
  rdata0 := none
  items := decodeItems n (s.bus n).ctrl.srP (s.bus n).ctrl.srS ++
    resetItems s.cfg n (s.bus n).ownAddress [.regRead n .srP 0]
  records := []

/-- `s` with SR_P 0: the status that the decodes after that Reset see. -/
def withSrPZero (n : Inst) (s : State) : State := s.modCtrl n fun c => { c with srP := 0 }

theorem withSrPZero_bus (n : Inst) (s : State) :
    (withSrPZero n s).bus n = { s.bus n with ctrl := { (s.bus n).ctrl with srP := 0 } } :=
  State.bus_modBus_same s n _

theorem withSrPZero_cfg (n : Inst) (s : State) : (withSrPZero n s).cfg = s.cfg := State.modBus_cfg s n _

theorem decodedValue_withSrPZero (n : Inst) (s : State) :
    decodedValue (withSrPZero n s) n = composite (s.bus n).ctrl.srS 0 := by
  simp only [decodedValue, withSrPZero_bus, if_pos (gateOpen_zero _)]

theorem decodeTrace_withSrPZero (n : Inst) (s : State) :
    decodeTrace (withSrPZero n s) n = decodeItems n 0 (s.bus n).ctrl.srS := by
  simp only [decodeTrace, withSrPZero_bus, if_pos (gateOpen_zero _)]

theorem steady_withSrPZero (n : Inst) (s : State) : Steady (withSrPZero n s) n := by
  rw [Steady, withSrPZero_bus]
  exact BitVec.zero_and

theorem readResetStage_shows (n : Inst) (s : State) : Shows n s (withSrPZero n s) (readResetStage n s) :=
  ⟨withSrPZero_cfg n s, by rw [withSrPZero_bus, readResetStage], by rw [withSrPZero_bus, readResetStage, afterReset]⟩

theorem ends_readBody_reset (hs : s.sched = silence 9 ++ [[.envSrP n 0]]) 
    (hr : (errSeen s.cfg (decodedValue s n) && matchPat (decodedValue s n) (pMaster s.cfg)) = true)
    (ho : 0 < s.cfg.nRdOuter) (hi : 0 < s.cfg.nRdInner) (hw : waitByPrimary s.cfg.resetWait 0 = some false) (a : Addr7) :
    Ends n s (busyCheckStage n s) (readBody n a)
      ((readResetStage n s).timedOut n (withSrPZero n s) ((s.cfg.nRdOuter - 1) * s.cfg.nRdInner) .busBusyTimeout) := by
  obtain ⟨o, ho⟩ := Nat.exists_eq_succ_of_ne_zero ho.ne'
  obtain ⟨-, hmaster⟩ := (Bool.and_eq_true _ _).mp hr
  have hbusy := matchPat_of_and_eq (pBusy_and_pMaster s.cfg) hmaster
  obtain ⟨hg, hv⟩ := decodedValue_of_busy hbusy
  rw [hv] at hr hbusy
  have hinner : Goes n s (busyCheckStage n s) (readInner others n s.cfg.nRdInner) false (readResetStage n s) := by
    have hreset := goes_readInner_reset (s := s) (p := busyCheckStage n s) (by rw [busyCheckStage, issuedStage, hs]; rfl)
      hg hbusy hr hw hi
    refine hreset.to ?_
    simp [readResetStage, busyCheckStage, issuedStage]
  have hstays : matchPat (decodedValue (withSrPZero n s) n) (pBusy (withSrPZero n s).cfg) = true := by
    rw [decodedValue_withSrPZero, withSrPZero_cfg, pBusy, matchPat_composite_high]
    exact hbusy
  have hclean : (errSeen (withSrPZero n s).cfg (decodedValue (withSrPZero n s) n) &&
      matchPat (decodedValue (withSrPZero n s) n) (pMaster (withSrPZero n s).cfg)) = false := by
    rw [decodedValue_withSrPZero, errSeen_composite_zero, Bool.false_and]
  refine Goes.bindEnds goes_params ?_
  rw [ho, Nat.succ_sub_one]
  refine ends_readOuter_succ hinner (ends_timedOut (readResetStage_shows n s) rfl (steady_withSrPZero n s) ?_ rfl rfl)
  intro t hst hqt
  have hrest := readOuter_busy_of_sameStatus (steady_withSrPZero n s) hstays hclean o hst hqt
  rwa [withSrPZero_cfg] at hrest

/-- What READ leaves after that Reset, `k` decodes and the failure exit (R107, R143). -/
theorem readReset_timedOut {k : Nat} (hl : (s.bus n).lock = false) (hg : gateOpen s.cfg (s.bus n).ctrl.srP = true)
    (ht : AtStage n s ((readResetStage n s).timedOut n (withSrPZero n s) k .busBusyTimeout) t) :
    let c := (s.bus n).ctrl
    t.bank.result = 0x0121 ∧
      t.trace = s.trace ++ decodeTrace s n ++ resetItems s.cfg n (s.bus n).ownAddress [.regRead n .srP 0] ++
        (List.replicate (k + 1) (decodeItems n 0 c.srS)).flatten ∧
      t.sink = s.sink ++ [⟨.err .busBusyTimeout, composite c.srS 0, []⟩] ∧
      t.bus n =
        { s.bus n with
          ctrl := { afterReset s.cfg (s.bus n).ownAddress c with srP := 0, pRead := false }
          phase := .idle } ∧
      KeptOutside n s t := by
  have hitems : decodeTrace s n = decodeItems n (s.bus n).ctrl.srP (s.bus n).ctrl.srS := if_pos hg
  rw [Stage.timedOut, decodedValue_withSrPZero, errSeen_composite_zero, withSrPZero_bus, gateOpen_zero] at ht
  have hresult : withFPhase (withCode (withResetRan 0) (errCode .busBusyTimeout)) (phaseCode .busyCheck) = 0x0121 := by decide
  refine ⟨ht.result.trans hresult, ht.trace.trans ?_, ht.sink, ht.bus.trans ?_, ht.kept⟩
  · simp [Stage.failed, Stage.observed, readResetStage, pollTrace, decodeTrace_withSrPZero, hitems]
  · simp [Stage.failed, Stage.observed, readResetStage, hl]

end Sys2Proof.Machine

namespace Sys2Proof.Proofs

open Sys2Proof.Machine Sys2Proof.Claims

/-- Settles O35: BusyCheck decodes a busy bus until its budget is used up, after READ's Reset as well, and the failure exit
ends the command with the phase BusyCheck in FPHASE. -/
theorem busyBusEndsInBusBusyTimeout : Obligations.BusyBusEndsInBusBusyTimeout := by
  intro n a b s hb hl
  refine ⟨fun hq hs hbusy => ?_, fun hq hs hbusy hr => ?_, fun hs _ hr ho hi hw => ?_⟩
  · obtain ⟨t, hexec, ht⟩ := next_of_ends hb hl (by simp [show s.sched = [] from hq]) (ends_writeBody_busy hq hs hbusy a b)
    exact ⟨t, hexec, busyCheck_timedOut hl ht⟩
  · obtain ⟨t, hexec, ht⟩ := next_of_ends hb hl (by simp [show s.sched = [] from hq]) (ends_readBody_busy hq hs hbusy hr a)
    exact ⟨t, hexec, busyCheck_timedOut hl ht⟩
  · obtain ⟨t, hexec, ht⟩ := next_of_ends hb hl (by simp [hs, silence]) (ends_readBody_reset hs hr ho hi hw a)
    obtain ⟨-, hmaster⟩ := (Bool.and_eq_true _ _).mp hr
    obtain ⟨hg, -⟩ := decodedValue_of_busy (matchPat_of_and_eq (pBusy_and_pMaster s.cfg) hmaster)
    exact ⟨t, hexec, readReset_timedOut hl hg ht⟩

end Sys2Proof.Proofs
end

section
/-! PROOFS. The DMA commands that come to no poll, where no other agent moves: the NOCHANNEL refusal (R81(4), R117), ATTACH
(R113) and TCQ (R116). -/
namespace Sys2Proof.Machine

open Sys2Proof.Claims

variable {n : Inst} {s : State}

/-! ## NOCHANNEL -/

theorem needChannel_missing {d : Dir} (hq : Quiet s) (hc : (s.bus n).chanRef d = none) :
    needChannel others n d s = refused .noChannel s := by
  rw [needChannel, bind_of_ok (others_quiet hq), bind_of_ok (look_run _ s), hc]

/-- Without the channel, the check after issue is the NOCHANNEL refusal, and the lock has not been looked at (R81(4)). -/
theorem needChannel_missing_after_issue {d : Dir} (hq : Quiet s) (hc : (s.bus n).chanRef d = none) :
    needChannel others n d (clearResult false s) = .error .ended (refusedAfterIssue .noChannel s) := by
  rw [needChannel_missing (quiet_clearResult hq false) ((clearResult_bus false s n).symm ▸ hc), refused_after_issue]

/-- MTX, SRX and TCQ come to the channel check with nothing done but issue (R81, R117). -/
theorem exec_channel_missing {i : Instr} {d : Dir} (hq : Quiet s) (hi : channelNeeded i = some d)
    (hb : (s.bus (targetOf i)).bound = true) (hc : (s.bus (targetOf i)).chanRef d = none) :
    exec i s = .next (refusedAfterIssue .noChannel s) := by
  have henter := enter_quiet hq hb false
  have hchan := needChannel_missing_after_issue hq hc
  suffices h : runInstr others i s = .error .ended (refusedAfterIssue .noChannel s) by rw [exec_eq_runInstr, h, toOutcome]
  cases i with
  | mtx n a =>
    cases hi
    exact (bind_of_ok henter).trans (bind_of_error hchan)
  | srx n a =>
    cases hi
    exact (bind_of_ok henter).trans (bind_of_error hchan)
  | tcq n d =>
    cases hi
    exact (bind_of_ok henter).trans (bind_of_error hchan)
  | _ => exact nomatch hi

/-! ## ATTACH -/

theorem Bus.attach_eq (n : Inst) (d : Dir) (b : Bus) :
    b.attach n d =
      { b with
        dmaTx := if d = .tx then some ⟨n, .tx⟩ else b.dmaTx
        dmaRx := if d = .rx then some ⟨n, .rx⟩ else b.dmaRx } := by
  cases d <;> rfl

/-- The state ATTACH leaves (R113). -/
def attached (n : Inst) (d : Dir) (s : State) : State :=
  succeeded ((clearResult false s).modBus n (Bus.attach n d))

theorem exec_attach_quiet (hq : Quiet s) (hb : (s.bus n).bound = true) (d : Dir) :
    exec (.attach n d) s = .next (attached n d s) := by
  have hissued := quiet_clearResult hq false
  have hrun : attachRun others n d s = .ok () (attached n d s) :=
    (bind_of_ok (enter_quiet hq hb false)).trans <| (bind_of_ok (update_quiet hissued _)).trans <|
      update_quiet ((State.modBus_sched _ n _).trans hissued) _
  rw [exec, execAttach, hrun, toOutcome]

/-! ## TCQ -/

theorem queryWord_eq_add (en tc : Bool) : queryWord en tc = (if en then 2 else 0) + (if tc then 1 else 0) := by
  cases en <;> cases tc <;> decide

theorem chEnabled_quiet (hq : Quiet s) (c : ChanId) :
    chEnabled others c s = .ok (s.chan c).en (s.log (.chEnabled c (s.chan c).en)) := atom_quiet hq _

theorem chTc_quiet (hq : Quiet s) (c : ChanId) : chTc others c s = .ok (s.chan c).tc (s.log (.chTc c (s.chan c).tc)) :=
  atom_quiet hq _

/-- The state after both queries of channel `c`: they change nothing (R116). -/
def queried (c : ChanId) (s : State) : State :=
  (s.log (.chEnabled c (s.chan c).en)).log (.chTc c (s.chan c).tc)

theorem chan_log (s : State) (a : Access) (c : ChanId) : (s.log a).chan c = s.chan c := by
  simp only [State.chan, State.log_bus]

theorem chan_clearResult (k : Bool) (s : State) (c : ChanId) : (clearResult k s).chan c = s.chan c := by
  simp only [State.chan, clearResult_bus]

theorem keptOutside_queried (c : ChanId) (s : State) : KeptOutside n s (queried c s) :=
  keptOutside_trans (keptOutside_log s _) (keptOutside_log _ _)

/-- The state after both queries and their answer (R116). -/
def queryAnswered (c : ChanId) (s : State) : State :=
  valueAnswered (queryWord (s.chan c).en (s.chan c).tc) (queried c s)

/-- TCQ from its channel check on (R116). -/
theorem queries_quiet (hq : Quiet s) (c : ChanId) :
    (do
      let en ← chEnabled others c
      let tc ← chTc others c
      putRdata0 others (queryWord en tc)
      succeed others) s = .ok () (queryAnswered c s) := by
  have hlog : Quiet (s.log (.chEnabled c (s.chan c).en)) := hq
  have hboth : Quiet (queried c s) := hq
  have htc := chTc_quiet hlog c
  rw [chan_log] at htc
  exact (bind_of_ok (chEnabled_quiet hq c)).trans <| (bind_of_ok htc).trans (putRdata0_succeed_quiet hboth _)

theorem exec_tcq_quiet {d : Dir} {c : ChanId} (hq : Quiet s) (hb : (s.bus n).bound = true)
    (hc : (s.bus n).chanRef d = some c) : exec (.tcq n d) s = .next (queryAnswered c (clearResult false s)) := by
  have hissued := quiet_clearResult hq false
  have hchan : needChannel others n d (clearResult false s) = .ok c (clearResult false s) :=
    needChannel_quiet hissued ((clearResult_bus false s n).symm ▸ hc)
  have hrun : tcqRun others n d s = .ok () (queryAnswered c (clearResult false s)) :=
    (bind_of_ok (enter_quiet hq hb false)).trans ((bind_of_ok hchan).trans (queries_quiet hissued c))
  rw [exec, execTcq, hrun, toOutcome]

theorem keptOutside_valueAnswered (v : Word) (s : State) : KeptOutside n s (valueAnswered v s) :=
  keptOutside_trans (keptOutside_modBank s rfl rfl) (keptOutside_modResult _ _)

end Sys2Proof.Machine

namespace Sys2Proof.Proofs

open Sys2Proof.Machine

/-- Settles O19: issue clears RESULT, and the channel check writes NOCHANNEL (0x9) before the lock is looked at. -/
theorem missingChannelIsRefused : Obligations.MissingChannelIsRefused := by
  intro i d s hq hi hb hc
  exact ⟨_, exec_channel_missing hq hi hb hc, refusedWith_refusedAfterIssue .noChannel s⟩

/-- Settles O39: issue, the one change of the instance, and success. -/
theorem attachCompletes : Obligations.AttachCompletes := by
  intro n d s hq hb
  refine ⟨_, exec_attach_quiet hq hb d, ?_, ?_, ?_, ?_, ?_, ?_⟩
  · rw [attached, succeeded, modResult_bank, State.modBus_bank, clearResult_bank]
    exact withCode_zero_zero
  · rw [attached, succeeded, modResult_bus, State.bus_modBus_same, clearResult_bus, Bus.attach_eq]
  · exact keptOutside_trans (keptOutside_clearResult false s) <|
      keptOutside_trans (keptOutside_modBus _ _) (keptOutside_modResult _ _)
  all_goals simp [attached, succeeded, clearResult_bank]

/-- Settles O45: issue, the two queries of the channel found at the check, and the answer. -/
theorem tcqAnswersTheQueries : Obligations.TcqAnswersTheQueries := by
  intro n d c s hq hb hc
  refine ⟨by cases n <;> cases d <;> decide, _, exec_tcq_quiet hq hb hc, ?_, ?_, ?_, ?_, ?_, ?_⟩
  · rw [queryAnswered, valueAnswered_bank, queried, State.log_bank, State.log_bank, clearResult_bank]
    exact withCode_zero_zero
  · rw [queryAnswered, valueAnswered_bank, chan_clearResult]
    exact queryWord_eq_add _ _
  · simp [queryAnswered, valueAnswered, queried]
  · exact keptOutside_trans (keptOutside_clearResult false s) <|
      keptOutside_trans (keptOutside_queried c _) (keptOutside_valueAnswered _ _)
  · simp [queryAnswered, valueAnswered, queried, clearResult_bank]
  · simp [queryAnswered, valueAnswered, queried]

end Sys2Proof.Proofs
end

section
/-! PROOFS. The steps of the channel engines (R119, R120): when one is enabled, and what it changes of its instance. -/
namespace Sys2Proof.Machine

variable {n : Inst} {s : State}

/-- The transmit engine of an instance has a step to take: the channel enabled, DMAEN and TXE set, bytes left (R119). -/
def Bus.sends (cfg : Config) (b : Bus) : Bool :=
  b.chTx.en && b.ctrl.ctl2.getLsbD cfg.flags.dmaen && decide (b.chTx.idx < b.chTx.count) &&
    b.ctrl.srP.getLsbD cfg.flags.txe

/-- The receive engine of an instance has a step to take: the channel enabled, DMAEN and RXNE set, bytes left (R120). -/
def Bus.receives (cfg : Config) (b : Bus) : Bool :=
  b.chRx.en && b.ctrl.ctl2.getLsbD cfg.flags.dmaen && decide (b.chRx.idx < b.chRx.count) &&
    b.ctrl.srP.getLsbD cfg.flags.rxne

theorem engineEnabled_tx (n : Inst) (s : State) : engineEnabled s ⟨n, .tx⟩ = (s.bus n).sends s.cfg := rfl

theorem engineEnabled_rx (n : Inst) (s : State) : engineEnabled s ⟨n, .rx⟩ = (s.bus n).receives s.cfg := rfl

theorem engineStep_disabled {c : ChanId} (h : engineEnabled s c = false) : engineStep c s = s :=
  if_neg (by rw [h]; exact Bool.false_ne_true)

theorem Chan.advance_eq (c : Chan) :
    c.advance = { c with idx := c.idx + 1, tc := c.tc || c.idx + 1 == c.count } := by
  rw [Chan.advance]
  by_cases h : c.idx + 1 = c.count <;> simp [h]

/-- What SWRST forces does not depend on what was written to DR (R28). -/
theorem held_withDrTx (cfg : Config) (c : Ctrl) (v : Half) :
    ({ c with drTx := v } : Ctrl).held cfg = { c.held cfg with drTx := v } := by
  unfold Ctrl.held
  simp only
  split <;> rfl

theorem State.modBus_congr {f g : Bus → Bus} (h : f (s.bus n) = g (s.bus n)) : s.modBus n f = s.modBus n g := by
  cases n with
  | one => exact congrArg (fun b => { s with bus1 := b }) h
  | two => exact congrArg (fun b => { s with bus2 := b }) h

theorem State.modBus_modBus (s : State) (n : Inst) (f g : Bus → Bus) :
    (s.modBus n f).modBus n g = s.modBus n (g ∘ f) := by
  cases n <;> rfl

/-- The instance after a transmit step that hands the byte `b` to DR (R119). -/
def Bus.sent (b : Byte) (i : Bus) : Bus :=
  { i with ctrl := { i.ctrl with drTx := dataHalf b }, chTx := i.chTx.advance }

/-- The instance after a receive step (R120). -/
def Bus.stored (i : Bus) : Bus := { i with chRx := (i.chRx.put i.chRx.idx i.ctrl.drRx).advance }

/-- A transmit step where SWRST holds nothing that is not at 0 already (R28, R119). -/
theorem engineStep_tx {b : Byte} (he : (s.bus n).sends s.cfg = true) (hb : (s.bus n).chTx.buf[(s.bus n).chTx.idx]? = some b)
    (hh : (s.bus n).ctrl.held s.cfg = (s.bus n).ctrl) :
    engineStep ⟨n, .tx⟩ s = (s.modBus n (Bus.sent b)).log (.engineTx ⟨n, .tx⟩ b) := by
  have hbyte : ((s.chan ⟨n, .tx⟩).buf[(s.chan ⟨n, .tx⟩).idx]?).getD 0 = b := congrArg (·.getD 0) hb
  have hput : (s.bus n).ctrl.put s.cfg .dr (dataHalf b) = { (s.bus n).ctrl with drTx := dataHalf b } :=
    (held_withDrTx s.cfg (s.bus n).ctrl (dataHalf b)).trans (by rw [hh])
  have hstep : engineStep ⟨n, .tx⟩ s = engineTxStep n s := if_pos ((engineEnabled_tx n s).trans he)
  rw [hstep, engineTxStep, hbyte, State.modCtrl, State.modChan, State.modBus_modBus]
  refine congrArg (State.log · _) (State.modBus_congr ?_)
  rw [Function.comp_apply, hput, Bus.sent]

theorem engineStep_rx (he : (s.bus n).receives s.cfg = true) :
    engineStep ⟨n, .rx⟩ s = (s.modBus n Bus.stored).log (.engineRx ⟨n, .rx⟩ (s.bus n).ctrl.drRx) := by
  have hbyte : lowByte ((s.bus n).ctrl.get .dr) = (s.bus n).ctrl.drRx := lowByte_dataHalf _
  have hstep : engineStep ⟨n, .rx⟩ s = engineRxStep n s := if_pos ((engineEnabled_rx n s).trans he)
  rw [hstep, engineRxStep, hbyte, State.modChan]
  exact congrArg (State.log · _) (State.modBus_congr rfl)

end Sys2Proof.Machine

namespace Sys2Proof.Proofs

open Sys2Proof.Machine

/-- Settles O46: the engine is enabled so, and its step is a write of DR and an advance of the channel. -/
theorem transmitEngineStep : Obligations.TransmitEngineStep := by
  intro n s b
  refine ⟨fun hoff => engineStep_disabled ((engineEnabled_tx n s).trans hoff), fun hon hb hh => ?_⟩
  rw [engineStep_tx hon hb hh, State.log_bus, State.bus_modBus_same, Bus.sent, Chan.advance_eq, dataHalf]

/-- Settles O47: the engine is enabled so, and its step stores DR's byte and advances the channel. -/
theorem receiveEngineStep : Obligations.ReceiveEngineStep := by
  intro n s
  refine ⟨fun hoff => engineStep_disabled ((engineEnabled_rx n s).trans hoff), fun hon => ?_⟩
  rw [engineStep_rx hon, State.log_bus, State.bus_modBus_same, Bus.stored, Chan.advance_eq, Chan.put]

end Sys2Proof.Proofs
end

section
/-! PROOFS. The DMA commands as guarded commands that need a channel (R81, R114, R115), and their primitives from stage to stage:
the channel port, DMAEN, and the copy of the source bytes. -/
namespace Sys2Proof.Machine

open Sys2Proof.Claims

variable {n : Inst} {s t : State} {p q : Stage} {d : Dir} {c : ChanId}

/-! ## MTX and SRX as guarded commands -/

/-- A guarded command that needs the channel of direction `d`, up to its lock, and then `x` on that channel (R63, R81). -/
def channelCommand (n : Inst) (d : Dir) (x : ChanId → Run Unit) : Run Unit := do
  enter others n false
  let c ← needChannel others n d
  acquire others n
  x c

/-- MTX from the arming of its transfer on (R114). -/
def mtxTransfer (n : Inst) (cfg : Config) (nCopy : Nat) (c : ChanId) : Run Unit := do
  regSet others n .ctl2 (dmaenMask cfg)
  chEnable others c nCopy
  setPollN fun _ => 0
  let done ← tcLoop others c cfg.nSpin
  failUnless others .mtx n .dmaTransferTimeout done
  finishGuarded others n
  succeed others

/-- MTX from its lock on (R114). -/
def mtxBody (n : Inst) (a : Addr7) (src len : Word) (c : ChanId) : Run Unit := do
  let cfg ← params
  let nCopy := copyCount cfg len
  copyLoop others c src 0 nCopy
  putRdata0 others (BitVec.ofNat 32 nCopy)
  setPhase others n .start
  generateStart others .mtx n
  setPhase others n .address
  sendAddress others .mtx n .tx a
  setPhase others n .dataPhase
  mtxTransfer n cfg nCopy c

/-- SRX from its lock on (R115). -/
def srxBody (n : Inst) (c : ChanId) : Run Unit := do
  let cfg ← params
  putRdata0 others (viewHandle ⟨n, .rx⟩)
  putRdata1 others (BitVec.ofNat 32 cfg.dmaCap)
  setPhase others n .address
  let ok ← poll others n (fun v => matchPat v (pSrxAddr cfg)) cfg.nSrxAddr cfg.dSrxAddr
  failUnless others .srx n .addressPhaseFailed ok
  let ok2 ← poll others n (fun v => matchPat v (pSrxTxe cfg)) cfg.nSrxTxe 0
  let st ← decodeStatus others n
  diag others (if ok2 then .info else .warn) st []
  setPhase others n .dataPhase
  regSet others n .ctl2 (dmaenMask cfg)
  chEnable others c cfg.dmaCap
  finishGuarded others n
  succeed others

/-- MTX's operands are latched before anything else (R74). -/
theorem exec_mtx (n : Inst) (a : Addr7) (s : State) :
    exec (.mtx n a) s = toOutcome (channelCommand n .tx (mtxBody n a s.bank.arg0 s.bank.arg1) s) := rfl

/-- SRX's address operand has no effect (R115). -/
theorem exec_srx (n : Inst) (a : Addr7) (s : State) : exec (.srx n a) s = toOutcome (channelCommand n .rx (srxBody n) s) := rfl

/-! ## Issue -/

theorem goes_needChannel (hp : Goes n s p others () q) (hc : q.bus.chanRef d = some c) :
    Goes n s p (needChannel others n d) c q :=
  hp.bind <| (goes_look (a := some c) fun t ht => by rw [ht.bus, hc]).bind (goes_pure c)

/-- A batch that is empty, before one of the first primitives of a command. -/
theorem goes_silent_issued {m k : Nat} (hs : ∀ b ∈ s.sched.take m, b = []) (hk : k < m) (b : Bus) :
    Goes n s (issuedStage s k b) others () (issuedStage s (k + 1) b) := by
  have hnext := goes_silent (n := n) (s := s) (p := issuedStage s k b) (headD_drop_of_silent hs hk)
  rwa [Stage.next, issuedStage, List.drop_drop] at hnext

/-- A guarded command whose channel is attached comes to its lock, and holds it (R81). -/
theorem channelCommand_locked (hb : (s.bus n).bound = true) (hl : (s.bus n).lock = false)
    (hc : (s.bus n).chanRef d = some c) (hs : ∀ b ∈ s.sched.take 4, b = []) :
    ∃ t, AtStage n s (issuedStage s 4 { s.bus n with lock := true }) t ∧ ∀ x, channelCommand n d x s = x c t := by
  have hstart : Goes n s (.initial n s) (startCommand others false) () (issuedStage s 1 (s.bus n)) :=
    goes_startCommand (goes_silent (headD_drop_of_silent hs (i := 0) (by decide)))
  have hissue : Goes n s (.initial n s) (enter others n false) () (issuedStage s 2 (s.bus n)) :=
    hstart.bind (goes_checkBound (goes_silent_issued hs (by decide) (s.bus n)) hb)
  have hchan := goes_needChannel (n := n) (goes_silent_issued hs (k := 2) (by decide) (s.bus n)) hc
  have hlock := goes_acquire (n := n) (goes_silent_issued hs (k := 3) (by decide) (s.bus n)) hl
  obtain ⟨t, ht, h2⟩ := hissue s (.initial n s)
  obtain ⟨u, hu, h3⟩ := hchan t h2
  obtain ⟨v, hv, h4⟩ := hlock u h3
  exact ⟨v, h4, fun x => (bind_of_ok ht).trans ((bind_of_ok hu).trans (bind_of_ok hv))⟩

/-- A command that comes to the end of its stages. -/
theorem channelCommand_goes {x : ChanId → Run Unit} (hb : (s.bus n).bound = true) (hl : (s.bus n).lock = false)
    (hc : (s.bus n).chanRef d = some c) (hs : ∀ b ∈ s.sched.take 4, b = [])
    (hx : Goes n s (issuedStage s 4 { s.bus n with lock := true }) (x c) () q) :
    ∃ t, toOutcome (channelCommand n d x s) = .next t ∧ AtStage n s q t := by
  obtain ⟨t, ht, hrun⟩ := channelCommand_locked hb hl hc hs
  obtain ⟨u, hu, hq⟩ := hx t ht
  exact ⟨u, by rw [hrun, hu, toOutcome], hq⟩

/-! ## The channel port -/

/-- Change the channel of direction `d` of an instance. -/
def Bus.mapChan (d : Dir) (f : Chan → Chan) (b : Bus) : Bus :=
  match d with
  | .tx => { b with chTx := f b.chTx }
  | .rx => { b with chRx := f b.chRx }

theorem AtStage.modChan (h : AtStage n s p t) (d : Dir) (f : Chan → Chan) :
    AtStage n s (p.mapBus (Bus.mapChan d f)) (t.modChan ⟨n, d⟩ f) := by
  rw [State.modChan_eq_modBus]
  exact h.modBus (Bus.mapChan d f)

section
variable (hp : Goes n s p others () q)
include hp

theorem goes_chanAccess (d : Dir) (f : Chan → Chan) (a : Access) :
    Goes n s p (update others fun t => (t.modChan ⟨n, d⟩ f).log a) () ((q.mapBus (Bus.mapChan d f)).log a) :=
  goes_update hp fun _ ht => (ht.modChan d f).log a

theorem goes_bufWrite (d : Dir) (k : Nat) (b : Byte) :
    Goes n s p (bufWrite others ⟨n, d⟩ k b) () ((q.mapBus (Bus.mapChan d (Chan.put k b))).log (.bufWrite ⟨n, d⟩ k b)) :=
  goes_chanAccess hp d _ _

theorem goes_chEnable (d : Dir) (k : Nat) :
    Goes n s p (chEnable others ⟨n, d⟩ k) () ((q.mapBus (Bus.mapChan d (Chan.enable k))).log (.chEnable ⟨n, d⟩ k)) :=
  goes_chanAccess hp d _ _

theorem goes_chTc_tx :
    Goes n s p (chTc others ⟨n, .tx⟩) q.bus.chTx.tc (q.log (.chTc ⟨n, .tx⟩ q.bus.chTx.tc)) := fun t ht => by
  obtain ⟨u, hu, hq⟩ := hp t ht
  have htc : (u.chan ⟨n, .tx⟩).tc = q.bus.chTx.tc := congrArg (·.chTx.tc) hq.bus
  exact ⟨_, by rw [chTc, atom_of hu, htc], hq.log _⟩

/-- `RegSet(i, CTL2, m)` (R58). -/
theorem goes_setCtl2 (m : Half) :
    Goes n s p (regSet others n .ctl2 m) ()
      ((q.mapCtrl fun c => c.put s.cfg .ctl2 (c.ctl2 ||| m)).log (.regSet n .ctl2 m)) :=
  goes_update hp fun t ht => ht.cfg ▸ (ht.modCtrl fun c => c.put t.cfg .ctl2 (c.ctl2 ||| m)).log _

theorem goes_memRead {a : Word} {b : Byte} (hm : memGet s.mem a = some b) :
    Goes n s p (memRead others a) b (q.log (.memRead a b)) := by
  refine hp.bind ((goes_look (a := some b) fun t ht => ?_).bind ?_)
  · obtain ⟨-, -, -, -, -, -, -, hmem, -⟩ := ht.kept
    exact (hmem a).trans hm
  · exact Goes.bind (goes_tweak fun _ ht => ht.log _) (goes_pure b)

end

/-! ## The copy of the source bytes -/

variable {l : List (List Move)}

/-- The accesses that copy the first `k` source bytes `data` into the buffer of channel `c` (R114). -/
def copyItems (c : ChanId) (src : Word) (data : Nat → Byte) (k : Nat) : List Access :=
  ((List.range k).map fun j => [.memRead (sourceAddress src j) (data j), .bufWrite c j (data j)]).flatten

/-- `buf` with the first `k` bytes written over. -/
def bufCopied (data : Nat → Byte) (k : Nat) (buf : List Byte) : List Byte := (List.range k).map data ++ buf.drop k

theorem bufCopied_succ (data : Nat → Byte) {k : Nat} {buf : List Byte} (hk : k < buf.length) :
    (bufCopied data k buf).set k (data k) = bufCopied data (k + 1) buf := by
  have hlen : ((List.range k).map data).length = k := by simp
  rw [bufCopied, List.drop_eq_getElem_cons hk, List.set_append_right _ _ hlen.le, hlen, Nat.sub_self, List.set_cons_zero,
    bufCopied, List.range_succ, List.map_append, List.append_assoc]
  rfl

theorem getElem?_bufCopied {data : Nat → Byte} {j k : Nat} (hj : j < k) (buf : List Byte) :
    (bufCopied data k buf)[j]? = some (data j) := by
  simp [bufCopied, List.getElem?_append, hj]

/-- The first `k` source bytes have been copied into the transmit buffer, and `l` is left of the schedule (R114). -/
def Stage.copied (p : Stage) (n : Inst) (src : Word) (data : Nat → Byte) (l : List (List Move)) (k : Nat) : Stage :=
  { p with
    sched := l
    bus := { p.bus with chTx := { p.bus.chTx with buf := bufCopied data k p.bus.chTx.buf } }
    items := p.items ++ copyItems ⟨n, .tx⟩ src data k }

/-- The copy loop from byte `k` on, no other agent moving (R114). -/
theorem goes_copyLoop {src : Word} {data : Nat → Byte} {k left : Nat} (hlen : k + left ≤ p.bus.chTx.buf.length)
    (hm : ∀ j, j < k + left → memGet s.mem (sourceAddress src j) = some (data j)) :
    Goes n s (p.copied n src data (silence (2 * left) ++ l) k) (copyLoop others ⟨n, .tx⟩ src k left) ()
      (p.copied n src data l (k + left)) := by
  induction left generalizing k with
  | zero => exact goes_pure ()
  | succ left ih =>
    have hsched : silence (2 * (left + 1)) ++ l = silence 1 ++ (silence 1 ++ (silence (2 * left) ++ l)) := rfl
    have hset := bufCopied_succ data (k := k) (buf := p.bus.chTx.buf) (by omega)
    rw [hsched]
    refine Goes.bind (goes_memRead (goes_still rfl) (hm k (by omega))) ?_
    refine Goes.bind (Goes.to (goes_bufWrite (goes_still rfl) .tx k (data k))
      (r := p.copied n src data (silence (2 * left) ++ l) (k + 1)) ?_) ?_
    · simp [Stage.copied, Stage.log, Stage.mapBus, Bus.mapChan, Chan.put, hset, copyItems, List.range_succ]
    · rw [Nat.add_comm left 1, ← Nat.add_assoc]
      exact ih (by omega) fun j hj => hm j (by omega)

/-- The whole copy of `k` bytes (R114). -/
theorem goes_copySource {src : Word} {data : Nat → Byte} {k : Nat} (hs : p.sched = silence (2 * k) ++ l)
    (hlen : k ≤ p.bus.chTx.buf.length) (hm : ∀ j, j < k → memGet s.mem (sourceAddress src j) = some (data j)) :
    Goes n s p (copyLoop others ⟨n, .tx⟩ src 0 k) () (p.copied n src data l k) := by
  have hloop := goes_copyLoop (n := n) (s := s) (p := p) (l := l) (src := src) (data := data) (k := 0) (left := k)
    (by rwa [Nat.zero_add]) (by rwa [Nat.zero_add])
  have hnone : p.copied n src data (silence (2 * k) ++ l) 0 = p := by
    rw [← hs]
    simp [Stage.copied, bufCopied, copyItems]
  rwa [hnone, Nat.zero_add] at hloop

end Sys2Proof.Machine
end

section
/-! PROOFS. MTX on a bus that reaches every pattern (R114, R119): the source bytes are copied, the transfer is armed, and the
engine moves every byte before the first query. -/
namespace Sys2Proof.Machine

open Sys2Proof.Claims

variable {n : Inst} {s t : State} {p : Stage} {l : List (List Move)} {data : Nat → Byte}

/-! ## The engine's steps -/

/-- The instance after the engine has sent the first `k` of its bytes `data` (R119). -/
def Bus.afterSending (i : Bus) (data : Nat → Byte) : Nat → Bus
  | 0 => i
  | k + 1 =>
    { i with
      ctrl := { i.ctrl with drTx := dataHalf (data k) }
      chTx := { i.chTx with idx := k + 1, tc := k + 1 == i.chTx.count } }

/-- An instance armed to send the bytes `data`, TXE set, and SWRST not (R118, R119). -/
structure ArmedToSend (cfg : Config) (i : Bus) (data : Nat → Byte) : Prop where
  en : i.chTx.en = true
  tc : i.chTx.tc = false
  idx : i.chTx.idx = 0
  buf : ∀ j, j < i.chTx.count → i.chTx.buf[j]? = some (data j)
  dmaen : i.ctrl.ctl2.getLsbD cfg.flags.dmaen = true
  txe : i.ctrl.srP.getLsbD cfg.flags.txe = true
  notInReset : i.ctrl.ctl.getLsbD cfg.flags.swrst = false

namespace ArmedToSend
variable {cfg : Config} {i : Bus} {j : Nat} (h : ArmedToSend cfg i data)
include h

theorem idx_afterSending (j : Nat) : (i.afterSending data j).chTx.idx = j := by
  cases j with
  | zero => exact h.idx
  | succ j => rfl

theorem sends (hj : j < i.chTx.count) : (i.afterSending data j).sends cfg = true := by
  rw [Bus.sends, h.idx_afterSending]
  cases j <;> simp [Bus.afterSending, h.en, h.dmaen, h.txe, hj]

theorem nextByte (hj : j < i.chTx.count) :
    (i.afterSending data j).chTx.buf[(i.afterSending data j).chTx.idx]? = some (data j) := by
  rw [h.idx_afterSending, ← h.buf j hj]
  cases j <;> rfl

theorem held (j : Nat) : (i.afterSending data j).ctrl.held cfg = (i.afterSending data j).ctrl :=
  held_of_not_reset <| by
    cases j with
    | zero => exact h.notInReset
    | succ j => exact h.notInReset

/-- `tc` rises with the last byte and not before (R119). -/
theorem sent (hj : j < i.chTx.count) : (i.afterSending data j).sent (data j) = i.afterSending data (j + 1) := by
  rw [Bus.sent, Chan.advance_eq]
  cases j with
  | zero => simp [Bus.afterSending, h.tc, h.idx]
  | succ j =>
    have hlast : (j + 1 == i.chTx.count) = false := by simpa using hj.ne
    simp [Bus.afterSending, hlast]

end ArmedToSend

/-- The engine has sent the first `k` bytes. -/
def Stage.sent (p : Stage) (n : Inst) (data : Nat → Byte) (k : Nat) : Stage :=
  { p with
    bus := p.bus.afterSending data k
    items := p.items ++ (List.range k).map fun j => .engineTx ⟨n, .tx⟩ (data j) }

theorem atStage_engineSteps (ht : AtStage n s p t) (h : ArmedToSend s.cfg p.bus data) {k : Nat} (hk : k ≤ p.bus.chTx.count) :
    AtStage n s (p.sent n data k) (applyQuiet (List.replicate k (.engine ⟨n, .tx⟩)) t) := by
  induction k with
  | zero => simpa [Stage.sent, Bus.afterSending, applyQuiet] using ht
  | succ k ih =>
    have hsent := ih (by omega)
    have hstep := engineStep_tx (n := n) (b := data k) (s := applyQuiet (List.replicate k (.engine ⟨n, .tx⟩)) t)
      (by rw [hsent.bus, hsent.cfg]; exact h.sends hk) (by rw [hsent.bus]; exact h.nextByte hk)
      (by rw [hsent.bus, hsent.cfg]; exact h.held k)
    have hnext := (hsent.modBus (Bus.sent (data k))).log (.engineTx ⟨n, .tx⟩ (data k))
    rw [← hstep] at hnext
    have hstage : ((p.sent n data k).mapBus (Bus.sent (data k))).log (.engineTx ⟨n, .tx⟩ (data k)) =
        p.sent n data (k + 1) := by
      simp [Stage.log, Stage.mapBus, Stage.sent, h.sent hk, List.range_succ]
    rw [List.replicate_succ', applyQuiet, List.foldl_append, ← hstage]
    exact hnext

/-- SR_P stands at `v`, and `l` is left of the schedule. -/
def Stage.srPSet (p : Stage) (v : Half) (l : List (List Move)) : Stage :=
  { p with sched := l, bus := { p.bus with ctrl := { p.bus.ctrl with srP := v } } }

/-- The environment sets SR_P, and the engine then sends every byte it is armed for, before one primitive. -/
theorem goes_engineBatch {v : Half}
    (hs : p.sched = (.envSrP n v :: List.replicate p.bus.chTx.count (.engine ⟨n, .tx⟩)) :: l)
    (h : ArmedToSend s.cfg (p.srPSet v l).bus data) :
    Goes n s p others () ((p.srPSet v l).sent n data p.bus.chTx.count) := by
  intro t ht
  have hset := ht.dropBatch.modCtrl fun c => { c with srP := v }
  rw [Stage.next, hs, ht.sched, hs] at hset
  refine ⟨_, others_batch (ht.sched.trans hs) ?_, atStage_engineSteps hset h le_rfl⟩
  simp [Move.isInterrupt]

/-! ## The command -/

/-- The bus is reported free before START (`v 0`, `x 0`), and shows P_START after it (`v 1`, `x 1`), P_ADDR_TX after the address
(`v 2`, `x 2`), and TXE where the transfer is armed (`v 3`), each at the first decode of a poll that makes one (R114, R119). -/
structure MtxCooperates (c : Config) (v x : Nat → Half) : Prop where
  wellFormed : c.wellFormed = true
  startBusy_pos : 0 < c.nStartBusy
  startWait_pos : 0 < c.nStartWait
  spin_pos : 0 < c.nSpin
  free : FindsFree c (v 0) (x 0)
  start : Reaches c (v 1) (x 1) (pStart c)
  address : Reaches c (v 2) (x 2) (pAddrTx c)
  txe : (v 3).getLsbD c.flags.txe = true

/-- DMAEN is set, out of a software reset. -/
theorem goes_setDmaen (hs : p.sched = silence 1 ++ l) (hr : p.OutOfReset s.cfg) :
    Goes n s p (regSet others n .ctl2 (dmaenMask s.cfg)) ()
      { p with
        sched := l
        bus := { p.bus with ctrl := { p.bus.ctrl with ctl2 := p.bus.ctrl.ctl2 ||| dmaenMask s.cfg } }
        items := p.items ++ [.regSet n .ctl2 (dmaenMask s.cfg)] } := by
  have hput : p.bus.ctrl.put s.cfg .ctl2 (p.bus.ctrl.ctl2 ||| dmaenMask s.cfg) =
      { p.bus.ctrl with ctl2 := p.bus.ctrl.ctl2 ||| dmaenMask s.cfg } := held_of_not_reset hr
  have hset := goes_setCtl2 (n := n) (s := s) (goes_still hs) (dmaenMask s.cfg)
  rwa [Stage.mapCtrl, Stage.mapBus, hput] at hset

/-- The first query of the transfer-complete spin sees `tc` (R114). -/
theorem goes_tcLoop {q : Stage} (hp : Goes n s p others () q) (htc : q.bus.chTx.tc = true) {k : Nat} (hk : 0 < k) :
    Goes n s p (tcLoop others ⟨n, .tx⟩ k) true (q.log (.chTc ⟨n, .tx⟩ true)) := by
  obtain ⟨k, rfl⟩ := Nat.exists_eq_succ_of_ne_zero hk.ne'
  have hquery := goes_chTc_tx hp
  rw [htc] at hquery
  exact Goes.bind hquery (Goes.bind (goes_setPollN _) (goes_pure true))

/-- Setting DMAEN and enabling the channel for `k` bytes arms an instance whose buffer holds them (R114, R118). -/
theorem armedToSend_enable {cfg : Config} {i : Bus} {v : Half} {k : Nat} (hr : i.ctrl.ctl.getLsbD cfg.flags.swrst = false)
    (htxe : v.getLsbD cfg.flags.txe = true) (hbuf : ∀ j, j < k → i.chTx.buf[j]? = some (data j)) :
    ArmedToSend cfg
      { i with
        chTx := i.chTx.enable k
        ctrl := { i.ctrl with ctl2 := i.ctrl.ctl2 ||| dmaenMask cfg, srP := v } } data where
  en := rfl
  tc := rfl
  idx := rfl
  buf := hbuf
  dmaen := by simp [dmaenMask, bitMask]
  txe := htxe
  notInReset := hr

/-- The transfer of `k` bytes has been armed, and every byte has been sent before the first query (R114, R119). -/
def Stage.transferred (p : Stage) (n : Inst) (cfg : Config) (data : Nat → Byte) (v : Half) (l : List (List Move)) (k : Nat) :
    Stage :=
  { p with
    sched := l
    bus :=
      { p.bus with
        chTx := { buf := p.bus.chTx.buf, en := true, tc := true, count := k, idx := k }
        ctrl :=
          { p.bus.ctrl with
            ctl2 := p.bus.ctrl.ctl2 ||| dmaenMask cfg
            drTx := dataHalf (data (k - 1))
            srP := v } }
    items := p.items ++ [.regSet n .ctl2 (dmaenMask cfg), .chEnable ⟨n, .tx⟩ k] ++
      (List.range k).map (fun j => .engineTx ⟨n, .tx⟩ (data j)) ++ [.chTc ⟨n, .tx⟩ true] }

theorem goes_mtxTransfer {v : Half} {k : Nat} (hk : 0 < k) (hspin : 0 < s.cfg.nSpin)
    (hs : p.sched = silence 1 ++ (silence 1 ++ ((.envSrP n v :: List.replicate k (.engine ⟨n, .tx⟩)) ::
      (silence 1 ++ (silence 1 ++ (silence 1 ++ l))))))
    (hr : p.OutOfReset s.cfg) (htxe : v.getLsbD s.cfg.flags.txe = true)
    (hbuf : ∀ j, j < k → p.bus.chTx.buf[j]? = some (data j)) :
    Goes n s p (mtxTransfer n s.cfg k ⟨n, .tx⟩) ()
      (((p.transferred n s.cfg data v (silence 1 ++ (silence 1 ++ (silence 1 ++ l))) k).freed l).mapResult (withCode · 0)) := by
  have harmed := armedToSend_enable hr htxe hbuf
  obtain ⟨k, rfl⟩ := Nat.exists_eq_succ_of_ne_zero hk.ne'
  refine Goes.bind (goes_setDmaen hs hr) ?_
  refine Goes.bind (goes_chEnable (goes_still rfl) .tx (k + 1)) ?_
  refine Goes.bind (goes_setPollN _) ?_
  refine Goes.bind (goes_tcLoop (goes_engineBatch rfl harmed) ?_ hspin) ?_
  · exact beq_self_eq_true (k + 1)
  refine Goes.bind (goes_failUnless _ _) ?_
  refine Goes.bind (goes_finishGuarded rfl) (Goes.to (goes_succeed (goes_still rfl)) ?_)
  simp [Stage.sent, Stage.srPSet, Stage.transferred, Stage.freed, Stage.mapResult, Stage.mapBus, Stage.log,
    Bus.mapChan, Bus.afterSending, Chan.enable]

/-- MTX from its lock on (R114). -/
theorem goes_mtxBody {v x : Nat → Half} {i : Bus} {k : Nat} {src len : Word} (h : MtxCooperates s.cfg v x)
    (hr : i.ctrl.ctl.getLsbD s.cfg.flags.swrst = false) (hk : 0 < k) (hlen : copyCount s.cfg len = k)
    (hbuf : k ≤ i.chTx.buf.length) (hm : ∀ j, j < k → memGet s.mem (sourceAddress src j) = some (data j)) (a : Addr7) :
    Goes n s
      ⟨silence (2 * k) ++ (silence 1 ++ (silence 1 ++ (answers n (v 0) (x 0) ++ (silence 1 ++ (answers n (v 1) (x 1) ++
        (silence 1 ++ (silence 1 ++ (answers n (v 2) (x 2) ++ (silence 1 ++ (silence 1 ++ (silence 1 ++
        ((.envSrP n (v 3) :: List.replicate k (.engine ⟨n, .tx⟩)) ::
        (silence 1 ++ (silence 1 ++ (silence 1 ++ l))))))))))))))), i, 0, none, [], []⟩
      (mtxBody n a src len ⟨n, .tx⟩) ()
      { sched := l
        bus :=
          { i with
            lock := false
            phase := .idle
            chTx := { buf := bufCopied data k i.chTx.buf, en := true, tc := true, count := k, idx := k }
            ctrl :=
              { i.ctrl with
                ctl := i.ctrl.ctl ||| startMask s.cfg
                ctl2 := i.ctrl.ctl2 ||| dmaenMask s.cfg
                drTx := dataHalf (data (k - 1))
                srP := v 3
                srS := x 2
                pRead := false } }
        result := 0
        rdata0 := some (BitVec.ofNat 32 k)
        items := copyItems ⟨n, .tx⟩ src data k ++ decodeItems n (v 0) (x 0) ++ [.regSet n .ctl (startMask s.cfg)] ++
          decodeItems n (v 1) (x 1) ++ [.regWrite n .dr (dataHalf (addressByte .tx a))] ++ decodeItems n (v 2) (x 2) ++
          [.regSet n .ctl2 (dmaenMask s.cfg), .chEnable ⟨n, .tx⟩ k] ++
          (List.range k).map (fun j => .engineTx ⟨n, .tx⟩ (data j)) ++ [.chTc ⟨n, .tx⟩ true]
        records := [] } := by
  have hstarted := outOfReset_or_start h.wellFormed hr
  refine goes_params.bind ?_
  rw [hlen]
  refine Goes.bind (goes_copySource rfl hbuf hm) ?_
  refine Goes.bind (goes_putRdata0 (goes_still rfl) _) ?_
  refine Goes.bind (goes_inPhase rfl .start) ?_
  refine Goes.bind (goes_generateStart h.wellFormed rfl rfl hr h.startBusy_pos h.startWait_pos h.free h.start) ?_
  refine Goes.bind (goes_inPhase rfl .address) ?_
  refine Goes.bind (goes_sendAddress_tx rfl hstarted h.spin_pos h.address a) ?_
  refine Goes.bind (goes_inPhase rfl .dataPhase) ?_
  refine Goes.to (goes_mtxTransfer hk h.spin_pos rfl hstarted h.txe fun j hj => getElem?_bufCopied hj _) ?_
  simpa [Stage.answered, Stage.inPhase, Stage.ctlSet, Stage.drWritten, Stage.freed, Stage.mapResult, Stage.copied,
    Stage.transferred] using withCode_zero_zero

end Sys2Proof.Machine

namespace Sys2Proof.Proofs

open Sys2Proof.Machine Sys2Proof.Claims

/-- Settles O40: the copy, every poll at its first decode, and a transfer that the engine finishes before the first query. -/
theorem mtxCompletesOnCooperativeBus : Obligations.MtxCompletesOnCooperativeBus := by
  intro n a s data v x rest k c hinv hr hb hl hc hk hks hkw hkp hm hfree hstart haddr htxe hs
  obtain ⟨hwf, hgood, -⟩ := hinv
  obtain ⟨-, -, -, ⟨hlen, -⟩, -⟩ := hgood n
  have hbody := goes_mtxBody (n := n) (s := s) (l := rest) (i := { s.bus n with lock := true })
    (src := s.bank.arg0) (len := s.bank.arg1)
    ⟨hwf, hks, hkw, hkp, hfree, hstart, haddr, htxe⟩ hr hk rfl (hlen ▸ Nat.min_le_right _ _) hm a
  have hsplit : silence (6 + 2 * k) = silence 4 ++ (silence (2 * k) ++ silence 2) := by
    simp only [silence, ← List.replicate_add]
    congr 1
    omega
  rw [hsplit] at hs
  obtain ⟨t, hexec, ht⟩ := channelCommand_goes (d := .tx) hb hl hc (by simp [hs, silence]) (by
    rw [issuedStage, hs]
    simpa [silence] using hbody)
  rw [dataHalf_addressByte_tx] at ht
  refine ⟨t, hexec, ht.result, ht.rdata0 _ rfl, ht.sched, by simpa using ht.sink, ?_, ?_, ht.kept⟩
  · simpa [copyItems, sourceAddress] using ht.trace
  · exact ht.bus

end Sys2Proof.Proofs
end

section
/-! PROOFS. SRX (R115) where no other agent moves: the view and its capacity are reported, and then the instance waits to be
addressed. Never addressed it fails (R143, V34); addressed it waits for TXE, whatever comes of that, and arms the receive channel.
`AtStage` says nothing of RDATA1, so what is written there once is followed by a frame of its own. -/
namespace Sys2Proof.Machine

open Sys2Proof.Claims

variable {n : Inst} {r s t : State} {p q : Stage} {w : Caller} {α β : Type} {cond : Word → Bool}

/-! ## RDATA1 -/

/-- RDATA1 of the port in use is the same in both states. -/
def SameRdata1 (s t : State) : Prop := t.bank.rdata1 = s.bank.rdata1

theorem sameRdata1_refl (s : State) : SameRdata1 s s := rfl

/-- RDATA1 of the port in use is kept, where no other agent moves. -/
abbrev KeepsRdata1 {α : Type} (x : Run α) : Prop := Keeps Quiet SameRdata1 x

namespace KeepsRdata1

theorem pure (a : α) : KeepsRdata1 (Pure.pure a : Run α) := keeps_pure sameRdata1_refl a

theorem bind {x : Run α} {f : α → Run β} (hx : KeepsRdata1 x) (hf : ∀ a, KeepsRdata1 (f a)) : KeepsRdata1 (x >>= f) :=
  keeps_bind (fun _ _ _ h k => k.trans h) hx hf

theorem runIf {x : Run Unit} (hx : KeepsRdata1 x) (b : Bool) : KeepsRdata1 (Machine.runIf b x) :=
  keeps_runIf sameRdata1_refl hx

theorem look (f : State → α) : KeepsRdata1 (Machine.look f) := fun _ hs => ⟨hs, rfl⟩

theorem atom {f : State → α × State} (hs : ∀ s, (f s).2.sched = s.sched) (hf : ∀ s, (f s).2.bank.rdata1 = s.bank.rdata1) :
    KeepsRdata1 (Machine.atom others f) := fun s hq => by
  rw [atom_quiet hq]
  exact ⟨(hs s).trans hq, hf s⟩

theorem update {f : State → State} (hs : ∀ s, (f s).sched = s.sched) (hf : ∀ s, (f s).bank.rdata1 = s.bank.rdata1) :
    KeepsRdata1 (Machine.update others f) :=
  atom hs hf

theorem modBus (f : Bus → Bus) : KeepsRdata1 (Machine.update others (·.modBus n f)) :=
  update (State.modBus_sched · n f) fun s => by rw [State.modBus_bank]

theorem putResult (f : Half → Half) : KeepsRdata1 (Machine.putResult others f) :=
  update (modResult_sched · f) fun s => by rw [modResult_bank]

theorem setPollN (f : Nat → Nat) : KeepsRdata1 (Machine.setPollN f) :=
  keeps_tweak fun s hq => ⟨(State.modBank_sched s _).trans hq, by rw [SameRdata1, State.bank_modBank]⟩

theorem regRead (k : Reg) : KeepsRdata1 (Machine.regRead others n k) :=
  atom (readReg_sched n k) fun s => by rw [readReg_bank]

theorem regSet (k : Reg) (m : Half) : KeepsRdata1 (Machine.regSet others n k m) :=
  update (setReg_sched n k m) fun s => by rw [setReg_bank]

theorem diag (k : DiagKind) (v : Word) (regs : List Half) : KeepsRdata1 (Machine.diag others k v regs) :=
  update (fun _ => rfl) fun _ => rfl

theorem chEnable (c : ChanId) (k : Nat) : KeepsRdata1 (Machine.chEnable others c k) :=
  update (fun s => by simp [State.modChan_eq_modBus]) fun s => by simp [State.modChan_eq_modBus]

theorem delayMs (d : Nat) : KeepsRdata1 (Machine.delayMs others d) :=
  (update (f := (·.log (.delay d))) (fun _ => rfl) fun _ => rfl).runIf _

theorem decodeStatus : KeepsRdata1 (Machine.decodeStatus others n) :=
  (look _).bind fun _ => (regRead _).bind fun _ => keeps_ite ((regRead _).bind fun _ => pure _) (pure _)

theorem poll (cond : Word → Bool) (k d : Nat) : KeepsRdata1 (Machine.poll others n cond k d) := by
  refine (setPollN _).bind fun _ => ?_
  induction k with
  | zero => exact pure _
  | succ k ih =>
    exact decodeStatus.bind fun _ => keeps_ite (pure _) <| (delayMs d).bind fun _ => (setPollN _).bind fun _ => ih

theorem finishGuarded : KeepsRdata1 (Machine.finishGuarded others n) := (modBus _).bind fun _ => modBus _

/-- The failure exit of a guarded command that has no Reset there (R143). -/
theorem failUnless {k : ErrKind} (hr : failureResets w k = false) (hw : w.guarded = true) (ok : Bool) :
    KeepsRdata1 (Machine.failUnless others w n k ok) := by
  have hbusError (v : Word) : KeepsRdata1 (failBusError others w n k v) := by
    rw [failBusError, hr]
    exact (diag _ _ _).bind fun _ => (putResult _).bind fun _ => pure ()
  have hend : KeepsRdata1 (failEnd others w n) := by
    rw [failEnd, if_pos hw]
    exact (update (fun s => modResult_sched s _) fun s => by rw [modResult_bank]).bind fun _ => finishGuarded
  exact keeps_ite (pure ()) <| (look _).bind fun _ => decodeStatus.bind fun _ => (diag _ _ _).bind fun _ =>
    ((hbusError _).runIf _).bind fun _ => (putResult _).bind fun _ => hend.bind fun _ =>
    keeps_leave sameRdata1_refl _

end KeepsRdata1

/-! ## Waiting to be addressed -/

/-- SRX from its log record on (R115). -/
def srxArm (n : Inst) (cfg : Config) (c : ChanId) (seen : Bool) (st : Word) : Run Unit := do
  diag others (if seen then .info else .warn) st []
  setPhase others n .dataPhase
  regSet others n .ctl2 (dmaenMask cfg)
  chEnable others c cfg.dmaCap
  finishGuarded others n
  succeed others

/-- SRX once it has reported its view (R115). -/
def srxListen (n : Inst) (cfg : Config) (c : ChanId) : Run Unit := do
  setPhase others n .address
  let ok ← poll others n (fun v => matchPat v (pSrxAddr cfg)) cfg.nSrxAddr cfg.dSrxAddr
  failUnless others .srx n .addressPhaseFailed ok
  let ok2 ← poll others n (fun v => matchPat v (pSrxTxe cfg)) cfg.nSrxTxe 0
  let st ← decodeStatus others n
  srxArm n cfg c ok2 st

theorem keepsRdata1_srxListen (n : Inst) (cfg : Config) (c : ChanId) : KeepsRdata1 (srxListen n cfg c) :=
  (KeepsRdata1.modBus _).bind fun _ => (KeepsRdata1.poll _ _ _).bind fun _ =>
    (KeepsRdata1.failUnless rfl rfl _).bind fun _ => (KeepsRdata1.poll _ _ _).bind fun _ =>
    KeepsRdata1.decodeStatus.bind fun _ => (KeepsRdata1.diag _ _ _).bind fun _ => (KeepsRdata1.modBus _).bind fun _ =>
    (KeepsRdata1.regSet _ _).bind fun _ => (KeepsRdata1.chEnable _ _).bind fun _ =>
    KeepsRdata1.finishGuarded.bind fun _ => KeepsRdata1.putResult _

/-- SRX has reported its view and holds the lock (R64, R115). -/
def srxStage (n : Inst) (s : State) : Stage := ⟨[], { s.bus n with lock := true }, 0, some (viewHandle ⟨n, .rx⟩), [], []⟩

/-- SRX with its channel attached and the lock free reports the view and its capacity (R85, R115). -/
theorem exec_srx_listens {c : ChanId} (hq : Quiet s) (hb : (s.bus n).bound = true) (hl : (s.bus n).lock = false)
    (hc : (s.bus n).dmaRx = some c) (a : Addr7) :
    ∃ t, AtStage n s (srxStage n s) t ∧ t.bank.rdata1 = BitVec.ofNat 32 s.cfg.dmaCap ∧
      exec (.srx n a) s = toOutcome (srxListen n s.cfg c t) := by
  have hq' : s.sched = [] := hq
  obtain ⟨t, ht, hrun⟩ := channelCommand_locked (d := .rx) hb hl hc (by simp [hq'])
  have hissued : issuedStage s 4 { s.bus n with lock := true } = ⟨[], { s.bus n with lock := true }, 0, none, [], []⟩ := by
    rw [issuedStage, hq', List.drop_nil]
  rw [hissued] at ht
  obtain ⟨u, hu, hview⟩ := goes_putRdata0 (goes_quiet rfl) (viewHandle ⟨n, .rx⟩) t ht
  have hcap := update_quiet hview.sched fun s => s.modBank fun b => { b with rdata1 := BitVec.ofNat 32 t.cfg.dmaCap }
  refine ⟨_, hview.modBank (f := fun b => { b with rdata1 := BitVec.ofNat 32 t.cfg.dmaCap }) rfl rfl hview.result
    hview.rdata0, ?_, ?_⟩
  · rw [State.bank_modBank, ht.cfg]
  · rw [exec_srx, hrun, srxBody, bind_of_ok (params_run t), bind_of_ok hu, putRdata1, bind_of_ok hcap, ht.cfg]
    rfl

/-! ## Polls of a steady status -/

/-- The failure exit after a poll that the steady status of `r` never ends, a delay `d` after each decode (R11, R143). -/
theorem ends_poll_never {f : Unit → Run β} {e : ErrKind} (hp : Shows n s r p) (hq : p.sched = []) (hs : Steady r n)
    (hc : cond (decodedValue r n) = false) (hw : w.guarded = true) (hr : failureResets w e = false) (k d : Nat) :
    Ends n s p (poll others n cond k d >>= fun ok => failUnless others w n e ok >>= f)
      ((p.observed (pollTrace r n d k ++ decodeTrace r n) (!gateOpen r.cfg (r.bus n).ctrl.srP)).failed e (decodedValue r n)
        (errSeen r.cfg (decodedValue r n))) := by
  intro t ht
  have hst := hp.sameStatus ht
  obtain ⟨u, hpoll, hu⟩ := poll_never (cond := cond) (ht.sched.trans hq) (hst.steady hs) (by rw [hst.decodedValue_eq, hc]) k d
  obtain ⟨b, hb⟩ := hu.bus
  have hsu := hst.trans hu.sameStatus
  have hat := ht.observed hu hb
  obtain ⟨v, hdec, hv, hvb⟩ := decodeStatus_steady (hat.sched.trans hq) (hsu.steady hs)
  obtain ⟨y, hy, hfailed⟩ := fail_guarded (α := Unit) hat.cfg hdec (hat.observed hv hvb) hq hw hr
  refine ⟨y, (bind_of_ok hpoll).trans (bind_of_error hy), ?_⟩
  rw [hsu.decodedValue_eq, hsu.decodeTrace_eq, hst.pollTrace_eq, ← hp.cfg] at hfailed
  simpa [Stage.observed, Stage.failed, hsu.cfg, hsu.srP] using hfailed

/-- The accesses of a poll of the steady status of `r` (R11). -/
def steadyPollItems (r : State) (n : Inst) (cond : Word → Bool) (k d : Nat) : List Access :=
  if cond (decodedValue r n) then pollTrace r n 0 (min 1 k) else pollTrace r n d k

/-- A poll of a steady status answers whether its first decode, if it makes one, meets its condition (R11). -/
theorem poll_steady_answer (cond : Word → Bool) (hq : Quiet s) (hs : Steady s n) (k d : Nat) :
    ∃ t, poll others n cond k d s = .ok (cond (decodedValue s n) && decide (0 < k)) t ∧
      Observed n (steadyPollItems s n cond k d) s t := by
  obtain ⟨ok, t, hpoll, ht⟩ := poll_steady cond hq hs k d
  have hok : ok = (cond (decodedValue s n) && decide (0 < k)) := by
    cases hc : cond (decodedValue s n) with
    | false =>
      obtain ⟨u, hu, -⟩ := poll_never hq hs hc k d
      cases hpoll.symm.trans hu
      rfl
    | true =>
      cases k with
      | zero =>
        cases hpoll
        rfl
      | succ k =>
        obtain ⟨u, hu, -⟩ := poll_met hq hs hc k.succ_pos d
        cases hpoll.symm.trans hu
        rfl
  exact ⟨t, hok ▸ hpoll, ht⟩

/-- A poll of the steady status of `r` and a decode after it. -/
theorem goes_poll_decode {F : Bool → Word → Run β} {b : β} {k d : Nat} (hp : Shows n s r p) (hq : p.sched = [])
    (hs : Steady r n)
    (hF : Goes n s
      (p.observed (steadyPollItems r n cond k d ++ decodeTrace r n) (!gateOpen r.cfg (r.bus n).ctrl.srP))
      (F (cond (decodedValue r n) && decide (0 < k)) (decodedValue r n)) b q) :
    Goes n s p (poll others n cond k d >>= fun ok => decodeStatus others n >>= F ok) b q := by
  intro t ht
  have hst := hp.sameStatus ht
  obtain ⟨u, hpoll, hu⟩ := poll_steady_answer cond (ht.sched.trans hq) (hst.steady hs) k d
  obtain ⟨b, hb⟩ := hu.bus
  have hsu := hst.trans hu.sameStatus
  have hat := ht.observed hu hb
  obtain ⟨v, hdec, hv, hvb⟩ := decodeStatus_steady (hat.sched.trans hq) (hsu.steady hs)
  have hlast := hat.observed hv hvb
  rw [hst.decodedValue_eq] at hpoll
  rw [hsu.decodedValue_eq] at hdec
  rw [hsu.decodeTrace_eq, steadyPollItems, hst.decodedValue_eq, hst.pollTrace_eq, hst.pollTrace_eq, hsu.cfg, hsu.srP] at hlast
  obtain ⟨y, hy, hqy⟩ := hF v (by simpa [Stage.observed, steadyPollItems] using hlast)
  exact ⟨y, (bind_of_ok hpoll).trans ((bind_of_ok hdec).trans hy), hqy⟩

/-! ## Patterns of one flag -/

/-- A pattern of one primary flag is that flag (R10, R78). -/
theorem matchPat_primary_flag (h p : Half) (i : Fin 16) : matchPat (h ++ p) (pattern 0 (bitMask i)) = p.getLsbD i := by
  have hzero : h &&& 0 = 0 := BitVec.and_zero
  rw [matchPat, pattern, BitVec.and_append, hzero, bitMask, BitVec.and_twoPow]
  cases hp : p.getLsbD i with
  | true => simp
  | false =>
    refine beq_eq_false_iff_ne.mpr fun he => ?_
    have hbit : ((0 : Half) ++ BitVec.twoPow 16 i).getLsbD i = true := by
      rw [BitVec.getLsbD_append]
      simp
    rw [← he, BitVec.getLsbD_append] at hbit
    simp at hbit

/-- A decode's value holds SR_P in its low half (R77, R90). -/
theorem decodedValue_append (s : State) (n : Inst) : ∃ h : Half, decodedValue s n = h ++ (s.bus n).ctrl.srP := by
  unfold decodedValue
  simp only
  split
  · exact ⟨_, rfl⟩
  · exact ⟨_, rfl⟩

theorem matchPat_decodedValue (s : State) (n : Inst) (i : Fin 16) :
    matchPat (decodedValue s n) (pattern 0 (bitMask i)) = (s.bus n).ctrl.srP.getLsbD i := by
  obtain ⟨h, hv⟩ := decodedValue_append s n
  rw [hv, matchPat_primary_flag]

/-! ## The command -/

theorem srxStage_shows (n : Inst) (s : State) (b : Phase) : Shows n s s ((srxStage n s).mapBus fun i => { i with phase := b }) :=
  ⟨rfl, rfl, rfl⟩

/-- The stage at which SRX ends that is never addressed (R115, R143). -/
def srxTimedOut (n : Inst) (s : State) : Stage :=
  (((srxStage n s).mapBus fun i => { i with phase := .address }).observed
    (pollTrace s n s.cfg.dSrxAddr s.cfg.nSrxAddr ++ decodeTrace s n) (!gateOpen s.cfg (s.bus n).ctrl.srP)).failed
    .addressPhaseFailed (decodedValue s n) (errSeen s.cfg (decodedValue s n))

theorem ends_srxListen_unaddressed (hs : Steady s n) (hp : (s.bus n).ctrl.srP.getLsbD s.cfg.flags.addrm = false) (c : ChanId) :
    Ends n s (srxStage n s) (srxListen n s.cfg c) (srxTimedOut n s) := by
  refine Goes.bindEnds (goes_setPhase (goes_quiet rfl) .address) ?_
  exact ends_poll_never (cond := fun v => matchPat v (pSrxAddr s.cfg)) (srxStage_shows n s .address) rfl hs
    ((matchPat_decodedValue s n _).trans hp) rfl rfl _ _

/-- SRX's failure exit leaves RESULT so (R33, R143). -/
theorem failResult_addressPhaseFailed (err : Bool) :
    withFPhase (withCode (if err then withBusErr 0 else 0) (errCode .addressPhaseFailed)) (phaseCode .address) =
      failResult 0x0003 err 3 := by
  cases err <;> decide

/-- `s` after a decode that has read both status fields: what the read order clears is clear (R55). -/
def withSeqCleared (n : Inst) (s : State) : State := s.modCtrl n fun c => { c with srP := c.srP &&& ~~~s.cfg.seqClear }

theorem withSeqCleared_bus (n : Inst) (s : State) :
    (withSeqCleared n s).bus n =
      { s.bus n with ctrl := { (s.bus n).ctrl with srP := (s.bus n).ctrl.srP &&& ~~~s.cfg.seqClear } } :=
  State.bus_modBus_same s n _

theorem withSeqCleared_cfg (n : Inst) (s : State) : (withSeqCleared n s).cfg = s.cfg := State.modBus_cfg s n _

theorem steady_withSeqCleared (n : Inst) (s : State) : Steady (withSeqCleared n s) n := by
  rw [Steady, withSeqCleared_bus, withSeqCleared_cfg, BitVec.and_assoc]
  simp

theorem decodedValue_withSeqCleared (n : Inst) (s : State) :
    let p := (s.bus n).ctrl.srP &&& ~~~s.cfg.seqClear
    decodedValue (withSeqCleared n s) n =
      if gateOpen s.cfg p then composite (s.bus n).ctrl.srS p else suppressed p := by
  simp only [decodedValue, withSeqCleared_bus, withSeqCleared_cfg]

/-- The gate is open where ADDRM is set (R90). -/
theorem gateOpen_of_addrm {cfg : Config} {p : Half} (h : p.getLsbD cfg.flags.addrm = true) : gateOpen cfg p = true := by
  rw [gateOpen, h, Bool.or_true]

/-- The receive channel has been armed, the instance freed, and a record made of the status `v` (R115). -/
def Stage.receiving (p : Stage) (n : Inst) (cfg : Config) (seen : Bool) (v : Word) : Stage :=
  { p with
    bus :=
      { p.bus with
        lock := false
        phase := .idle
        chRx := p.bus.chRx.enable cfg.dmaCap
        ctrl := ({ p.bus.ctrl with ctl2 := p.bus.ctrl.ctl2 ||| dmaenMask cfg } : Ctrl).held cfg }
    result := withCode p.result 0
    items := p.items ++ [.regSet n .ctl2 (dmaenMask cfg), .chEnable ⟨n, .rx⟩ cfg.dmaCap]
    records := p.records ++ [⟨if seen then .info else .warn, v, []⟩] }

theorem goes_srxArm (hq : p.sched = []) (seen : Bool) (v : Word) :
    Goes n s p (srxArm n s.cfg ⟨n, .rx⟩ seen v) () (p.receiving n s.cfg seen v) := by
  refine Goes.bind (goes_diag (goes_quiet hq) _ v) ?_
  refine Goes.bind (goes_setPhase (goes_quiet (by exact hq)) .dataPhase) ?_
  refine Goes.bind (goes_setCtl2 (goes_quiet (by exact hq)) _) ?_
  refine Goes.bind (goes_chEnable (goes_quiet (by exact hq)) .rx _) ?_
  refine Goes.bind (Goes.bind (goes_setPhase (goes_quiet (by exact hq)) .idle) (goes_release (goes_quiet (by exact hq)))) ?_
  refine Goes.to (goes_succeed (goes_quiet (by exact hq))) ?_
  simp [Stage.receiving, Stage.record, Stage.mapBus, Stage.mapCtrl, Stage.log, Stage.mapResult, Bus.mapChan, Ctrl.put,
    Ctrl.store]

/-- The stage at which SRX has been addressed, at the first decode (R115). -/
def srxAddressed (n : Inst) (s : State) : Stage :=
  ((srxStage n s).mapBus fun i => { i with phase := .address }).answered n s.cfg (s.bus n).ctrl.srP (s.bus n).ctrl.srS []

/-- The stage at which SRX ends that is addressed (R115). -/
def srxDone (n : Inst) (s : State) : Stage :=
  let r := withSeqCleared n s
  let seesTxe : Word → Bool := fun v => matchPat v (pSrxTxe s.cfg)
  ((srxAddressed n s).observed (steadyPollItems r n seesTxe s.cfg.nSrxTxe 0 ++ decodeTrace r n)
    (!gateOpen r.cfg (r.bus n).ctrl.srP)).receiving n s.cfg (seesTxe (decodedValue r n) && decide (0 < s.cfg.nSrxTxe))
    (decodedValue r n)

/-- The wait for TXE decides the kind of the record, and the status that was left gives its value. -/
theorem srxDone_records (n : Inst) (s : State) :
    let p := (s.bus n).ctrl.srP &&& ~~~s.cfg.seqClear
    (srxDone n s).records =
      [⟨if p.getLsbD s.cfg.flags.txe && decide (0 < s.cfg.nSrxTxe) then .info else .warn,
        if gateOpen s.cfg p then composite (s.bus n).ctrl.srS p else suppressed p, []⟩] := by
  have hseen := matchPat_decodedValue (withSeqCleared n s) n s.cfg.flags.txe
  rw [← pSrxTxe, withSeqCleared_bus] at hseen
  have hrecords : (srxDone n s).records =
      [⟨if matchPat (decodedValue (withSeqCleared n s) n) (pSrxTxe s.cfg) && decide (0 < s.cfg.nSrxTxe) then .info
        else .warn, decodedValue (withSeqCleared n s) n, []⟩] := rfl
  rw [hrecords, hseen, decodedValue_withSeqCleared]

theorem srxDone_bus (n : Inst) (s : State) :
    let p := (s.bus n).ctrl.srP &&& ~~~s.cfg.seqClear
    (srxDone n s).bus =
      { s.bus n with
        lock := false
        phase := .idle
        chRx := (s.bus n).chRx.enable s.cfg.dmaCap
        ctrl :=
          ({ (s.bus n).ctrl with
            ctl2 := (s.bus n).ctrl.ctl2 ||| dmaenMask s.cfg, srP := p, pRead := !gateOpen s.cfg p } : Ctrl).held s.cfg } := by
  simp [srxDone, Stage.receiving, Stage.observed, Stage.answered, srxAddressed, srxStage, Stage.mapBus, withSeqCleared_bus,
    withSeqCleared_cfg]

theorem srxAddressed_shows (n : Inst) (s : State) : Shows n s (withSeqCleared n s) (srxAddressed n s) :=
  ⟨withSeqCleared_cfg n s, by rw [withSeqCleared_bus]; rfl, by rw [withSeqCleared_bus]; rfl⟩

theorem goes_srxListen_addressed (hk : 0 < s.cfg.nSrxAddr) (hp : (s.bus n).ctrl.srP.getLsbD s.cfg.flags.addrm = true) :
    Goes n s (srxStage n s) (srxListen n s.cfg ⟨n, .rx⟩) () (srxDone n s) := by
  have haddr : matchPat (composite (s.bus n).ctrl.srS (s.bus n).ctrl.srP) (pSrxAddr s.cfg) = true :=
    (matchPat_primary_flag _ _ _).trans hp
  have hdec : Goes n s ((srxStage n s).mapBus fun i => { i with phase := .address }) (decodeStatus others n)
      (composite (s.bus n).ctrl.srS (s.bus n).ctrl.srP) (srxAddressed n s) :=
    goes_decode_silent rfl rfl (gateOpen_of_addrm hp)
  refine Goes.bind (goes_setPhase (goes_quiet rfl) .address) ?_
  refine Goes.bind (goes_poll (cond := fun v => matchPat v (pSrxAddr s.cfg)) hdec haddr hk _) ?_
  refine Goes.bind (goes_failUnless _ _) ?_
  exact goes_poll_decode (srxAddressed_shows n s) rfl (steady_withSeqCleared n s) (goes_srxArm rfl _ _)

end Sys2Proof.Machine

namespace Sys2Proof.Proofs

open Sys2Proof.Machine Sys2Proof.Claims

/-- Settles O43: the view is reported, the poll of the steady status makes its whole budget, and the failure exit has the phase
Address in FPHASE. -/
theorem srxTimesOutUnaddressed : Obligations.SrxTimesOutUnaddressed := by
  intro n a s hq hs hb hl hc hp
  obtain ⟨c, hc⟩ := Option.ne_none_iff_exists'.1 hc
  obtain ⟨t, ht, hcap, hexec⟩ := exec_srx_listens hq hb hl hc a
  obtain ⟨u, hrun, hu⟩ := ends_srxListen_unaddressed hs hp c t ht
  have hkept := (keepsRdata1_srxListen n s.cfg c t ht.sched).2
  rw [hrun] at hexec hkept
  refine ⟨u, hexec, hu.result.trans (failResult_addressPhaseFailed _), ?_, hkept.trans hcap, hu.sink, ?_, ?_, hu.kept⟩
  · rw [hu.rdata0 _ rfl]
    cases n <;> rfl
  · simpa [srxTimedOut, srxStage, Stage.failed, Stage.observed, Stage.mapBus, pollTrace] using hu.trace
  · rw [hu.bus]
    simp [srxTimedOut, srxStage, Stage.failed, Stage.observed, Stage.mapBus, decoded, hl]

/-- Settles O44: the first decode finds ADDRM and clears what the read order clears; the wait for TXE decides the record alone. -/
theorem srxArmsTheReceiveChannel : Obligations.SrxArmsTheReceiveChannel := by
  intro n a s hq _ hb hl hc hk hp
  obtain ⟨t, ht, hcap, hexec⟩ := exec_srx_listens hq hb hl hc a
  obtain ⟨u, hrun, hu⟩ := goes_srxListen_addressed hk hp t ht
  have hkept := (keepsRdata1_srxListen n s.cfg ⟨n, .rx⟩ t ht.sched).2
  rw [hrun] at hexec hkept
  refine ⟨u, hexec, hu.result.trans withCode_zero_zero, ?_, hkept.trans hcap, ?_, ?_, hu.kept⟩
  · rw [hu.rdata0 _ rfl]
    cases n <;> rfl
  · rw [hu.sink, srxDone_records]
  · rw [hu.bus, srxDone_bus]
    rfl

end Sys2Proof.Proofs
end

section
/-! PROOFS. MTX of no bytes never succeeds (R114, R119), while no interrupt is taken: every way out of it but success leaves a
CODE that is not 0 (R141, R143), and a channel enabled for 0 bytes has no step to take, so that no query of the transfer-complete
spin sees `tc`. -/
namespace Sys2Proof.Machine

open Sys2Proof.Claims

variable {n : Inst} {c : ChanId} {s t u : State} {w : Caller} {α β : Type} {P : State → Prop}

/-! ## What the other agents leave -/

/-- From `s` to `t` RESULT of the port in use was not written, and no channel changed that is armed for 0 bytes. -/
structure LeavesIdle (s t : State) : Prop where
  result : t.bank.result = s.bank.result
  chan : ∀ c, (s.chan c).count = 0 → t.chan c = s.chan c

theorem LeavesIdle.refl (s : State) : LeavesIdle s s := ⟨rfl, fun _ _ => rfl⟩

theorem LeavesIdle.trans (h : LeavesIdle s t) (k : LeavesIdle t u) : LeavesIdle s u :=
  ⟨k.result.trans h.result, fun c hc => (k.chan c ((h.chan c hc).symm ▸ hc)).trans (h.chan c hc)⟩

theorem chan_modBus {f : Bus → Bus} (htx : (f (s.bus n)).chTx = (s.bus n).chTx) (hrx : (f (s.bus n)).chRx = (s.bus n).chRx)
    (c : ChanId) : (s.modBus n f).chan c = s.chan c := by
  obtain ⟨m, d⟩ := c
  cases d with
  | tx => exact State.modBus_keeps (·.chTx) s n htx m
  | rx => exact State.modBus_keeps (·.chRx) s n hrx m

theorem chan_modBank (s : State) (f : Bank → Bank) (c : ChanId) : (s.modBank f).chan c = s.chan c := by
  simp only [State.chan, State.modBank_bus]

theorem chan_modChan_ne {c c' : ChanId} (h : c ≠ c') (s : State) (f : Chan → Chan) : (s.modChan c' f).chan c = s.chan c := by
  obtain ⟨n, d⟩ := c
  obtain ⟨m, e⟩ := c'
  by_cases hnm : n = m
  · subst hnm
    have hde : d ≠ e := fun hd => h (congrArg _ hd)
    rw [State.modChan_eq_modBus]
    cases e with
    | tx =>
      obtain rfl : d = .rx := by cases d <;> trivial
      exact State.modBus_keeps (·.chRx) s n rfl n
    | rx =>
      obtain rfl : d = .tx := by cases d <;> trivial
      exact State.modBus_keeps (·.chTx) s n rfl n
  · simp only [State.chan, State.modChan_eq_modBus, State.bus_modBus, if_neg hnm]

theorem leavesIdle_modBus {f : Bus → Bus} (htx : (f (s.bus n)).chTx = (s.bus n).chTx)
    (hrx : (f (s.bus n)).chRx = (s.bus n).chRx) : LeavesIdle s (s.modBus n f) :=
  ⟨by rw [State.modBus_bank], fun c _ => chan_modBus htx hrx c⟩

theorem leavesIdle_modCtrl (f : Ctrl → Ctrl) : LeavesIdle s (s.modCtrl n f) := leavesIdle_modBus rfl rfl

theorem leavesIdle_modChan_log {c : ChanId} (hc : (s.chan c).count ≠ 0) (f : Chan → Chan) (a : Access) :
    LeavesIdle s ((s.modChan c f).log a) where
  result := by rw [State.log_bank, State.modChan_eq_modBus, State.modBus_bank]
  chan c' hc' := by
    have hne : c' ≠ c := fun h => hc (h ▸ hc')
    rw [chan_log, chan_modChan_ne hne]

/-- A channel armed for 0 bytes has no step to take (R119, R120). -/
theorem leavesIdle_engineStep (c : ChanId) (s : State) : LeavesIdle s (engineStep c s) := by
  cases he : engineEnabled s c with
  | false =>
    rw [engineStep_disabled he]
    exact .refl s
  | true =>
    have hbusy : (s.chan c).count ≠ 0 := by
      simp only [engineEnabled, Bool.and_eq_true, decide_eq_true_eq] at he
      omega
    rw [engineStep, if_pos he]
    obtain ⟨n, d⟩ := c
    cases d with
    | tx =>
      refine (leavesIdle_modCtrl _).trans (leavesIdle_modChan_log (c := ⟨n, .tx⟩) ?_ _ _)
      rwa [State.modCtrl, chan_modBus rfl rfl]
    | rx => exact leavesIdle_modChan_log (c := ⟨n, .rx⟩) hbusy _ _

theorem leavesIdle_quietMove (m : Move) (s : State) : LeavesIdle s (quietMove m s) := by
  cases m with
  | engine c => exact leavesIdle_engineStep c s
  | envSrP k _ | envSrS k _ | envDr k _ | envClrStart k | envClrStop k | envEv k _ | envEr k _ =>
    simp only [quietMove, envEventLine, envErrorLine, State.modCtrl]
    exact leavesIdle_modBus rfl rfl
  | hostArg0 _ | hostArg1 _ =>
    refine ⟨?_, fun _ _ => rfl⟩
    cases hp : s.port <;> simp [quietMove, State.bank, hp]
  | tick _ | hostStore _ _ | hostIssue _ | fire _ | issueIrq _ | starve _ => exact ⟨rfl, fun _ _ => rfl⟩

theorem leavesIdle_othersClosed {k : Config} :
    OthersClosed (Within notInterrupt k) LeavesIdle k (fun _ => True) (notInterrupt · = true) :=
  have F := frozen_othersClosed (A := notInterrupt) (c := k)
  { refl := .refl
    trans := fun _ _ _ => .trans
    allowed := F.allowed
    pop := fun s b rest hs hb => ⟨(F.pop s b rest hs hb).1, rfl, fun _ _ => rfl⟩
    quiet := fun m hm => (F.quiet m hm).withRel fun s _ => leavesIdle_quietMove m s
    fire := fun _ h => nomatch h
    issue := fun _ h => nomatch h
    starve := fun _ h => nomatch h }

theorem others_leavesIdle (hs : NoInterrupt s) : ∃ t, others s = .ok () t ∧ NoInterrupt t ∧ LeavesIdle s t := by
  obtain ⟨t, ht, hni, -⟩ := others_noInterrupt hs
  have hk := (leavesIdle_othersClosed (k := s.cfg)).others s ⟨rfl, onlyMoves_of_noInterrupt hs⟩
  rw [ht] at hk
  exact ⟨t, ht, hni, hk.2⟩

/-! ## Ways out of a command -/

/-- No interrupt from here on, and the CODE of the port in use is not that of success. -/
def Failed (s : State) : Prop := NoInterrupt s ∧ resultCode s.bank.result ≠ 0

/-- No interrupt from here on, and channel `c` armed for no bytes, and so not complete (R118). -/
def ArmedForNone (c : ChanId) (s : State) : Prop := NoInterrupt s ∧ (s.chan c).count = 0 ∧ (s.chan c).tc = false

theorem stable_failed : Stable Failed := fun _ ⟨hs, hcode⟩ =>
  have ⟨t, ht, hni, hk⟩ := others_leavesIdle hs
  ⟨t, ht, hni, hk.result ▸ hcode⟩

theorem stable_armedForNone : Stable (ArmedForNone c) := fun _ ⟨hs, hcount, htc⟩ =>
  have ⟨t, ht, hni, hk⟩ := others_leavesIdle hs
  ⟨t, ht, hni, (hk.chan c hcount).symm ▸ hcount, (hk.chan c hcount).symm ▸ htc⟩

/-- The command is over, and has not succeeded. -/
def LeftFailed : Exit → State → Prop
  | .ended, t => resultCode t.bank.result ≠ 0
  | .hung, _ => False
  | .fault _, _ => True

/-- From `P` the run goes on with an answer and a state in `Q`, or leaves the command without success. -/
def GoesOrFails (P : State → Prop) (x : Run α) (Q : α → State → Prop) : Prop :=
  ∀ s, P s →
    match x s with
    | .ok a t => Q a t
    | .error e t => LeftFailed e t

variable {Q : α → State → Prop} {R : β → State → Prop}

theorem GoesOrFails.bind {x : Run α} {f : α → Run β} (hx : GoesOrFails P x Q) (hf : ∀ a, GoesOrFails (Q a) (f a) R) :
    GoesOrFails P (x >>= f) R := by
  intro s hs
  have h := hx s hs
  rw [run_bind]
  cases hr : x s with
  | ok a t =>
    rw [hr] at h
    exact hf a t h
  | error e t =>
    rw [hr] at h
    exact h

theorem goesOrFails_pure {a : α} (h : ∀ s, P s → Q a s) : GoesOrFails P (pure a) Q := h

theorem goesOrFails_ite {b : Prop} [Decidable b] {x y : Run α} (hx : b → GoesOrFails P x Q) (hy : ¬b → GoesOrFails P y Q) :
    GoesOrFails P (if b then x else y) Q := by
  split
  · next hb => exact hx hb
  · next hb => exact hy hb

/-- What is known of the answer alone is known at once. -/
theorem goesOrFails_fact {b : Prop} {x : Run α} (h : b → GoesOrFails P x Q) : GoesOrFails (fun s => b ∧ P s) x Q :=
  fun s hs => h hs.1 s hs.2

theorem goesOrFails_others (hP : Stable P) : GoesOrFails P others fun _ => P := by
  intro s hs
  obtain ⟨t, ht, h⟩ := hP s hs
  rw [ht]
  exact h

theorem goesOrFails_atom (hP : Stable P) {f : State → α × State} (hf : ∀ s, P s → Q (f s).1 (f s).2) :
    GoesOrFails P (atom others f) Q :=
  (goesOrFails_others hP).bind fun _ => hf

theorem goesOrFails_update (hP : Stable P) {S : State → Prop} {f : State → State} (hf : ∀ s, P s → S (f s)) :
    GoesOrFails P (update others f) fun _ => S :=
  goesOrFails_atom hP hf

theorem refuseCode_ne_zero (r : RefuseCode) : refuseCode r ≠ 0 := by cases r <;> decide

theorem errCode_ne_zero (k : ErrKind) : errCode k ≠ 0 := by cases k <;> decide

theorem goesOrFails_refused (r : RefuseCode) : GoesOrFails P (refused r) Q := fun s _ => by
  show resultCode (freeRdata0 (s.modResult (withCode · (refuseCode r)))).bank.result ≠ 0
  simpa using refuseCode_ne_zero r

/-! ## The parts of MTX -/

/-- The run may be left without success, and goes on with no interrupt to come. -/
abbrev Proceeds (x : Run α) : Prop := GoesOrFails NoInterrupt x fun _ => NoInterrupt

theorem proceeds_pure (a : α) : Proceeds (pure a : Run α) := fun _ hs => hs

theorem proceeds_look (f : State → α) : Proceeds (look f) := fun _ hs => hs

theorem proceeds_others : Proceeds others := goesOrFails_others stable_noInterrupt

theorem proceeds_atom {f : State → α × State} (hf : ∀ s, (f s).2.sched = s.sched) : Proceeds (atom others f) :=
  goesOrFails_atom stable_noInterrupt fun s hs => noInterrupt_of_sched (hf s) hs

theorem proceeds_update {f : State → State} (hf : ∀ s, (f s).sched = s.sched) : Proceeds (update others f) := proceeds_atom hf

theorem proceeds_setPollN (f : Nat → Nat) : Proceeds (setPollN f) := fun s hs =>
  noInterrupt_of_sched (State.modBank_sched s _) hs

theorem proceeds_setPhase (k : Phase) : Proceeds (setPhase others n k) := proceeds_update (State.modBus_sched · n _)

theorem proceeds_enter (k : Bool) : Proceeds (enter others n k) :=
  (proceeds_update (clearResult_sched k)).bind fun _ => proceeds_others.bind fun _ =>
    (proceeds_look _).bind fun _ =>
    goesOrFails_ite (fun _ => proceeds_pure _) fun _ => goesOrFails_refused _

theorem proceeds_needChannel (d : Dir) : Proceeds (needChannel others n d) :=
  proceeds_others.bind fun _ => (proceeds_look _).bind fun ref => by
    cases ref with
    | some c => exact proceeds_pure _
    | none => exact goesOrFails_refused _

theorem proceeds_acquire : Proceeds (acquire others n) :=
  proceeds_others.bind fun _ => (proceeds_look _).bind fun _ =>
    goesOrFails_ite (fun _ => goesOrFails_refused _) fun _ s hs => noInterrupt_of_sched (State.modBus_sched s n _) hs

theorem proceeds_decodeStatus : Proceeds (decodeStatus others n) :=
  (proceeds_look _).bind fun _ => (proceeds_atom (readReg_sched n _)).bind fun _ =>
    goesOrFails_ite
      (fun _ => (proceeds_atom (readReg_sched n _)).bind fun _ => proceeds_pure _)
      fun _ => proceeds_pure _

theorem proceeds_delayMs (d : Nat) : Proceeds (delayMs others d) :=
  goesOrFails_ite (fun _ => proceeds_update fun s => State.log_sched s _) fun _ => proceeds_pure _

theorem proceeds_poll (cond : Word → Bool) (k d : Nat) : Proceeds (poll others n cond k d) := by
  refine (proceeds_setPollN _).bind fun _ => ?_
  induction k with
  | zero => exact proceeds_pure _
  | succ k ih =>
    exact proceeds_decodeStatus.bind fun _ => goesOrFails_ite (fun _ => proceeds_pure _) fun _ =>
      (proceeds_delayMs d).bind fun _ => (proceeds_setPollN _).bind fun _ => ih

theorem proceeds_failBusError {k : ErrKind} (hr : failureResets w k = false) (v : Word) :
    Proceeds (failBusError others w n k v) := by
  rw [failBusError, hr]
  exact (proceeds_update (f := pushRecord _ v []) fun _ => rfl).bind fun _ =>
    (proceeds_update fun s => modResult_sched s _).bind fun _ => proceeds_pure _

theorem failed_modBus {f : Bus → Bus} (hs : Failed s) : Failed (s.modBus n f) :=
  ⟨noInterrupt_of_sched (State.modBus_sched s n f) hs.1, by rw [State.modBus_bank]; exact hs.2⟩

/-- From its CODE on, the failure exit leaves it (R143). -/
theorem failed_failEnd (hw : w.guarded = true) : GoesOrFails Failed (failEnd others w n) fun _ => Failed := by
  have hphase : GoesOrFails Failed (update others fun s => s.modResult (withFPhase · (phaseCode (s.bus n).phase)))
      fun _ => Failed :=
    goesOrFails_update stable_failed fun s hs =>
      ⟨noInterrupt_of_sched (modResult_sched s _) hs.1, by rw [modResult_bank, resultCode_withFPhase]; exact hs.2⟩
  rw [failEnd, if_pos hw]
  exact hphase.bind fun _ => (goesOrFails_update stable_failed fun _ => failed_modBus).bind fun _ =>
    goesOrFails_update stable_failed fun _ => failed_modBus

/-- The failure exit does not go on, and leaves the CODE of its kind (R143). -/
theorem fail_fails {k : ErrKind} (hr : failureResets w k = false) (hw : w.guarded = true) :
    GoesOrFails NoInterrupt (fail others w n k : Run α) Q := by
  have hcode : GoesOrFails NoInterrupt (putResult others (withCode · (errCode k))) fun _ => Failed :=
    goesOrFails_update stable_noInterrupt fun s hs =>
      ⟨noInterrupt_of_sched (modResult_sched s _) hs, by simpa using errCode_ne_zero k⟩
  exact (proceeds_look _).bind fun _ => proceeds_decodeStatus.bind fun v =>
    (proceeds_update (f := pushRecord (.err k) v []) fun _ => rfl).bind fun _ =>
    (goesOrFails_ite (fun _ => proceeds_failBusError hr v) fun _ => proceeds_pure _).bind fun _ =>
    hcode.bind fun _ => (failed_failEnd hw).bind fun _ _ hs => hs.2

theorem proceeds_failUnless {k : ErrKind} (hr : failureResets w k = false) (hw : w.guarded = true) (ok : Bool) :
    Proceeds (failUnless others w n k ok) :=
  goesOrFails_ite (fun _ => proceeds_pure _) fun _ => fail_fails hr hw

theorem proceeds_generateStart : Proceeds (generateStart others .mtx n) :=
  (proceeds_look _).bind fun _ => (proceeds_poll _ _ _).bind fun _ =>
    (proceeds_update (setReg_sched n _ _)).bind fun _ => (proceeds_poll _ _ _).bind fun _ => proceeds_failUnless rfl rfl _

theorem proceeds_sendAddress (a : Addr7) : Proceeds (sendAddress others .mtx n .tx a) :=
  (proceeds_look _).bind fun _ => (proceeds_update (writeReg_sched n _ _)).bind fun _ =>
    (proceeds_poll _ _ _).bind fun _ => proceeds_failUnless rfl rfl _

/-! ## A transfer of no bytes -/

theorem chEnable_armsForNone (c : ChanId) : GoesOrFails NoInterrupt (chEnable others c 0) fun _ => ArmedForNone c :=
  goesOrFails_update stable_noInterrupt fun s hs =>
    ⟨noInterrupt_of_sched (by simp [State.modChan_eq_modBus]) hs, by simp [chan_log, Chan.enable],
      by simp [chan_log, Chan.enable]⟩

theorem armedForNone_setPollN (f : Nat → Nat) : GoesOrFails (ArmedForNone c) (setPollN f) fun _ => ArmedForNone c :=
  fun s ⟨hni, hidle⟩ => ⟨noInterrupt_of_sched (State.modBank_sched s _) hni, (chan_modBank s _ c).symm ▸ hidle⟩

theorem armedForNone_chTc (c : ChanId) :
    GoesOrFails (ArmedForNone c) (chTc others c) fun done s => done = false ∧ ArmedForNone c s :=
  goesOrFails_atom stable_armedForNone fun s ⟨hni, hcount, htc⟩ => ⟨htc, hni, by rwa [chan_log], by rwa [chan_log]⟩

/-- No query sees `tc` (R118, R119). -/
theorem tcLoop_armedForNone (c : ChanId) (k : Nat) :
    GoesOrFails (ArmedForNone c) (tcLoop others c k) fun done s => done = false ∧ NoInterrupt s := by
  induction k with
  | zero => exact goesOrFails_pure fun _ hs => ⟨rfl, hs.1⟩
  | succ k ih =>
    refine (armedForNone_chTc c).bind fun done => goesOrFails_fact fun hdone => ?_
    refine (armedForNone_setPollN _).bind fun _ => ?_
    rw [if_neg (by simp [hdone])]
    exact ih

/-- MTX of no bytes, from the arming of its transfer on (R114). -/
theorem mtxTransfer_none_fails (n : Inst) (cfg : Config) (c : ChanId) :
    GoesOrFails NoInterrupt (mtxTransfer n cfg 0 c) fun _ _ => False := by
  refine (proceeds_update (setReg_sched n _ _)).bind fun _ => (chEnable_armsForNone c).bind fun _ => ?_
  refine (armedForNone_setPollN _).bind fun _ => (tcLoop_armedForNone c _).bind fun done => goesOrFails_fact fun hdone => ?_
  refine GoesOrFails.bind (Q := fun _ _ => False) ?_ fun _ _ => False.elim
  rw [hdone]
  exact fail_fails rfl rfl

/-- MTX of no bytes, from its issue on: every part either fails or comes to the transfer, which fails. -/
theorem mtx_none_fails (n : Inst) (a : Addr7) (src : Word) :
    GoesOrFails NoInterrupt (channelCommand n .tx (mtxBody n a src 0)) fun _ _ => False := by
  refine (proceeds_enter false).bind fun _ => (proceeds_needChannel .tx).bind fun c => proceeds_acquire.bind fun _ => ?_
  refine (proceeds_look State.cfg).bind fun cfg => ?_
  have hcount : copyCount cfg 0 = 0 := Nat.zero_min _
  rw [hcount]
  refine (proceeds_pure ()).bind fun _ => (proceeds_update fun s => State.modBank_sched s _).bind fun _ => ?_
  refine (proceeds_setPhase _).bind fun _ => proceeds_generateStart.bind fun _ => ?_
  refine (proceeds_setPhase _).bind fun _ => (proceeds_sendAddress a).bind fun _ => ?_
  exact (proceeds_setPhase _).bind fun _ => mtxTransfer_none_fails n cfg c

end Sys2Proof.Machine

namespace Sys2Proof.Proofs

open Sys2Proof.Machine Sys2Proof.Claims

/-- Settles O42: MTX can only be left, and never with the CODE of success. -/
theorem mtxOfNoBytesNeverSucceeds : Obligations.MtxOfNoBytesNeverSucceeds := by
  intro n a s t hs hlen he
  have hrun := mtx_none_fails n a s.bank.arg0 s hs
  rw [exec_mtx, hlen] at he
  revert hrun he
  generalize channelCommand n .tx (mtxBody n a s.bank.arg0 0) s = r
  cases r with
  | ok _ u => exact fun _ h => h.elim
  | error e u =>
    cases e with
    | ended =>
      intro he hcode
      cases he
      exact hcode
    | hung => exact fun _ h => h.elim
    | fault f => exact fun h => nomatch h

end Sys2Proof.Proofs
end

section
/-! PROOFS. The Controller Lifecycle where no other agent moves (R126 to R129). What a command does to one instance's registers
is one change of its controller and of the trace; the reset sequence is such a change where its status loop ends at the first
turn, and a state of the loop where it never ends (R127, R157). -/
namespace Sys2Proof.Machine

open Sys2Proof.Claims

variable {n : Inst} {c : Ctrl} {l : List Access} {s : State}

/-! ## Accesses of one instance's registers -/

/-- `s` after the register accesses `l` of instance `n`, which leave its controller `c`. -/
def accessed (n : Inst) (c : Ctrl) (l : List Access) (s : State) : State :=
  { s.modCtrl n fun _ => c with trace := s.trace ++ l }

section
variable (n) (c) (l) (s)

@[simp] theorem accessed_cfg : (accessed n c l s).cfg = s.cfg := State.modBus_cfg s n _
@[simp] theorem accessed_sched : (accessed n c l s).sched = s.sched := State.modBus_sched s n _
@[simp] theorem accessed_sink : (accessed n c l s).sink = s.sink := State.modBus_sink s n _
@[simp] theorem accessed_irqEn : (accessed n c l s).irqEn = s.irqEn := State.modBus_irqEn s n _
@[simp] theorem accessed_mem : (accessed n c l s).mem = s.mem := State.modBus_mem s n _
@[simp] theorem accessed_stuck : (accessed n c l s).stuck = s.stuck := State.modBus_stuck s n _
@[simp] theorem accessed_bank : (accessed n c l s).bank = s.bank := State.modBus_bank s n _
@[simp] theorem accessed_trace : (accessed n c l s).trace = s.trace ++ l := rfl

@[simp] theorem accessed_bus_same : (accessed n c l s).bus n = { s.bus n with ctrl := c } := by cases n <;> rfl

theorem accessed_bus_other {m : Inst} (h : m ≠ n) : (accessed n c l s).bus m = s.bus m := by
  rw [← State.bus_modBus_other s h fun b => { b with ctrl := c }]
  cases m <;> rfl

theorem keptOutside_accessed : KeptOutside n s (accessed n c l s) := by
  refine ⟨fun m hm => accessed_bus_other n c l s hm, ?_⟩
  cases n <;> exact ⟨rfl, rfl, rfl, rfl, rfl, rfl, fun _ => rfl, rfl, rfl, rfl, rfl⟩

/-- No access leaves the state as it is. -/
theorem accessed_nil : accessed n (s.bus n).ctrl [] s = s := by
  cases n <;> simp [accessed, State.modCtrl, State.modBus, State.bus]

theorem accessed_modCtrl_log (f : Ctrl → Ctrl) (a : Access) :
    ((accessed n c l s).modCtrl n f).log a = accessed n (f c) (l ++ [a]) s := by
  cases n <;> simp [accessed, State.modCtrl, State.modBus, State.log]

end

section
variable (hq : Quiet s)
include hq

theorem quiet_accessed : Quiet (accessed n c l s) := (accessed_sched n c l s).trans hq

theorem regRead_accessed (r : Reg) :
    regRead others n r (accessed n c l s) =
      .ok (c.get r) (accessed n (c.afterRead s.cfg r) (l ++ [.regRead n r (c.get r)]) s) := by
  rw [regRead_quiet (quiet_accessed hq), readReg_value, readReg_frame, accessed_bus_same, accessed_modCtrl_log, accessed_cfg]

theorem regWrite_accessed (r : Reg) (v : Half) :
    regWrite others n r v (accessed n c l s) =
      .ok () (accessed n (c.put s.cfg r v) (l ++ [.regWrite n r v]) s) := by
  rw [regWrite, update_quiet (quiet_accessed hq), writeReg, accessed_modCtrl_log, accessed_cfg]

theorem regSet_accessed (m : Half) :
    regSet others n .ctl m (accessed n c l s) =
      .ok () (accessed n (c.put s.cfg .ctl (c.ctl ||| m)) (l ++ [.regSet n .ctl m]) s) := by
  rw [regSet, update_quiet (quiet_accessed hq), setReg, accessed_modCtrl_log, accessed_cfg]
  rfl

theorem regClr_accessed (m : Half) :
    regClr others n .ctl m (accessed n c l s) =
      .ok () (accessed n (c.put s.cfg .ctl (c.ctl &&& ~~~m)) (l ++ [.regClr n .ctl m]) s) := by
  have hclr (u : State) : clrReg n .ctl m u =
      (u.modCtrl n fun k => k.put u.cfg .ctl (k.ctl &&& ~~~m)).log (.regClr n .ctl m) := rfl
  rw [regClr, update_quiet (quiet_accessed hq), hclr, accessed_modCtrl_log, accessed_cfg]

end

/-- Beyond the register accesses `l` of instance `n`, which leave its controller `c`, only the result registers of the port
in use may differ in `t`. -/
structure AccessesOnly (n : Inst) (c : Ctrl) (l : List Access) (s t : State) : Prop where
  ctrl : OnlyCtrl n s t c
  kept : KeptOutside n s t
  pollN : t.bank.pollN = s.bank.pollN
  sink : t.sink = s.sink
  trace : t.trace = s.trace ++ l

/-- A command's accesses after its issue (R81). -/
theorem accessesOnly_issued (n : Inst) (c : Ctrl) (l : List Access) (s : State) :
    AccessesOnly n c l s (accessed n c l (clearResult false s)) where
  ctrl := by rw [OnlyCtrl, accessed_bus_same, clearResult_bus]
  kept := keptOutside_trans (keptOutside_clearResult false s) (keptOutside_accessed ..)
  pollN := by rw [accessed_bank, clearResult_bank]
  sink := by simp
  trace := by simp

theorem AccessesOnly.modResult {t : State} (h : AccessesOnly n c l s t) (f : Half → Half) :
    AccessesOnly n c l s (t.modResult f) where
  ctrl := (modResult_bus t f n).trans h.ctrl
  kept := keptOutside_trans h.kept (keptOutside_modResult t f)
  pollN := by rw [modResult_bank, h.pollN]
  sink := (modResult_sink t f).trans h.sink
  trace := (modResult_trace t f).trans h.trace

/-! ## ENABLE and DISABLE -/

/-- `RegSet(i, CTL, PE)`, what ENABLE does between its issue and its last step (R128). -/
def setPe (n : Inst) : Run Unit := params >>= fun c => regSet others n .ctl (peMask c)

/-- `RegClr(i, CTL, PE)`, what DISABLE does (R129). -/
def clearPe (n : Inst) : Run Unit := params >>= fun c => regClr others n .ctl (peMask c)

theorem exec_enable (n : Inst) (s : State) : exec (.enable n) s = toOutcome (primitiveAlone n (setPe n) s) := rfl

theorem exec_disable (n : Inst) (s : State) : exec (.disable n) s = toOutcome (primitiveAlone n (clearPe n) s) := rfl

theorem setPe_quiet (hq : Quiet s) :
    setPe n s = .ok () (accessed n ((s.bus n).ctrl.put s.cfg .ctl ((s.bus n).ctrl.ctl ||| peMask s.cfg))
      [.regSet n .ctl (peMask s.cfg)] s) := by
  have hset := regSet_accessed (n := n) (c := (s.bus n).ctrl) (l := []) hq (peMask s.cfg)
  rw [accessed_nil] at hset
  exact (bind_of_ok (params_run s)).trans hset

theorem clearPe_quiet (hq : Quiet s) :
    clearPe n s = .ok () (accessed n ((s.bus n).ctrl.put s.cfg .ctl ((s.bus n).ctrl.ctl &&& ~~~peMask s.cfg))
      [.regClr n .ctl (peMask s.cfg)] s) := by
  have hclr := regClr_accessed (n := n) (c := (s.bus n).ctrl) (l := []) hq (peMask s.cfg)
  rw [accessed_nil] at hclr
  exact (bind_of_ok (params_run s)).trans hclr

/-- A command of register accesses alone between its issue and its last step succeeds. -/
theorem primitiveAlone_accesses (hq : Quiet s) (hb : (s.bus n).bound = true) {x : Run Unit}
    (hx : x (clearResult false s) = .ok () (accessed n c l (clearResult false s))) :
    ∃ t, toOutcome (primitiveAlone n x s) = .next t ∧ t.bank.result = 0 ∧ AccessesOnly n c l s t := by
  refine ⟨_, primitiveAlone_succeeds hq hb hx (quiet_accessed (quiet_clearResult hq false)), ?_,
    (accessesOnly_issued n c l s).modResult _⟩
  rw [succeeded, modResult_bank, accessed_bank, clearResult_bank]
  exact withCode_zero_zero

/-! ## The reset sequence -/

/-- The accesses of one turn of the status loop (R127, D22). -/
def Ctrl.turnReads (cfg : Config) (n : Inst) (c : Ctrl) : List Access :=
  if waitByPrimary cfg.resetWait c.srP = none then decodeItems n c.srP c.srS else [.regRead n .srP c.srP]

/-- The controller after one turn of the status loop (R55, R127). -/
def Ctrl.afterTurn (cfg : Config) (c : Ctrl) : Ctrl :=
  if waitByPrimary cfg.resetWait c.srP = none then { c with srP := c.srP &&& ~~~cfg.seqClear, pRead := false }
  else { c with pRead := true }

theorem loopReads_eq (s : State) (n : Inst) : loopReads s n = (s.bus n).ctrl.turnReads s.cfg n := rfl

theorem afterLoop_eq (s : State) (n : Inst) : afterLoop s n = (s.bus n).ctrl.afterTurn s.cfg := rfl

/-- The pulse leaves what a turn reads. -/
theorem afterTurn_pulsed (cfg : Config) (c : Ctrl) : (c.pulsed cfg).afterTurn cfg = (c.afterTurn cfg).pulsed cfg := by
  by_cases h : waitByPrimary cfg.resetWait c.srP = none <;> simp [Ctrl.afterTurn, Ctrl.pulsed, Ctrl.unnamed, h]

theorem afterTurn_ctl (cfg : Config) (c : Ctrl) : (c.afterTurn cfg).ctl = c.ctl := by
  unfold Ctrl.afterTurn
  split <;> rfl

/-- The reset sequence after its status loop (R127). -/
def resetRewrite (n : Inst) (cfg : Config) : Run Unit := do
  regClr others n .ctl (peMask cfg)
  regWrite others n .ctl2 (ctl2Value cfg)
  regWrite others n .trise (triseValue cfg)
  update others fun s => writeReg n .oar (oarValue (s.bus n).ownAddress) s
  regWrite others n .ccr (ccrValue cfg)

/-- Out of a software reset a write of any register but CTL forces nothing (R28). -/
theorem put_of_not_reset {cfg : Config} (hc : c.ctl.getLsbD cfg.flags.swrst = false) {r : Reg} (hr : r ≠ .ctl) (v : Half) :
    c.put cfg r v = c.store r v :=
  held_of_not_reset <| by
    cases r with
    | ctl => exact absurd rfl hr
    | _ => exact hc

/-- CTL holds none of its named bits any more, so clearing PE changes nothing (R127). -/
theorem put_clear_pe_of_unnamed {cfg : Config} {k : Ctrl} (hc : c.ctl = k.unnamed cfg) :
    c.put cfg .ctl (c.ctl &&& ~~~peMask cfg) = c := by
  have hstore : c.store .ctl (k.unnamed cfg) = c := hc ▸ rfl
  rw [hc, unnamed_clear_pe, Ctrl.put, hstore]
  exact held_of_not_reset (by rw [hc, outOfReset_unnamed])

section
variable (hq : Quiet s)
include hq

/-- One turn of the status loop answers RESET_WAIT of the two fields (R127). -/
theorem resetTurn_accessed :
    resetTurn others n (accessed n c l s) =
      .ok (waitHolds s.cfg.resetWait c.srP c.srS)
        (accessed n (c.afterTurn s.cfg) (l ++ c.turnReads s.cfg n) s) := by
  rw [resetTurn, bind_of_ok (params_run _), accessed_cfg, bind_of_ok (regRead_accessed hq .srP), Ctrl.afterTurn,
    Ctrl.turnReads]
  cases hw : waitByPrimary s.cfg.resetWait c.srP with
  | some again =>
    simp [Ctrl.get, hw, waitHolds_of_byPrimary hw, run_pure, Ctrl.afterRead]
  | none =>
    simp only [Ctrl.get, hw]
    rw [bind_of_ok (regRead_accessed hq .srS), run_pure]
    simp [Ctrl.get, Ctrl.afterRead, decodeItems]

/-- The reset sequence up to its status loop: the software-reset pulse (R28, R127). -/
theorem resetSeq_pulsed :
    resetSeq others n (accessed n c l s) =
      (resetLoop others n 2 >>= fun _ => resetRewrite n s.cfg)
        (accessed n (c.pulsed s.cfg)
          (l ++ [.regClr n .ctl (peMask s.cfg), .regSet n .ctl (swrstMask s.cfg), .regClr n .ctl (swrstMask s.cfg)]) s) := by
  have hpulse := put_pulse s.cfg c
  simp only at hpulse
  rw [resetSeq, bind_of_ok (params_run _), accessed_cfg, bind_of_ok (regClr_accessed hq _), bind_of_ok (regSet_accessed hq _),
    bind_of_ok (regClr_accessed hq _), bind_of_ok (look_run _ _), hpulse, accessed_sched, hq, List.append_assoc,
    List.append_assoc]
  rfl

/-- Out of a software reset a write of a register but CTL is its store (R28). -/
theorem regWrite_accessed_outOfReset (hc : c.ctl.getLsbD s.cfg.flags.swrst = false) {r : Reg} (hr : r ≠ .ctl) (v : Half) :
    regWrite others n r v (accessed n c l s) = .ok () (accessed n (c.store r v) (l ++ [.regWrite n r v]) s) := by
  rw [regWrite_accessed hq, put_of_not_reset hc hr]

/-- `RegWrite(i, OAR, own_address << 1)` (R127). -/
theorem writeOar_accessed (hc : c.ctl.getLsbD s.cfg.flags.swrst = false) :
    update others (fun s => writeReg n .oar (oarValue (s.bus n).ownAddress) s) (accessed n c l s) =
      .ok () (accessed n { c with oar := oarValue (s.bus n).ownAddress }
        (l ++ [.regWrite n .oar (oarValue (s.bus n).ownAddress)]) s) := by
  have hwrite := regWrite_accessed_outOfReset (n := n) (l := l) hq hc (r := .oar) nofun (oarValue (s.bus n).ownAddress)
  rw [regWrite, update_quiet (quiet_accessed hq)] at hwrite
  rw [update_quiet (quiet_accessed hq), accessed_bus_same, hwrite, Ctrl.store]

/-- The controller is set up again, PE left clear (R127, R166). -/
theorem resetRewrite_accessed {k : Ctrl} (hc : c.ctl = k.unnamed s.cfg) :
    resetRewrite n s.cfg (accessed n c l s) =
      .ok () (accessed n
        { c with
          ctl2 := ctl2Value s.cfg, trise := triseValue s.cfg, oar := oarValue (s.bus n).ownAddress
          ccr := ccrValue s.cfg }
        (l ++ [.regClr n .ctl (peMask s.cfg), .regWrite n .ctl2 (ctl2Value s.cfg), .regWrite n .trise (triseValue s.cfg),
          .regWrite n .oar (oarValue (s.bus n).ownAddress), .regWrite n .ccr (ccrValue s.cfg)]) s) := by
  have hout : c.ctl.getLsbD s.cfg.flags.swrst = false := by rw [hc, outOfReset_unnamed]
  have hclr := regClr_accessed (n := n) (c := c) (l := l) hq (peMask s.cfg)
  rw [put_clear_pe_of_unnamed hc] at hclr
  refine (bind_of_ok hclr).trans ?_
  refine (bind_of_ok (regWrite_accessed_outOfReset hq (by exact hout) (r := .ctl2) nofun _)).trans ?_
  refine (bind_of_ok (regWrite_accessed_outOfReset hq (by exact hout) (r := .trise) nofun _)).trans ?_
  refine (bind_of_ok (writeOar_accessed hq (by exact hout))).trans ?_
  refine (regWrite_accessed_outOfReset hq (by exact hout) (r := .ccr) nofun _).trans ?_
  simp [Ctrl.store]

/-- The status loop ends at its first turn where RESET_WAIT does not hold (R127). -/
theorem resetLoop_ends (hw : waitHolds s.cfg.resetWait c.srP c.srS = false) (j : Nat) :
    resetLoop others n (j + 1) (accessed n c l s) =
      .ok () (accessed n (c.afterTurn s.cfg) (l ++ c.turnReads s.cfg n) s) := by
  rw [resetLoop, bind_of_ok (resetTurn_accessed hq), hw, if_neg Bool.false_ne_true, run_pure]

/-- The reset sequence where RESET_WAIT does not hold (R127, R166). -/
theorem resetSeq_ends (hw : ¬ Waits s n) :
    resetSeq others n s =
      .ok () (accessed n (afterReset s.cfg (s.bus n).ownAddress (afterLoop s n))
        (resetItems s.cfg n (s.bus n).ownAddress (loopReads s n)) s) := by
  have hstart := resetSeq_pulsed (n := n) (c := (s.bus n).ctrl) (l := []) hq
  rw [accessed_nil] at hstart
  have hctl : (((s.bus n).ctrl.pulsed s.cfg).afterTurn s.cfg).ctl = (s.bus n).ctrl.unnamed s.cfg := afterTurn_ctl _ _
  have hloop (l : List Access) := resetLoop_ends (n := n) (c := (s.bus n).ctrl.pulsed s.cfg) (l := l) hq
    (Bool.eq_false_iff.mpr hw) 1
  rw [hstart]
  refine (bind_of_ok (hloop _)).trans ((resetRewrite_accessed hq hctl).trans ?_)
  rw [afterTurn_pulsed]
  rfl

end

/-! ## The status loop that never ends -/

/-- `s` with a reset wait on `n` declared endless (R157, log 7). -/
def spinning (n : Inst) (s : State) : State := { s with stuck := some (.spin n) }

theorem spinning_accessed (n : Inst) (c : Ctrl) (l : List Access) (s : State) :
    spinning n (accessed n c l s) = accessed n c l (spinning n s) := by cases n <;> rfl

/-- A turn leaves a status that the read order does not change (R55). -/
theorem afterTurn_status {cfg : Config} (hc : c.srP &&& cfg.seqClear = 0) :
    (c.afterTurn cfg).srP = c.srP ∧ (c.afterTurn cfg).srS = c.srS := by
  unfold Ctrl.afterTurn
  split
  · exact ⟨and_not_of_and_eq_zero hc, rfl⟩
  · exact ⟨rfl, rfl⟩

theorem resetLoop_hangs (hq : Quiet s) (hc : c.srP &&& s.cfg.seqClear = 0)
    (hw : waitHolds s.cfg.resetWait c.srP c.srS = true) (j : Nat) :
    ∃ c' l', resetLoop others n j (accessed n c l s) = .error .hung (accessed n c' l' (spinning n s)) := by
  induction j generalizing c l with
  | zero => exact ⟨c, l, congrArg _ (spinning_accessed n c l s)⟩
  | succ j ih =>
    obtain ⟨hp, hv⟩ := afterTurn_status hc
    rw [resetLoop, bind_of_ok (resetTurn_accessed hq), hw, if_pos rfl]
    exact ih (by rw [hp, hc]) (by rw [hp, hv, hw])

/-- The reset sequence where RESET_WAIT holds for ever (R127, R157). -/
theorem resetSeq_hangs (hq : Quiet s) (hs : Steady s n) (hw : Waits s n) :
    ∃ c l, resetSeq others n s = .error .hung (accessed n c l (spinning n s)) := by
  have hstart := resetSeq_pulsed (n := n) (c := (s.bus n).ctrl) (l := []) hq
  rw [accessed_nil] at hstart
  obtain ⟨c, l, hloop⟩ := resetLoop_hangs (n := n) (c := (s.bus n).ctrl.pulsed s.cfg) hq hs hw 2
  exact ⟨c, l, hstart.trans (bind_of_error hloop)⟩

/-- A step of an endless reset wait is one more turn (R157). -/
theorem step_spinning (hq : Quiet s) (hs : s.stuck = some (.spin n)) :
    step (accessed n c l s) = .next (accessed n (c.afterTurn s.cfg) (l ++ c.turnReads s.cfg n) s) := by
  have hturn : stuckStep (.spin n) (accessed n c l s) = .next _ := congrArg toOutcome (bind_of_ok (resetTurn_accessed hq))
  rw [step, accessed_stuck, hs]
  exact hturn

theorem run_succ_of_next {M : Host.Core} {u v : M.State} (h : M.step u = .next v) (k : Nat) :
    M.run (k + 1) u = M.run k v := by
  rw [Host.Core.run, h]

theorem run_spinning (hq : Quiet s) (hs : s.stuck = some (.spin n)) (k : Nat) :
    ∃ c' l', Sys2Proof.core.run k (accessed n c l s) = .next (accessed n c' l' s) := by
  induction k generalizing c l with
  | zero => exact ⟨c, l, rfl⟩
  | succ k ih =>
    obtain ⟨c', l', hrun⟩ := ih (c := c.afterTurn s.cfg) (l := l ++ c.turnReads s.cfg n)
    exact ⟨c', l', (run_succ_of_next (M := Sys2Proof.core) (step_spinning hq hs) k).trans hrun⟩

/-! ## RESET -/

theorem SameStatus.waits_iff {t : State} (h : SameStatus n s t) : Waits t n ↔ Waits s n := by
  rw [Waits, Waits, h.cfg, h.srP, h.srS]

theorem waits_clearResult (k : Bool) : Waits (clearResult k s) n ↔ Waits s n := (sameStatus_clearResult k s).waits_iff

theorem withCode_withResetRan_zero : withCode (withResetRan 0) 0 = 0x0020 := by decide

/-- RESET where RESET_WAIT does not hold (R127, R166). -/
theorem exec_reset_ends (hq : Quiet s) (hb : (s.bus n).bound = true) (hw : ¬ Waits s n) :
    ∃ t, exec (.reset n) s = .next t ∧ t.bank.result = 0x0020 ∧
      AccessesOnly n (afterReset s.cfg (s.bus n).ownAddress (afterLoop s n))
        (resetItems s.cfg n (s.bus n).ownAddress (loopReads s n)) s t := by
  have hq' := quiet_clearResult hq false
  have hreset := resetSeq_ends (n := n) hq' (by rwa [waits_clearResult])
  rw [afterLoop_eq, loopReads_eq, clearResult_bus, clearResult_cfg, ← afterLoop_eq, ← loopReads_eq] at hreset
  refine ⟨_, ?_, ?_, ((accessesOnly_issued n _ _ s).modResult withResetRan).modResult (withCode · 0)⟩
  · rw [exec, execReset, resetRun, bind_of_ok (enter_quiet hq hb false), bind_of_ok hreset, putResult,
      bind_of_ok (update_quiet (quiet_accessed hq') _), succeed, putResult,
      update_quiet ((modResult_sched _ _).trans (quiet_accessed hq')), toOutcome]
  · rw [modResult_bank, modResult_bank, accessed_bank, clearResult_bank]
    exact withCode_withResetRan_zero

/-! ## INIT -/

section
variable (j : Nat) (s : State)

@[simp] theorem enableLine_bus (m : Inst) : (enableLine j s).bus m = s.bus m := by cases m <;> rfl
@[simp] theorem enableLine_bank : (enableLine j s).bank = s.bank := rfl
@[simp] theorem enableLine_sink : (enableLine j s).sink = s.sink := rfl
@[simp] theorem enableLine_trace : (enableLine j s).trace = s.trace ++ [.irqEnable j] := rfl
@[simp] theorem enableLine_irqEn : (enableLine j s).irqEn = insertLine j s.irqEn := rfl

end

/-- The instance as INIT binds it, before its reset sequence (R126). -/
def broughtUp (n : Inst) (s : State) : State :=
  (clearResult false s).modBus n fun b => { b with lock := false, ownAddress := ownAddr s.cfg n, bound := true }

section
variable (n : Inst) (s : State)

@[simp] theorem broughtUp_bus_same :
    (broughtUp n s).bus n = { s.bus n with lock := false, ownAddress := ownAddr s.cfg n, bound := true } := by
  simp [broughtUp]
@[simp] theorem broughtUp_cfg : (broughtUp n s).cfg = s.cfg := by simp [broughtUp]
@[simp] theorem broughtUp_sink : (broughtUp n s).sink = s.sink := by simp [broughtUp]
@[simp] theorem broughtUp_trace : (broughtUp n s).trace = s.trace := by simp [broughtUp]
@[simp] theorem broughtUp_irqEn : (broughtUp n s).irqEn = s.irqEn := by simp [broughtUp, clearResult]
@[simp] theorem broughtUp_mem : (broughtUp n s).mem = s.mem := by simp [broughtUp, clearResult]
@[simp] theorem broughtUp_result : (broughtUp n s).bank.result = 0 := by simp [broughtUp, clearResult_bank]
@[simp] theorem broughtUp_pollN : (broughtUp n s).bank.pollN = s.bank.pollN := by simp [broughtUp, clearResult_bank]

theorem sameStatus_broughtUp : SameStatus n s (broughtUp n s) := ⟨by simp, by simp, by simp⟩

theorem keptOutside_broughtUp : KeptOutside n s (broughtUp n s) :=
  keptOutside_trans (keptOutside_clearResult false s) (keptOutside_modBus _ _)

end

theorem quiet_broughtUp (hq : Quiet s) (n : Inst) : Quiet (broughtUp n s) :=
  (State.modBus_sched _ n _).trans (quiet_clearResult hq false)

/-- INIT after its reset sequence (R126). -/
def enableBothLines (n : Inst) : Run Unit := do
  irqEnable others ⟨.event, n⟩
  irqEnable others ⟨.error, n⟩
  succeed others

theorem initRun_quiet (hq : Quiet s) :
    initRun others n s = (resetSeq others n >>= fun _ => enableBothLines n) (broughtUp n s) := by
  have hq' := quiet_clearResult hq false
  have hbus (f g : Bus → Bus) : ((clearResult false s).modBus n f).modBus n g = (clearResult false s).modBus n (g ∘ f) :=
    State.modBus_modBus _ n f g
  have hmod (f : Bus → Bus) : Quiet ((clearResult false s).modBus n f) := (State.modBus_sched _ n f).trans hq'
  rw [initRun, startCommand, bind_of_ok (update_quiet hq _), bind_of_ok (params_run _), bind_of_ok (update_quiet hq' _),
    bind_of_ok (update_quiet (hmod _) _), hbus, bind_of_ok (update_quiet (hmod _) _), hbus, clearResult_cfg]
  rfl

/-- Both lines of `n` enabled, and the command's last step (R126, R154). -/
def linesEnabled (n : Inst) (s : State) : State :=
  succeeded (enableLine (lineNumber s.cfg ⟨.error, n⟩) (enableLine (lineNumber s.cfg ⟨.event, n⟩) s))

section
variable (n : Inst) (s : State)

@[simp] theorem linesEnabled_bus (m : Inst) : (linesEnabled n s).bus m = s.bus m := by simp [linesEnabled, succeeded]
@[simp] theorem linesEnabled_bank :
    (linesEnabled n s).bank = { s.bank with result := withCode s.bank.result 0 } := by simp [linesEnabled, succeeded]
@[simp] theorem linesEnabled_sink : (linesEnabled n s).sink = s.sink := by simp [linesEnabled, succeeded]
@[simp] theorem linesEnabled_trace :
    (linesEnabled n s).trace = s.trace ++
      [.irqEnable (lineNumber s.cfg ⟨.event, n⟩), .irqEnable (lineNumber s.cfg ⟨.error, n⟩)] := by
  simp [linesEnabled, succeeded]

theorem mem_linesEnabled_irqEn (l : Nat) :
    l ∈ (linesEnabled n s).irqEn ↔
      l = lineNumber s.cfg ⟨.event, n⟩ ∨ l = lineNumber s.cfg ⟨.error, n⟩ ∨ l ∈ s.irqEn := by
  simp [linesEnabled, succeeded, State.modResult, mem_insertLine, or_left_comm]

@[simp] theorem linesEnabled_mem : (linesEnabled n s).mem = s.mem := by simp [linesEnabled, succeeded, State.modResult, enableLine]

/-- Beyond the list of enabled lines nothing outside the instance changes. -/
theorem keptOutside_linesEnabled : KeptOutside n { s with irqEn := (linesEnabled n s).irqEn } (linesEnabled n s) := by
  have hirq : (linesEnabled n s).irqEn = insertLine (lineNumber s.cfg ⟨.error, n⟩)
      (insertLine (lineNumber s.cfg ⟨.event, n⟩) s.irqEn) := State.modBank_irqEn _ _
  rw [hirq]
  exact keptOutside_trans (keptOutside_trans (keptOutside_log _ _) (keptOutside_log _ _)) (keptOutside_modResult _ _)

end

theorem enableBothLines_quiet (hq : Quiet s) : enableBothLines n s = .ok () (linesEnabled n s) := by
  have hline (t : State) (ht : Quiet t) (l : Line) : irqEnable others l t = .ok () (enableLine (lineNumber t.cfg l) t) :=
    (bind_of_ok (params_run t)).trans (update_quiet ht _)
  rw [enableBothLines, bind_of_ok (hline s hq _), bind_of_ok (hline _ (by exact hq) _)]
  exact update_quiet (by exact hq) _

/-- INIT is over, its status loop having ended at the first turn (R126). -/
def initDone (n : Inst) (s : State) : State :=
  linesEnabled n
    (accessed n (afterReset s.cfg (ownAddr s.cfg n) (afterLoop s n))
      (resetItems s.cfg n (ownAddr s.cfg n) (loopReads s n)) (broughtUp n s))

/-- INIT where RESET_WAIT does not hold (R126, R127). -/
theorem exec_init_ends (hq : Quiet s) (hw : ¬ Waits s n) : exec (.init n) s = .next (initDone n s) := by
  have hst := sameStatus_broughtUp n s
  have hreset := resetSeq_ends (quiet_broughtUp hq n) (by rwa [hst.waits_iff])
  rw [afterLoop_eq, loopReads_eq, hst.cfg, broughtUp_bus_same] at hreset
  rw [exec, execInit, initRun_quiet hq, bind_of_ok hreset, enableBothLines_quiet (quiet_accessed (quiet_broughtUp hq n))]
  rfl

theorem keptOutside_withIrqEn {t : State} (h : KeptOutside n s t) (x : List Nat) :
    KeptOutside n { s with irqEn := x } { t with irqEn := x } := by
  obtain ⟨hb, hc, hp, hf, -, h⟩ := h
  refine ⟨fun m hm => ?_, hc, hp, hf, rfl, h⟩
  cases m <;> exact hb _ hm

/-- Beyond the list of enabled lines INIT changes nothing outside the instance (R126). -/
theorem keptOutside_initDone (n : Inst) (s : State) :
    KeptOutside n { s with irqEn := (initDone n s).irqEn } (initDone n s) :=
  keptOutside_trans
    (keptOutside_withIrqEn (keptOutside_trans (keptOutside_broughtUp n s) (keptOutside_accessed ..)) _)
    (keptOutside_linesEnabled ..)

end Sys2Proof.Machine

namespace Sys2Proof.Proofs

open Sys2Proof.Machine

/-- Settles O50: each is issue, one access of CTL, and the last step. -/
theorem enableAndDisableTogglePe : Obligations.EnableAndDisableTogglePe := by
  intro n s hq hb
  have hset := setPe_quiet (n := n) (quiet_clearResult hq false)
  have hclr := clearPe_quiet (n := n) (quiet_clearResult hq false)
  rw [clearResult_bus, clearResult_cfg] at hset hclr
  obtain ⟨t, hexec, hresult, ht⟩ := primitiveAlone_accesses hq hb hset
  obtain ⟨u, hexec', hresult', hu⟩ := primitiveAlone_accesses hq hb hclr
  exact ⟨by cases n <;> decide, by cases n <;> decide,
    ⟨t, (exec_enable n s).trans hexec, hresult, ht.ctrl, ht.kept, ht.pollN, ht.sink, ht.trace⟩,
    u, (exec_disable n s).trans hexec', hresult', hu.ctrl, hu.kept, hu.pollN, hu.sink, hu.trace⟩

/-- Settles O49: the default predicate by its two lemmas; the reset sequence's loop ends at its first turn. -/
theorem resetLeavesTheController : Obligations.ResetLeavesTheController := by
  refine ⟨fun p v => ⟨by simp [waitHolds_default], by simp [waitByPrimary_default]⟩, fun n s hq _ hb hw => ?_⟩
  obtain ⟨t, hexec, hresult, ht⟩ := exec_reset_ends hq hb hw
  exact ⟨t, hexec, hresult, ht.ctrl, ht.trace, ht.sink, ht.pollN, ht.kept⟩

/-- Settles O48: the three writes that bring the instance up, the reset sequence, and the two lines. -/
theorem initBringsTheInstanceUp : Obligations.InitBringsTheInstanceUp := by
  intro n s hq _ hw own ev er
  have hown : own = ownAddr s.cfg n := by cases n <;> rfl
  obtain ⟨hbus, hcfg, hport, hcmd, -, hactive, htick, -, hstuck, hother, harg0, harg1⟩ := keptOutside_initDone n s
  rw [hown]
  refine ⟨_, exec_init_ends hq hw, ?_, ?_, fun l => ?_, ?_, ?_, fun m hm => (hbus m hm).trans (by cases m <;> rfl), hcfg,
    hport, hcmd, hactive, htick, ?_, hstuck, hother, harg0, harg1, ?_⟩
  · simpa [initDone] using withCode_zero_zero
  · simp [initDone]
  · simp [initDone, mem_linesEnabled_irqEn, ev, er]
  · simp [initDone, ev, er]
  · simp [initDone]
  · simp [initDone]
  · simp [initDone]

end Sys2Proof.Proofs
end

section
/-! PROOFS. RESET, INIT and READ whose reset wait never ends (R127, R157, R183): each comes to the reset sequence with no result,
and every step after that is one more turn of the status loop. -/
namespace Sys2Proof.Machine

open Sys2Proof.Claims

variable {n : Inst} {s w : State} {c : Ctrl} {l : List Access}

/-- `i`, issued in `s`, is in an endless reset wait on `n` after its own step and after `k` further ones: no result, the lock
as given, and the lines, the sink and the other instance as they were. -/
def HangsFor (n : Inst) (s : State) (k : Nat) (i : Instr) (lock : Bool) : Prop :=
  ∃ t u, exec i s = .next t ∧ t.stuck = some (.spin n) ∧ Sys2Proof.core.run k t = .next u ∧ u.stuck = some (.spin n) ∧
    u.bank.result = 0 ∧ (u.bus n).lock = lock ∧ u.irqEn = s.irqEn ∧ u.sink = s.sink ∧ ∀ m, m ≠ n → u.bus m = s.bus m

/-- The reset sequence, run in `w`, hangs: the further steps change the controller and the trace alone. -/
theorem hangsFor_of_spinning {i : Instr} (he : exec i s = .next (accessed n c l (spinning n w))) (hq : Quiet w)
    (hresult : w.bank.result = 0) (hsink : w.sink = s.sink) (hkept : KeptOutside n s w) (k : Nat) :
    HangsFor n s k i (w.bus n).lock := by
  obtain ⟨c', l', hrun⟩ := run_spinning (n := n) (c := c) (l := l) (s := spinning n w) hq rfl k
  have hbus (m : Inst) : (spinning n w).bus m = w.bus m := by cases m <;> rfl
  obtain ⟨hother, -, -, -, hirq, -⟩ := hkept
  refine ⟨_, _, he, accessed_stuck .., hrun, accessed_stuck .., ?_, ?_, ?_, ?_, fun m hm => ?_⟩
  · rw [accessed_bank]
    exact hresult
  · rw [accessed_bus_same, hbus]
  · rw [accessed_irqEn]
    exact hirq
  · rw [accessed_sink]
    exact hsink
  · rw [accessed_bus_other _ _ _ _ hm, hbus, hother m hm]

section
variable (hq : Quiet s) (hs : Steady s n) (hw : Waits s n)
include hq hs hw

theorem reset_hangs (hb : (s.bus n).bound = true) (k : Nat) : HangsFor n s k (.reset n) (s.bus n).lock := by
  have hq' := quiet_clearResult hq false
  have hst := sameStatus_clearResult (n := n) false s
  obtain ⟨c, l, hreset⟩ := resetSeq_hangs hq' (hst.steady hs) (hst.waits_iff.mpr hw)
  have hrun : exec (.reset n) s = .next (accessed n c l (spinning n (clearResult false s))) := by
    rw [exec, execReset, resetRun, bind_of_ok (enter_quiet hq hb false), bind_of_error hreset, toOutcome]
  have hhang := hangsFor_of_spinning hrun hq' (by rw [clearResult_bank]) (by simp) (keptOutside_clearResult false s) k
  rwa [clearResult_bus] at hhang

theorem init_hangs (k : Nat) : HangsFor n s k (.init n) false := by
  have hq' := quiet_broughtUp hq n
  have hst := sameStatus_broughtUp n s
  obtain ⟨c, l, hreset⟩ := resetSeq_hangs hq' (hst.steady hs) (hst.waits_iff.mpr hw)
  have hrun : exec (.init n) s = .next (accessed n c l (spinning n (broughtUp n s))) := by
    rw [exec, execInit, initRun_quiet hq, bind_of_error hreset, toOutcome]
  have hhang := hangsFor_of_spinning hrun hq' (broughtUp_result n s) (by simp) (keptOutside_broughtUp n s) k
  rwa [broughtUp_bus_same] at hhang

/-- A decode that shows BUSY, MSL and an error bit makes READ reset the controller, for ever (R107, R157). -/
theorem readOuter_hangs (hpos : 0 < s.cfg.nRdInner)
    (herr : errSeen s.cfg (decodedValue s n) = true) (hm : matchPat (decodedValue s n) (pMaster s.cfg) = true) (j : Nat) :
    ∃ t c l items, readOuter others n (j + 1) s = .error .hung (accessed n c l (spinning n t)) ∧ Observed n items s t := by
  obtain ⟨i, hi⟩ := Nat.exists_eq_succ_of_ne_zero hpos.ne'
  have hbusy : isBusy s.cfg (decodedValue s n) = true := matchPat_of_and_eq (pBusy_and_pMaster s.cfg) hm
  obtain ⟨t, hset, ht⟩ := setPollN_observed (n := n) (fun _ => 0) s
  have hst := ht.sameStatus
  obtain ⟨u, hdec, hu, -⟩ := decodeStatus_steady (ht.quiet hq) (hst.steady hs)
  have hsu := hst.trans hu.sameStatus
  have hou := ht.trans hu
  rw [hst.decodedValue_eq] at hdec
  obtain ⟨c, l, hreset⟩ := resetSeq_hangs (hou.quiet hq) (hsu.steady hs) (hsu.waits_iff.mpr hw)
  have hinner : readInner others n s.cfg.nRdInner t = .error .hung (accessed n c l (spinning n u)) := by
    rw [hi, readInner, bind_of_ok (params_run t), bind_of_ok hdec, hst.cfg, hbusy, Bool.not_true, if_neg Bool.false_ne_true,
      herr, hm, Bool.and_self, if_pos rfl, bind_of_error hreset]
  exact ⟨u, c, l, _, by rw [readOuter, bind_of_ok (params_run s), bind_of_ok hset, bind_of_error hinner], hou⟩

theorem read_hangs (hb : (s.bus n).bound = true) (hl : (s.bus n).lock = false) (ho : 0 < s.cfg.nRdOuter)
    (hi : 0 < s.cfg.nRdInner) (herr : errSeen s.cfg (decodedValue s n) = true)
    (hm : matchPat (decodedValue s n) (pMaster s.cfg) = true) (a : Addr7) (k : Nat) : HangsFor n s k (.read n a) true := by
  have hsched : s.sched = [] := hq
  obtain ⟨t, ht, hrun⟩ := guardedCommand_busyCheck hb hl (by simp [hsched])
  have hst := (busyCheck_shows n s).sameStatus ht
  have hqt : Quiet t := ht.sched.trans (busyCheck_quiet hq)
  obtain ⟨j, hj⟩ := Nat.exists_eq_succ_of_ne_zero ho.ne'
  obtain ⟨u, c, l, items, houter, hu⟩ := readOuter_hangs hqt (hst.steady hs) (hst.waits_iff.mpr hw) (hst.cfg ▸ hi)
    (by rw [hst.decodedValue_eq, hst.cfg, herr]) (by rw [hst.decodedValue_eq, hst.cfg, hm]) j
  obtain ⟨b, hbus⟩ := hu.bus
  have hat := ht.observed hu hbus
  have hexec : exec (.read n a) s = .next (accessed n c l (spinning n u)) := by
    rw [exec_read, hrun, readBody, bind_of_ok (params_run t), hst.cfg, hj, bind_of_error houter, toOutcome]
  have hhang := hangsFor_of_spinning hexec (hu.quiet hqt) hat.result (hat.sink.trans (List.append_nil _)) hat.kept k
  rwa [hat.bus] at hhang

end

end Sys2Proof.Machine

namespace Sys2Proof.Proofs

open Sys2Proof.Machine

/-- Settles O52: each command comes to a reset sequence whose loop every further step goes round once more. -/
theorem hungResetNeverEnds : Obligations.HungResetNeverEnds := by
  intro n s k hq hs _ hw
  exact ⟨fun hb => reset_hangs hq hs hw hb k, init_hangs hq hs hw k, fun hb hl ho hi herr hm a =>
    read_hangs hq hs hw hb hl ho hi herr hm a k⟩

end Sys2Proof.Proofs
end

section
/-! PROOFS. PSTAT (R130) where no other agent moves and the read order clears nothing: five register reads, a decode and its
record, and a poll that either ends at its first decode or leaves the bus busy for a warning. -/
namespace Sys2Proof.Machine

open Sys2Proof.Claims

variable {n : Inst} {r s : State} {p q : Stage} {α : Type}

/-- A decode of the steady status of `r` (R90). -/
theorem goes_decode_steady (hp : Shows n s r p) (hq : p.sched = []) (hs : Steady r n) :
    Goes n s p (decodeStatus others n) (decodedValue r n)
      (p.observed (decodeTrace r n) (!gateOpen r.cfg (r.bus n).ctrl.srP)) := by
  intro t ht
  have hst := hp.sameStatus ht
  obtain ⟨u, hdec, hu, hub⟩ := decodeStatus_steady (ht.sched.trans hq) (hst.steady hs)
  rw [hst.decodedValue_eq] at hdec
  rw [hst.decodeTrace_eq] at hu
  rw [hst.decoded_eq] at hub
  exact ⟨u, hdec, ht.observed hu hub⟩

/-- A record with register values (R155). -/
theorem goes_diagRegs (hp : Goes n s p others () q) (k : DiagKind) (v : Word) (regs : List Half) :
    Goes n s p (diag others k v regs) () (q.record ⟨k, v, regs⟩) :=
  goes_update hp fun t ht =>
    { sched := ht.sched
      bus := (pushRecord_bus k v regs t n).trans ht.bus
      result := ht.result
      rdata0 := ht.rdata0
      sink := by rw [pushRecord_sink, ht.sink, List.append_assoc, Stage.record]
      trace := ht.trace
      kept := keptOutside_trans ht.kept (keptOutside_pushRecord k v regs t) }

/-- The busy poll of PSTAT, and the warning it ends in where the bus stays busy (R130). -/
def pstatWait (n : Inst) (cfg : Config) : Run Unit := do
  let ok ← poll others n (fun v => !isBusy cfg v) cfg.nPstat cfg.dPstat
  runIf (!ok) do
    let v ← decodeStatus others n
    diag others .warn v []
  succeed others

/-- PSTAT after its issue (R130). -/
def pstatBody (n : Inst) : Run Unit := do
  let c ← params
  let c1 ← regRead others n .ctl
  let c2 ← regRead others n .ctl2
  let oa ← regRead others n .oar
  let cc ← regRead others n .ccr
  let tr ← regRead others n .trise
  let st ← decodeStatus others n
  diag others .info st [c1, c2, oa, cc, tr]
  pstatWait n c

theorem exec_pstat (n : Inst) (s : State) :
    exec (.pstat n) s = toOutcome ((enter others n false >>= fun _ => pstatBody n) s) := rfl

/-- The status of `r` has been waited on, with a warning where it is busy, and the command has succeeded (R130). -/
def Stage.waited (p : Stage) (n : Inst) (r : State) : Stage :=
  let busy := isBusy r.cfg (decodedValue r n)
  { p.observed ((if busy then pollTrace r n r.cfg.dPstat r.cfg.nPstat else []) ++ decodeTrace r n)
      (!gateOpen r.cfg (r.bus n).ctrl.srP) with
    result := withCode p.result 0
    records := p.records ++ if busy then [⟨.warn, decodedValue r n, []⟩] else [] }

theorem goes_pstatWait (hp : Shows n s s p) (hq : p.sched = []) (hs : Steady s n) (hk : 0 < s.cfg.nPstat) :
    Goes n s p (pstatWait n s.cfg) () (p.waited n s) := by
  cases hb : isBusy s.cfg (decodedValue s n) with
  | false =>
    have hpoll : Goes n s p (poll others n (fun v => !isBusy s.cfg v) s.cfg.nPstat s.cfg.dPstat) true _ :=
      goes_poll (goes_decode_steady hp hq hs) (by rw [hb]; rfl) hk _
    refine hpoll.bind (Goes.bind (goes_pure ()) (Goes.to (goes_succeed (goes_quiet hq)) ?_))
    simp [Stage.waited, hb, Stage.mapResult, Stage.observed]
  | true =>
    intro t ht
    have hst := hp.sameStatus ht
    obtain ⟨u, hpoll, hu⟩ := poll_never (cond := fun v => !isBusy s.cfg v) (ht.sched.trans hq) (hst.steady hs)
      (by rw [hst.decodedValue_eq, hb]; rfl) s.cfg.nPstat s.cfg.dPstat
    rw [hst.pollTrace_eq] at hu
    obtain ⟨b, hbus⟩ := hu.bus
    have hwarn : Goes n s (p.observed (pollTrace s n s.cfg.dPstat s.cfg.nPstat) b)
        ((decodeStatus others n >>= fun v => diag others .warn v []) >>= fun _ => succeed others) () (p.waited n s) := by
      refine Goes.bind (Goes.bind (goes_decode_steady ⟨hp.cfg, hp.srP, hp.srS⟩ hq hs)
        (goes_diag (goes_quiet (by exact hq)) _ _)) ?_
      refine Goes.to (goes_succeed (goes_quiet (by exact hq))) ?_
      simp [Stage.waited, hb, Stage.mapResult, Stage.observed, Stage.record]
    obtain ⟨w, hrest, hw⟩ := hwarn u (ht.observed hu hbus)
    exact ⟨w, (bind_of_ok hpoll).trans hrest, hw⟩

/-- PSTAT has come to its wait: nothing of the instance but `p_read` differs (R130). -/
def pstatStage (n : Inst) (s : State) : Stage :=
  let c := (s.bus n).ctrl
  { sched := []
    bus := { s.bus n with ctrl := decoded s n c }
    result := 0
    rdata0 := none
    items := [.regRead n .ctl c.ctl, .regRead n .ctl2 c.ctl2, .regRead n .oar c.oar, .regRead n .ccr c.ccr,
      .regRead n .trise c.trise] ++ decodeTrace s n
    records := [⟨.info, decodedValue s n, [c.ctl, c.ctl2, c.oar, c.ccr, c.trise]⟩] }

theorem goes_pstatBody (hs : Steady s n) (hk : 0 < s.cfg.nPstat) :
    Goes n s ⟨[], s.bus n, 0, none, [], []⟩ (pstatBody n) () ((pstatStage n s).waited n s) := by
  refine Goes.bind goes_params ?_
  refine Goes.bind (goes_regRead (goes_quiet rfl) .ctl) ?_
  refine Goes.bind (goes_regRead (goes_quiet rfl) .ctl2) ?_
  refine Goes.bind (goes_regRead (goes_quiet rfl) .oar) ?_
  refine Goes.bind (goes_regRead (goes_quiet rfl) .ccr) ?_
  refine Goes.bind (goes_regRead (goes_quiet rfl) .trise) ?_
  refine Goes.bind (goes_decode_steady (r := s) ⟨rfl, rfl, rfl⟩ rfl hs) ?_
  refine Goes.bind (Goes.to (goes_diagRegs (goes_quiet rfl) _ _ _) (r := pstatStage n s) ?_) ?_
  · simp [pstatStage, Stage.record, Stage.observed, Stage.log, Stage.mapCtrl, Stage.mapBus, Ctrl.afterRead, Ctrl.get, decoded]
  exact goes_pstatWait ⟨rfl, rfl, rfl⟩ rfl hs hk

end Sys2Proof.Machine

namespace Sys2Proof.Proofs

open Sys2Proof.Machine

/-- Settles O51: the five registers and the decode go into the Info record, and the wait's outcome into the Warn record. -/
theorem pstatRecordsTheStatus : Obligations.PstatRecordsTheStatus := by
  intro n s hq hs hb hk c v
  have hissued := (AtStage.initial n s).clearResult
  rw [Stage.initial, show s.sched = [] from hq] at hissued
  obtain ⟨t, hrun, ht⟩ := goes_pstatBody hs hk _ hissued
  refine ⟨t, ?_, ht.result.trans withCode_zero_zero, ht.sink, ht.bus, ht.kept⟩
  rw [exec_pstat, bind_of_ok (enter_quiet hq hb false), hrun, toOutcome]

end Sys2Proof.Proofs
end

section
/-! PROOFS. A reset wait is called endless only where it is (R157, log 7). Every command, with the other agents stepping between
its primitives, comes back with nothing called endless and no batch put back into the schedule, or is left truthfully. Each
turn of the status loop takes a batch; after the last one a turn only makes the read order's clear, so of two such turns the
second answers RESET_WAIT of the fields as they stay. -/
namespace Sys2Proof.Machine

open Sys2Proof.Claims

variable {k : Nat} {n : Inst} {bt : Run Unit} {s t : State} {c : Ctrl} {α β : Type} {x : Run α} {f : α → Run β}

/-! ## What a primitive leaves alone -/

/-- The change makes no hang and leaves the schedule. -/
def Unmoved (g : State → State) : Prop := ∀ s, (g s).stuck = s.stuck ∧ (g s).sched = s.sched

theorem Unmoved.comp {g h : State → State} (hg : Unmoved g) (hh : Unmoved h) : Unmoved fun s => g (h s) := fun s =>
  ⟨(hg (h s)).1.trans (hh s).1, (hg (h s)).2.trans (hh s).2⟩

theorem unmoved_modBus (n : Inst) (g : State → Bus → Bus) : Unmoved fun s => s.modBus n (g s) := fun s =>
  ⟨State.modBus_stuck s n _, State.modBus_sched s n _⟩

theorem unmoved_modCtrl (n : Inst) (g : State → Ctrl → Ctrl) : Unmoved fun s => s.modCtrl n (g s) :=
  unmoved_modBus n fun s b => { b with ctrl := g s b.ctrl }

theorem unmoved_modBank (g : State → Bank → Bank) : Unmoved fun s => s.modBank (g s) := fun s =>
  ⟨State.modBank_stuck s _, State.modBank_sched s _⟩

theorem unmoved_modChan (ch : ChanId) (g : Chan → Chan) : Unmoved fun s => s.modChan ch g := fun s => by
  simp [State.modChan_eq_modBus]

theorem unmoved_log (a : Access) : Unmoved (·.log a) := fun _ => ⟨rfl, rfl⟩

theorem unmoved_modChan_log (ch : ChanId) (g : Chan → Chan) (a : Access) : Unmoved fun s => (s.modChan ch g).log a :=
  unmoved_modChan ch g

theorem unmoved_clearResult (b : Bool) : Unmoved (clearResult b) := fun s =>
  ⟨State.modBank_stuck s _, State.modBank_sched s _⟩

theorem unmoved_readReg (n : Inst) (r : Reg) : Unmoved fun s => (readReg n r s).2 :=
  unmoved_modCtrl n fun s c => c.afterRead s.cfg r

theorem unmoved_writeReg (n : Inst) (r : Reg) (v : State → Half) : Unmoved fun s => writeReg n r (v s) s :=
  unmoved_modCtrl n fun s c => c.put s.cfg r (v s)

theorem unmoved_setReg (n : Inst) (r : Reg) (m : Half) : Unmoved (setReg n r m) :=
  unmoved_modCtrl n fun s c => c.put s.cfg r (c.get r ||| m)

theorem unmoved_clrReg (n : Inst) (r : Reg) (m : Half) : Unmoved (clrReg n r m) := by
  have hput : Unmoved fun s => s.modCtrl n fun c => c.put s.cfg r (c.get r &&& ~~~m) :=
    unmoved_modCtrl n fun s c => c.put s.cfg r (c.get r &&& ~~~m)
  cases r with
  | srP => exact fun s => (unmoved_modBus n fun _ b => b.settleErrLine s.cfg).comp hput s
  | _ => exact hput

theorem unmoved_engineStep (ch : ChanId) : Unmoved (engineStep ch) := fun s => by
  obtain ⟨m, d⟩ := ch
  unfold engineStep
  split
  · cases d with
    | tx => exact (unmoved_modChan_log ⟨m, .tx⟩ _ _).comp (unmoved_modCtrl m fun s c => c.put s.cfg .dr _) s
    | rx => exact unmoved_modChan_log ⟨m, .rx⟩ _ _ s
  · exact ⟨rfl, rfl⟩

theorem unmoved_quietMove (m : Move) : Unmoved (quietMove m) := by
  cases m with
  | engine ch => exact unmoved_engineStep ch
  | envSrP n _ | envSrS n _ | envDr n _ | envClrStart n | envClrStop n | envEv n _ | envEr n _ => exact unmoved_modBus n _
  | _ => exact fun _ => ⟨rfl, rfl⟩

/-! ## How a run comes out -/

/-- Nothing is called endless in `t`, and its schedule is no longer than that of `s`. -/
def Sober (s t : State) : Prop := t.stuck = none ∧ t.sched.length ≤ s.sched.length

/-- A run that begins no later than `s` comes back, ends its command, or is left in a hang that is called a reset wait only
where no other agent has a move left and RESET_WAIT holds (R157). -/
def ComesOut (s : State) : EStateM.Result Exit State α → Prop
  | .ok _ t => Sober s t
  | .error .ended t => Sober s t
  | .error .hung t => ∀ n, t.stuck = some (.spin n) → t.sched = [] ∧ Waits t n
  | .error (.fault _) _ => True

/-- The run comes out so from every state with at most `k` batches left. -/
def Truthful (k : Nat) (x : Run α) : Prop := ∀ s, s.stuck = none → s.sched.length ≤ k → ComesOut s (x s)

theorem Sober.mono {s₀ : State} (h : Sober s t) (hs : s.sched.length ≤ s₀.sched.length) : Sober s₀ t :=
  ⟨h.1, h.2.trans hs⟩

theorem ComesOut.mono {s₀ : State} {r : EStateM.Result Exit State α} (h : ComesOut s r)
    (hs : s.sched.length ≤ s₀.sched.length) : ComesOut s₀ r := by
  match r with
  | .ok _ _ => exact Sober.mono h hs
  | .error .ended _ => exact Sober.mono h hs
  | .error .hung _ => exact h
  | .error (.fault _) _ => trivial

/-- The one lemma about sequence. -/
theorem ComesOut.bind {s₀ : State} (h : ComesOut s₀ (x s)) (hk : s₀.sched.length ≤ k) (hf : ∀ a, Truthful k (f a)) :
    ComesOut s₀ ((x >>= f) s) := by
  rw [run_bind]
  cases hx : x s with
  | ok a t =>
    rw [hx] at h
    obtain ⟨hst, hl⟩ := h
    exact (hf a t hst (hl.trans hk)).mono hl
  | error e t =>
    rw [hx] at h
    match e with
    | .ended => exact h
    | .hung => exact h
    | .fault _ => trivial

namespace Truthful

theorem pure (a : α) : Truthful k (Pure.pure a : Run α) := fun _ hs _ => ⟨hs, le_rfl⟩

theorem look (g : State → α) : Truthful k (Machine.look g) := fun _ hs _ => ⟨hs, le_rfl⟩

theorem ended : Truthful k (leave .ended : Run α) := fun _ hs _ => ⟨hs, le_rfl⟩

theorem fault (e : Fault) : Truthful k (leave (.fault e) : Run α) := fun _ _ _ => trivial

theorem bind (hx : Truthful k x) (hf : ∀ a, Truthful k (f a)) : Truthful k (x >>= f) := fun s hs hk =>
  (hx s hs hk).bind hk hf

theorem ite {b : Prop} [Decidable b] {x y : Run α} (hx : Truthful k x) (hy : Truthful k y) :
    Truthful k (if b then x else y) := by split <;> assumption

theorem runIf {x : Run Unit} (hx : Truthful k x) (b : Bool) : Truthful k (Machine.runIf b x) := ite hx (pure ())

theorem effect {g : State → α × State} (hg : Unmoved fun s => (g s).2) : Truthful k (Machine.effect g) := fun s hs _ =>
  ⟨(hg s).1.trans hs, (congrArg List.length (hg s).2).le⟩

theorem tweak {g : State → State} (hg : Unmoved g) : Truthful k (Machine.tweak g) := effect (g := fun s => ((), g s)) hg

theorem refused (r : RefuseCode) : Truthful k (Machine.refused r : Run α) := fun s hs _ =>
  have hfree : Unmoved fun s => freeRdata0 (s.modResult (withCode · (refuseCode r))) :=
    Unmoved.comp (unmoved_modBank _) (unmoved_modBank _)
  ⟨(hfree s).1.trans hs, (congrArg List.length (hfree s).2).le⟩

theorem setPollN (g : Nat → Nat) : Truthful k (Machine.setPollN g) := tweak (unmoved_modBank _)

end Truthful

/-! ## The other agents take a batch -/

/-- `s` with its next batch taken. -/
def popped (s : State) : State := { s with sched := s.sched.tail }

/-- The run comes out so, and takes a batch where one is left. -/
def Takes (k : Nat) (x : Run α) : Prop := ∀ s, s.stuck = none → s.sched.length ≤ k → ComesOut (popped s) (x s)

theorem popped_length (s : State) : (popped s).sched.length = s.sched.length - 1 := List.length_tail

theorem Takes.truthful (h : Takes k x) : Truthful k x := fun s hs hk =>
  (h s hs hk).mono ((popped_length s).trans_le (Nat.sub_le _ _))

theorem Takes.bind (hx : Takes k x) (hf : ∀ a, Truthful k (f a)) : Takes k (x >>= f) := fun s hs hk =>
  (hx s hs hk).bind ((popped_length s).trans_le (by omega)) hf

/-- What other agents do between two primitives, as far as a status loop depends on it: they take a batch, and past the end of
the schedule they do nothing (log 5). -/
structure Batchwise (k : Nat) (bt : Run Unit) : Prop where
  takes : Takes k bt
  quiet : ∀ s, s.sched = [] → bt s = .ok () s

/-! ## The status loop -/

/-- A second turn that nothing else precedes finds SR_P and SR_S as the first left them (R55). -/
theorem afterTurn_afterTurn_status (cfg : Config) (c : Ctrl) :
    ((c.afterTurn cfg).afterTurn cfg).srP = (c.afterTurn cfg).srP ∧
      ((c.afterTurn cfg).afterTurn cfg).srS = (c.afterTurn cfg).srS := by
  by_cases h : waitByPrimary cfg.resetWait c.srP = none
  · refine afterTurn_status ?_
    simp [Ctrl.afterTurn, h, BitVec.and_assoc]
  · simp [Ctrl.afterTurn, h]

theorem comesOut_hangInReset {s₀ : State} (hq : s.sched = []) (hw : Waits s n) :
    ComesOut s₀ (hangInReset n s : EStateM.Result Exit State α) := by
  intro m hm
  obtain rfl : n = m := by simpa using hm
  exact ⟨hq, hw⟩

namespace Batchwise
variable (hbt : Batchwise k bt)
include hbt

theorem truthful : Truthful k bt := hbt.takes.truthful

theorem atomTakes {g : State → α × State} (hg : Unmoved fun s => (g s).2) : Takes k (atom bt g) :=
  hbt.takes.bind fun _ => .effect hg

theorem agree_others : Agree 0 bt others := fun s hs =>
  have hq : s.sched = [] := List.eq_nil_of_length_eq_zero (Nat.le_zero.mp hs)
  ⟨(hbt.quiet s hq).trans (others_quiet hq).symm, by rw [hbt.quiet s hq]; exact hs⟩

theorem resetTurn (n : Inst) : Takes k (resetTurn bt n) := fun s =>
  (hbt.atomTakes (unmoved_readReg n .srP)).bind (fun _ => by
    split
    · exact .pure _
    · exact (hbt.atomTakes (unmoved_readReg n .srS)).truthful.bind fun _ => .pure _) s

/-- Past the end of the schedule two turns that go on leave RESET_WAIT standing (R127, R157). -/
theorem resetLoop_quiet (hs : s.stuck = none) (hq : s.sched = []) : ComesOut s (resetLoop bt n 2 s) := by
  have hturn (c : Ctrl) (l : List Access) : Machine.resetTurn bt n (accessed n c l s) = .ok _ _ :=
    (agree_resetTurn hbt.agree_others _ (by simp [hq])).1.trans (resetTurn_accessed hq)
  have hsober (c : Ctrl) (l : List Access) : Sober s (accessed n c l s) := ⟨by simpa using hs, by simp⟩
  rw [← accessed_nil n s, resetLoop, bind_of_ok (hturn _ _), accessed_nil]
  split
  · rw [resetLoop, bind_of_ok (hturn _ _)]
    split
    · next hwaits =>
      obtain ⟨hp, hv⟩ := afterTurn_afterTurn_status s.cfg (s.bus n).ctrl
      refine comesOut_hangInReset (by simpa using hq) ?_
      rw [Waits, accessed_cfg, accessed_bus_same, hp, hv]
      exact hwaits
    · exact hsober _ _
  · exact hsober _ _

/-- Each turn takes a batch, so the loop's budget of turns outlasts the schedule (R127, log 7). -/
theorem resetLoop {j : Nat} (hj : j ≤ k) : Truthful j (Machine.resetLoop bt n (j + 2)) := by
  induction j with
  | zero => exact fun s hs hq => hbt.resetLoop_quiet hs (List.eq_nil_of_length_eq_zero (Nat.le_zero.mp hq))
  | succ j ih =>
    intro s hs hk
    have hlen : (popped s).sched.length ≤ j := (popped_length s).trans_le (by omega)
    exact ((hbt.resetTurn n s hs (by omega)).bind hlen fun _ => (ih (by omega)).ite (.pure ())).mono
      ((popped_length s).trans_le (Nat.sub_le _ _))

/-! ## The parts of a command -/

theorem atom {g : State → α × State} (hg : Unmoved fun s => (g s).2) : Truthful k (Machine.atom bt g) :=
  (hbt.atomTakes hg).truthful

theorem update {g : State → State} (hg : Unmoved g) : Truthful k (Machine.update bt g) := hbt.atom hg

theorem regRead (n : Inst) (r : Reg) : Truthful k (Machine.regRead bt n r) := hbt.atom (unmoved_readReg n r)

theorem regWrite (n : Inst) (r : Reg) (v : Half) : Truthful k (Machine.regWrite bt n r v) :=
  hbt.update (unmoved_writeReg n r fun _ => v)

theorem regSet (n : Inst) (r : Reg) (m : Half) : Truthful k (Machine.regSet bt n r m) := hbt.update (unmoved_setReg n r m)

theorem regClr (n : Inst) (r : Reg) (m : Half) : Truthful k (Machine.regClr bt n r m) := hbt.update (unmoved_clrReg n r m)

theorem modBus (n : Inst) (g : State → Bus → Bus) : Truthful k (Machine.update bt fun s => s.modBus n (g s)) :=
  hbt.update (unmoved_modBus n g)

theorem modBank (g : State → Bank → Bank) : Truthful k (Machine.update bt fun s => s.modBank (g s)) :=
  hbt.update (unmoved_modBank g)

theorem diag (d : DiagKind) (v : Word) (regs : List Half) : Truthful k (Machine.diag bt d v regs) :=
  hbt.update fun _ => ⟨rfl, rfl⟩

theorem delayMs (d : Nat) : Truthful k (Machine.delayMs bt d) := (hbt.update (unmoved_log _)).runIf _

theorem setPhase (p : Phase) : Truthful k (Machine.setPhase bt n p) := hbt.modBus n _

theorem putResult (g : Half → Half) : Truthful k (Machine.putResult bt g) := hbt.modBank _

theorem succeed : Truthful k (Machine.succeed bt) := hbt.putResult _

theorem putRdata0 (v : Word) : Truthful k (Machine.putRdata0 bt v) := hbt.modBank _

theorem putRdata1 (v : Word) : Truthful k (Machine.putRdata1 bt v) := hbt.modBank _

theorem startCommand (b : Bool) : Truthful k (Machine.startCommand bt b) := hbt.update (unmoved_clearResult b)

theorem enter (b : Bool) : Truthful k (Machine.enter bt n b) :=
  (hbt.startCommand b).bind fun _ => hbt.truthful.bind fun _ => (Truthful.look _).bind fun _ =>
    (Truthful.pure ()).ite (.refused _)

theorem needChannel (d : Dir) : Truthful k (Machine.needChannel bt n d) :=
  hbt.truthful.bind fun _ => (Truthful.look _).bind fun ref => by
    cases ref with
    | some ch => exact .pure ch
    | none => exact .refused _

theorem acquire : Truthful k (Machine.acquire bt n) :=
  hbt.truthful.bind fun _ => (Truthful.look _).bind fun _ => (Truthful.refused _).ite (.tweak (unmoved_modBus n _))

theorem release : Truthful k (Machine.release bt n) := hbt.modBus n _

theorem illegalCommand : Truthful k (Machine.illegalCommand bt) :=
  (hbt.startCommand _).bind fun _ => hbt.truthful.bind fun _ => .refused _

theorem decodeStatus (n : Inst) : Truthful k (Machine.decodeStatus bt n) :=
  (Truthful.look _).bind fun _ => (hbt.regRead n _).bind fun _ => ((hbt.regRead n _).bind fun _ => .pure _).ite (.pure _)

theorem poll (n : Inst) (cond : Word → Bool) (budget d : Nat) : Truthful k (Machine.poll bt n cond budget d) := by
  refine (Truthful.setPollN _).bind fun _ => ?_
  induction budget with
  | zero => exact .pure _
  | succ j ih =>
    exact (hbt.decodeStatus n).bind fun _ => (Truthful.pure _).ite <|
      (hbt.delayMs d).bind fun _ => (Truthful.setPollN _).bind fun _ => ih

theorem resetSeq (n : Inst) : Truthful k (Machine.resetSeq bt n) :=
  (Truthful.look _).bind fun _ => (hbt.regClr n _ _).bind fun _ => (hbt.regSet n _ _).bind fun _ =>
    (hbt.regClr n _ _).bind fun _ s hs hk => (hbt.resetLoop hk s hs le_rfl).bind hk fun _ =>
    (hbt.regClr n _ _).bind fun _ => (hbt.regWrite n _ _).bind fun _ => (hbt.regWrite n _ _).bind fun _ =>
    (hbt.update (unmoved_writeReg n _ _)).bind fun _ => hbt.regWrite n _ _

theorem failBusError (w : Caller) (e : ErrKind) (v : Word) : Truthful k (Machine.failBusError bt w n e v) :=
  (hbt.diag _ _ _).bind fun _ => (hbt.putResult _).bind fun _ =>
    ((hbt.resetSeq n).bind fun _ => hbt.putResult _).runIf _

theorem failEnd (w : Caller) : Truthful k (Machine.failEnd bt w n) :=
  ((hbt.modBank _).bind fun _ => (hbt.setPhase _).bind fun _ => hbt.release).ite (hbt.putResult _)

theorem failUnless (w : Caller) (e : ErrKind) (ok : Bool) : Truthful k (Machine.failUnless bt w n e ok) :=
  (Truthful.pure ()).ite <| (Truthful.look _).bind fun _ => (hbt.decodeStatus n).bind fun _ => (hbt.diag _ _ _).bind fun _ =>
    ((hbt.failBusError w e _).runIf _).bind fun _ => (hbt.putResult _).bind fun _ => (hbt.failEnd w).bind fun _ => .ended

theorem generateStart (w : Caller) : Truthful k (Machine.generateStart bt w n) :=
  (Truthful.look _).bind fun _ => (hbt.poll n _ _ _).bind fun _ => (hbt.regSet n _ _).bind fun _ =>
    (hbt.poll n _ _ _).bind fun _ => hbt.failUnless w _ _

theorem sendAddress (w : Caller) (d : Dir) (a : Addr7) : Truthful k (Machine.sendAddress bt w n d a) :=
  (Truthful.look _).bind fun _ => (hbt.regWrite n _ _).bind fun _ => by
    cases d with
    | tx => exact (hbt.poll n _ _ _).bind fun _ => hbt.failUnless w _ _
    | rx => exact .pure ()

theorem transmitByte (w : Caller) (b : Byte) : Truthful k (Machine.transmitByte bt w n b) :=
  (Truthful.look _).bind fun _ => (hbt.regWrite n _ _).bind fun _ => (hbt.poll n _ _ _).bind fun _ => hbt.failUnless w _ _

theorem receiveByte (w : Caller) : Truthful k (Machine.receiveByte bt w n) :=
  (Truthful.look _).bind fun _ => (hbt.poll n _ _ _).bind fun _ => (hbt.failUnless w _ _).bind fun _ =>
    (hbt.regRead n _).bind fun _ => (hbt.modBus n _).bind fun _ => .pure _

theorem generateStop : Truthful k (Machine.generateStop bt n) := (Truthful.look _).bind fun _ => hbt.regSet n _ _

theorem finishGuarded : Truthful k (Machine.finishGuarded bt n) := (hbt.setPhase _).bind fun _ => hbt.release

theorem readInner (j : Nat) : Truthful k (Machine.readInner bt n j) := by
  induction j with
  | zero => exact .pure _
  | succ j ih =>
    have hreset := (hbt.resetSeq n).bind fun _ => (hbt.putResult withResetRan).bind fun _ => Truthful.pure false
    exact (Truthful.look _).bind fun _ => (hbt.decodeStatus n).bind fun _ => (Truthful.pure _).ite <|
      hreset.ite <| (Truthful.setPollN _).bind fun _ => ih

theorem readOuter (j : Nat) : Truthful k (Machine.readOuter bt n j) := by
  induction j with
  | zero => exact .pure _
  | succ j ih =>
    exact (Truthful.look _).bind fun _ => (Truthful.setPollN _).bind fun _ => (hbt.readInner _).bind fun _ =>
      (Truthful.pure _).ite ih

theorem memRead (a : Word) : Truthful k (Machine.memRead bt a) :=
  hbt.truthful.bind fun _ => (Truthful.look _).bind fun b => by
    cases b with
    | some b => exact (Truthful.tweak (unmoved_log _)).bind fun _ => .pure b
    | none => exact .fault _

theorem copyLoop (ch : ChanId) (src : Word) (i left : Nat) : Truthful k (Machine.copyLoop bt ch src i left) := by
  induction left generalizing i with
  | zero => exact .pure ()
  | succ left ih =>
    exact (hbt.memRead _).bind fun _ => (hbt.update (unmoved_modChan_log ch _ _)).bind fun _ => ih _

theorem chTc (ch : ChanId) : Truthful k (Machine.chTc bt ch) := hbt.atom fun _ => ⟨rfl, rfl⟩

theorem chEnabled (ch : ChanId) : Truthful k (Machine.chEnabled bt ch) := hbt.atom fun _ => ⟨rfl, rfl⟩

theorem chEnable (ch : ChanId) (j : Nat) : Truthful k (Machine.chEnable bt ch j) := hbt.update (unmoved_modChan_log ch _ _)

theorem tcLoop (ch : ChanId) (j : Nat) : Truthful k (Machine.tcLoop bt ch j) := by
  induction j with
  | zero => exact .pure _
  | succ j ih => exact (hbt.chTc ch).bind fun _ => (Truthful.setPollN _).bind fun _ => (Truthful.pure _).ite ih

theorem irqEnable (l : Line) : Truthful k (Machine.irqEnable bt l) :=
  (Truthful.look _).bind fun _ => hbt.update fun _ => ⟨rfl, rfl⟩

/-! ## The commands -/

theorem iseqRun (n : Inst) : Truthful k (Machine.iseqRun bt n) :=
  (Truthful.look _).bind fun _ => (hbt.enter _).bind fun _ => (hbt.decodeStatus n).bind fun _ =>
    (hbt.putResult _).bind fun _ => (hbt.putRdata0 _).bind fun _ => hbt.succeed

theorem iseqmRun (n : Inst) : Truthful k (Machine.iseqmRun bt n) :=
  (Truthful.look _).bind fun _ => (Truthful.look _).bind fun _ => (hbt.enter _).bind fun _ =>
    (hbt.decodeStatus n).bind fun _ => (hbt.putResult _).bind fun _ => (hbt.putRdata0 _).bind fun _ => hbt.succeed

theorem writeRun (n : Inst) (a : Addr7) (b : Byte) : Truthful k (Machine.writeRun bt n a b) :=
  (hbt.enter _).bind fun _ => hbt.acquire.bind fun _ => (hbt.setPhase _).bind fun _ => (Truthful.look _).bind fun _ =>
    (hbt.poll n _ _ _).bind fun _ => (hbt.failUnless _ _ _).bind fun _ => (hbt.setPhase _).bind fun _ =>
    (hbt.generateStart _).bind fun _ => (hbt.setPhase _).bind fun _ => (hbt.sendAddress _ _ a).bind fun _ =>
    (hbt.setPhase _).bind fun _ => (hbt.transmitByte _ b).bind fun _ => (hbt.setPhase _).bind fun _ =>
    hbt.generateStop.bind fun _ => hbt.finishGuarded.bind fun _ => hbt.succeed

theorem readRun (n : Inst) (a : Addr7) : Truthful k (Machine.readRun bt n a) :=
  (hbt.enter _).bind fun _ => hbt.acquire.bind fun _ => (hbt.setPhase _).bind fun _ => (Truthful.look _).bind fun _ =>
    (hbt.readOuter _).bind fun _ => (hbt.failUnless _ _ _).bind fun _ => (hbt.setPhase _).bind fun _ =>
    (hbt.generateStart _).bind fun _ => (hbt.setPhase _).bind fun _ => (hbt.sendAddress _ _ a).bind fun _ =>
    (hbt.setPhase _).bind fun _ => (hbt.receiveByte _).bind fun _ => (hbt.setPhase _).bind fun _ =>
    hbt.generateStop.bind fun _ => hbt.finishGuarded.bind fun _ => (hbt.putRdata0 _).bind fun _ => hbt.succeed

theorem mtxRun (n : Inst) (a : Addr7) : Truthful k (Machine.mtxRun bt n a) :=
  (Truthful.look _).bind fun _ => (Truthful.look _).bind fun _ => (hbt.enter _).bind fun _ =>
    (hbt.needChannel _).bind fun ch => hbt.acquire.bind fun _ => (Truthful.look _).bind fun _ =>
    (hbt.copyLoop ch _ _ _).bind fun _ => (hbt.putRdata0 _).bind fun _ => (hbt.setPhase _).bind fun _ =>
    (hbt.generateStart _).bind fun _ => (hbt.setPhase _).bind fun _ => (hbt.sendAddress _ _ a).bind fun _ =>
    (hbt.setPhase _).bind fun _ => (hbt.regSet n _ _).bind fun _ => (hbt.chEnable ch _).bind fun _ =>
    (Truthful.setPollN _).bind fun _ => (hbt.tcLoop ch _).bind fun _ => (hbt.failUnless _ _ _).bind fun _ =>
    hbt.finishGuarded.bind fun _ => hbt.succeed

theorem srxRun (n : Inst) (a : Addr7) : Truthful k (Machine.srxRun bt n a) :=
  (hbt.enter _).bind fun _ => (hbt.needChannel _).bind fun ch => hbt.acquire.bind fun _ => (Truthful.look _).bind fun _ =>
    (hbt.putRdata0 _).bind fun _ => (hbt.putRdata1 _).bind fun _ => (hbt.setPhase _).bind fun _ =>
    (hbt.poll n _ _ _).bind fun _ => (hbt.failUnless _ _ _).bind fun _ => (hbt.poll n _ _ _).bind fun _ =>
    (hbt.decodeStatus n).bind fun _ => (hbt.diag _ _ _).bind fun _ => (hbt.setPhase _).bind fun _ =>
    (hbt.regSet n _ _).bind fun _ => (hbt.chEnable ch _).bind fun _ => hbt.finishGuarded.bind fun _ => hbt.succeed

theorem initRun (n : Inst) : Truthful k (Machine.initRun bt n) :=
  (hbt.startCommand _).bind fun _ => (Truthful.look _).bind fun _ => (hbt.modBus n _).bind fun _ =>
    (hbt.modBus n _).bind fun _ => (hbt.modBus n _).bind fun _ => (hbt.resetSeq n).bind fun _ =>
    (hbt.irqEnable _).bind fun _ => (hbt.irqEnable _).bind fun _ => hbt.succeed

theorem pstatRun (n : Inst) : Truthful k (Machine.pstatRun bt n) :=
  (hbt.enter _).bind fun _ => (Truthful.look _).bind fun _ => (hbt.regRead n _).bind fun _ => (hbt.regRead n _).bind fun _ =>
    (hbt.regRead n _).bind fun _ => (hbt.regRead n _).bind fun _ => (hbt.regRead n _).bind fun _ =>
    (hbt.decodeStatus n).bind fun _ => (hbt.diag _ _ _).bind fun _ => (hbt.poll n _ _ _).bind fun _ =>
    (((hbt.decodeStatus n).bind fun _ => hbt.diag _ _ _).runIf _).bind fun _ => hbt.succeed

/-- Every command comes out truthfully (R157). -/
theorem runInstr (i : Instr) : Truthful k (Machine.runInstr bt i) := by
  cases i with
  | status n =>
    exact (hbt.enter _).bind fun _ => (hbt.decodeStatus n).bind fun _ => (hbt.putRdata0 _).bind fun _ => hbt.succeed
  | iseq n => exact hbt.iseqRun n
  | iseqm n => exact hbt.iseqmRun n
  | gstart n => exact (hbt.enter _).bind fun _ => (hbt.generateStart _).bind fun _ => hbt.succeed
  | saddr n d a => exact (hbt.enter _).bind fun _ => (hbt.sendAddress _ d a).bind fun _ => hbt.succeed
  | txbyte n b => exact (hbt.enter _).bind fun _ => (hbt.transmitByte _ b).bind fun _ => hbt.succeed
  | rxbyte n =>
    exact (hbt.enter _).bind fun _ => (hbt.receiveByte _).bind fun _ => (hbt.putRdata0 _).bind fun _ => hbt.succeed
  | gstop n => exact (hbt.enter _).bind fun _ => hbt.generateStop.bind fun _ => hbt.succeed
  | write n a b => exact hbt.writeRun n a b
  | read n a => exact hbt.readRun n a
  | attach n d => exact (hbt.enter _).bind fun _ => (hbt.modBus n _).bind fun _ => hbt.succeed
  | mtx n a => exact hbt.mtxRun n a
  | srx n a => exact hbt.srxRun n a
  | tcq n d =>
    exact (hbt.enter _).bind fun _ => (hbt.needChannel d).bind fun ch => (hbt.chEnabled ch).bind fun _ =>
      (hbt.chTc ch).bind fun _ => (hbt.putRdata0 _).bind fun _ => hbt.succeed
  | init n => exact hbt.initRun n
  | reset n =>
    exact (hbt.enter _).bind fun _ => (hbt.resetSeq n).bind fun _ => (hbt.putResult _).bind fun _ => hbt.succeed
  | enable n =>
    exact (hbt.enter _).bind fun _ => (Truthful.look _).bind fun _ => (hbt.regSet n _ _).bind fun _ => hbt.succeed
  | disable n =>
    exact (hbt.enter _).bind fun _ => (Truthful.look _).bind fun _ => (hbt.regClr n _ _).bind fun _ => hbt.succeed
  | pstat n => exact hbt.pstatRun n
  | evh n =>
    exact (hbt.enter _).bind fun _ => (hbt.decodeStatus n).bind fun _ => (hbt.diag _ _ _).bind fun _ => hbt.succeed
  | erh n =>
    exact (hbt.enter _).bind fun _ => (Truthful.look _).bind fun _ => (hbt.decodeStatus n).bind fun _ =>
      (hbt.diag _ _ _).bind fun _ => (hbt.regClr n _ _).bind fun _ => hbt.succeed

/-! ## The interrupt port and the other agents -/

theorem runWord (w : Word) : Truthful k (Machine.runWord bt w) := by
  unfold Machine.runWord
  split
  · exact hbt.runInstr _
  · exact hbt.illegalCommand

omit hbt in
/-- The agent that issued a command goes on where the command ends, and hangs where it hangs (R141, R157). -/
theorem runWhole {x : Run Unit} (hx : Truthful k x) : Truthful k (Machine.runWhole x) := fun s hs hk => by
  have h := hx s hs hk
  unfold Machine.runWhole
  split
  · next t ht =>
    rw [ht] at h
    exact h
  · exact h

omit hbt in
theorem onIrqPort (hook : Option Line) {x : Run Unit} (hx : Truthful k x) : Truthful k (Machine.onIrqPort hook x) :=
  (Truthful.look _).bind fun old => (Truthful.tweak (g := irqEnter hook) fun _ => ⟨rfl, rfl⟩).bind fun _ =>
    (runWhole hx).bind fun _ => .tweak (g := irqReturn old) fun _ => ⟨rfl, rfl⟩

omit hbt in
/-- A starved command is no endless reset (R174). -/
theorem starveFrom (n : Inst) : Truthful k (Machine.starveFrom n) :=
  (Truthful.look _).bind fun fires => by
    cases fires with
    | true => exact fun _ _ _ _ hm => nomatch hm
    | false => exact .pure ()

theorem applyMove (m : Move) : Truthful k (Machine.applyMove bt m) := by
  cases m with
  | fire l => exact (Truthful.look _).bind fun _ => (onIrqPort _ (hbt.runInstr _)).runIf _
  | issueIrq c =>
    exact (Truthful.look _).bind fun _ => Truthful.runIf
      ((Truthful.tweak (g := writeIrqArgs c) fun _ => ⟨rfl, rfl⟩).bind fun _ => onIrqPort _ (hbt.runWord _)) _
  | starve n => exact starveFrom n
  | _ => exact .tweak (unmoved_quietMove _)

theorem applyMoves (ms : List Move) : Truthful k (Machine.applyMoves bt ms) := by
  induction ms with
  | nil => exact .pure ()
  | cons m ms ih => exact (hbt.applyMove m).bind fun _ => ih

end Batchwise

theorem popped_of_quiet (hq : s.sched = []) : popped s = s := by
  unfold popped
  rw [hq, List.tail_nil, ← hq]

theorem popBatch_run (s : State) : popBatch s = .ok (s.sched.headD []) (popped s) := by
  unfold popBatch
  split
  · next hq => rw [hq, popped_of_quiet hq, List.headD_nil]
  · next b rest hb => simp [popped, hb]

theorem between_succ (d : Nat) (s : State) :
    between (d + 1) s = applyMoves (between d) (s.sched.headD []) (popped s) := bind_of_ok (popBatch_run s)

/-- Interrupts may nest: what runs between the primitives of a command on the interrupt port is of the same kind (R57, log 9). -/
theorem batchwise_between (d : Nat) : Batchwise d (between d) := by
  induction d with
  | zero => exact ⟨fun s hs _ => ⟨hs, by simp_all [popped]⟩, fun _ _ => rfl⟩
  | succ d ih =>
    refine ⟨fun s hs hd => ?_, fun s hq => ?_⟩
    · rw [between_succ]
      exact ih.applyMoves _ _ hs ((popped_length s).trans_le (by omega))
    · rw [between_succ, hq, popped_of_quiet hq]
      rfl

theorem batchwise_others (k : Nat) : Batchwise k others :=
  ⟨fun s hs _ => (batchwise_between s.sched.length).takes s hs le_rfl, fun _ => others_quiet⟩

/-- A command that began with nothing called endless ends in such a state, or is left truthfully (R157). -/
theorem exec_endless (i : Instr) (hs : s.stuck = none) (he : exec i s = .next t) (ht : t.stuck = some (.spin n)) :
    t.sched = [] ∧ Waits t n := by
  have hrun := (batchwise_others s.sched.length).runInstr i s hs le_rfl
  have hnone (h : Sober s t) : t.sched = [] ∧ Waits t n := nomatch h.1.symm.trans ht
  rw [exec_eq_runInstr] at he
  cases hr : runInstr others i s with
  | ok a u =>
    rw [hr] at hrun he
    cases he
    exact hnone hrun
  | error e u =>
    rw [hr] at hrun he
    cases e with
    | ended =>
      cases he
      exact hnone hrun
    | hung =>
      cases he
      exact hrun n ht
    | fault _ => cases he

end Sys2Proof.Machine

namespace Sys2Proof.Proofs

open Sys2Proof.Machine

/-- Settles O53: a command comes out truthfully, whatever the other agents do between its primitives. -/
theorem endlessResetHasNoWayOut : Obligations.EndlessResetHasNoWayOut := fun i _ _ _ hs he ht => exec_endless i hs he ht

end Sys2Proof.Proofs
end

section
/-! PROOFS. The interrupt hooks where no other agent moves (R135 to R137): issue, one decode, its record, and for ERH the clear of
the error bits, with which the error line falls (R148). Beyond the instance, the sink and the trace both change RESULT, RDATA0
and RDATA1 alone. -/
namespace Sys2Proof.Machine

open Sys2Proof.Claims

variable {n : Inst} {d : Record} {b : Bus} {s t : State}

/-! ## The clear of the error bits -/

theorem clrReg_srP (n : Inst) (m : Half) (s : State) :
    clrReg n .srP m s = (s.modBus n fun b =>
      ({ b with ctrl := b.ctrl.put s.cfg .srP (b.ctrl.srP &&& ~~~m) } : Bus).settleErrLine s.cfg).log (.regClr n .srP m) :=
  congrArg (State.log · _) (State.modBus_modBus s n _ _)

/-- Where SWRST forces nothing it forces nothing with another SR_P and another `p_read` (R28). -/
theorem held_withSrP {cfg : Config} {c : Ctrl} (h : c.held cfg = c) (p : Half) (r : Bool) :
    ({ c with srP := p, pRead := r } : Ctrl).held cfg = { c with srP := p, pRead := r } := by
  simpa only [h] using held_status cfg c p c.srS c.drRx r

/-- With the error bits cleared none is set, so the error line falls (R136, R148). -/
theorem settleErrLine_of_cleared {cfg : Config} {p : Half} (h : b.ctrl.srP = p &&& ~~~cfg.errMask) :
    b.settleErrLine cfg = { b with erPend := false } := by
  simp [Bus.settleErrLine, h, BitVec.and_assoc]

/-- The instance with its error bits cleared and its error line down (R136, R148). -/
def Bus.errCleared (cfg : Config) (b : Bus) : Bus :=
  { b with ctrl := { b.ctrl with srP := b.ctrl.srP &&& ~~~cfg.errMask }, erPend := false }

theorem clrReg_errMask_bus (hh : (s.bus n).ctrl.held s.cfg = (s.bus n).ctrl) :
    (clrReg n .srP s.cfg.errMask s).bus n = (s.bus n).errCleared s.cfg := by
  rw [clrReg_srP, State.log_bus, State.bus_modBus_same, Ctrl.put, Ctrl.store, held_withSrP hh, settleErrLine_of_cleared rfl,
    Bus.errCleared]

/-! ## What a hook leaves -/

/-- From `s` to `t` a hook has added the record `d` and made instance `n` into `b`, and RESULT is 0; beyond that only RDATA0,
RDATA1 and the trace may differ. -/
structure HookLeaves (n : Inst) (d : Record) (b : Bus) (s t : State) : Prop where
  bus : t.bus n = b
  kept : KeptOutside n s t
  pollN : t.bank.pollN = s.bank.pollN
  result : t.bank.result = 0
  sink : t.sink = s.sink ++ [d]

/-- The instance after one decode (R135). -/
def decodedBus (n : Inst) (s : State) : Bus := { s.bus n with ctrl := (s.bus n).ctrl.afterDecode s.cfg }

theorem DecodedOnce.logged (h : DecodedOnce n s t) (hr : t.bank.result = 0) (k : DiagKind) (v : Word) :
    HookLeaves n ⟨k, v, []⟩ (decodedBus n s) s (pushRecord k v [] t) where
  bus := (pushRecord_bus k v [] t n).trans h.ctrl
  kept := keptOutside_trans h.kept (keptOutside_pushRecord k v [] t)
  pollN := h.pollN
  result := hr
  sink := by rw [pushRecord_sink, h.sink]

namespace HookLeaves

theorem succeeded (h : HookLeaves n d b s t) : HookLeaves n d b s (succeeded t) where
  bus := (modResult_bus t _ n).trans h.bus
  kept := keptOutside_trans h.kept (keptOutside_modResult t _)
  pollN := (succeeded_pollN t).trans h.pollN
  result := by
    rw [Machine.succeeded, modResult_bank, h.result]
    exact withCode_zero_zero
  sink := (modResult_sink t _).trans h.sink

theorem errCleared (h : HookLeaves n d b s t) (hh : b.ctrl.held s.cfg = b.ctrl) :
    HookLeaves n d (b.errCleared s.cfg) s (clrReg n .srP s.cfg.errMask t) := by
  obtain ⟨-, hcfg, -⟩ := h.kept
  rw [← h.bus, ← hcfg] at hh ⊢
  have hbank : (clrReg n .srP t.cfg.errMask t).bank = t.bank := by
    rw [clrReg_srP]
    exact State.modBus_bank t n _
  refine ⟨clrReg_errMask_bus hh, ?_, by rw [hbank, h.pollN], by rw [hbank, h.result], ?_⟩
  · rw [clrReg_srP]
    exact keptOutside_trans h.kept (keptOutside_trans (keptOutside_modBus t _) (keptOutside_log _ _))
  · rw [clrReg_srP]
    exact (State.modBus_sink t n _).trans h.sink

end HookLeaves

/-! ## The hooks -/

theorem quiet_pushRecord (hq : Quiet s) (k : DiagKind) (v : Word) (regs : List Half) : Quiet (pushRecord k v regs s) := hq

theorem quiet_clrReg (hq : Quiet s) (n : Inst) (r : Reg) (m : Half) : Quiet (clrReg n r m s) := (clrReg_sched n r m s).trans hq

theorem diag_quiet (hq : Quiet s) (k : DiagKind) (v : Word) (regs : List Half) :
    diag others k v regs s = .ok () (pushRecord k v regs s) := update_quiet hq _

theorem regClr_quiet (hq : Quiet s) (n : Inst) (r : Reg) (m : Half) :
    regClr others n r m s = .ok () (clrReg n r m s) := update_quiet hq _

theorem succeed_quiet (hq : Quiet s) : succeed others s = .ok () (succeeded s) := update_quiet hq _

/-- A decode right after issue: the status of `s`, with RESULT 0 (R81, R90). -/
theorem decodeStatus_issued (hq : Quiet s) (n : Inst) :
    ∃ t, decodeStatus others n (clearResult false s) = .ok (decodedValue s n) t ∧ Quiet t ∧ t.bank.result = 0 ∧
      DecodedOnce n s t := by
  obtain ⟨t, hdec, htq, hbank, ht⟩ := decodeStatus_once (quiet_clearResult hq false) n
  rw [(sameStatus_clearResult false s).decodedValue_eq] at hdec
  exact ⟨t, hdec, htq, by rw [hbank, clearResult_bank], ht.of_clearResult⟩

section
variable (hq : Quiet s) (hb : (s.bus n).bound = true)
include hq hb

/-- EVH: one decode and its record (R135, R137). -/
theorem exec_evh_logs :
    ∃ t, exec (.evh n) s = .next t ∧ HookLeaves n ⟨.eventIrq, decodedValue s n, []⟩ (decodedBus n s) s t := by
  obtain ⟨u, hdec, huq, hresult, hu⟩ := decodeStatus_issued hq n
  refine ⟨_, ?_, (hu.logged hresult .eventIrq (decodedValue s n)).succeeded⟩
  rw [exec, execEvh, evhRun, bind_of_ok (enter_quiet hq hb false), bind_of_ok hdec, bind_of_ok (diag_quiet huq ..),
    succeed_quiet (quiet_pushRecord huq ..), toOutcome]

/-- ERH: one decode, its record, and the clear of the error bits (R136, R137). -/
theorem exec_erh_logs_and_clears (hh : (s.bus n).ctrl.held s.cfg = (s.bus n).ctrl) :
    ∃ t, exec (.erh n) s = .next t ∧
      HookLeaves n ⟨.errorIrq, decodedValue s n, []⟩ ((decodedBus n s).errCleared s.cfg) s t := by
  obtain ⟨u, hdec, huq, hresult, hu⟩ := decodeStatus_issued hq n
  have hheld : (decodedBus n s).ctrl.held s.cfg = (decodedBus n s).ctrl := held_withSrP hh _ _
  refine ⟨_, ?_, ((hu.logged hresult .errorIrq (decodedValue s n)).errCleared hheld).succeeded⟩
  have hlog := quiet_pushRecord huq .errorIrq (decodedValue s n) []
  rw [exec, execErh, erhRun, bind_of_ok (enter_quiet hq hb false), bind_of_ok (params_run _), bind_of_ok hdec,
    bind_of_ok (diag_quiet huq ..), clearResult_cfg, bind_of_ok (regClr_quiet hlog ..), succeed_quiet (quiet_clrReg hlog ..),
    toOutcome]

end

end Sys2Proof.Machine

namespace Sys2Proof.Proofs

open Sys2Proof.Machine

/-- Settles O54: both hooks log their one decode, and ERH's clear of the error bits also lets the error line fall. -/
theorem hooksLogAndClear : Obligations.HooksLogAndClear := by
  intro n s hq hb hh v c gate after
  obtain ⟨t, hexec, ht⟩ := exec_evh_logs hq hb
  obtain ⟨u, hexec', hu⟩ := exec_erh_logs_and_clears hq hb hh
  exact ⟨⟨t, hexec, ht.result, ht.sink, ht.bus, ht.kept, ht.pollN⟩,
    u, hexec', hu.result, hu.sink, hu.bus, hu.kept, hu.pollN⟩

end Sys2Proof.Proofs
end

section
/-! PROOFS. The interrupt port while the foreground is idle or starved (R147 to R151, R174): a line that may not fire is not
entered; one that may runs its hook, entry and return touching neither the foreground bank nor the context; any other command
there does what it does; and a line that never falls leaves the foreground nothing but hooks. -/
namespace Sys2Proof.Machine

open Sys2Proof.Claims

variable {n : Inst} {l : Line} {s t : State} {rest : List (List Move)}

/-! ## One move on an idle port -/

theorem step_idle (hs : s.stuck = none) (hf : s.fgCmd = none) : step s = toOutcome (others s) := by
  simp only [step, hs, hf, idleStep]

/-- A batch of one move, interrupts included. -/
theorem others_one_move {m : Move} (h : s.sched = [m] :: rest) :
    others s = applyMove (between rest.length) m { s with sched := rest } := by
  have hpop : popped s = { s with sched := rest } := by rw [popped, h, List.tail_cons]
  show between s.sched.length s = _
  rw [h, List.length_cons, between_succ, h, List.headD_cons, hpop]
  show (applyMove _ m >>= fun _ => pure ()) _ = _
  rw [run_bind]
  cases applyMove (between rest.length) m { s with sched := rest } <;> rfl

theorem bus_withSched (s : State) (rest : List (List Move)) (m : Inst) :
    State.bus { s with sched := rest } m = s.bus m := by cases m <;> rfl

theorem decodedValue_withSched (s : State) (rest : List (List Move)) (n : Inst) :
    decodedValue { s with sched := rest } n = decodedValue s n := by simp only [decodedValue, bus_withSched]

/-! ## Whether a line fires -/

theorem canFire_iff (s : State) (l : Line) :
    canFire s l = true ↔
      (s.bus l.inst).linePend l.kind = true ∧ lineNumber s.cfg l ∈ s.irqEn ∧ l ∉ s.active := by
  simp [canFire, and_assoc]

/-- Whether a line fires does not depend on what is scheduled. -/
theorem canFire_withSched (s : State) (rest : List (List Move)) (l : Line) :
    canFire { s with sched := rest } l = canFire s l := by simp only [canFire, bus_withSched]

/-- A line that is not raised, not enabled or whose hook is running does not fire (R147, R151). -/
theorem canFire_masked (h : (s.bus l.inst).linePend l.kind = false ∨ lineNumber s.cfg l ∉ s.irqEn ∨ l ∈ s.active) :
    canFire s l = false := by
  rw [← Bool.not_eq_true, canFire_iff]
  rintro ⟨hpend, hen, hact⟩
  rcases h with h | h | h
  · exact nomatch h.symm.trans hpend
  · exact h hen
  · exact hact h

theorem fireLine_run (bt : Run Unit) (l : Line) (s : State) :
    fireLine bt l s = runIf (canFire s l) (onIrqPort (some l) (runInstr bt (hookOf l))) s := rfl

theorem fireLine_masked (h : canFire s l = false) (bt : Run Unit) : fireLine bt l s = .ok () s := by
  rw [fireLine_run, h]
  rfl

theorem fireLine_fires (h : canFire s l = true) (bt : Run Unit) :
    fireLine bt l s = onIrqPort (some l) (runInstr bt (hookOf l)) s := by
  rw [fireLine_run, h]
  rfl

/-! ## Entry and return -/

/-- A command on the interrupt port that ends, with success or not: entry, the command, return (R149, R151). -/
theorem onIrqPort_of_ends {hook : Option Line} {x : Run Unit}
    (h : x (irqEnter hook s) = .ok () t ∨ x (irqEnter hook s) = .error .ended t) :
    onIrqPort hook x s = .ok () (irqReturn s t) := by
  have hwhole : runWhole x (irqEnter hook s) = .ok () t := by
    unfold runWhole
    rcases h with h | h <;> rw [h]
  exact (bind_of_ok (look_run id s)).trans ((bind_of_ok (tweak_run _ s)).trans (bind_of_ok hwhole))

@[simp] theorem irqEnter_bus (hook : Option Line) (s : State) (m : Inst) : (irqEnter hook s).bus m = s.bus m := by
  cases m <;> rfl

@[simp] theorem irqReturn_bus (old s : State) (m : Inst) : (irqReturn old s).bus m = s.bus m := by cases m <;> rfl

@[simp] theorem irqReturn_result (old s : State) : (irqReturn old s).irq.result = s.irq.result := by
  rw [irqReturn]
  cases old.port <;> rfl

theorem decodedValue_irqEnter (hook : Option Line) (s : State) (n : Inst) :
    decodedValue (irqEnter hook s) n = decodedValue s n := by
  cases n <;> rfl

/-! ## The hooks on the interrupt port -/

/-- The kind of a hook's record (R135, R136). -/
def hookRecord : LineKind → DiagKind
  | .event => .eventIrq
  | .error => .errorIrq

/-- The instance after a hook: still bound; EVH leaves the event line, and ERH's clear lets the error line fall (R148, log 13). -/
structure AfterHook (k : LineKind) (b b' : Bus) : Prop where
  bound : b'.bound = b.bound
  event : k = .event → b'.evPend = b.evPend
  error : k = .error → b'.erPend = false

theorem erPend_settleErrLine_put (cfg : Config) (b : Bus) :
    (({ b with ctrl := b.ctrl.put cfg .srP (b.ctrl.srP &&& ~~~cfg.errMask) } : Bus).settleErrLine cfg).erPend = false := by
  rw [settleErrLine_of_cleared (p := b.ctrl.srP) (held_srP _ _)]

/-- The clear of the error bits after a hook's record, whatever SWRST holds (R28, R136). -/
theorem HookLeaves.cleared {d : Record} {b : Bus} (h : HookLeaves n d b s t) :
    HookLeaves n d ((clrReg n .srP s.cfg.errMask t).bus n) s (clrReg n .srP s.cfg.errMask t) := by
  have hbank : (clrReg n .srP s.cfg.errMask t).bank = t.bank := by
    rw [clrReg_srP]
    exact State.modBus_bank t n _
  refine ⟨rfl, ?_, by rw [hbank, h.pollN], by rw [hbank, h.result], ?_⟩
  · rw [clrReg_srP]
    exact keptOutside_trans h.kept (keptOutside_trans (keptOutside_modBus t _) (keptOutside_log _ _))
  · rw [clrReg_srP]
    exact (State.modBus_sink t n _).trans h.sink

theorem quiet_succeeded (hq : Quiet s) : Quiet (succeeded s) := (modResult_sched s _).trans hq

/-- EVH and ERH run to their end: one decode and its record, and for ERH the clear (R135, R136). -/
theorem runInstr_hookOf (hq : Quiet s) (l : Line) (hb : (s.bus l.inst).bound = true) :
    ∃ t b, runInstr others (hookOf l) s = .ok () t ∧ Quiet t ∧ AfterHook l.kind (s.bus l.inst) b ∧
      HookLeaves l.inst ⟨hookRecord l.kind, decodedValue s l.inst, []⟩ b s t := by
  obtain ⟨k, n⟩ := l
  obtain ⟨u, hdec, huq, hresult, hu⟩ := decodeStatus_issued hq n
  have hissue := enter_quiet hq hb false
  cases k with
  | event =>
    refine ⟨_, decodedBus n s, ?_, quiet_succeeded (quiet_pushRecord huq ..), ⟨rfl, fun _ => rfl, nofun⟩,
      (hu.logged hresult .eventIrq (decodedValue s n)).succeeded⟩
    rw [hookOf, runInstr, evhRun, bind_of_ok hissue, bind_of_ok hdec, bind_of_ok (diag_quiet huq ..),
      succeed_quiet (quiet_pushRecord huq ..)]
  | error =>
    have hlog := quiet_pushRecord huq .errorIrq (decodedValue s n) []
    have hleaves := hu.logged hresult .errorIrq (decodedValue s n)
    obtain ⟨-, hcfg, -⟩ := hleaves.kept
    refine ⟨_, _, ?_, quiet_succeeded (quiet_clrReg hlog ..), ⟨?_, nofun, fun _ => ?_⟩, hleaves.cleared.succeeded⟩
    · rw [hookOf, runInstr, erhRun, bind_of_ok hissue, bind_of_ok (params_run _), bind_of_ok hdec,
        bind_of_ok (diag_quiet huq ..), clearResult_cfg, bind_of_ok (regClr_quiet hlog ..),
        succeed_quiet (quiet_clrReg hlog ..)]
    · rw [clrReg_srP, State.log_bus, State.bus_modBus_same, hleaves.bus]
      rfl
    · rw [clrReg_srP, State.log_bus, State.bus_modBus_same, ← hcfg]
      exact erPend_settleErrLine_put ..

/-- A hook entered from `s`, no other agent moving (R149). -/
theorem runInstr_hookOf_entered (hq : Quiet s) (l : Line) (hb : (s.bus l.inst).bound = true) :
    ∃ t b, runInstr others (hookOf l) (irqEnter (some l) s) = .ok () t ∧ Quiet t ∧ AfterHook l.kind (s.bus l.inst) b ∧
      HookLeaves l.inst ⟨hookRecord l.kind, decodedValue s l.inst, []⟩ b (irqEnter (some l) s) t := by
  have h := runInstr_hookOf (s := irqEnter (some l) s) hq l (by rwa [irqEnter_bus])
  rwa [irqEnter_bus, decodedValue_irqEnter] at h

/-- A hook writes the interrupt bank and leaves the foreground's (R32). -/
theorem HookLeaves.banks {hook : Option Line} {d : Record} {b : Bus} (h : HookLeaves n d b (irqEnter hook s) t) :
    t.irq.result = 0 ∧ t.fg = s.fg := by
  obtain ⟨-, -, hport, -, -, -, -, -, -, hother, -⟩ := h.kept
  have hport : t.port = .irq := hport
  have hresult := h.result
  rw [otherBank, hport] at hother
  rw [State.bank, hport] at hresult
  exact ⟨hresult, hother⟩

/-- A line that fires with nothing else scheduled (R147, R149, R151). -/
theorem fireLine_runs_hook (hq : Quiet s) (hf : canFire s l = true) (hb : (s.bus l.inst).bound = true) :
    ∃ t b, fireLine (pure ()) l s = .ok () (irqReturn s t) ∧ AfterHook l.kind (s.bus l.inst) b ∧
      HookLeaves l.inst ⟨hookRecord l.kind, decodedValue s l.inst, []⟩ b (irqEnter (some l) s) t := by
  obtain ⟨t, b, hrun, -, hafter, ht⟩ := runInstr_hookOf_entered hq l hb
  rw [runInstr_quiet (s := irqEnter (some l) s) (hookOf l) hq] at hrun
  exact ⟨t, b, (fireLine_fires hf _).trans (onIrqPort_of_ends (.inl hrun)), hafter, ht⟩

/-- The step of an idle foreground with a line to be taken (R147, R149, R151). -/
theorem step_fires (hs : s.stuck = none) (hf : s.fgCmd = none) (hsched : s.sched = [[.fire l]]) (hfire : canFire s l = true)
    (hb : (s.bus l.inst).bound = true) :
    ∃ t b, step s = .next (irqReturn s t) ∧ AfterHook l.kind (s.bus l.inst) b ∧
      HookLeaves l.inst ⟨hookRecord l.kind, decodedValue s l.inst, []⟩ b (irqEnter (some l) { s with sched := [] }) t := by
  obtain ⟨t, b, hrun, hafter, ht⟩ := fireLine_runs_hook (s := { s with sched := [] }) rfl
    ((canFire_withSched s [] l).trans hfire) (by rwa [bus_withSched])
  rw [bus_withSched] at hafter
  rw [decodedValue_withSched] at ht
  refine ⟨t, b, ?_, hafter, ht⟩
  rw [step_idle hs hf, others_one_move hsched]
  exact congrArg toOutcome hrun

/-! ## Any other command on the interrupt port -/

/-- A command that is no hook, issued on the interrupt port with nothing else scheduled, ends there as it ends (R153, log 9). -/
theorem issueIrq_ends {c : IrqCmd} {i : Instr} (hq : Quiet s) (hd : decode c.word = .ok i) (hh : hookLine i = none)
    (h : EndsIn i (writeIrqArgs c { s with port := .irq }) t) :
    issueIrq (pure ()) c s = .ok () (irqReturn s t) := by
  have hhook : wordHook c.word = none := by simp only [wordHook, hd, hh]
  have hfree : canIssue s c = true := by rw [canIssue, hhook]; rfl
  have hword : runWord (pure ()) c.word = runInstr (pure ()) i := by simp only [runWord, hd]
  have hends : runInstr (pure ()) i (irqEnter none (writeIrqArgs c s)) = .ok () t ∨
      runInstr (pure ()) i (irqEnter none (writeIrqArgs c s)) = .error .ended t := by
    rw [← runInstr_quiet i (s := irqEnter none (writeIrqArgs c s)) hq]
    exact h
  have hrun : issueIrq (pure ()) c s = runIf (canIssue s c) (tweak (writeIrqArgs c) >>= fun _ =>
      onIrqPort (wordHook c.word) (runWord (pure ()) c.word)) s := rfl
  rw [hrun, hfree, runIf_true, hhook, hword, bind_of_ok (tweak_run _ s), onIrqPort_of_ends hends]
  rfl

/-! ## The foreground that is starved -/

/-- The event line of `n` never falls, and EVH has been running on the interrupt port (R174, log 8). -/
structure Starved (n : Inst) (s : State) : Prop where
  stuck : s.stuck = some (.starved n)
  quiet : Quiet s
  port : s.port = .irq
  bound : (s.bus n).bound = true

/-- From `s` to `t` the foreground has its bank and its pending command still, and `k` records of EVH were appended (R174). -/
structure OnlyEvents (k : Nat) (s t : State) : Prop where
  fg : t.fg = s.fg
  fgCmd : t.fgCmd = s.fgCmd
  records : ∃ l, t.sink = s.sink ++ l ∧ l.length = k ∧ ∀ r ∈ l, r.kind = .eventIrq

theorem OnlyEvents.trans {u : State} {j k : Nat} (h : OnlyEvents j s t) (h' : OnlyEvents k t u) : OnlyEvents (j + k) s u := by
  obtain ⟨l, hl, hlen, hev⟩ := h.records
  obtain ⟨l', hl', hlen', hev'⟩ := h'.records
  refine ⟨h'.fg.trans h.fg, h'.fgCmd.trans h.fgCmd, l ++ l', ?_, ?_, ?_⟩
  · rw [hl', hl, List.append_assoc]
  · rw [List.length_append, hlen, hlen']
  · intro r hr
    exact (List.mem_append.mp hr).elim (hev r) (hev' r)

theorem OnlyEvents.sink {k : Nat} (h : OnlyEvents k s t) :
    t.sink.length = s.sink.length + k ∧ ∀ r ∈ t.sink.drop s.sink.length, r.kind = .eventIrq := by
  obtain ⟨l, hl, hlen, hev⟩ := h.records
  rw [hl, List.length_append, hlen, List.drop_left]
  exact ⟨rfl, hev⟩

/-- A step of a starved state is one more EVH (R148, R174). -/
theorem step_starved (h : Starved n s) : ∃ t, step s = .next t ∧ Starved n t ∧ OnlyEvents 1 s t := by
  obtain ⟨t, b, hrun, htq, hafter, ht⟩ := runInstr_hookOf_entered h.quiet ⟨.event, n⟩ h.bound
  obtain ⟨-, hfg⟩ := ht.banks
  obtain ⟨-, -, -, hcmd, -, -, -, -, hstuck, -⟩ := ht.kept
  have hstep : step s = toOutcome (starvedTurn n s) := by simp only [step, h.stuck, stuckStep]
  refine ⟨irqReturn s t, ?_, ⟨hstuck.trans h.stuck, htq, h.port, ?_⟩, hfg, hcmd, _, ht.sink, rfl, ?_⟩
  · rw [hstep, starvedTurn, bind_of_ok (others_quiet h.quiet)]
    exact congrArg toOutcome (onIrqPort_of_ends (.inl hrun))
  · rw [irqReturn_bus, ht.bus, hafter.bound, h.bound]
  · intro r hr
    rw [List.mem_singleton.mp hr]
    rfl

theorem run_starved (h : Starved n s) (k : Nat) :
    ∃ t, Sys2Proof.core.run k s = .next t ∧ Starved n t ∧ OnlyEvents k s t := by
  induction k generalizing s with
  | zero => exact ⟨s, rfl, h, rfl, rfl, [], (List.append_nil _).symm, rfl, nofun⟩
  | succ k ih =>
    obtain ⟨t, hstep, ht, hone⟩ := step_starved h
    obtain ⟨u, hrun, hu, hmore⟩ := ih ht
    exact ⟨u, (run_succ_of_next (M := Sys2Proof.core) hstep k).trans hrun, hu, Nat.add_comm k 1 ▸ hone.trans hmore⟩

end Sys2Proof.Machine

namespace Sys2Proof.Proofs

open Sys2Proof.Machine

/-- Settles O56: the line cannot fire, so the move does nothing. -/
theorem maskedLineDoesNotFire : Obligations.MaskedLineDoesNotFire := by
  intro l s rest hs hf hsched hmask
  have hmasked := (canFire_withSched s rest l).trans (canFire_masked hmask)
  rw [step_idle hs hf, others_one_move hsched, applyMove, fireLine_masked hmasked, toOutcome]

/-- Settles O55: entry, the hook or the command on the interrupt bank, and return, with nothing else scheduled. -/
theorem interruptRunsItsHookAndReturns : Obligations.InterruptRunsItsHookAndReturns := by
  refine ⟨fun l s hs hf hport hsched hfire hb => ?_, fun c i s t hs hf hport hsched hd hh hends => ?_⟩
  · obtain ⟨t, b, hstep, hafter, ht⟩ := step_fires hs hf hsched hfire hb
    obtain ⟨hpend, -, -⟩ := (canFire_iff s l).mp hfire
    obtain ⟨hresult, hfg⟩ := ht.banks
    obtain ⟨hother, -⟩ := ht.kept
    refine ⟨_, hstep, (irqReturn_result s t).trans hresult, hfg, hport, rfl, ht.sink.trans ?_, fun hk => ?_, fun hk => ?_,
      fun m hm => ?_⟩
    · cases hk : l.kind <;> rfl
    · rw [irqReturn_bus, ht.bus, hafter.event hk]
      rwa [hk] at hpend
    · rw [irqReturn_bus, ht.bus, hafter.error hk]
    · rw [irqReturn_bus, hother m hm, irqEnter_bus, bus_withSched]
  · have hrun := issueIrq_ends (s := { s with sched := [] }) rfl hd hh hends
    rw [step_idle hs hf, others_one_move hsched]
    refine (congrArg toOutcome hrun).trans ?_
    simp only [toOutcome, irqReturn, hport]

/-- Settles O57: every step of the starved state is one EVH, however many there are. -/
theorem starvedForegroundNeverSteps : Obligations.StarvedForegroundNeverSteps := by
  intro n s k hs hq hport hb
  obtain ⟨t, hrun, ht, hev⟩ := run_starved ⟨hs, hq, hport, hb⟩ k
  obtain ⟨hlen, hkind⟩ := hev.sink
  exact ⟨t, hrun, ht.stuck, hev.fg, hev.fgCmd, hlen, hkind⟩

end Sys2Proof.Proofs
end

section
/-! PROOFS. The failure exit (R143, R145). Where it does not reset, it is one decode and then the same end whoever the caller is:
what a guarded command ends with beyond a primitive issued alone is the end of its hold. Where READ's ReceiveByteFailed shows an
error bit, it goes on through the reset sequence (R107, V23). -/
namespace Sys2Proof.Machine

open Sys2Proof.Claims

variable {n : Inst} {s t : State} {k : ErrKind} {w : Caller} {l : List (List Move)} {α : Type}

/-! ## RESULT of a failure exit -/

theorem withFPhase_eq (r : Half) (p : BitVec 3) : withFPhase r p = r &&& (0xF8FF : Half) ||| p.setWidth 16 <<< 8 := rfl

theorem failResult_eq (code : Half) (err : Bool) (phase : Half) :
    failResult code err phase = code ||| (if err then (0x0010 : Half) else 0) ||| phase <<< 8 := by
  cases err <;> rfl

/-- Where CODE and FPHASE are 0, writing them is setting their bits (R33). -/
theorem withFPhase_withCode_of_clear {x : Half} (hx : x &&& 0x070F = 0) (c : BitVec 4) (p : BitVec 3) :
    withFPhase (withCode x c) p = x ||| c.setWidth 16 ||| p.setWidth 16 <<< 8 := by
  have hclear : x &&& ~~~0x070F = x := and_not_of_and_eq_zero hx
  have hkeep (m : Half) (hm : ~~~0x070F &&& m = (~~~0x070F : Half)) : x &&& m = x := by
    rw [← hclear, BitVec.and_assoc, hm]
  have hcode : c.setWidth 16 &&& (0xF8FF : Half) = c.setWidth 16 := by
    revert c
    decide
  rw [withFPhase_eq, withCode, hkeep _ (by decide), BitVec.and_or_distrib_right, hkeep _ (by decide), hcode]

/-- RESULT after a failure exit that found it 0, or with RESETRAN alone (R143, V27). -/
theorem failResult_of_fields {r : Half} (hr : r = 0 ∨ r = 0x0020) (k : ErrKind) (err : Bool) (p : BitVec 3) :
    withFPhase (withCode (if err then withBusErr r else r) (errCode k)) p =
      r ||| failResult ((errCode k).setWidth 16) err (p.setWidth 16) := by
  have hbusErr : (if err then withBusErr r else r) = r ||| if err then 0x0010 else 0 := by
    cases err
    · exact BitVec.or_zero.symm
    · rfl
  have hclear : (if err then withBusErr r else r) &&& 0x070F = 0 := by
    rcases hr with rfl | rfl <;> cases err <;> decide
  rw [withFPhase_withCode_of_clear hclear, hbusErr, failResult_eq]
  ac_rfl

/-- RESULT after the failure exit that resets (R107, R143, V23). -/
theorem failResult_of_reset {r : Half} (hr : r = 0 ∨ r = 0x0020) (p : BitVec 3) :
    withFPhase (withCode (withResetRan (withBusErr r)) (errCode .receiveByteFailed)) p =
      failResult 0x0005 true (p.setWidth 16) ||| 0x0020 := by
  have hboth : withResetRan (withBusErr r) = 0x0010 ||| 0x0020 := by rcases hr with rfl | rfl <;> decide
  have hcode : (errCode .receiveByteFailed).setWidth 16 = (0x0005 : Half) := by decide
  rw [hboth, withFPhase_withCode_of_clear (by decide), failResult_eq, if_pos rfl, hcode]
  ac_rfl

/-! ## The failure exit without a Reset -/

/-- The failure decode `v` is recorded and looked at for an error bit, and CODE is written (R143, R145). -/
def failCoded (k : ErrKind) (v : Word) (err : Bool) (s : State) : State :=
  let logged := pushRecord (.err k) v [] s
  (if err then busErrorLogged v logged else logged).modResult (withCode · (errCode k))

/-- FPHASE is written, and a guarded command's hold ends (R63, R143). -/
def failEnded (w : Caller) (n : Inst) (s : State) : State :=
  if w.guarded then
    ((s.modResult (withFPhase · (phaseCode (s.bus n).phase))).modBus n fun b => { b with phase := .idle }).modBus n
      fun b => { b with lock := false }
  else s.modResult (withFPhase · 0)

section
variable (k : ErrKind) (v : Word) (err : Bool) (s : State)

@[simp] theorem failCoded_bus (m : Inst) : (failCoded k v err s).bus m = s.bus m := by
  cases err <;> simp [failCoded, busErrorLogged]

@[simp] theorem failCoded_sched : (failCoded k v err s).sched = s.sched := by
  cases err <;> simp [failCoded, busErrorLogged, pushRecord]

@[simp] theorem failCoded_trace : (failCoded k v err s).trace = s.trace := by
  cases err <;> simp [failCoded, busErrorLogged]

@[simp] theorem failCoded_sink : (failCoded k v err s).sink = s.sink ++ failRecords k v err := by
  cases err <;> simp [failCoded, busErrorLogged, failRecords]

@[simp] theorem failCoded_bank :
    (failCoded k v err s).bank =
      { s.bank with result := withCode (if err then withBusErr s.bank.result else s.bank.result) (errCode k) } := by
  cases err <;> simp [failCoded, busErrorLogged]

theorem keptOutside_failCoded : KeptOutside n s (failCoded k v err s) := by
  have hlog : KeptOutside n s (pushRecord (.err k) v [] s) := keptOutside_pushRecord _ _ _ s
  refine keptOutside_trans hlog (keptOutside_trans ?_ (keptOutside_modResult _ _))
  cases err with
  | false => exact keptOutside_refl _
  | true => exact keptOutside_trans (keptOutside_pushRecord _ _ _ _) (keptOutside_modResult _ _)

end

section
variable (w : Caller) (n : Inst) (s : State)

@[simp] theorem failEnded_bus :
    (failEnded w n s).bus n =
      { s.bus n with
        phase := if w.guarded then .idle else (s.bus n).phase
        lock := if w.guarded then false else (s.bus n).lock } := by
  cases hw : w.guarded <;> simp [failEnded, hw]

@[simp] theorem failEnded_trace : (failEnded w n s).trace = s.trace := by
  cases hw : w.guarded <;> simp [failEnded, hw]

@[simp] theorem failEnded_sink : (failEnded w n s).sink = s.sink := by
  cases hw : w.guarded <;> simp [failEnded, hw]

@[simp] theorem failEnded_bank :
    (failEnded w n s).bank =
      { s.bank with result := withFPhase s.bank.result (if w.guarded then phaseCode (s.bus n).phase else 0) } := by
  cases hw : w.guarded <;> simp [failEnded, hw]

theorem keptOutside_failEnded : KeptOutside n s (failEnded w n s) := by
  have hphase (f : Half → Half) : KeptOutside n s (s.modResult f) := keptOutside_modResult s f
  unfold failEnded
  split
  · exact keptOutside_trans (hphase _) (keptOutside_trans (keptOutside_modBus _ _) (keptOutside_modBus _ _))
  · exact hphase _

end

theorem runIf_failBusError_quiet (hq : Quiet s) (v : Word) {err : Bool} (hr : (failureResets w k && err) = false) :
    runIf err (failBusError others w n k v) s = .ok () (if err then busErrorLogged v s else s) := by
  cases err with
  | false => rfl
  | true =>
    have hlog : (pushRecord (.err .busError) v [] s).sched = [] := hq
    rw [Bool.and_true] at hr
    rw [runIf_true, failBusError, hr, diag, putResult, bind_of_ok (update_quiet hq _), bind_of_ok (update_quiet hlog _)]
    rfl

theorem failEnd_quiet (hq : Quiet s) : failEnd others w n s = .ok () (failEnded w n s) := by
  unfold failEnd failEnded
  split
  · have hphase : Quiet (s.modResult (withFPhase · (phaseCode (s.bus n).phase))) := (modResult_sched s _).trans hq
    rw [failRelease, bind_of_ok (update_quiet hq _), setPhase, bind_of_ok (update_quiet hphase _), release,
      update_quiet ((State.modBus_sched _ n _).trans hphase)]
  · exact update_quiet hq _

/-- The failure exit after its decode, whoever the caller is. -/
theorem fail_quiet {v : Word} (hd : decodeStatus others n s = .ok v t) (hq : Quiet t)
    (hr : (failureResets w k && errSeen s.cfg v) = false) :
    (fail others w n k : Run α) s = .error .ended (failEnded w n (failCoded k v (errSeen s.cfg v) t)) := by
  have hlog : Quiet (pushRecord (.err k) v [] t) := hq
  have hcoded : Quiet (failCoded k v (errSeen s.cfg v) t) := (failCoded_sched ..).trans hq
  have htested := (modResult_sched _ _).symm.trans hcoded
  rw [fail, bind_of_ok (params_run s), bind_of_ok hd, bind_of_ok (diag_quiet hq ..),
    bind_of_ok (runIf_failBusError_quiet hlog v hr), putResult, bind_of_ok (update_quiet htested _)]
  exact (bind_of_ok (failEnd_quiet hcoded)).trans (leave_run ..)

theorem bne_alone (w : Caller) : (w != .alone) = w.guarded := by cases w <;> rfl

/-! ## The failure exit with a Reset -/

/-- A decode with the gate closed, no other agent moving before its one read (R90). -/
theorem goes_decode_closed {p : Stage} (h : p.Silent) (hg : gateOpen s.cfg p.bus.ctrl.srP = false) :
    Goes n s p (decodeStatus others n) (suppressed p.bus.ctrl.srP) (p.readSrP n p.bus.ctrl.srP) := by
  have hread : Goes n s p (regRead others n .srP) p.bus.ctrl.srP (p.readSrP n p.bus.ctrl.srP) :=
    goes_regRead (goes_silent h) .srP
  refine goes_params.bind (hread.bind ?_)
  rw [hg, if_neg Bool.false_ne_true]
  exact goes_pure _

/-- A decode of the status of `s`, as many batches going by as it makes reads, with no move in them (R90). -/
theorem goes_decode_initial {k : Nat} (hs : s.sched = silence ((if gateOpen s.cfg (s.bus n).ctrl.srP then 2 else 1) + k) ++ l) :
    Goes n s (.initial n s) (decodeStatus others n) (decodedValue s n)
      { Stage.initial n s with sched := silence k ++ l, bus := decodedBus n s, items := decodeTrace s n } := by
  cases hg : gateOpen s.cfg (s.bus n).ctrl.srP with
  | true =>
    rw [if_pos hg, Nat.add_comm, silence, List.replicate_succ, List.replicate_succ] at hs
    have hfirst : (Stage.initial n s).Silent := congrArg (·.headD []) hs
    have hsecond : (Stage.initial n s).next.Silent := congrArg (fun l => (l.drop 1).headD []) hs
    rw [decodedValue, if_pos hg]
    refine (goes_decode_silent hfirst hsecond hg).to ?_
    simp [Stage.answered, Stage.initial, hs, silence, decodedBus, Ctrl.afterDecode, decodeTrace, hg]
  | false =>
    rw [hg, if_neg Bool.false_ne_true, Nat.add_comm, silence, List.replicate_succ] at hs
    have hfirst : (Stage.initial n s).Silent := congrArg (·.headD []) hs
    rw [decodedValue, if_neg (by simp [hg])]
    refine (goes_decode_closed hfirst hg).to ?_
    simp [Stage.readSrP, Stage.log, Stage.mapCtrl, Stage.mapBus, Stage.next, Stage.initial, hs, silence, decodedBus,
      Ctrl.afterDecode, decodeTrace, hg]

/-- What READ's ReceiveByteFailed leaves that shows the error bits `v`, SR_P reading 0 at the Reset's first status read (R107,
R143, V23). -/
def resetFailed (n : Inst) (s : State) : Stage where
  sched := []
  bus :=
    { s.bus n with
      ctrl := { afterReset s.cfg (s.bus n).ownAddress (s.bus n).ctrl with srP := 0, pRead := true }
      phase := .idle
      lock := false }
  result := withFPhase (withCode (withResetRan (withBusErr s.bank.result)) (errCode .receiveByteFailed))
    (phaseCode (s.bus n).phase)
  rdata0 := none
  items := decodeTrace s n ++ resetItems s.cfg n (s.bus n).ownAddress [.regRead n .srP 0]
  records := failRecords .receiveByteFailed (decodedValue s n) true

/-- The failure exit of READ's ReceiveByteFailed with an error bit up: the Reset lies between BUSERR and CODE (R143). -/
theorem ends_fail_reset (hw : waitByPrimary s.cfg.resetWait 0 = some false) (he : errSeen s.cfg (decodedValue s n) = true)
    (hs : s.sched = silence ((if gateOpen s.cfg (s.bus n).ctrl.srP then 2 else 1) + 6) ++ [[.envSrP n 0]]) :
    Ends n s (.initial n s) (fail others .read n .receiveByteFailed : Run α) (resetFailed n s) := by
  refine Goes.bindEnds goes_params (Goes.bindEnds (goes_decode_initial hs) ?_)
  rw [he, runIf_true]
  refine Goes.bindEnds (goes_diag (goes_still rfl) _ _) ?_
  refine Goes.bindEnds (Goes.bind (goes_diag (goes_still rfl) _ _) (Goes.bind (goes_putResult (goes_still rfl) _)
    (Goes.bind (goes_resetSeq rfl hw) (goes_putResult (goes_quiet rfl) _)))) ?_
  refine Goes.bindEnds (goes_putResult (goes_quiet rfl) _) ?_
  refine Goes.bindEnds (Goes.to (goes_failEnd rfl rfl) ?_) ends_leave
  simp [resetFailed, Stage.record, Stage.mapResult, Stage.initial, failRecords, decodedBus, afterReset, Ctrl.afterDecode]

end Sys2Proof.Machine

namespace Sys2Proof.Proofs

open Sys2Proof.Machine Sys2Proof.Claims

/-- Settles O37: one steady decode, the records and CODE, and the end that the caller's hold calls for. -/
theorem failureExitRecordsAndReleases : Obligations.FailureExitRecordsAndReleases := by
  intro w n k s hq hs _ hresult hr v guarded b
  obtain ⟨t, hdec, ht, htb⟩ := decodeStatus_steady hq hs
  obtain ⟨j, hbank⟩ := ht.bank
  refine ⟨_, fail_quiet hdec (ht.quiet hq) hr, ?_, ?_, ?_, ?_, ?_, ?_, ?_⟩
  · simp only [guarded, bne_alone]
    rw [failEnded_bank, failCoded_bank, failCoded_bus, htb, hbank]
    simp only
    rw [failResult_of_fields hresult]
    cases w.guarded <;> rfl
  · rw [failEnded_sink, failCoded_sink, ht.sink]
  · rw [failEnded_trace, failCoded_trace, ht.trace]
  · simp only [guarded, bne_alone]
    rw [failEnded_bus, failCoded_bus, htb]
  · exact keptOutside_trans ht.kept (keptOutside_trans (keptOutside_failCoded ..) (keptOutside_failEnded ..))
  · simp [hbank]
  · simp [hbank]

/-- Settles O38: the failure exit goes through the reset sequence between BUSERR and CODE. -/
theorem readReceiveFailureResets : Obligations.ReadReceiveFailureResets := by
  intro n s _ _ _ hresult hw he hs v b
  have hs' : s.sched = silence ((if gateOpen s.cfg (s.bus n).ctrl.srP then 2 else 1) + 6) ++ [[.envSrP n 0]] := by
    rw [hs]
    split <;> rfl
  obtain ⟨t, hrun, ht⟩ := ends_fail_reset (α := Unit) hw he hs' s (.initial n s)
  refine ⟨t, hrun, ht.result.trans (failResult_of_reset hresult _), ht.sink, ?_, ht.bus, ht.kept⟩
  rw [ht.trace, List.append_assoc]
  rfl

end Sys2Proof.Proofs
end

section
/-! PROOFS. The CODE a command ends with (R142). What RESULT holds before a command makes no difference to it, since its first step
clears RESULT (R81(1)) and no other agent that takes no interrupt reads or writes it; and no primitive of a command takes CODE out
of those that the command's uses name. -/
namespace Sys2Proof.Machine

open Sys2Proof.Claims

variable {n : Inst} {s t : State} {u : Uses} {L : List (BitVec 4)} {c : Config}

/-! ## RESULT before a command -/

theorem modResult_withSched (s : State) (f : Half → Half) (rest : List (List Move)) :
    { s.modResult f with sched := rest } = State.modResult { s with sched := rest } f := by
  unfold State.modResult State.modBank
  cases s.port <;> rfl

/-- An engine works on one instance and RESULT stands in a bank (R119, R120). -/
theorem engineStep_modResult (ch : ChanId) (f : Half → Half) (s : State) :
    engineStep ch (s.modResult f) = (engineStep ch s).modResult f := by
  obtain ⟨_, _, _, _, _, port⟩ := s
  obtain ⟨n, d⟩ := ch
  unfold engineStep
  rw [apply_ite (State.modResult · f)]
  cases n <;> cases d <;> cases port <;> exact if_congr Iff.rfl rfl rfl

/-- No agent but a command reads or writes RESULT (R32, R57). -/
theorem quietMove_modResult (m : Move) (f : Half → Half) (s : State) :
    quietMove m (s.modResult f) = (quietMove m s).modResult f := by
  cases m with
  | engine ch => exact engineStep_modResult ch f s
  | envSrP n _ | envSrS n _ | envDr n _ | envClrStart n | envClrStop n | envEv n _ | envEr n _ =>
    obtain ⟨_, _, _, _, _, port⟩ := s
    cases n <;> cases port <;> rfl
  | tick _ | hostStore _ _ | hostArg0 _ | hostArg1 _ | hostIssue _ | fire _ | issueIrq _ | starve _ =>
    obtain ⟨_, _, _, _, _, port⟩ := s
    cases port <;> rfl

theorem modResult_self (s : State) : (s.modResult fun _ => s.bank.result) = s := by
  obtain ⟨_, _, _, _, _, port⟩ := s
  cases port <;> rfl

theorem quietMove_result (m : Move) (s : State) : (quietMove m s).bank.result = s.bank.result := by
  have h := quietMove_modResult m (fun _ => s.bank.result) s
  rw [modResult_self] at h
  rw [h, modResult_bank]

theorem applyQuiet_modResult (ms : List Move) (f : Half → Half) (s : State) :
    applyQuiet ms (s.modResult f) = (applyQuiet ms s).modResult f := by
  induction ms generalizing s with
  | nil => rfl
  | cons m ms ih =>
    show applyQuiet ms (quietMove m (s.modResult f)) = _
    rw [quietMove_modResult, ih]
    rfl

theorem others_modResult (hs : NoInterrupt s) (f : Half → Half) :
    ∃ t, others s = .ok () t ∧ others (s.modResult f) = .ok () (t.modResult f) := by
  cases hb : s.sched with
  | nil => exact ⟨s, others_quiet hb, others_quiet ((modResult_sched s f).trans hb)⟩
  | cons b rest =>
    have hquiet := hs b (hb ▸ List.mem_cons_self)
    refine ⟨_, others_batch hb hquiet, ?_⟩
    rw [others_batch ((modResult_sched s f).trans hb) hquiet, modResult_withSched, applyQuiet_modResult]

theorem clearResult_modResult (k : Bool) (f : Half → Half) (s : State) : clearResult k (s.modResult f) = clearResult k s := by
  obtain ⟨_, _, _, _, _, port⟩ := s
  cases port <;> rfl

theorem startCommand_modResult (hs : NoInterrupt s) (k : Bool) (f : Half → Half) :
    startCommand others k (s.modResult f) = startCommand others k s := by
  obtain ⟨t, hs, hr⟩ := others_modResult hs f
  rw [startCommand, update_of hs, update_of hr, clearResult_modResult]

theorem bind_congr_state {α β : Type} {x : Run α} {r : State} (h : x r = x s) (f : α → Run β) : (x >>= f) r = (x >>= f) s := by
  rw [run_bind, run_bind, h]

theorem look_congr_state {α β : Type} {g : State → α} {r : State} (hg : g r = g s) {f : α → Run β}
    (hf : ∀ a, f a r = f a s) : (look g >>= f) r = (look g >>= f) s := by
  rw [bind_of_ok (look_run g r), bind_of_ok (look_run g s), hg, hf]

/-- A command ends as it would with any other RESULT before it (R81(1)). -/
theorem runInstr_modResult (hs : NoInterrupt s) (i : Instr) (f : Half → Half) :
    runInstr others i (s.modResult f) = runInstr others i s := by
  have hstart (k : Bool) := startCommand_modResult hs k f
  have henter (n : Inst) (k : Bool) : enter others n k (s.modResult f) = enter others n k s :=
    bind_congr_state (hstart k) fun _ => checkBound others n
  have harg0 : (s.modResult f).bank.arg0 = s.bank.arg0 := by rw [modResult_bank]
  have harg1 : (s.modResult f).bank.arg1 = s.bank.arg1 := by rw [modResult_bank]
  cases i with
  | init n => exact bind_congr_state (hstart false) _
  | iseq n => exact look_congr_state harg0 fun _ => bind_congr_state (henter n false) _
  | iseqm n | mtx n _ =>
    exact look_congr_state harg0 fun _ => look_congr_state harg1 fun _ => bind_congr_state (henter n false) _
  | _ => exact bind_congr_state (henter _ _) _

/-! ## CODE -/

/-- The seven error kinds (R140). -/
def allErrKinds : List ErrKind :=
  [.busBusyTimeout, .startConditionFailed, .addressPhaseFailed, .transmitByteFailed, .receiveByteFailed, .busError,
    .dmaTransferTimeout]

/-- The four refusals (R140). -/
def allRefuseCodes : List RefuseCode := [.locked, .noChannel, .illegal, .notBound]

/-- The CODE values that a command with the uses `u` may write: success, its error kinds and its refusals (R140, R142). -/
def Uses.codes (u : Uses) : List (BitVec 4) :=
  0 :: ((allErrKinds.filter u.err).map errCode ++ (allRefuseCodes.filter u.refuse).map refuseCode)

theorem Uses.zero_mem_codes (u : Uses) : 0 ∈ u.codes := List.mem_cons_self

theorem Uses.errCode_mem_codes {k : ErrKind} (h : u.err k = true) : errCode k ∈ u.codes :=
  have hall : k ∈ allErrKinds := by cases k <;> decide
  List.mem_cons_of_mem _ (List.mem_append_left _ (List.mem_map_of_mem (List.mem_filter.mpr ⟨hall, h⟩)))

theorem Uses.refuseCode_mem_codes {r : RefuseCode} (h : u.refuse r = true) : refuseCode r ∈ u.codes :=
  have hall : r ∈ allRefuseCodes := by cases r <;> decide
  List.mem_cons_of_mem _ (List.mem_append_right _ (List.mem_map_of_mem (List.mem_filter.mpr ⟨hall, h⟩)))

/-- From `s` to `t` CODE did not leave `L`. -/
def CodeKept (L : List (BitVec 4)) (s t : State) : Prop := resultCode s.bank.result ∈ L → resultCode t.bank.result ∈ L

theorem codeKept_of_result (h : t.bank.result = s.bank.result) : CodeKept L s t := fun hs => by rwa [h]

theorem codeKept_of_bank (h : t.bank = s.bank) : CodeKept L s t := codeKept_of_result (by rw [h])

theorem codeKept_modBus (s : State) (n : Inst) (f : Bus → Bus) : CodeKept L s (s.modBus n f) :=
  codeKept_of_bank (State.modBus_bank s n f)

theorem codeKept_modBank (s : State) {f : Bank → Bank} (h : (f s.bank).result = s.bank.result) : CodeKept L s (s.modBank f) :=
  codeKept_of_result (by rw [State.bank_modBank, h])

theorem codeKept_modChan_log (s : State) (ch : ChanId) (f : Chan → Chan) (a : Access) :
    CodeKept L s ((s.modChan ch f).log a) := by
  rw [State.modChan_eq_modBus]
  exact codeKept_modBus s ch.inst _

theorem codeKept_clrReg (n : Inst) (r : Reg) (m : Half) (s : State) : CodeKept L s (clrReg n r m s) := by
  refine codeKept_of_bank ?_
  cases r with
  | srP => exact (State.modBus_bank _ n _).trans (State.modBus_bank s n _)
  | _ => exact State.modBus_bank s n _

/-- Every write of RESULT leaves CODE or makes it one of the command's own (R33, R142). -/
theorem codeKept_write {f : Half → Half} (hf : ResultWrite u f) (s : State) : CodeKept u.codes s (s.modResult f) := by
  intro hs
  rw [modResult_bank]
  cases hf with
  | success => simpa using u.zero_mem_codes
  | err k _ h => simpa using Uses.errCode_mem_codes h
  | refuse r h => simpa using Uses.refuseCode_mem_codes h
  | busErr | resetRan _ | pred _ | noPhase => simpa using hs

/-- No primitive of a command takes CODE out of the command's own. -/
theorem codeKept_closed (n : Inst) (u : Uses) :
    Closed (Within notInterrupt c) (CodeKept u.codes) c (fun _ => True) n u :=
  have F := frozen_closed (A := notInterrupt) (c := c) n
  { cfg := F.cfg
    refl := fun _ => id
    trans := fun _ _ _ h k => k ∘ h
    ref := F.ref
    read := fun r => (F.read r).withRel fun s _ => codeKept_modBus s n _
    write := fun r b => (F.write r b).withRel fun s _ => codeKept_modBus s n _
    set := fun m hm => (F.set m hm).withRel fun s _ => codeKept_modBus s n _
    clr := fun m hm => (F.clr m hm).withRel fun s _ => codeKept_clrReg n _ m s
    setDma := F.setDma.withRel fun s _ => codeKept_modBus s n _
    clrErr := F.clrErr.withRel fun s _ => codeKept_clrReg n _ _ s
    pulseSet := fun _ => (F.pulseSet rfl).withRel fun s _ => codeKept_modBus s n _
    pulseClr := fun _ => (F.pulseClr rfl).withRel fun s _ => codeKept_clrReg n _ _ s
    writeCtl2 := fun _ => (F.writeCtl2 rfl).withRel fun s _ => codeKept_modBus s n _
    writeTrise := fun _ => (F.writeTrise rfl).withRel fun s _ => codeKept_modBus s n _
    writeOar := fun _ => (F.writeOar rfl).withRel fun s _ => codeKept_modBus s n _
    writeCcr := fun _ => (F.writeCcr rfl).withRel fun s _ => codeKept_modBus s n _
    record := fun k v regs => (F.record k v regs).withRel fun _ _ => id
    log := fun a => (F.log a).withRel fun _ _ => id
    phase := fun _ p => (F.phase rfl p).withRel fun s _ => codeKept_modBus s n _
    lock := fun _ v => (F.lock rfl v).withRel fun s _ => codeKept_modBus s n _
    lastRx := fun v => (F.lastRx v).withRel fun s _ => codeKept_modBus s n _
    own := F.own.withRel fun s _ => codeKept_modBus s n _
    bound := F.bound.withRel fun s _ => codeKept_modBus s n _
    attach := fun d => (F.attach d).withRel fun s _ => codeKept_modBus s n _
    chanPut := fun ch k b hq => (F.chanPut ch k b hq).withRel fun s _ => codeKept_modChan_log s ch _ _
    chanEnable := fun ch k hq hk => (F.chanEnable ch k hq hk).withRel fun s _ => codeKept_modChan_log s ch _ _
    irqLine := fun k => (F.irqLine k).withRel fun _ _ => id
    result := fun f hf => (moves_of_frozen fun s => frozen_modBank s _).withRel fun s _ => codeKept_write hf s
    failPhase := fun _ => (F.failPhase rfl).withRel fun s _ hs => by simpa using hs
    start := fun k => (F.start k).withRel fun s _ _ => by
      rw [clearResult_bank]
      exact u.zero_mem_codes
    free := F.free.withRel fun s _ => codeKept_modBank s rfl
    rdata0 := fun v => (F.rdata0 v).withRel fun s _ => codeKept_modBank s rfl
    rdata1 := fun v => (F.rdata1 v).withRel fun s _ => codeKept_modBank s rfl
    pollN := fun f => (F.pollN f).withRel fun s _ => codeKept_modBank s rfl
    spin := fun _ => (F.spin rfl).withRel fun _ _ => id }

theorem codeKept_othersClosed (L : List (BitVec 4)) :
    OthersClosed (Within notInterrupt c) (CodeKept L) c (fun _ => True) (notInterrupt · = true) :=
  have F := frozen_othersClosed (A := notInterrupt) (c := c)
  { refl := fun _ => id
    trans := fun _ _ _ h k => k ∘ h
    allowed := F.allowed
    pop := fun s b rest hs hb => ⟨(F.pop s b rest hs hb).1, id⟩
    quiet := fun m hm => (F.quiet m hm).withRel fun s _ => codeKept_of_result (quietMove_result m s)
    fire := fun _ h => nomatch h
    issue := fun _ h => nomatch h
    starve := fun _ h => nomatch h }

/-! ## The commands -/

/-- What a command may do, told apart for SADDR: with Receive it makes no decode and so does not fail (R96). -/
def usesByDir : Instr → Uses
  | .saddr _ .rx _ => .plain []
  | i => usesOf i

theorem codes_usesByDir (i : Instr) : (usesByDir i).codes.all (codesOf i).contains = true := by
  cases i with
  | saddr n d a => cases d <;> rfl
  | _ => rfl

theorem runInstr_codeKept (i : Instr) :
    Keeps (Within notInterrupt c) (CodeKept (usesByDir i).codes) (runInstr others i) := by
  have hbt := (codeKept_othersClosed (c := c) (usesByDir i).codes).others
  have hall := runInstr_keeps (bt := others) i (codeKept_closed (c := c) _ _)
  cases i with
  | saddr n d a =>
    cases d with
    | tx => exact hall hbt
    | rx =>
      have h := codeKept_closed (c := c) n (.plain [])
      exact h.bind (h.enter hbt rfl _) fun _ => h.bind (h.sendAddress hbt .rx nofun a) fun _ => h.succeed hbt
  | _ => exact hall hbt

/-- While no interrupt is taken, a command ends with a CODE of its own (R142). -/
theorem exec_code {i : Instr} (hs : NoInterrupt s) (he : exec i s = .next t) :
    resultCode t.bank.result ∈ (usesByDir i).codes := by
  have hclear : NoInterrupt (s.modResult fun _ => 0) := noInterrupt_of_sched (modResult_sched ..) hs
  obtain ⟨-, hcode⟩ := runInstr_codeKept i (s.modResult fun _ => 0) ⟨rfl, onlyMoves_of_noInterrupt hclear⟩
  rw [runInstr_modResult hs, outState_of_next (exec_eq_runInstr i s ▸ he)] at hcode
  refine hcode ?_
  rw [modResult_bank]
  exact (usesByDir i).zero_mem_codes

end Sys2Proof.Machine

namespace Sys2Proof.Proofs

open Sys2Proof.Machine

/-- Settles O15: CODE is never outside the command's own, and those are in its row of the table. -/
theorem resultCodesPerCommand : Obligations.ResultCodesPerCommand := by
  intro i s t hs _ he _
  have h := List.all_eq_true.mp (codes_usesByDir i) _ (exec_code hs he)
  simpa using h

end Sys2Proof.Proofs
end

section
/-! PROOFS. Nothing is undone (R118, R147, R152, R155, R167): every primitive, every move of the other agents and every interrupt
leaves what is bound, attached or enabled so, appends to the sink, and lets the tick only rise. What is on or off in an
instance is compared in the order of `Bool`, where off is below on. -/
namespace Sys2Proof.Machine

/-! ## What only goes on, and what only grows -/

/-- The channel of a direction is enabled (R118). -/
def Bus.chanEn (b : Bus) : Dir → Bool
  | .tx => b.chTx.en
  | .rx => b.chRx.en

theorem State.chan_en (s : State) (ch : ChanId) : (s.chan ch).en = (s.bus ch.inst).chanEn ch.dir := by
  obtain ⟨n, d⟩ := ch
  cases d <;> rfl

/-- What no step turns off in an instance: bound, and for each direction a channel attached and the channel enabled. -/
def Bus.latches (b : Bus) : Bool × (Dir → Bool) × (Dir → Bool) :=
  (b.bound, fun d => (b.chanRef d).isSome, b.chanEn)

/-- From `s` to `t` nothing is undone. -/
structure Onward (s t : State) : Prop where
  latches : ∀ n, (s.bus n).latches ≤ (t.bus n).latches
  lines : s.irqEn ⊆ t.irqEn
  sink : s.sink <+: t.sink
  tick : s.tick ≤ t.tick

theorem Onward.refl (s : State) : Onward s s :=
  ⟨fun _ => le_rfl, List.Subset.refl _, List.prefix_rfl, le_rfl⟩

theorem Onward.trans {s t u : State} (h : Onward s t) (k : Onward t u) : Onward s u :=
  ⟨fun n => (h.latches n).trans (k.latches n), List.Subset.trans h.lines k.lines, h.sink.trans k.sink, h.tick.trans k.tick⟩

theorem Onward.bound {s t : State} (h : Onward s t) {n : Inst} (hs : (s.bus n).bound = true) : (t.bus n).bound = true :=
  (h.latches n).1 hs

theorem Onward.chanRef {s t : State} (h : Onward s t) {n : Inst} {d : Dir} (hs : (s.bus n).chanRef d ≠ none) :
    (t.bus n).chanRef d ≠ none := by
  rw [← Option.isSome_iff_ne_none] at hs ⊢
  exact (h.latches n).2.1 d hs

theorem Onward.chanEn {s t : State} (h : Onward s t) {ch : ChanId} (hs : (s.chan ch).en = true) : (t.chan ch).en = true := by
  rw [State.chan_en] at hs ⊢
  exact (h.latches ch.inst).2.2 ch.dir hs

/-! ## Each kind of update -/

/-- A change of none of the fields spoken of. -/
theorem onward_of_eq {s t : State} (hb : t.bus = s.bus) (hl : t.irqEn = s.irqEn) (hk : t.sink = s.sink)
    (ht : t.tick = s.tick) : Onward s t :=
  ⟨fun _ => hb ▸ le_rfl, hl ▸ List.Subset.refl _, hk ▸ List.prefix_rfl, ht.ge⟩

theorem onward_log (s : State) (a : Access) : Onward s (s.log a) := onward_of_eq rfl rfl rfl rfl

theorem onward_modBank (s : State) (f : Bank → Bank) : Onward s (s.modBank f) :=
  onward_of_eq (funext fun _ => by simp) (by simp) (by simp) (by simp)

theorem onward_modBus (s : State) (n : Inst) {f : Bus → Bus} (hf : (s.bus n).latches ≤ (f (s.bus n)).latches) :
    Onward s (s.modBus n f) := by
  refine ⟨fun m => ?_, by simp, by simp, by simp⟩
  rw [State.bus_modBus]
  split
  · next hm => subst hm; exact hf
  · exact le_rfl

theorem onward_modCtrl (s : State) (n : Inst) (f : Ctrl → Ctrl) : Onward s (s.modCtrl n f) := onward_modBus s n le_rfl

theorem onward_modCtrl_log (s : State) (n : Inst) (f : Ctrl → Ctrl) (a : Access) : Onward s ((s.modCtrl n f).log a) :=
  (onward_modCtrl s n f).trans (onward_log _ a)

theorem onward_clrReg (n : Inst) (r : Reg) (m : Half) (s : State) : Onward s (clrReg n r m s) := by
  cases r with
  | srP => exact ((onward_modCtrl s n _).trans (onward_modBus _ n le_rfl)).trans (onward_log _ _)
  | _ => exact onward_modCtrl_log s n _ _

/-- ATTACH turns a reference on, never off (R113). -/
theorem Bus.latches_le_attach (n : Inst) (d : Dir) (b : Bus) : b.latches ≤ (b.attach n d).latches := by
  refine ⟨?_, fun d' => ?_, ?_⟩
  · cases d <;> exact le_rfl
  · simp only [Bus.latches, Bus.chanRef_attach]
    split
    · exact Bool.le_true _
    · exact le_rfl
  · cases d <;> exact le_rfl

/-- A channel may be enabled or left as it is (R118). -/
theorem onward_modChan_log (s : State) (ch : ChanId) {f : Chan → Chan} (hf : ∀ k, k.en ≤ (f k).en) (a : Access) :
    Onward s ((s.modChan ch f).log a) := by
  refine Onward.trans ?_ (onward_log _ a)
  rw [State.modChan_eq_modBus]
  refine onward_modBus s ch.inst ?_
  split
  · exact ⟨le_rfl, le_rfl, fun | .tx => hf _ | .rx => le_rfl⟩
  · exact ⟨le_rfl, le_rfl, fun | .tx => le_rfl | .rx => hf _⟩

theorem onward_enableLine (l : Nat) (s : State) : Onward s (enableLine l s) :=
  ⟨fun _ => le_rfl, fun _ hx => mem_insertLine.2 (.inr hx), List.prefix_rfl, le_rfl⟩

theorem onward_pushRecord (k : DiagKind) (v : Word) (regs : List Half) (s : State) : Onward s (pushRecord k v regs s) :=
  ⟨fun _ => le_rfl, List.Subset.refl _, List.prefix_append _ _, le_rfl⟩

/-- An engine advances its channel and leaves it enabled (R118, R119, R120). -/
theorem onward_engineStep (ch : ChanId) (s : State) : Onward s (engineStep ch s) := by
  obtain ⟨n, d⟩ := ch
  unfold engineStep
  split
  · cases d with
    | tx => exact (onward_modCtrl s n _).trans (onward_modChan_log _ ⟨n, .tx⟩ (f := Chan.advance) (fun _ => le_rfl) _)
    | rx => exact onward_modChan_log s ⟨n, .rx⟩ (f := fun k => (k.put k.idx _).advance) (fun _ => le_rfl) _
  · exact .refl s

/-- No agent outside the block undoes anything, and the clock only ticks forward (R152). -/
theorem onward_quietMove (m : Move) (s : State) : Onward s (quietMove m s) := by
  cases m with
  | engine ch => exact onward_engineStep ch s
  | tick k => exact ⟨fun _ => le_rfl, List.Subset.refl _, List.prefix_rfl, Nat.le_add_right _ k⟩
  | envSrP n _ | envSrS n _ | envDr n _ | envClrStart n | envClrStop n | envEv n _ | envEr n _ =>
    simp only [quietMove, envEventLine, envErrorLine, State.modCtrl]
    exact onward_modBus s n le_rfl
  | hostStore _ _ | hostArg0 _ | hostArg1 _ | hostIssue _ | fire _ | issueIrq _ | starve _ =>
    exact onward_of_eq rfl rfl rfl rfl

/-! ## Every step -/

variable {A : Move → Bool} {c : Config}

/-- No primitive of a command undoes anything. -/
theorem onward_closed (n : Inst) : Closed (Within A c) Onward c (fun _ => True) n .all :=
  have F := frozen_closed (A := A) (c := c) n
  { cfg := F.cfg
    refl := .refl
    trans := fun _ _ _ => .trans
    ref := F.ref
    read := fun r => (F.read r).withRel fun s _ => onward_modCtrl_log s n _ _
    write := fun r b => (F.write r b).withRel fun s _ => onward_modCtrl_log s n _ _
    set := fun m hm => (F.set m hm).withRel fun s _ => onward_modCtrl_log s n _ _
    clr := fun m hm => (F.clr m hm).withRel fun s _ => onward_clrReg n _ m s
    setDma := F.setDma.withRel fun s _ => onward_modCtrl_log s n _ _
    clrErr := F.clrErr.withRel fun s _ => onward_clrReg n _ _ s
    pulseSet := fun hu => (F.pulseSet hu).withRel fun s _ => onward_modCtrl_log s n _ _
    pulseClr := fun hu => (F.pulseClr hu).withRel fun s _ => onward_clrReg n _ _ s
    writeCtl2 := fun hu => (F.writeCtl2 hu).withRel fun s _ => onward_modCtrl_log s n _ _
    writeTrise := fun hu => (F.writeTrise hu).withRel fun s _ => onward_modCtrl_log s n _ _
    writeOar := fun hu => (F.writeOar hu).withRel fun s _ => onward_modCtrl_log s n _ _
    writeCcr := fun hu => (F.writeCcr hu).withRel fun s _ => onward_modCtrl_log s n _ _
    record := fun k v regs => (F.record k v regs).withRel fun s _ => onward_pushRecord k v regs s
    log := fun a => (F.log a).withRel fun s _ => onward_log s a
    phase := fun hu p => (F.phase hu p).withRel fun s _ => onward_modBus s n le_rfl
    lock := fun hu v => (F.lock hu v).withRel fun s _ => onward_modBus s n le_rfl
    lastRx := fun v => (F.lastRx v).withRel fun s _ => onward_modBus s n le_rfl
    own := F.own.withRel fun s _ => onward_modBus s n le_rfl
    bound := F.bound.withRel fun s _ => onward_modBus s n ⟨Bool.le_true _, le_rfl⟩
    attach := fun d => (F.attach d).withRel fun s _ => onward_modBus s n (Bus.latches_le_attach n d _)
    chanPut := fun ch k b hq =>
      (F.chanPut ch k b hq).withRel fun s _ => onward_modChan_log s ch (f := Chan.put k b) (fun _ => le_rfl) _
    chanEnable := fun ch k hq hk =>
      (F.chanEnable ch k hq hk).withRel fun s _ => onward_modChan_log s ch (fun _ => Bool.le_true _) _
    irqLine := fun k => (F.irqLine k).withRel fun s _ => onward_enableLine _ s
    result := fun f hf => (F.result f hf).withRel fun s _ => onward_modBank s _
    failPhase := fun hu => (F.failPhase hu).withRel fun s _ => onward_modBank s _
    start := fun k => (F.start k).withRel fun s _ => (onward_modBank s _).trans (onward_of_eq rfl rfl rfl rfl)
    free := F.free.withRel fun s _ => (onward_modBank s _).trans (onward_of_eq rfl rfl rfl rfl)
    rdata0 := fun v => (F.rdata0 v).withRel fun s _ => onward_modBank s _
    rdata1 := fun v => (F.rdata1 v).withRel fun s _ => onward_modBank s _
    pollN := fun f => (F.pollN f).withRel fun s _ => onward_modBank s _
    spin := fun hu => (F.spin hu).withRel fun _ _ => onward_of_eq rfl rfl rfl rfl }

/-- Nor does entry to the interrupt port or the return from it. -/
theorem onward_irqClosed : IrqClosed (Within A c) Onward c fun _ => True where
  cmds := onward_closed
  enter l := (frozen_irqClosed.enter l).withRel fun _ _ => onward_of_eq rfl rfl rfl rfl
  args k := (frozen_irqClosed.args k).withRel fun _ _ => onward_of_eq rfl rfl rfl rfl
  back old s hold hs := ⟨(frozen_irqClosed.back old s hold hs).1, onward_of_eq rfl rfl rfl rfl⟩

theorem onward_othersClosed : OthersClosed (Within A c) Onward c (fun _ => True) (A · = true) :=
  have F := frozen_othersClosed (A := A) (c := c)
  { refl := .refl
    trans := fun _ _ _ => .trans
    allowed := F.allowed
    pop := fun s b rest hs hb => ⟨(F.pop s b rest hs hb).1, onward_of_eq rfl rfl rfl rfl⟩
    quiet := fun m hm => (F.quiet m hm).withRel fun s _ => onward_quietMove m s
    fire := fun _ _ => onward_irqClosed
    issue := fun _ _ => onward_irqClosed
    starve := fun n hn => (F.starve n hn).withRel fun _ _ => onward_of_eq rfl rfl rfl rfl }

/-- Whatever a step runs, its interrupts included, it undoes nothing. -/
theorem step_onward {s t : State} (he : step s = .next t) : Onward s t := by
  have hs : Within (fun _ => true) s.cfg s := ⟨rfl, fun _ _ _ _ => rfl⟩
  have haccept : Moves (Within (fun _ => true) s.cfg) Onward acceptCommand := fun _ hu =>
    ⟨hu, onward_of_eq rfl rfl rfl rfl⟩
  exact (step_keeps onward_othersClosed onward_irqClosed haccept hs he).2

end Sys2Proof.Machine

namespace Sys2Proof.Proofs

open Sys2Proof.Machine

/-- Settles O8: a step goes `Onward`, whatever commands and interrupts it runs. -/
theorem nothingIsUndone : Obligations.NothingIsUndone := by
  intro s t he
  have h := step_onward he
  exact ⟨fun _ => ⟨h.bound, fun _ => h.chanRef⟩, fun _ => h.chanEn, fun _ => @h.lines _, h.sink, h.tick⟩

end Sys2Proof.Proofs
end
